-- ==== Sys2Proof/Word.lean ====
section
/-! DEFINITION. The word types of the jsjpeg CORE block and the two list-backed vector builders the model uses. -/

namespace Sys2Proof

/-- The datapath and bus word: 32 bits (00_scope.md R9, `W`). -/
abbrev Word := BitVec 32

/-- A byte of segment RAM, of a Huffman value list or of a sample. -/
abbrev Byte := BitVec 8

/-- The block buffer: 64 entries of 32 bits (10_state.md R20). -/
abbrev Blk := Vector Word 64

/-- A vector from its entries, built through a list so that it evaluates by plain reduction. -/
def vecOfFn {α : Type} {n : Nat} (f : Fin n → α) : Vector α n :=
  ⟨(List.ofFn f).toArray, by simp⟩

/-- The entries of a vector under a function, built through a list so that it evaluates by plain reduction. -/
def vecMap {α β : Type} {n : Nat} (f : α → β) (v : Vector α n) : Vector β n :=
  ⟨(v.toList.map f).toArray, by simp⟩

end Sys2Proof
end

