-- ==== Sys2Proof/Syntax.lean ====
section
/-! DEFINITION. The commands of the block: one constructor per row of spec/opcode_table.json (30_encoding.md R94). -/

namespace Sys2Proof

/-- A command with its operand fields (30_encoding.md R91) and its data words (R93). Fields are raw bits: a field value
out of a command's range is a legal encoding, and the command itself faults on it (R95). -/
inductive Instr where
  /-- NOP, OP 0x00 (47_system.md R330). -/
  | nop
  /-- SYNC tag, OP 0x01 (47_system.md R331). -/
  | sync (tag : BitVec 16)
  /-- SET_CONFIG hm, im, cm, OP 0x02 (47_system.md R332). -/
  | setConfig (hm : BitVec 1) (im : BitVec 2) (cm : BitVec 1)
  /-- SET_RSTINT ri, OP 0x03 (47_system.md R335). -/
  | setRstint (ri : BitVec 16)
  /-- BR_SEEK p, OP 0x10 (40_bitreader.md R140). -/
  | brSeek (p : BitVec 24)
  /-- BR_NEXTBIT, OP 0x11 (40_bitreader.md R131). -/
  | brNextbit
  /-- BR_PEEK n, OP 0x12 (40_bitreader.md R132). -/
  | brPeek (n : BitVec 5)
  /-- BR_CONSUME n, OP 0x13 (40_bitreader.md R134). -/
  | brConsume (n : BitVec 5)
  /-- BR_ALIGN, OP 0x14 (40_bitreader.md R137). -/
  | brAlign
  /-- HT_INIT tc, th with its four data words, OP 0x20 (41_huffman.md R160). -/
  | htInit (tc th : BitVec 4) (d0 d1 d2 d3 : Word)
  /-- HT_INSERT tc, th, l, v, OP 0x21 (41_huffman.md R164). -/
  | htInsert (tc th : BitVec 4) (l : BitVec 5) (v : Byte)
  /-- HT_DECODE tc, th, OP 0x22 (41_huffman.md R175). -/
  | htDecode (tc th : BitVec 4)
  /-- QT_LOAD pq, tq with its 32 data words, OP 0x28 (43_dequant_reorder.md R240). -/
  | qtLoad (pq tq : BitVec 4) (ds : List Word)
  /-- PRED_RESET, OP 0x30 (42_coefficient.md R200). -/
  | predReset
  /-- SCAN_SETUP s, ci, td, ta, tq, OP 0x31; the fields stand here in the word's order (42_coefficient.md R201). -/
  | scanSetup (slot td ta tq : BitVec 4) (ci : Byte)
  /-- DECODE_COEFS s, OP 0x32 (42_coefficient.md R210). -/
  | decodeCoefs (slot : BitVec 4)
  /-- EXTEND v, t, OP 0x33; the fields stand here in the word's order (42_coefficient.md R205). -/
  | extend (t : BitVec 5) (v : BitVec 16)
  /-- DEQUANT tq, OP 0x40 (43_dequant_reorder.md R242). -/
  | dequant (tq : BitVec 4)
  /-- REORDER, OP 0x41 (43_dequant_reorder.md R244). -/
  | reorder
  /-- IDCT, OP 0x48 (44_idct.md R260). -/
  | idct
  /-- LEVEL_SHIFT, OP 0x50 (45_level_shift_output.md R290). -/
  | levelShift
  /-- EMIT s with its data word, OP 0x51 (45_level_shift_output.md R292). -/
  | emit (slot : BitVec 4) (d : Word)
  /-- DECODE_BLOCK s with its data word, OP 0x52 (45_level_shift_output.md R296). -/
  | decodeBlock (slot : BitVec 4) (d : Word)
  /-- COLOR y, cb, cr, OP 0x58 (46_color.md R310). -/
  | color (y cb cr : Byte)
  /-- BLK_WRITE k with its data word, OP 0x60 (47_system.md R340). -/
  | blkWrite (k : BitVec 6) (d : Word)
  /-- BLK_READ k, OP 0x61 (47_system.md R341). -/
  | blkRead (k : BitVec 6)
  deriving DecidableEq, Repr

/-- The 26 defined operation codes (30_encoding.md R94), by name. -/
inductive Op where
  | nop | sync | setConfig | setRstint
  | brSeek | brNextbit | brPeek | brConsume | brAlign
  | htInit | htInsert | htDecode | qtLoad
  | predReset | scanSetup | decodeCoefs | extend
  | dequant | reorder | idct | levelShift | emit | decodeBlock | color
  | blkWrite | blkRead
  deriving DecidableEq, Repr

/-- Why a list of command words is not the start of a command. -/
inductive DecodeError where
  /-- There is no word. -/
  | empty
  /-- OP is not one of the 26 (30_encoding.md R95, reason 0). -/
  | undefinedOp
  /-- The command's data words are not all present yet (20_memory.md R70). -/
  | missingData
  /-- A reserved bit of the command word is set (30_encoding.md R92, reason 1). -/
  | reservedBits
  deriving DecidableEq, Repr

end Sys2Proof
end

