-- ==== Sys2Proof/WellFormed.lean ====
section
/-! DEFINITION. The well-formed commands: those some sequence of command words encodes. -/

namespace Sys2Proof

/-- Every operand field has the exact width of its encoding, so one check is left: QT_LOAD carries exactly 32 data
words (30_encoding.md R93). -/
def Instr.wellFormed : Instr → Bool
  | .qtLoad _ _ ds => ds.length == 32
  | .nop | .sync _ | .setConfig _ _ _ | .setRstint _ | .brSeek _ | .brNextbit | .brPeek _ | .brConsume _ | .brAlign
  | .htInit _ _ _ _ _ _ | .htInsert _ _ _ _ | .htDecode _ _ | .predReset | .scanSetup _ _ _ _ _ | .decodeCoefs _
  | .extend _ _ | .dequant _ | .reorder | .idct | .levelShift | .emit _ _ | .decodeBlock _ _ | .color _ _ _
  | .blkWrite _ _ | .blkRead _ => true

end Sys2Proof
end

