-- ==== Sys2Proof/Decode.lean ====
section
/-! DEFINITION. The command encoding (30_encoding.md): opcode map, reserved bits, data-word counts, the decoder, and
after it the encoder, written from the same tables. -/

namespace Sys2Proof

/-- OP of each command (30_encoding.md R94). -/
def Op.code : Op → Byte
  | .nop => 0x00#8 | .sync => 0x01#8 | .setConfig => 0x02#8 | .setRstint => 0x03#8
  | .brSeek => 0x10#8 | .brNextbit => 0x11#8 | .brPeek => 0x12#8 | .brConsume => 0x13#8 | .brAlign => 0x14#8
  | .htInit => 0x20#8 | .htInsert => 0x21#8 | .htDecode => 0x22#8 | .qtLoad => 0x28#8
  | .predReset => 0x30#8 | .scanSetup => 0x31#8 | .decodeCoefs => 0x32#8 | .extend => 0x33#8
  | .dequant => 0x40#8 | .reorder => 0x41#8 | .idct => 0x48#8
  | .levelShift => 0x50#8 | .emit => 0x51#8 | .decodeBlock => 0x52#8 | .color => 0x58#8
  | .blkWrite => 0x60#8 | .blkRead => 0x61#8

/-- All 26 operation codes (30_encoding.md R94). -/
def Op.all : List Op :=
  [.nop, .sync, .setConfig, .setRstint, .brSeek, .brNextbit, .brPeek, .brConsume, .brAlign, .htInit, .htInsert,
   .htDecode, .qtLoad, .predReset, .scanSetup, .decodeCoefs, .extend, .dequant, .reorder, .idct, .levelShift, .emit,
   .decodeBlock, .color, .blkWrite, .blkRead]

/-- The command OP selects; none for the 230 undefined codes (30_encoding.md R95). -/
def Op.ofCode (c : Byte) : Option Op := Op.all.find? fun o => o.code == c

/-- How many data words follow the command word (30_encoding.md R93). -/
def Op.dataWords : Op → Nat
  | .htInit => 4
  | .qtLoad => 32
  | .emit | .decodeBlock | .blkWrite => 1
  | .nop | .sync | .setConfig | .setRstint | .brSeek | .brNextbit | .brPeek | .brConsume | .brAlign | .htInsert
  | .htDecode | .predReset | .scanSetup | .decodeCoefs | .extend | .dequant | .reorder | .idct | .levelShift | .color
  | .blkRead => 0

/-- The reserved bits of each command's format (30_encoding.md R91). -/
def Op.reserved : Op → Word
  | .nop | .brNextbit | .brAlign | .predReset | .reorder | .idct | .levelShift => 0x00FFFFFF#32
  | .sync | .setRstint => 0x00FF0000#32
  | .setConfig => 0x00FFFFF0#32
  | .brSeek | .scanSetup | .color => 0x00000000#32
  | .brPeek | .brConsume => 0x00FFFFE0#32
  | .htInit | .htDecode | .qtLoad => 0x0000FFFF#32
  | .htInsert => 0x0000E000#32
  | .dequant => 0x00F0FFFF#32
  | .decodeCoefs | .emit | .decodeBlock => 0x000FFFFF#32
  | .extend => 0x00E00000#32
  | .blkWrite | .blkRead => 0x00FFFFC0#32

/-- `w[hi:lo]` as a field of `len` bits from bit `lo` up (00_scope.md R10). -/
def field (w : Word) (lo len : Nat) : BitVec len := w.extractLsb' lo len

/-- Data word number `i` of a command. -/
def dataWord (ds : List Word) (i : Nat) : Word := ds.getD i 0

/-- The command of an operation code, a command word and its data words: the fields of 30_encoding.md R91. -/
def Op.build (o : Op) (w : Word) (ds : List Word) : Instr :=
  match o with
  | .nop => .nop
  | .sync => .sync (field w 0 16)
  | .setConfig => .setConfig (field w 0 1) (field w 1 2) (field w 3 1)
  | .setRstint => .setRstint (field w 0 16)
  | .brSeek => .brSeek (field w 0 24)
  | .brNextbit => .brNextbit
  | .brPeek => .brPeek (field w 0 5)
  | .brConsume => .brConsume (field w 0 5)
  | .brAlign => .brAlign
  | .htInit => .htInit (field w 20 4) (field w 16 4) (dataWord ds 0) (dataWord ds 1) (dataWord ds 2) (dataWord ds 3)
  | .htInsert => .htInsert (field w 20 4) (field w 16 4) (field w 8 5) (field w 0 8)
  | .htDecode => .htDecode (field w 20 4) (field w 16 4)
  | .qtLoad => .qtLoad (field w 20 4) (field w 16 4) ds
  | .predReset => .predReset
  | .scanSetup => .scanSetup (field w 20 4) (field w 16 4) (field w 12 4) (field w 8 4) (field w 0 8)
  | .decodeCoefs => .decodeCoefs (field w 20 4)
  | .extend => .extend (field w 16 5) (field w 0 16)
  | .dequant => .dequant (field w 16 4)
  | .reorder => .reorder
  | .idct => .idct
  | .levelShift => .levelShift
  | .emit => .emit (field w 20 4) (dataWord ds 0)
  | .decodeBlock => .decodeBlock (field w 20 4) (dataWord ds 0)
  | .color => .color (field w 16 8) (field w 8 8) (field w 0 8)
  | .blkWrite => .blkWrite (field w 0 6) (dataWord ds 0)
  | .blkRead => .blkRead (field w 0 6)

/-- Read one command from the head of a word list: the command and the words after it, or why there is none. The checks
stand in the order of 30_encoding.md R100: the operation code, the data words, the reserved bits. -/
def decode : List Word → Except DecodeError (Instr × List Word)
  | [] => .error .empty
  | w :: rest =>
    match Op.ofCode (field w 24 8) with
    | none => .error .undefinedOp
    | some o =>
      if rest.length < o.dataWords then .error .missingData
      else if w &&& o.reserved ≠ 0 then .error .reservedBits
      else .ok (o.build w (rest.take o.dataWords), rest.drop o.dataWords)

/-- The operation code of a command. -/
def Instr.op : Instr → Op
  | .nop => .nop | .sync _ => .sync | .setConfig _ _ _ => .setConfig | .setRstint _ => .setRstint
  | .brSeek _ => .brSeek | .brNextbit => .brNextbit | .brPeek _ => .brPeek | .brConsume _ => .brConsume
  | .brAlign => .brAlign | .htInit _ _ _ _ _ _ => .htInit | .htInsert _ _ _ _ => .htInsert | .htDecode _ _ => .htDecode
  | .qtLoad _ _ _ => .qtLoad | .predReset => .predReset | .scanSetup _ _ _ _ _ => .scanSetup
  | .decodeCoefs _ => .decodeCoefs | .extend _ _ => .extend | .dequant _ => .dequant | .reorder => .reorder
  | .idct => .idct | .levelShift => .levelShift | .emit _ _ => .emit | .decodeBlock _ _ => .decodeBlock
  | .color _ _ _ => .color | .blkWrite _ _ => .blkWrite | .blkRead _ => .blkRead

/-- The command word of a command, each field at the bits 30_encoding.md R91 gives it, reserved bits 0. -/
def Instr.head : Instr → Word
  | .nop => 0x00#8 ++ 0#24
  | .sync tag => 0x01#8 ++ 0#8 ++ tag
  | .setConfig hm im cm => 0x02#8 ++ 0#20 ++ cm ++ im ++ hm
  | .setRstint ri => 0x03#8 ++ 0#8 ++ ri
  | .brSeek p => 0x10#8 ++ p
  | .brNextbit => 0x11#8 ++ 0#24
  | .brPeek n => 0x12#8 ++ 0#19 ++ n
  | .brConsume n => 0x13#8 ++ 0#19 ++ n
  | .brAlign => 0x14#8 ++ 0#24
  | .htInit tc th _ _ _ _ => 0x20#8 ++ tc ++ th ++ 0#16
  | .htInsert tc th l v => 0x21#8 ++ tc ++ th ++ 0#3 ++ l ++ v
  | .htDecode tc th => 0x22#8 ++ tc ++ th ++ 0#16
  | .qtLoad pq tq _ => 0x28#8 ++ pq ++ tq ++ 0#16
  | .predReset => 0x30#8 ++ 0#24
  | .scanSetup slot td ta tq ci => 0x31#8 ++ slot ++ td ++ ta ++ tq ++ ci
  | .decodeCoefs slot => 0x32#8 ++ slot ++ 0#20
  | .extend t v => 0x33#8 ++ 0#3 ++ t ++ v
  | .dequant tq => 0x40#8 ++ 0#4 ++ tq ++ 0#16
  | .reorder => 0x41#8 ++ 0#24
  | .idct => 0x48#8 ++ 0#24
  | .levelShift => 0x50#8 ++ 0#24
  | .emit slot _ => 0x51#8 ++ slot ++ 0#20
  | .decodeBlock slot _ => 0x52#8 ++ slot ++ 0#20
  | .color y cb cr => 0x58#8 ++ y ++ cb ++ cr
  | .blkWrite k _ => 0x60#8 ++ 0#18 ++ k
  | .blkRead k => 0x61#8 ++ 0#18 ++ k

/-- The data words of a command (30_encoding.md R93). -/
def Instr.data : Instr → List Word
  | .htInit _ _ d0 d1 d2 d3 => [d0, d1, d2, d3]
  | .qtLoad _ _ ds => ds
  | .emit _ d | .decodeBlock _ d | .blkWrite _ d => [d]
  | .nop | .sync _ | .setConfig _ _ _ | .setRstint _ | .brSeek _ | .brNextbit | .brPeek _ | .brConsume _ | .brAlign
  | .htInsert _ _ _ _ | .htDecode _ _ | .predReset | .scanSetup _ _ _ _ _ | .decodeCoefs _ | .extend _ _ | .dequant _
  | .reorder | .idct | .levelShift | .color _ _ _ | .blkRead _ => []

/-- The words of a command as the host pushes them: the command word, then the data words. -/
def encode (i : Instr) : List Word := i.head :: i.data

/-- The longest command in words: QT_LOAD, 33 (30_encoding.md R93). -/
def maxWords : Nat := 33

/-- The words of an instruction numbered as spec/opcode_table.json numbers its bits: word `k` is bits 32·k+31 .. 32·k of
the low `nbits` bits of `w`, and every bit from `nbits` up is 0. -/
def tableWords (nbits w : Nat) : List Word :=
  (List.range maxWords).map fun k => BitVec.ofNat 32 ((w % 2 ^ nbits) / 2 ^ (32 * k))

/-- The instruction the decoder reads from an instruction of the opcode table whose bits are `w`. -/
def decodeTableWord (nbits w : Nat) : Option Instr :=
  match decode (tableWords nbits w) with
  | .ok (i, _) => some i
  | .error _ => none

end Sys2Proof
end

