-- ==== Sys2Proof/Config.lean ====
section
/-! DEFINITION. What an implementation fixes (the OPEN parameters of 00_scope.md R9) and the free values (the draws of
00_scope.md R14): constants with no body, of which no proof can know more than the ranges the spec gives. -/

namespace Sys2Proof

/-- The stream of free values: draw number `k` of a run. Every draw of the model (00_scope.md R14) is one of these,
cut to the range the spec gives that draw. Log 5. -/
opaque Config.freeNat : Nat → Nat

/-- The byte a segment RAM cell holds at power-on (10_state.md R38, "SEG is any value"). Log 7. -/
opaque Config.segPowerOn : Nat → Byte

/-- The draw of the float IDCT at a tie, for one input block and one sample index: true takes the upper neighbour.
It depends on the block alone, so that the naive and the cached variant make the same draw (44_idct.md R263). Log 14. -/
opaque Config.floatTieUp : Blk → Nat → Bool

/-- The unconstrained number behind `Config.segSize`. -/
opaque Config.segSizeRaw : Nat

/-- The unconstrained number behind `Config.cmdqDepth`. -/
opaque Config.cmdqExtra : Nat

/-- The unconstrained number behind `Config.resqDepth`. -/
opaque Config.resqExtra : Nat

/-- The unconstrained number behind `Config.outqDepth`. -/
opaque Config.outqExtra : Nat

/-- The unconstrained number behind `Config.tieEps`. -/
opaque Config.tieEpsRaw : ℚ

/-- The unconstrained number behind `Config.coreBase`. -/
opaque Config.corePage : Nat

/-- `SEG_SIZE`, any value with 1 ≤ SEG_SIZE ≤ 2^24 (00_scope.md R9). Log 6. -/
def Config.segSize : Nat := min Config.segSizeRaw (2 ^ 24 - 1) + 1

/-- `CMDQ_DEPTH`, any value ≥ 33 (00_scope.md R9). Log 6. -/
def Config.cmdqDepth : Nat := 33 + Config.cmdqExtra

/-- `RESQ_DEPTH`, any value ≥ 1 (00_scope.md R9). Log 6. -/
def Config.resqDepth : Nat := 1 + Config.resqExtra

/-- `OUTQ_DEPTH`, any value ≥ 18 (00_scope.md R9). Log 6. -/
def Config.outqDepth : Nat := 18 + Config.outqExtra

/-- `FLOAT_TIE_EPS`, any rational number with 0 < eps ≤ 2^-10 (00_scope.md R9). Log 6. -/
def Config.tieEps : ℚ :=
  if 0 < Config.tieEpsRaw ∧ Config.tieEpsRaw ≤ 1 / 1024 then Config.tieEpsRaw else 1 / 1024

/-- `CORE_BASE`, any multiple of 256 (00_scope.md R9). Log 6. -/
def Config.coreBase : Nat := 256 * Config.corePage

end Sys2Proof
end

