-- ==== Sys2Proof/Machine/State.lean ====
section
/-! DEFINITION. The state of the block as plain data (10_state.md), the reasons a step can stop, and the state after
power-on reset (70_reset_and_hazards.md R400). -/

namespace Sys2Proof.Machine

/-- Why the machine stops with a fault. The spec's own faults are none of these: they are next states (60_exceptions.md
R364). -/
inductive Fault where
  /-- Raised by QT_LOAD's meaning on a term that does not carry exactly 32 data words. No words decode to such a term.
  Safe. Log 19. -/
  | malformedInstr
  /-- Raised by IDCT's and DECODE_BLOCK's meanings when CONFIG.IM = 3, which SET_CONFIG never stores (10_state.md R31).
  Safe. Log 15. -/
  | reservedIdctVariant
  deriving DecidableEq, Repr

/-- Why a step has no meaning. -/
inductive Refusal where
  /-- Raised by an arm of `exec` for a command that has no meaning yet; no arm uses it now. Safe. -/
  | notModelled (mnemonic : String)
  /-- Raised by a host access to the register window that is not an aligned 32-bit access (20_memory.md R65, U14).
  Safe. Log 17. -/
  | hostAccess
  /-- Raised by `heldStep` alone, where the host breaks a duty of 20_memory.md R79: 93_implementation_defined.md U16 says
  to refuse such a move. `step` never answers it. Safe. Log 16. -/
  | hostDuty
  deriving DecidableEq, Repr

/-- The spec's faults by name (60_exceptions.md R361). -/
inductive FaultKind where
  | bitstreamMarker | huffmanDecode | huffmanInsert | unsupportedRunLength | precisionRange
  | illegalCommand | tableNotLoaded | acIndexOverflow | dcCategory | range | argument
  deriving DecidableEq, Repr

/-- The class of a Huffman table (10_state.md R25). -/
inductive HuffClass where
  | dc | ac
  deriving DecidableEq, Repr

/-- The bit reader (10_state.md R22). -/
structure BitReader where
  pos : BitVec 25
  bitreg : Word
  bitcnt : Nat
  markerHit : Bool
  marker : Byte
  padcnt : Byte
  deriving DecidableEq, Repr

/-- The decode-table entries of one code length: MINCODE, MAXCODE (none is NONE) and VALPTR (10_state.md R25). -/
structure LenRow where
  mincode : BitVec 24
  maxcode : Option (BitVec 24)
  valptr : Nat
  deriving DecidableEq, Repr

/-- One Huffman table (10_state.md R25). `bits` and `rows` hold length L at index L - 1. -/
structure HuffTable where
  valid : Bool
  bits : Vector Byte 16
  nval : Nat
  nins : Nat
  huffval : Vector Byte 256
  huffsize : List Nat
  huffcode : List (BitVec 24)
  rows : Vector LenRow 16
  deriving DecidableEq, Repr

/-- One quantization table (10_state.md R27): `prec` is true for 16-bit precision, `q` is in zig-zag order. -/
structure QuantTable where
  valid : Bool
  prec : Bool
  q : Vector (BitVec 16) 64
  deriving DecidableEq, Repr

/-- One component slot (10_state.md R28). -/
structure Slot where
  valid : Bool
  ci : Byte
  td : BitVec 2
  ta : BitVec 2
  tq : BitVec 2
  deriving DecidableEq, Repr

/-- Segment RAM and its registers (10_state.md R38). `cells` lists the bytes written so far. `oldBytes` and `oldLens`
are the model's own: the values a command in flight may still see of what the host wrote while BUSY = 1 (20_memory.md
R72). Log 9. -/
structure Segment where
  cells : List Host.Cell
  len : BitVec 25
  addr : BitVec 24
  oldBytes : List Host.Cell
  oldLens : List (BitVec 25)
  deriving DecidableEq, Repr

/-- What a host access does to its register. -/
inductive HostDir where
  | read
  | write (w : Word)
  deriving DecidableEq, Repr

/-- One host access: a bus address, a width in bytes and a direction (20_memory.md R65). -/
structure HostAccess where
  addr : Nat
  bytes : Nat
  dir : HostDir
  deriving DecidableEq, Repr

/-- A pending move: a host access, or a turn the host leaves to the core (20_memory.md R71). Log 1. -/
inductive HostMove where
  | access (a : HostAccess)
  | core
  deriving DecidableEq, Repr

/-- The whole machine. The fields from `draws` on, and the two lists of `Segment` named above, are the model's own. -/
structure State where
  br : BitReader
  htDc : Vector HuffTable 4
  htAc : Vector HuffTable 4
  qt : Vector QuantTable 4
  slot : Vector Slot 4
  pred : Vector Word 4
  blk : Blk
  config : BitVec 4
  rstint : BitVec 16
  faulted : Bool
  faultCode : Byte
  faultCmd : Word
  faultInfo : Word
  faultPos : BitVec 25
  cmdOverrun : Bool
  resUnderflow : Bool
  outUnderflow : Bool
  irqEn : BitVec 4
  cmdq : List Word
  resq : List Word
  outq : List Word
  seg : Segment
  draws : Nat
  bus : List HostMove
  busData : Word
  deriving DecidableEq, Repr

/-- The bit reader after reset or BR_SEEK 0 (10_state.md R22). -/
def BitReader.reset : BitReader :=
  { pos := 0, bitreg := 0, bitcnt := 0, markerHit := false, marker := 0, padcnt := 0 }

/-- A Huffman table after reset. Only VALID has a reset value in the spec; the other fields are never read while
VALID = 0 (10_state.md R25). DESIGN CHOICE, unsafe: they are 0, empty or NONE. Log 8. -/
def HuffTable.reset : HuffTable :=
  { valid := false, bits := Vector.replicate 16 0, nval := 0, nins := 0, huffval := Vector.replicate 256 0,
    huffsize := [], huffcode := [], rows := Vector.replicate 16 { mincode := 0, maxcode := none, valptr := 0 } }

/-- A quantization table after reset. Q is never read while VALID = 0 (10_state.md R27). DESIGN CHOICE, unsafe: Q is 0.
Log 8. -/
def QuantTable.reset : QuantTable := { valid := false, prec := false, q := Vector.replicate 64 0 }

/-- A component slot after reset (10_state.md R28). -/
def Slot.reset : Slot := { valid := false, ci := 0, td := 0, ta := 0, tq := 0 }

/-- The state after power-on reset (70_reset_and_hazards.md R400). Segment RAM lists nothing: each byte holds the free
value `Config.segPowerOn`. -/
def State.reset : State :=
  { br := BitReader.reset
    htDc := Vector.replicate 4 HuffTable.reset
    htAc := Vector.replicate 4 HuffTable.reset
    qt := Vector.replicate 4 QuantTable.reset
    slot := Vector.replicate 4 Slot.reset
    pred := Vector.replicate 4 0
    blk := Vector.replicate 64 0
    config := 0, rstint := 0
    faulted := false, faultCode := 0, faultCmd := 0, faultInfo := 0, faultPos := 0
    cmdOverrun := false, resUnderflow := false, outUnderflow := false
    irqEn := 0
    cmdq := [], resq := [], outq := []
    seg := { cells := [], len := 0, addr := 0, oldBytes := [], oldLens := [] }
    draws := 0, bus := [], busData := 0 }

end Sys2Proof.Machine
end

