-- ==== Sys2Proof/Machine/Ops.lean ====
section
/-! DEFINITION. The named operations over segment RAM, the tables, the FIFOs and the fault registers, and taking a fault
and returning from it. -/

namespace Sys2Proof.Machine

/-- What every step and every meaning answers. -/
abbrev Result := Host.Outcome State Fault Refusal

/-! ## Segment RAM (10_state.md R38, 20_memory.md R60) -/

/-- The byte listed at an address, if one was written there. -/
def Memory.read? : List Host.Cell → Nat → Option Byte
  | [], _ => none
  | (b, v) :: rest, a => if a = b then some v else Memory.read? rest a

/-- Write a byte, keeping the addresses strictly rising. -/
def Memory.write : List Host.Cell → Nat → Byte → List Host.Cell
  | [], a, v => [(a, v)]
  | (b, w) :: rest, a, v =>
    if a < b then (a, v) :: (b, w) :: rest
    else if a = b then (a, v) :: rest
    else (b, w) :: Memory.write rest a v

/-- The canonical form: addresses strictly rising. An unlisted address has no value of its own (log 7), so no entry can
equal what an unlisted address reads as. -/
def Memory.wf : List Host.Cell → Bool
  | [] => true
  | [_] => true
  | (a, _) :: (b, w) :: rest => decide (a < b) && Memory.wf ((b, w) :: rest)

/-- `MemRead(SEG, a, 1)`: the byte the host wrote there last, or the free power-on byte (00_scope.md R13, 10_state.md
R38). -/
def Segment.byte (g : Segment) (a : Nat) : Byte := (Memory.read? g.cells a).getD (Config.segPowerOn a)

/-! ## Draws (00_scope.md R14) -/

/-- A read that may see the present value or one of the old ones: a draw over exactly these (20_memory.md R72). With no
old value there is no draw. -/
def choose {α : Type} (now : α) (olds : List α) (d : Nat) : α × Nat :=
  match olds with
  | [] => (now, d)
  | _ :: _ => ((now :: olds).getD (Config.freeNat d % (olds.length + 1)) now, d + 1)

/-- The second bytes of the markers the reader stops at: RST0-RST7 and DNL (40_bitreader.md R127). -/
def markerBytes : List Byte :=
  [0xD0#8, 0xD1#8, 0xD2#8, 0xD3#8, 0xD4#8, 0xD5#8, 0xD6#8, 0xD7#8, 0xDC#8]

/-- The largest value POS may take: SEG_LEN, or POS as it stands where SEG_LEN was lowered below it (10_state.md R22,
20_memory.md R63). -/
def State.posBound (s : State) : Nat :=
  (s.seg.oldLens.map BitVec.toNat).foldl max (max s.seg.len.toNat s.br.pos.toNat)

/-- A bit reader holding any values of its registers' types, with BITREG < 2^BITCNT (60_exceptions.md R364, 10_state.md
R22 and R23): six draws from number `d` on. Log 11. -/
def anyReader (bound d : Nat) : BitReader :=
  let cnt := Config.freeNat d % 24
  let hit := Config.freeNat (d + 3) % 2 == 1
  { pos := BitVec.ofNat 25 (Config.freeNat (d + 2) % (bound + 1))
    bitreg := BitVec.ofNat 32 (Config.freeNat (d + 1) % 2 ^ cnt)
    bitcnt := cnt
    markerHit := hit
    marker := if hit then markerBytes.getD (Config.freeNat (d + 4) % 9) 0 else 0
    padcnt := BitVec.ofNat 8 (Config.freeNat (d + 5)) }

/-- A block buffer of any values: 64 draws from number `d` on. -/
def anyBlk (d : Nat) : Blk := vecOfFn fun i => BitVec.ofNat 32 (Config.freeNat (d + i.val))

/-- The bit reader takes any values (60_exceptions.md R364). -/
def State.havocReader (s : State) : State :=
  { s with br := anyReader s.posBound s.draws, draws := s.draws + 6 }

/-- BLK takes any values (60_exceptions.md R364). -/
def State.havocBlk (s : State) : State := { s with blk := anyBlk s.draws, draws := s.draws + 64 }

/-- PRED[t] takes any value (60_exceptions.md R364). -/
def State.havocPred (s : State) (t : BitVec 2) : State :=
  { s with pred := s.pred.set t.toNat (BitVec.ofNat 32 (Config.freeNat s.draws)) t.isLt, draws := s.draws + 1 }

/-! ## Arithmetic (00_scope.md R11) -/

/-- `fits32(v)`. -/
def fits32 (v : Int) : Bool := decide (-2147483648 ≤ v) && decide (v ≤ 2147483647)

/-- `clamp(v, lo, hi)`. -/
def clamp (v lo hi : Int) : Int := if v < lo then lo else if hi < v then hi else v

/-- A 32-bit two's complement word from an integer (00_scope.md R11). -/
def toWord (v : Int) : Word := BitVec.ofInt 32 v

/-! ## Tables and slots -/

/-- `HT[c][t]` (10_state.md R25). -/
def State.table (s : State) (c : HuffClass) (t : BitVec 2) : HuffTable :=
  match c with
  | .dc => s.htDc[t.toNat]'t.isLt
  | .ac => s.htAc[t.toNat]'t.isLt

/-- `HT[c][t] <- T`. -/
def State.setTable (s : State) (c : HuffClass) (t : BitVec 2) (tab : HuffTable) : State :=
  match c with
  | .dc => { s with htDc := s.htDc.set t.toNat tab t.isLt }
  | .ac => { s with htAc := s.htAc.set t.toNat tab t.isLt }

/-- All eight Huffman tables lose VALID (47_system.md R332). -/
def State.invalidateTables (s : State) : State :=
  { s with htDc := vecMap (fun t => { t with valid := false }) s.htDc
           htAc := vecMap (fun t => { t with valid := false }) s.htAc }

/-- `QT[t]` (10_state.md R27). -/
def State.quant (s : State) (t : BitVec 2) : QuantTable := s.qt[t.toNat]'t.isLt

/-- `QT[t] <- Q`. -/
def State.setQuant (s : State) (t : BitVec 2) (q : QuantTable) : State := { s with qt := s.qt.set t.toNat q t.isLt }

/-- `SLOT[t]` (10_state.md R28). -/
def State.slotAt (s : State) (t : BitVec 2) : Slot := s.slot[t.toNat]'t.isLt

/-- `SLOT[t] <- x`. -/
def State.setSlot (s : State) (t : BitVec 2) (x : Slot) : State := { s with slot := s.slot.set t.toNat x t.isLt }

/-- `PRED[t]` (10_state.md R29). -/
def State.predAt (s : State) (t : BitVec 2) : Word := s.pred[t.toNat]'t.isLt

/-- `PRED[t] <- w`. -/
def State.setPred (s : State) (t : BitVec 2) (w : Word) : State := { s with pred := s.pred.set t.toNat w t.isLt }

/-- `BLK[k]` (10_state.md R20). -/
def State.blkAt (s : State) (k : BitVec 6) : Word := s.blk[k.toNat]'k.isLt

/-- `BLK[k] <- w`. -/
def State.setBlkAt (s : State) (k : BitVec 6) (w : Word) : State := { s with blk := s.blk.set k.toNat w k.isLt }

/-! ## FIFOs (10_state.md R37) -/

/-- `PushResult(w)` (00_scope.md R13). -/
def State.pushResult (s : State) (w : Word) : State := { s with resq := s.resq ++ [w] }

/-- `PushOut(words)` (00_scope.md R13). -/
def State.pushOut (s : State) (ws : List Word) : State := { s with outq := s.outq ++ ws }

/-! ## Faults (60_exceptions.md) -/

/-- FAULT_CODE of each fault (60_exceptions.md R361). -/
def FaultKind.code : FaultKind → Byte
  | .bitstreamMarker => 1 | .huffmanDecode => 2 | .huffmanInsert => 3 | .unsupportedRunLength => 4
  | .precisionRange => 5 | .illegalCommand => 8 | .tableNotLoaded => 9 | .acIndexOverflow => 10 | .dcCategory => 11
  | .range => 12 | .argument => 13

/-- The class number of a Huffman table: 0 DC, 1 AC (10_state.md R25). -/
def HuffClass.code : HuffClass → BitVec 4
  | .dc => 0
  | .ac => 1

/-- FAULT_INFO of code 1: 7:0 the byte after 0xFF, 8 truncated (60_exceptions.md R362). -/
def infoMarker (truncated : Bool) (b : Byte) : Word := 0#23 ++ BitVec.ofBool truncated ++ b

/-- FAULT_INFO of code 2: 7:4 class, 3:0 table id (60_exceptions.md R362). -/
def infoDecode (c : HuffClass) (t : BitVec 2) : Word := 0#24 ++ c.code ++ 0#2 ++ t

/-- FAULT_INFO of code 3: 31:24 reason, 12:8 L, 7:4 TC, 3:0 TH (60_exceptions.md R362). -/
def infoInsert (reason : Byte) (l : BitVec 5) (tc th : BitVec 4) : Word := reason ++ 0#11 ++ l ++ tc ++ th

/-- FAULT_INFO of codes 4 and 10: 7:0 RS, 14:8 k (60_exceptions.md R362). -/
def infoRun (rs : Byte) (k : Nat) : Word := 0#17 ++ BitVec.ofNat 7 k ++ rs

/-- FAULT_INFO of code 5: 3:0 field, 19:4 the value, 29:24 the entry index (60_exceptions.md R362). -/
def infoPrecision (fld : BitVec 4) (value : BitVec 16) (index : BitVec 6) : Word :=
  0#2 ++ index ++ 0#4 ++ value ++ fld

/-- FAULT_INFO of codes 8, 11 and 13: 7:0 the reason or the category (60_exceptions.md R362). -/
def infoReason (reason : Byte) : Word := 0#24 ++ reason

/-- FAULT_INFO of code 9: 7:4 kind (0 DC, 1 AC, 2 quantization), 3:0 id (60_exceptions.md R362). -/
def infoTable (kind : BitVec 4) (t : BitVec 2) : Word := 0#24 ++ kind ++ 0#2 ++ t

/-- FAULT_INFO of code 12: 7:0 stage, 13:8 index (60_exceptions.md R362). -/
def infoRangeFault (stage : Byte) (index : BitVec 6) : Word := 0#18 ++ index ++ stage

/-- FAULT ENTRY, the one operation by which any command takes a fault (60_exceptions.md R364): FAULTED is set and the
code, the command word, the information and the position are recorded. The command's words are out of CMDQ already, and
every later word stays there. -/
def State.enterFault (s : State) (cmd : Word) (kind : FaultKind) (info : Word) (pos : BitVec 25) : State :=
  { s with faulted := true, faultCode := kind.code, faultCmd := cmd, faultInfo := info, faultPos := pos }

/-- A check fault of command `i`: precise, so nothing else changes, and FAULT_POS is POS unchanged (60_exceptions.md
R363, R364). -/
def raiseCheck (i : Instr) (kind : FaultKind) (info : Word) (s : State) : Result :=
  .next (s.enterFault i.head kind info s.br.pos)

/-- CTRL.CLEAR_FAULT, the return from a fault: CMDQ is emptied, FAULTED and the fault registers become 0, all else is
kept (60_exceptions.md R366). -/
def State.clearFault (s : State) : State :=
  { s with cmdq := [], faulted := false, faultCode := 0, faultCmd := 0, faultInfo := 0, faultPos := 0 }

/-- CTRL.CLEAR_STICKY (47_system.md R342). -/
def State.clearSticky (s : State) : State :=
  { s with cmdOverrun := false, resUnderflow := false, outUnderflow := false }

/-- CTRL.SOFT_RESET: every item takes its power-on value, but SEG keeps its contents (70_reset_and_hazards.md R401). The
model's own draw counter, pending host moves and read-data word are no items of the block and stay. -/
def State.softReset (s : State) : State :=
  { State.reset with
    seg := { State.reset.seg with cells := s.seg.cells }
    draws := s.draws, bus := s.bus, busData := s.busData }

end Sys2Proof.Machine
end

