-- ==== Sys2Proof/Machine/Flags.lean ====
section
/-! DEFINITION. The flags and status words computed from state: BUSY and room in the FIFOs, the interrupt line, STATUS,
BR_STATE and TBL_VALID. Nothing here is stored. -/

namespace Sys2Proof.Machine

/-- STATUS.BUSY: FAULTED = 0 and CMDQ is not empty (10_state.md R41). -/
def State.busy (s : State) : Bool := !s.faulted && !s.cmdq.isEmpty

/-- STATUS.CMD_FULL: CMDQ holds CMDQ_DEPTH words (10_state.md R41, 20_memory.md R66). CMDQ_DEPTH is at least 33, so fewer
than 33 words never fill it. -/
def State.cmdFull (s : State) : Bool :=
  decide (33 ≤ s.cmdq.length) && decide (Config.cmdqDepth ≤ s.cmdq.length)

/-- RESQ has room for one word (20_memory.md R70). RESQ_DEPTH is at least 1, so an empty RESQ always has. -/
def State.resRoom (s : State) : Bool := s.resq.isEmpty || decide (s.resq.length < Config.resqDepth)

/-- OUTQ has room for one record of 18 words (20_memory.md R70). OUTQ_DEPTH is at least 18, so an empty OUTQ always
has. -/
def State.outRoom (s : State) : Bool := s.outq.isEmpty || decide (s.outq.length + 18 ≤ Config.outqDepth)

/-- STATUS.RES_AVAIL (10_state.md R41). -/
def State.resAvail (s : State) : Bool := !s.resq.isEmpty

/-- STATUS.OUT_AVAIL (10_state.md R41). -/
def State.outAvail (s : State) : Bool := !s.outq.isEmpty

/-- IDLE (60_exceptions.md R370). -/
def State.idle (s : State) : Bool := s.cmdq.isEmpty && !s.faulted

/-- The level of the interrupt line (60_exceptions.md R370). -/
def State.irq (s : State) : Bool :=
  (s.irqEn.getLsbD 0 && s.faulted) || (s.irqEn.getLsbD 1 && s.resAvail)
    || (s.irqEn.getLsbD 2 && s.outAvail) || (s.irqEn.getLsbD 3 && s.idle)

/-- STATUS, with the two datapath bits MARKER_HIT and PAD_ACTIVE given (10_state.md R41, R42). -/
def State.statusWith (s : State) (markerHit padActive : Bool) : Word :=
  BitVec.ofNat 8 (min 255 s.outq.length) ++ BitVec.ofNat 8 (min 255 s.resq.length) ++ 0#5
    ++ BitVec.ofBool s.outUnderflow ++ BitVec.ofBool s.resUnderflow ++ BitVec.ofBool s.cmdOverrun
    ++ BitVec.ofBool s.irq ++ BitVec.ofBool s.outAvail ++ BitVec.ofBool s.resAvail ++ BitVec.ofBool s.cmdFull
    ++ BitVec.ofBool padActive ++ BitVec.ofBool markerHit ++ BitVec.ofBool s.faulted ++ BitVec.ofBool s.busy

/-- STATUS while the datapath is stable (10_state.md R41). -/
def State.status (s : State) : Word := s.statusWith s.br.markerHit (decide (0 < s.br.padcnt.toNat))

/-- BR_STATE: 5:0 BITCNT, 15:8 MARKER, 16 MARKER_HIT, 31:24 PADCNT (10_state.md R40). -/
def State.brState (s : State) : Word :=
  s.br.padcnt ++ 0#7 ++ BitVec.ofBool s.br.markerHit ++ s.br.marker ++ 0#2 ++ BitVec.ofNat 6 s.br.bitcnt

/-- Four flags as a field, element 0 in bit 0. -/
def pack4 (f : Fin 4 → Bool) : BitVec 4 :=
  BitVec.ofBool (f 3) ++ BitVec.ofBool (f 2) ++ BitVec.ofBool (f 1) ++ BitVec.ofBool (f 0)

/-- TBL_VALID: 3:0 QT, 7:4 HT[0], 11:8 HT[1], 15:12 SLOT (10_state.md R40). -/
def State.tblValid (s : State) : Word :=
  0#16 ++ pack4 (fun i => s.slot[i].valid) ++ pack4 (fun i => s.htAc[i].valid) ++ pack4 (fun i => s.htDc[i].valid)
    ++ pack4 (fun i => s.qt[i].valid)

/-- CONFIG.HM: true is the array variant, false the tree variant (10_state.md R31). -/
def State.arrayVariant (s : State) : Bool := s.config.getLsbD 0

/-- CONFIG.IM (10_state.md R31). -/
def State.idctVariant (s : State) : BitVec 2 := s.config.extractLsb' 1 2

/-- CONFIG.CM: true is the integer path, false the float path (10_state.md R31). -/
def State.integerColor (s : State) : Bool := s.config.getLsbD 3

end Sys2Proof.Machine
end

