-- ==== Sys2Proof/Machine/Operands.lean ====
section
/-! DEFINITION. Operand forms: the range checks on id fields and the data-word layouts (30_encoding.md R96-R101). -/

namespace Sys2Proof.Machine

/-- A 4-bit id field as one of 0..3, or none when it is out of range (10_state.md R25, R27, R28). -/
def idOf (v : BitVec 4) : Option (BitVec 2) :=
  if v.toNat ≤ 3 then some (v.setWidth 2) else none

/-- The class field TC: 0 DC, 1 AC, none when it is out of range (41_huffman.md R160). -/
def classOf (tc : BitVec 4) : Option HuffClass :=
  if tc = 0 then some .dc else if tc = 1 then some .ac else none

/-- The checks HT_INIT, HT_INSERT and HT_DECODE begin with: the class, then the table id, each a PrecisionRangeError
with its field number and value (41_huffman.md R160, R164, R175). -/
def withHuffId (i : Instr) (tc th : BitVec 4) (s : State) (k : HuffClass → BitVec 2 → Result) : Result :=
  match classOf tc with
  | none => raiseCheck i .precisionRange (infoPrecision 1 (tc.setWidth 16) 0) s
  | some c =>
    match idOf th with
    | none => raiseCheck i .precisionRange (infoPrecision 2 (th.setWidth 16) 0) s
    | some t => k c t

/-- The checks DECODE_COEFS, EMIT and DECODE_BLOCK begin with: the slot number (reason 3), then that the slot is set up
(reason 7) (42_coefficient.md R210, 45_level_shift_output.md R292, R296). -/
def withSlot (i : Instr) (slot : BitVec 4) (s : State) (k : BitVec 2 → Result) : Result :=
  match idOf slot with
  | none => raiseCheck i .argument (infoReason 3) s
  | some t => if (s.slotAt t).valid then k t else raiseCheck i .argument (infoReason 7) s

/-- A Huffman table that must be loaded: TableNotLoaded with its class and id otherwise (41_huffman.md R164, R175). -/
def withTable (i : Instr) (c : HuffClass) (t : BitVec 2) (s : State) (k : HuffTable → Result) : Result :=
  if (s.table c t).valid then k (s.table c t)
  else raiseCheck i .tableNotLoaded (infoTable c.code t) s

/-- A quantization table that must be loaded: TableNotLoaded kind 2 otherwise (43_dequant_reorder.md R242). -/
def withQuant (i : Instr) (t : BitVec 2) (s : State) (k : QuantTable → Result) : Result :=
  if (s.quant t).valid then k (s.quant t)
  else raiseCheck i .tableNotLoaded (infoTable 2 t) s

/-- HT_INIT's data: `BITS[4·i + j + 1] = d_i[8·j+7 : 8·j]`, length L at index L - 1 (30_encoding.md R96). -/
def countsOf (d0 d1 d2 d3 : Word) : Vector Byte 16 :=
  vecOfFn fun n => field ([d0, d1, d2, d3].getD (n.val / 4) 0) (8 * (n.val % 4)) 8

/-- QT_LOAD's data: `E[2·i] = d_i[15:0]` and `E[2·i+1] = d_i[31:16]` (30_encoding.md R97). -/
def entriesOf (ds : List Word) : Vector (BitVec 16) 64 :=
  vecOfFn fun n => field (dataWord ds (n.val / 2)) (16 * (n.val % 2)) 16

/-- The first index in order at which a check fails, as a 6-bit index. -/
def firstBad {α : Type} (bad : α → Bool) (v : Vector α 64) : Option (BitVec 6) :=
  (v.toList.findIdx? bad).map (BitVec.ofNat 6)

end Sys2Proof.Machine
end

