-- ==== Sys2Proof/Machine/BitReader.lean ====
section
/-! DEFINITION. The bit reader: its primitives and the five bit-reader commands (40_bitreader.md). A primitive sees the
segment and changes only the bit reader and the draw counter: its type says so. -/

namespace Sys2Proof.Machine

/-- What a bit-reader primitive changes. -/
structure ReadCtx where
  br : BitReader
  draws : Nat
  deriving DecidableEq, Repr

/-- `raise F(info)` inside a command, with POS at the point of the raise (60_exceptions.md R360, R363). -/
structure Raise where
  kind : FaultKind
  info : Word
  pos : BitVec 25
  deriving DecidableEq, Repr

/-- A primitive's outcome: a value, or a fault raised at that point. -/
inductive ReadResult (α : Type) where
  | ok (v : α) (c : ReadCtx)
  | err (e : Raise) (c : ReadCtx)
  deriving DecidableEq, Repr

/-- What a primitive leaves behind, whichever way it ends. -/
def ReadResult.ctx {α : Type} : ReadResult α → ReadCtx
  | .ok _ c => c
  | .err _ c => c

/-- A primitive of the bit reader, or a decode made of such primitives. -/
abbrev Reader (α : Type) := ReadCtx → ReadResult α

/-- Give a value and change nothing. -/
def Reader.ret {α : Type} (v : α) : Reader α := fun c => .ok v c

/-- Run one primitive, then another on its value; a raise ends the command (60_exceptions.md R360). -/
def Reader.next {α β : Type} (m : Reader α) (k : α → Reader β) : Reader β := fun c =>
  match m c with
  | .ok v c' => k v c'
  | .err e c' => .err e c'

/-- `raise F(info)` with POS as it stands. -/
def Reader.raise {α : Type} (kind : FaultKind) (info : Word) : Reader α := fun c =>
  .err { kind := kind, info := info, pos := c.br.pos } c

/-! ## Primitives -/

/-- A read of SEG_LEN by the core: a draw among the old values while a racing write is in flight (20_memory.md R72). -/
def readLen (g : Segment) : Reader (BitVec 25) := fun c =>
  let (v, d) := choose g.len g.oldLens c.draws
  .ok v { c with draws := d }

/-- `MemRead(SEG, a, 1)` by the core: a draw among the old values while a racing write is in flight (20_memory.md
R72). -/
def readByte (g : Segment) (a : Nat) : Reader Byte := fun c =>
  let (v, d) := choose (g.byte a) ((g.oldBytes.filter fun x => x.1 == a).map fun x => x.2) c.draws
  .ok v { c with draws := d }

/-- `PadByte()` (40_bitreader.md R125). -/
def padByte : Reader Byte := fun c =>
  .ok 0xFF#8 { c with br := { c.br with padcnt := if c.br.padcnt = 0xFF#8 then 0xFF#8 else c.br.padcnt + 1 } }

/-- POS moves forward by `n` over a byte read from it. -/
def advance (n : Nat) (b : Byte) : Reader Byte := fun c =>
  .ok b { c with br := { c.br with pos := c.br.pos + BitVec.ofNat 25 n } }

/-- A restart or DNL marker: MARKER_HIT and MARKER are set, POS stays at the 0xFF, and a pad byte is given
(40_bitreader.md R127). -/
def hitMarker (b2 : Byte) : Reader Byte := fun c =>
  padByte { c with br := { c.br with markerHit := true, marker := b2 } }

/-- The byte after a 0xFF at POS decides: stuffed pair, stopping marker, or BitstreamMarkerError (40_bitreader.md R123,
R126-R128). -/
def afterFF (b2 : Byte) : Reader Byte :=
  if b2 = 0x00#8 then advance 2 0xFF#8
  else if (0xD0#8 ≤ b2 ∧ b2 ≤ 0xD7#8) ∨ b2 = 0xDC#8 then hitMarker b2
  else Reader.raise .bitstreamMarker (infoMarker false b2)

/-- `NextByte()` (40_bitreader.md R123). -/
def nextByte (g : Segment) : Reader Byte := fun c =>
  if c.br.markerHit then padByte c
  else
    Reader.next (readLen g) (fun len =>
      if len.toNat ≤ c.br.pos.toNat then padByte
      else Reader.next (readByte g c.br.pos.toNat) fun b =>
        if b ≠ 0xFF#8 then advance 1 b
        else Reader.next (readLen g) fun len2 =>
          if len2.toNat ≤ c.br.pos.toNat + 1 then Reader.raise .bitstreamMarker (infoMarker true 0xFF#8)
          else Reader.next (readByte g (c.br.pos.toNat + 1)) afterFF) c

/-- `Append(b)` (40_bitreader.md R121). -/
def append (b : Byte) : Reader Unit := fun c =>
  .ok () { c with br := { c.br with bitreg := (c.br.bitreg <<< 8) ||| b.setWidth 32, bitcnt := c.br.bitcnt + 8 } }

/-- The loop of `Fill(n)`, at most `fuel` bytes long. -/
def fillLoop (g : Segment) (n : Nat) : Nat → Reader Unit
  | 0 => Reader.ret ()
  | fuel + 1 => fun c =>
    if c.br.bitcnt < n then
      Reader.next (nextByte g) (fun b => Reader.next (append b) fun _ => fillLoop g n fuel) c
    else .ok () c

/-- `Fill(n)` for n ≤ 16: at most two bytes (40_bitreader.md R122, 47_system.md R345). -/
def fill (g : Segment) (n : Nat) : Reader Unit := fillLoop g n 2

/-- The `n` oldest buffered bits, `BITREG[BITCNT-1 : BITCNT-n]`, as a number (40_bitreader.md R130). -/
def oldest (br : BitReader) (n : Nat) : Nat := br.bitreg.toNat / 2 ^ (br.bitcnt - n) % 2 ^ n

/-- The bit reader with only its `k` newest bits kept (40_bitreader.md R130, R137). -/
def keepNewest (br : BitReader) (k : Nat) : BitReader :=
  { br with bitreg := BitVec.ofNat 32 (br.bitreg.toNat % 2 ^ k), bitcnt := k }

/-- `Peek(n)` (40_bitreader.md R130). -/
def peek (g : Segment) (n : Nat) : Reader Nat :=
  if n = 0 then Reader.ret 0
  else Reader.next (fill g n) fun _ c => .ok (oldest c.br n) c

/-- `Consume(n)` (40_bitreader.md R130). -/
def consume (g : Segment) (n : Nat) : Reader Unit :=
  if n = 0 then Reader.ret ()
  else Reader.next (fill g n) fun _ c => .ok () { c with br := keepNewest c.br (c.br.bitcnt - n) }

/-- `Take(n)`, which is RECEIVE (40_bitreader.md R130, 42_coefficient.md R204). -/
def take (g : Segment) (n : Nat) : Reader Nat :=
  Reader.next (peek g n) fun v => Reader.next (consume g n) fun _ => Reader.ret v

/-- `NextBit()` (40_bitreader.md R130). -/
def nextBit (g : Segment) : Reader Nat := take g 1

/-! ## Running a primitive as a command -/

/-- What a primitive may change of the state. -/
def State.readCtx (s : State) : ReadCtx := { br := s.br, draws := s.draws }

/-- The state with a primitive's changes. -/
def State.withReadCtx (s : State) (c : ReadCtx) : State := { s with br := c.br, draws := c.draws }

/-- A command whose body is a primitive and whose write set is the bit reader. A raise is an execution fault: the bit
reader takes any values, and nothing else changes (60_exceptions.md R364). -/
def runReader {α : Type} (i : Instr) (s : State) (m : Reader α) (k : α → State → State) : Result :=
  match m s.readCtx with
  | .ok v c => .next (k v (s.withReadCtx c))
  | .err e c => .next ({ s with draws := c.draws }.havocReader.enterFault i.head e.kind e.info e.pos)

/-! ## Commands -/

/-- BR_SEEK p (40_bitreader.md R140). -/
def execBrSeek (p : BitVec 24) (s : State) : Result :=
  let (len, d) := choose s.seg.len s.seg.oldLens s.draws
  if len.toNat < p.toNat then raiseCheck (.brSeek p) .argument (infoReason 2) { s with draws := d }
  else .next { s with br := { BitReader.reset with pos := p.setWidth 25 }, draws := d }

/-- BR_NEXTBIT (40_bitreader.md R131). -/
def execBrNextbit (s : State) : Result :=
  runReader .brNextbit s (nextBit s.seg) fun v t => t.pushResult (BitVec.ofNat 32 v)

/-- BR_PEEK n (40_bitreader.md R132). -/
def execBrPeek (n : BitVec 5) (s : State) : Result :=
  if 16 < n.toNat then raiseCheck (.brPeek n) .argument (infoReason 1) s
  else runReader (.brPeek n) s (peek s.seg n.toNat) fun v t => t.pushResult (BitVec.ofNat 32 v)

/-- BR_CONSUME n (40_bitreader.md R134). -/
def execBrConsume (n : BitVec 5) (s : State) : Result :=
  if 16 < n.toNat then raiseCheck (.brConsume n) .argument (infoReason 1) s
  else runReader (.brConsume n) s (consume s.seg n.toNat) fun _ t => t

/-- BR_ALIGN (40_bitreader.md R137). -/
def execBrAlign (s : State) : Result :=
  .next { s with br := keepNewest s.br (s.br.bitcnt - s.br.bitcnt % 8) }

end Sys2Proof.Machine
end

