-- ==== Sys2Proof/Machine/Huffman.lean ====
section
/-! DEFINITION. The Huffman decoder: table construction, decoding in both variants, and HT_INIT, HT_INSERT and HT_DECODE
(41_huffman.md). -/

namespace Sys2Proof.Machine

/-! ## Table construction -/

/-- The counts of a table as numbers, length 1 first. -/
def countList (bits : Vector Byte 16) : List Nat := bits.toList.map BitVec.toNat

/-- HUFFSIZE from length `L` on: each length once per code of it (41_huffman.md R161). -/
def genSizes : Nat → List Nat → List Nat
  | _, [] => []
  | len, n :: rest => List.replicate n len ++ genSizes (len + 1) rest

/-- HUFFCODE from the running counter `code` on: `n` codes in sequence, then the counter shifted left once
(41_huffman.md R161). -/
def genCodes : Nat → List Nat → List (BitVec 24)
  | _, [] => []
  | code, n :: rest => (List.range n).map (fun j => BitVec.ofNat 24 (code + j)) ++ genCodes (2 * (code + n)) rest

/-- The decode-table entries of a length with no code: MAXCODE is NONE and the other two are any value, draws number `d`
and `d + 1` (41_huffman.md R162). Log 5. -/
def anyRow (d : Nat) : LenRow :=
  { mincode := BitVec.ofNat 24 (Config.freeNat d), maxcode := none, valptr := Config.freeNat (d + 1) % 256 }

/-- MINCODE, MAXCODE and VALPTR of one length with `n` codes, the first of them number `k` (41_huffman.md R162). -/
def lenRow (codes : List (BitVec 24)) (k n d : Nat) : LenRow :=
  if n = 0 then anyRow d
  else { mincode := codes.getD k 0, maxcode := some (codes.getD (k + n - 1) 0), valptr := k }

/-- The decode tables of all 16 lengths, with two draws for each length from number `d` on (41_huffman.md R162). -/
def genRows (bits : Vector Byte 16) (codes : List (BitVec 24)) (d : Nat) : Vector LenRow 16 :=
  vecOfFn fun l =>
    lenRow codes ((countList bits).take l.val).sum ((countList bits).getD l.val 0) (d + 2 * l.val)

/-- The table HT_INIT builds from the counts: everything but the values, of which none is inserted; its draws are numbers
`d` to `d + 31` (41_huffman.md R160-R162). -/
def HuffTable.build (old : HuffTable) (bits : Vector Byte 16) (d : Nat) : HuffTable :=
  { valid := true
    bits := bits
    nval := (countList bits).sum
    nins := 0
    huffval := old.huffval
    huffsize := genSizes 1 (countList bits)
    huffcode := genCodes 0 (countList bits)
    rows := genRows bits (genCodes 0 (countList bits)) d }

/-- The table with one more value (41_huffman.md R164). -/
def HuffTable.insert (t : HuffTable) (v : Byte) : HuffTable :=
  { t with huffval := t.huffval.setIfInBounds t.nins v, nins := t.nins + 1 }

/-- Why HT_INSERT refuses a length, in the order checked: reasons 1 to 4 (41_huffman.md R164). -/
def HuffTable.insertReason (t : HuffTable) (l : Nat) : Option Byte :=
  if l < 1 ∨ 16 < l then some 1
  else if t.nins = t.nval then some 2
  else if l ≠ t.huffsize.getD t.nins 0 then some 3
  else if 2 ^ l ≤ (t.huffcode.getD t.nins 0).toNat then some 4
  else none

/-! ## Decoding -/

/-- The bit loop of the array decode: `left` lengths remain, the next is number `i` counted from 0, `code` holds the bits
read so far (41_huffman.md R171). -/
def decodeLoop (g : Segment) (c : HuffClass) (t : BitVec 2) (tab : HuffTable) : Nat → Nat → Nat → Reader Byte
  | 0, _, _ => Reader.raise .huffmanDecode (infoDecode c t)
  | left + 1, i, code =>
    Reader.next (nextBit g) fun b =>
      let code' := 2 * code + b
      let row := tab.rows.toList.getD i { mincode := 0, maxcode := none, valptr := 0 }
      match row.maxcode with
      | none => decodeLoop g c t tab left (i + 1) code'
      | some m =>
        if code' ≤ m.toNat then
          let j := row.valptr + code' - row.mincode.toNat
          if tab.nins ≤ j then Reader.raise .huffmanDecode (infoDecode c t)
          else Reader.ret (tab.huffval.toList.getD j 0)
        else decodeLoop g c t tab left (i + 1) code'

/-- `HuffDecodeArray(c, t)` (41_huffman.md R171). -/
def huffDecodeArray (g : Segment) (c : HuffClass) (t : BitVec 2) (tab : HuffTable) : Reader Byte :=
  decodeLoop g c t tab 16 0 0

/-- The faults a failed tree decode may raise where the array decode raises `e`: the same fault, HuffmanDecodeError, or a
BitstreamMarkerError met in reading one bit more, whose outcome is `beyond` (41_huffman.md R172). -/
def treeFaults (c : HuffClass) (t : BitVec 2) (e : Raise) (beyond : ReadResult Nat) : List (FaultKind × Word) :=
  (e.kind, e.info) :: (.huffmanDecode, infoDecode c t) ::
    match beyond with
    | .ok _ _ => []
    | .err e2 _ => [(e2.kind, e2.info)]

/-- A failed tree decode, where the array decode raises `e`: a draw among `treeFaults`, with any FAULT_POS (41_huffman.md
R172, 60_exceptions.md R363). The two draws come first, so that those of the bit read beyond are fresh. Log 12. -/
def treeFail (g : Segment) (c : HuffClass) (t : BitVec 2) (e : Raise) : Reader Byte := fun ctx =>
  let beyond := nextBit g { ctx with draws := ctx.draws + 2 }
  let faults := treeFaults c t e beyond
  let pick := faults.getD (Config.freeNat ctx.draws % faults.length) (e.kind, e.info)
  .err { kind := pick.1, info := pick.2, pos := BitVec.ofNat 25 (Config.freeNat (ctx.draws + 1)) }
    { ctx with draws := beyond.ctx.draws }

/-- `HuffDecode(c, t)`: the array decode, and with the tree variant its relaxation on a fault (41_huffman.md R170,
R172). -/
def huffDecode (g : Segment) (array : Bool) (c : HuffClass) (t : BitVec 2) (tab : HuffTable) : Reader Byte := fun ctx =>
  match huffDecodeArray g c t tab ctx with
  | .ok v ctx' => .ok v ctx'
  | .err e ctx' => if array then .err e ctx' else treeFail g c t e ctx'

/-! ## Commands -/

/-- HT_INIT tc, th, {b1..b16} (41_huffman.md R160). -/
def execHtInit (tc th : BitVec 4) (d0 d1 d2 d3 : Word) (s : State) : Result :=
  let i := Instr.htInit tc th d0 d1 d2 d3
  let bits := countsOf d0 d1 d2 d3
  withHuffId i tc th s fun c t =>
    if 256 < (countList bits).sum then raiseCheck i .huffmanInsert (infoInsert 5 0 tc th) s
    else .next ({ s with draws := s.draws + 32 }.setTable c t ((s.table c t).build bits s.draws))

/-- HT_INSERT tc, th, l, v (41_huffman.md R164). -/
def execHtInsert (tc th : BitVec 4) (l : BitVec 5) (v : Byte) (s : State) : Result :=
  let i := Instr.htInsert tc th l v
  withHuffId i tc th s fun c t =>
    withTable i c t s fun tab =>
      match tab.insertReason l.toNat with
      | some reason => raiseCheck i .huffmanInsert (infoInsert reason l tc th) s
      | none => .next (s.setTable c t (tab.insert v))

/-- HT_DECODE tc, th (41_huffman.md R175). -/
def execHtDecode (tc th : BitVec 4) (s : State) : Result :=
  let i := Instr.htDecode tc th
  withHuffId i tc th s fun c t =>
    withTable i c t s fun tab =>
      runReader i s (huffDecode s.seg s.arrayVariant c t tab) fun v u => u.pushResult (v.setWidth 32)

end Sys2Proof.Machine
end

