-- ==== Sys2Proof/Machine/Coefficient.lean ====
section
/-! DEFINITION. The coefficient reconstructor: slots and predictors, Receive and Extend, and PRED_RESET, SCAN_SETUP,
DECODE_COEFS and EXTEND (42_coefficient.md). -/

namespace Sys2Proof.Machine

/-- `Extend(v, t)` (42_coefficient.md R203). -/
def extendValue (v t : Nat) : Int :=
  if t = 0 then 0
  else if v < 2 ^ (t - 1) then (v : Int) - 2 ^ t + 1
  else v

/-- `Receive(t)` (42_coefficient.md R204). -/
def receive (g : Segment) (t : Nat) : Reader Nat := take g t

/-- A block with entry `k` written; an index past the end writes nothing. -/
def setEntry (b : Blk) (k : Nat) (v : Int) : Blk := b.setIfInBounds k (toWord v)

/-- What DECODE_COEFS reads its symbols with: the segment, the Huffman variant, and its two tables with their ids. -/
structure CoefTables where
  seg : Segment
  array : Bool
  td : BitVec 2
  dc : HuffTable
  ta : BitVec 2
  ac : HuffTable

/-- The AC loop from position `k` on, at most `fuel` symbols long; 63 always suffice (42_coefficient.md R210, R211,
47_system.md R345). -/
def acLoop (x : CoefTables) : Nat → Nat → Blk → Reader Blk
  | 0, _, b => Reader.ret b
  | fuel + 1, k, b =>
    if 63 < k then Reader.ret b
    else Reader.next (huffDecode x.seg x.array .ac x.ta x.ac) fun rs =>
      let r := (rs.extractLsb' 4 4).toNat
      let n := (rs.extractLsb' 0 4).toNat
      if n = 0 then
        if r = 0 then Reader.ret b
        else if r = 15 then acLoop x fuel (k + 16) b
        else Reader.raise .unsupportedRunLength (infoRun rs k)
      else if 63 < k + r then Reader.raise .acIndexOverflow (infoRun rs (k + r))
      else Reader.next (receive x.seg n) fun v => acLoop x fuel (k + r + 1) (setEntry b (k + r) (extendValue v n))

/-- The body of DECODE_COEFS after its checks: the block in zig-zag order and the new predictor (42_coefficient.md
R210). -/
def decodeBody (x : CoefTables) (pred : Word) : Reader (Blk × Word) :=
  Reader.next (huffDecode x.seg x.array .dc x.td x.dc) fun t =>
    if 11 < t.toNat then Reader.raise .dcCategory (infoReason t)
    else Reader.next (receive x.seg t.toNat) fun v =>
      let p := pred.toInt + extendValue v t.toNat
      if fits32 p then
        Reader.next (acLoop x 63 1 (setEntry (Vector.replicate 64 0) 0 p)) fun b => Reader.ret (b, toWord p)
      else Reader.raise .range (infoRangeFault 1 0)

/-- The tables a slot selects, as DECODE_COEFS uses them (42_coefficient.md R210). -/
def State.coefTables (s : State) (sl : Slot) : CoefTables :=
  { seg := s.seg, array := s.arrayVariant, td := sl.td, dc := s.table .dc sl.td, ta := sl.ta, ac := s.table .ac sl.ta }

/-- The state after an execution fault of a block decode: the bit reader, BLK and PRED[t] take any values
(60_exceptions.md R364, 42_coefficient.md R215). -/
def State.havocDecode (s : State) (t : BitVec 2) : State := (s.havocReader.havocBlk).havocPred t

/-! ## Commands -/

/-- PRED_RESET (42_coefficient.md R200). -/
def execPredReset (s : State) : Result := .next { s with pred := Vector.replicate 4 0 }

/-- SCAN_SETUP s, ci, td, ta, tq (42_coefficient.md R201). -/
def execScanSetup (slot td ta tq : BitVec 4) (ci : Byte) (s : State) : Result :=
  let i := Instr.scanSetup slot td ta tq ci
  match idOf slot with
  | none => raiseCheck i .argument (infoReason 3) s
  | some n =>
    match idOf td with
    | none => raiseCheck i .precisionRange (infoPrecision 4 (td.setWidth 16) 0) s
    | some d =>
      match idOf ta with
      | none => raiseCheck i .precisionRange (infoPrecision 5 (ta.setWidth 16) 0) s
      | some a =>
        match idOf tq with
        | none => raiseCheck i .precisionRange (infoPrecision 3 (tq.setWidth 16) 0) s
        | some q => .next (s.setSlot n { valid := true, ci := ci, td := d, ta := a, tq := q })

/-- DECODE_COEFS s (42_coefficient.md R210). -/
def execDecodeCoefs (slot : BitVec 4) (s : State) : Result :=
  let i := Instr.decodeCoefs slot
  withSlot i slot s fun t =>
    let sl := s.slotAt t
    withTable i .dc sl.td s fun _ =>
      withTable i .ac sl.ta s fun _ =>
        match decodeBody (s.coefTables sl) (s.predAt t) s.readCtx with
        | .ok (b, p) c => .next (({ s with blk := b }.setPred t p).withReadCtx c)
        | .err e c => .next (({ s with draws := c.draws }.havocDecode t).enterFault i.head e.kind e.info e.pos)

/-- EXTEND v, t (42_coefficient.md R205). -/
def execExtend (t : BitVec 5) (v : BitVec 16) (s : State) : Result :=
  if 16 < t.toNat then raiseCheck (.extend t v) .argument (infoReason 4) s
  else if 2 ^ t.toNat ≤ v.toNat then raiseCheck (.extend t v) .argument (infoReason 5) s
  else .next (s.pushResult (toWord (extendValue v.toNat t.toNat)))

end Sys2Proof.Machine
end

