-- ==== Sys2Proof/Machine/Dequant.lean ====
section
/-! DEFINITION. The quantization tables, the dequantizer and the zig-zag reorderer: QT_LOAD, DEQUANT and REORDER
(43_dequant_reorder.md). -/

namespace Sys2Proof.Machine

/-- `ZZINDEX[p]`, row by row: the zig-zag index of natural position p = 8·row + column (43_dequant_reorder.md R247). -/
def zzIndex : List Nat :=
  [0, 1, 5, 6, 14, 15, 27, 28] ++ [2, 4, 7, 13, 16, 26, 29, 42] ++ [3, 8, 12, 17, 25, 30, 41, 43]
    ++ [9, 11, 18, 24, 31, 40, 44, 53] ++ [10, 19, 23, 32, 39, 45, 52, 54] ++ [20, 22, 33, 38, 46, 51, 55, 60]
    ++ [21, 34, 37, 47, 50, 56, 59, 61] ++ [35, 36, 48, 49, 57, 58, 62, 63]

/-- `NATURAL[k]`, the natural position of zig-zag index k (43_dequant_reorder.md R247). -/
def natural : List Nat :=
  [0, 1, 8, 16, 9, 2, 3, 10] ++ [17, 24, 32, 25, 18, 11, 4, 5] ++ [12, 19, 26, 33, 40, 48, 41, 34]
    ++ [27, 20, 13, 6, 7, 14, 21, 28] ++ [35, 42, 49, 56, 57, 50, 43, 36] ++ [29, 22, 15, 23, 30, 37, 44, 51]
    ++ [58, 59, 52, 45, 38, 31, 39, 46] ++ [53, 60, 61, 54, 47, 55, 62, 63]

/-- BLK[k], or 0 past the end; every use is at an index below 64. -/
def blkGet (b : Blk) (k : Nat) : Word := b.toList.getD k 0

/-- `BLK[k] · Q[k]`, the exact product (43_dequant_reorder.md R242). -/
def dequantProduct (b : Blk) (q : Vector (BitVec 16) 64) (k : Fin 64) : Int := b[k].toInt * (q[k].toNat : Int)

/-- The body of DEQUANT after its checks: the products, or the first index whose product leaves 32 bits
(43_dequant_reorder.md R242). -/
def dequantBody (b : Blk) (q : Vector (BitVec 16) 64) : Except (BitVec 6) Blk :=
  let p : Vector Int 64 := vecOfFn (dequantProduct b q)
  match firstBad (fun v => !fits32 v) p with
  | some k => .error k
  | none => .ok (vecMap toWord p)

/-- The body of REORDER: natural position p receives zig-zag index ZZINDEX[p] (43_dequant_reorder.md R244). -/
def reorderBody (b : Blk) : Blk := vecOfFn fun p => blkGet b (zzIndex.getD p.val 0)

/-- The first entry of an 8-bit table above 255, with its index (43_dequant_reorder.md R240). -/
def firstWide (e : Vector (BitVec 16) 64) : Option (BitVec 6) := firstBad (fun v => decide (255 < v.toNat)) e

/-- QT_LOAD pq, tq, {e0..e63} (43_dequant_reorder.md R240). A term without exactly 32 data words encodes no command and
stops (log 19). -/
def execQtLoad (pq tq : BitVec 4) (ds : List Word) (s : State) : Result :=
  let i := Instr.qtLoad pq tq ds
  let e := entriesOf ds
  if ds.length ≠ 32 then .fault .malformedInstr
  else if 1 < pq.toNat then raiseCheck i .precisionRange (infoPrecision 6 (pq.setWidth 16) 0) s
  else
    match idOf tq with
    | none => raiseCheck i .precisionRange (infoPrecision 3 (tq.setWidth 16) 0) s
    | some t =>
      match (if pq = 0 then firstWide e else none) with
      | some k => raiseCheck i .precisionRange (infoPrecision 7 (e[k.toNat]'k.isLt) k) s
      | none => .next (s.setQuant t { valid := true, prec := pq == 1, q := e })

/-- DEQUANT tq (43_dequant_reorder.md R242). A RangeFault is an execution fault: BLK takes any values (60_exceptions.md
R364). -/
def execDequant (tq : BitVec 4) (s : State) : Result :=
  let i := Instr.dequant tq
  match idOf tq with
  | none => raiseCheck i .precisionRange (infoPrecision 3 (tq.setWidth 16) 0) s
  | some t =>
    withQuant i t s fun q =>
      match dequantBody s.blk q.q with
      | .ok b => .next { s with blk := b }
      | .error k => .next (s.havocBlk.enterFault i.head .range (infoRangeFault 2 k) s.br.pos)

/-- REORDER (43_dequant_reorder.md R244). -/
def execReorder (s : State) : Result := .next { s with blk := reorderBody s.blk }

end Sys2Proof.Machine
end

