-- ==== Sys2Proof/Machine/Idct.lean ====
section
/-! DEFINITION. The IDCT engine: the float transform with its tie band, exact, the Chen-Wang fixed-point transform, and IDCT
(44_idct.md). -/

namespace Sys2Proof.Machine

/-! ## Floating-point variants (44_idct.md R261-R263) -/

/-- cos(k·π/16)·2^128 to the nearest integer, for k = 0..8: the ROM of 44_idct.md R263. -/
def cosRom : List Int :=
  [340282366920938463463374607431768211456, 333743936656827580393945988193699131951,
   314379914072750776175968446001973125505, 282934447697145148265594844364568804969,
   240615969168004511545033772477625056927, 189050753882727566157415671260389918823,
   130220424146621615521356287377630227996, 66385796539016198537004233668372411924, 0]

/-- cos(k·π/16)·2^128 for any k, by the symmetries of the cosine. -/
def cosScaled (k : Nat) : Int :=
  let m := k % 32
  if m ≤ 8 then cosRom.getD m 0
  else if m ≤ 16 then -cosRom.getD (16 - m) 0
  else if m ≤ 24 then -cosRom.getD (m - 16) 0
  else cosRom.getD (32 - m) 0

/-- C(u)·cos((2x+1)·u·π/16)·2^128, where C(0) = 1/√2 = cos(4π/16) (44_idct.md R261). -/
def basis (u x : Nat) : Int := if u = 0 then cosScaled 4 else cosScaled ((2 * x + 1) * u)

/-- The sum of `f` over 0..7. -/
def sum8 (f : Nat → Int) : Int := f 0 + f 1 + f 2 + f 3 + f 4 + f 5 + f 6 + f 7

/-- The inner sums over u, one for each v and x, at v·8 + x. -/
def rowSums (b : Blk) : Vector Int 64 :=
  vecOfFn fun n => sum8 fun u => basis u (n.val % 8) * (blkGet b (8 * (n.val / 8) + u)).toInt

/-- r[y][x]·2^258: the double sum of 44_idct.md R261 over the scaled cosines, an exact integer. -/
def scaledSample (r : Vector Int 64) (y x : Nat) : Int := sum8 fun v => basis v y * r.toList.getD (8 * v + x) 0

/-- The scale of `scaledSample`, 2^258: 2^128 for each of the two cosines and 4 for the factor 1/4. -/
def sampleScale : Int := 4 * 2 ^ 128 * 2 ^ 128

/-- Round half up a number given in units of 1/`sampleScale` (00_scope.md R11). -/
def roundScaled (n : Int) : Int := (2 * n + sampleScale) / (2 * sampleScale)

/-- The distance to the half-integer between floor and floor + 1, in units of 1/(2·`sampleScale`). -/
def tieDistance (n : Int) : Int := (2 * n - (2 * (n / sampleScale) + 1) * sampleScale).natAbs

/-! ### Near a half-integer: exact arithmetic

Every cos(k·π/16) is an integer combination of 2·cos(k·π/16), k = 1..7, and 1; and 2·cos(4π/16) = √2, 2·cos(2π/16) =
√(2 + √2), 2·cos(π/16) = √(2 + √(2 + √2)). So a sign is found exactly, by squaring. -/

/-- The number a + b·√2. -/
structure Root2 where
  a : Int
  b : Int
  deriving DecidableEq, Repr

/-- The number p + q·√(2 + √2). -/
structure Root4 where
  p : Root2
  q : Root2
  deriving DecidableEq, Repr

/-- The number u + v·√(2 + √(2 + √2)). -/
structure Root8 where
  u : Root4
  v : Root4
  deriving DecidableEq, Repr

/-- The sign of u + v·√d from the signs of u, v and u² - v²·d. -/
def rootSign (u v diff : Int) : Int := if u = v ∨ v = 0 then u else if u = 0 then v else u * diff

def Root2.mul (x y : Root2) : Root2 := ⟨x.a * y.a + 2 * x.b * y.b, x.a * y.b + x.b * y.a⟩

def Root2.sub (x y : Root2) : Root2 := ⟨x.a - y.a, x.b - y.b⟩

def Root2.sign (x : Root2) : Int := rootSign x.a.sign x.b.sign (x.a * x.a - 2 * x.b * x.b).sign

/-- (p + q·s)² with s = √(2 + √2). -/
def Root4.sq (x : Root4) : Root4 :=
  ⟨⟨(x.p.mul x.p).a + ((x.q.mul x.q).mul ⟨2, 1⟩).a, (x.p.mul x.p).b + ((x.q.mul x.q).mul ⟨2, 1⟩).b⟩,
    Root2.mul ⟨2, 0⟩ (x.p.mul x.q)⟩

/-- The product with 2 + √(2 + √2). -/
def Root4.scale (x : Root4) : Root4 :=
  ⟨⟨2 * x.p.a + (x.q.mul ⟨2, 1⟩).a, 2 * x.p.b + (x.q.mul ⟨2, 1⟩).b⟩, ⟨x.p.a + 2 * x.q.a, x.p.b + 2 * x.q.b⟩⟩

def Root4.sub (x y : Root4) : Root4 := ⟨x.p.sub y.p, x.q.sub y.q⟩

def Root4.sign (x : Root4) : Int :=
  rootSign x.p.sign x.q.sign ((x.p.mul x.p).sub ((x.q.mul x.q).mul ⟨2, 1⟩)).sign

def Root8.sign (x : Root8) : Int := rootSign x.u.sign x.v.sign (x.u.sq.sub x.v.sq.scale).sign

/-- The number c(0) + Σ c(k)·2·cos(k·π/16), k = 1..7. -/
def Root8.ofCosines (c : Nat → Int) : Root8 :=
  ⟨⟨⟨c 0, c 4⟩, ⟨c 2 - c 6, c 6⟩⟩, ⟨⟨c 1 - c 3 + c 5 - c 7, c 5 - c 7⟩, ⟨c 3 - c 5, c 7⟩⟩⟩

/-- How often cos(k·π/16), k = 0..7, counts in cos(m·π/16): 1, -1 or 0. -/
def cosCoef (k m : Nat) : Int :=
  if m % 32 = k ∨ m % 32 + k = 32 then 1 else if m % 32 + k = 16 ∨ m % 32 = k + 16 then -1 else 0

/-- The angle of a factor of the transform, in units of π/16: C(0) is the cosine of 4 units (44_idct.md R261). -/
def angle (u x : Nat) : Nat := if u = 0 then 4 else (2 * x + 1) * u

/-- The coefficient of 2·cos(k·π/16) in 16·r[y][x], by 2·cos A·cos B = cos(A + B) + cos(A - B) (44_idct.md R261). -/
def sampleCoef (b : Blk) (y x k : Nat) : Int :=
  sum8 fun v => sum8 fun u =>
    (blkGet b (8 * v + u)).toInt *
      (cosCoef k (angle v y + angle u x) + cosCoef k ((angle v y - angle u x) + (angle u x - angle v y)))

/-- The coefficients of 16·(r[y][x] - (n + 1/2)). -/
def tieCoef (b : Blk) (y x : Nat) (n : Int) (k : Nat) : Int :=
  if k = 0 then 2 * sampleCoef b y x 0 - 16 * n - 8 else sampleCoef b y x k

/-- The sign of r[y][x] - (n + 1/2) - e, exactly. -/
def signPast (b : Blk) (y x : Nat) (n : Int) (e : ℚ) : Int :=
  (Root8.ofCosines fun k => e.den * tieCoef b y x n k - if k = 0 then 16 * e.num else 0).sign

/-- Is |r[y][x] - (n + 1/2)| ≤ FLOAT_TIE_EPS (44_idct.md R262)? Exactly. -/
def inTieBand (b : Blk) (y x : Nat) (n : Int) : Bool :=
  decide (signPast b y x n Config.tieEps ≤ 0) && decide (0 ≤ signPast b y x n (-Config.tieEps))

/-- One sample of `FloatIDCT` before the clamp, exactly as 44_idct.md R262 gives it; the draw at a tie is
`Config.floatTieUp`. A sample farther than 2^-9 from every half-integer, by the scaled cosines, is rounded by them; eps is
at most 2^-10, so it is in no tie band. Any nearer one is decided exactly. Log 14. -/
def floatRound (b : Blk) (y x : Nat) (n : Int) : Int :=
  let f := n / sampleScale
  if 2 * sampleScale < tieDistance n * 2 ^ 9 then roundScaled n
  else if inTieBand b y x f then f + (if Config.floatTieUp b (8 * y + x) then 1 else 0)
  else if 0 ≤ signPast b y x f 0 then f + 1
  else f

/-- `FloatIDCT` (44_idct.md R262); the naive and the cached variant are this same function (R263). -/
def floatIdct (b : Blk) : Blk :=
  let r := rowSums b
  vecOfFn fun n =>
    toWord (clamp (floatRound b (n.val / 8) (n.val % 8) (scaledSample r (n.val / 8) (n.val % 8))) (-128) 127)

/-! ## Chen-Wang fixed-point variant (44_idct.md R264-R267) -/

/-- W1 .. W7 but W4 (44_idct.md R265). -/
def w1 : Word := 2841
def w2 : Word := 2676
def w3 : Word := 2408
def w5 : Word := 1609
def w6 : Word := 1108
def w7 : Word := 565

/-- `>>`, the arithmetic shift right of a 32-bit value (44_idct.md R264). -/
def asr (x : Word) (n : Nat) : Word := x.sshiftRight n

/-- The clamp of a column-pass output to -128..127 (44_idct.md R267). -/
def clampSample (x : Word) : Word := toWord (clamp x.toInt (-128) 127)

/-- `RowPass(b)`; every operation wraps at 32 bits (44_idct.md R266). -/
def rowPass (b : Vector Word 8) : Vector Word 8 :=
  let x1 := b[4] <<< 11
  let x2 := b[6]
  let x3 := b[2]
  let x4 := b[1]
  let x5 := b[7]
  let x6 := b[5]
  let x7 := b[3]
  if x1 ||| x2 ||| x3 ||| x4 ||| x5 ||| x6 ||| x7 = 0 then Vector.replicate 8 (b[0] <<< 3)
  else
    let x0 := (b[0] <<< 11) + 128
    let x8 := w7 * (x4 + x5)
    let x4 := x8 + (w1 - w7) * x4
    let x5 := x8 - (w1 + w7) * x5
    let x8 := w3 * (x6 + x7)
    let x6 := x8 - (w3 - w5) * x6
    let x7 := x8 - (w3 + w5) * x7
    let x8 := x0 + x1
    let x0 := x0 - x1
    let x1 := w6 * (x3 + x2)
    let x2 := x1 - (w2 + w6) * x2
    let x3 := x1 + (w2 - w6) * x3
    let x1 := x4 + x6
    let x4 := x4 - x6
    let x6 := x5 + x7
    let x5 := x5 - x7
    let x7 := x8 + x3
    let x8 := x8 - x3
    let x3 := x0 + x2
    let x0 := x0 - x2
    let x2 := asr (181 * (x4 + x5) + 128) 8
    let x4 := asr (181 * (x4 - x5) + 128) 8
    #v[asr (x7 + x1) 8, asr (x3 + x2) 8, asr (x0 + x4) 8, asr (x8 + x6) 8,
       asr (x8 - x6) 8, asr (x0 - x4) 8, asr (x3 - x2) 8, asr (x7 - x1) 8]

/-- `ColPass(c)` (44_idct.md R267). -/
def colPass (col : Vector Word 8) : Vector Word 8 :=
  let x1 := col[4] <<< 8
  let x2 := col[6]
  let x3 := col[2]
  let x4 := col[1]
  let x5 := col[7]
  let x6 := col[5]
  let x7 := col[3]
  if x1 ||| x2 ||| x3 ||| x4 ||| x5 ||| x6 ||| x7 = 0 then Vector.replicate 8 (clampSample (asr (col[0] + 32) 6))
  else
    let x0 := (col[0] <<< 8) + 8192
    let x8 := w7 * (x4 + x5) + 4
    let x4 := asr (x8 + (w1 - w7) * x4) 3
    let x5 := asr (x8 - (w1 + w7) * x5) 3
    let x8 := w3 * (x6 + x7) + 4
    let x6 := asr (x8 - (w3 - w5) * x6) 3
    let x7 := asr (x8 - (w3 + w5) * x7) 3
    let x8 := x0 + x1
    let x0 := x0 - x1
    let x1 := w6 * (x3 + x2) + 4
    let x2 := asr (x1 - (w2 + w6) * x2) 3
    let x3 := asr (x1 + (w2 - w6) * x3) 3
    let x1 := x4 + x6
    let x4 := x4 - x6
    let x6 := x5 + x7
    let x5 := x5 - x7
    let x7 := x8 + x3
    let x8 := x8 - x3
    let x3 := x0 + x2
    let x0 := x0 - x2
    let x2 := asr (181 * (x4 + x5) + 128) 8
    let x4 := asr (181 * (x4 - x5) + 128) 8
    vecMap (fun x => clampSample (asr x 14))
      #v[x7 + x1, x3 + x2, x0 + x4, x8 + x6, x8 - x6, x0 - x4, x3 - x2, x7 - x1]

/-- Row `i` of a block: BLK[8·i .. 8·i+7] (44_idct.md R266). -/
def rowOf (b : Blk) (i : Nat) : Vector Word 8 := vecOfFn fun j => blkGet b (8 * i + j.val)

/-- Column `j` of a block: BLK[j], BLK[8+j], ..., BLK[56+j] (44_idct.md R267). -/
def colOf (b : Blk) (j : Nat) : Vector Word 8 := vecOfFn fun i => blkGet b (8 * i.val + j)

/-- Entry `j` of entry `i` of eight groups of eight. -/
def groupGet (g : Vector (Vector Word 8) 8) (i j : Nat) : Word :=
  (g.toList.getD i (Vector.replicate 8 0)).toList.getD j 0

/-- RowPass on rows 0..7. -/
def rowPasses (b : Blk) : Blk :=
  let rows : Vector (Vector Word 8) 8 := vecOfFn fun i => rowPass (rowOf b i.val)
  vecOfFn fun n => groupGet rows (n.val / 8) (n.val % 8)

/-- ColPass on columns 0..7. -/
def colPasses (b : Blk) : Blk :=
  let cols : Vector (Vector Word 8) 8 := vecOfFn fun j => colPass (colOf b j.val)
  vecOfFn fun n => groupGet cols (n.val % 8) (n.val / 8)

/-- `ChenWangIDCT(BLK)` (44_idct.md R267). -/
def chenWangIdct (b : Blk) : Blk := colPasses (rowPasses b)

/-! ## The command -/

/-- The body of IDCT for one variant; none for IM = 3, which cannot be stored (44_idct.md R260, 10_state.md R31). -/
def idctBody (im : BitVec 2) (b : Blk) : Option Blk :=
  if im = 3 then none
  else if im = 2 then some (chenWangIdct b)
  else some (floatIdct b)

/-- IDCT (44_idct.md R260). -/
def execIdct (s : State) : Result :=
  match idctBody s.idctVariant s.blk with
  | some b => .next { s with blk := b }
  | none => .fault .reservedIdctVariant

end Sys2Proof.Machine
end

