-- ==== Sys2Proof/Machine/Output.lean ====
section
/-! DEFINITION. Level shift, block output and the fused pipeline: LEVEL_SHIFT, EMIT and DECODE_BLOCK
(45_level_shift_output.md). -/

namespace Sys2Proof.Machine

/-- The body of LEVEL_SHIFT: 128 added to every entry, or the first index whose sum leaves 32 bits
(45_level_shift_output.md R290). -/
def levelShiftBody (b : Blk) : Except (BitVec 6) Blk :=
  let p : Vector Int 64 := vecMap (fun w => w.toInt + 128) b
  match firstBad (fun v => !fits32 v) p with
  | some k => .error k
  | none => .ok (vecMap toWord p)

/-- The first entry that is not a byte (45_level_shift_output.md R292). -/
def firstNonByte (b : Blk) : Option (BitVec 6) :=
  firstBad (fun w => decide (w.toInt < 0) || decide (255 < w.toInt)) b

/-- Four samples packed little-endian: BLK[4·j + m] in bits 8·m+7 : 8·m (45_level_shift_output.md R293). -/
def packSamples (b : Blk) (j : Nat) : Word :=
  field (blkGet b (4 * j + 3)) 0 8 ++ field (blkGet b (4 * j + 2)) 0 8 ++ field (blkGet b (4 * j + 1)) 0 8
    ++ field (blkGet b (4 * j)) 0 8

/-- The 18-word output record (45_level_shift_output.md R293). -/
def record (ci : Byte) (slot : BitVec 4) (d : Word) (b : Blk) : List Word :=
  (0#20 ++ slot ++ ci) :: d :: (List.range 16).map (packSamples b)

/-- LEVEL_SHIFT (45_level_shift_output.md R290). A RangeFault is an execution fault: BLK takes any values
(60_exceptions.md R364). -/
def execLevelShift (s : State) : Result :=
  match levelShiftBody s.blk with
  | .ok b => .next { s with blk := b }
  | .error k => .next (s.havocBlk.enterFault Instr.levelShift.head .range (infoRangeFault 3 k) s.br.pos)

/-- EMIT s, bx, by (45_level_shift_output.md R292). Its RangeFault is a check fault (60_exceptions.md R364). -/
def execEmit (slot : BitVec 4) (d : Word) (s : State) : Result :=
  let i := Instr.emit slot d
  withSlot i slot s fun t =>
    match firstNonByte s.blk with
    | some k => raiseCheck i .range (infoRangeFault 4 k) s
    | none => .next (s.pushOut (record (s.slotAt t).ci slot d s.blk))

/-- What follows the decoded coefficients in DECODE_BLOCK: the bodies of DEQUANT, REORDER, IDCT and LEVEL_SHIFT, or the
stage and index of a RangeFault (45_level_shift_output.md R296). None is CONFIG.IM = 3. -/
def pipeline (im : BitVec 2) (q : Vector (BitVec 16) 64) (b : Blk) : Option (Except (Byte × BitVec 6) Blk) :=
  match dequantBody b q with
  | .error k => some (.error (2, k))
  | .ok b1 =>
    match idctBody im (reorderBody b1) with
    | none => none
    | some b2 =>
      match levelShiftBody b2 with
      | .error k => some (.error (3, k))
      | .ok b3 => some (.ok b3)

/-- DECODE_BLOCK s, bx, by (45_level_shift_output.md R296). After an execution fault the bit reader, BLK and PRED[S] take
any values, and FAULT_POS is POS at the point of the raise (60_exceptions.md R363, R364). -/
def execDecodeBlock (slot : BitVec 4) (d : Word) (s : State) : Result :=
  let i := Instr.decodeBlock slot d
  withSlot i slot s fun t =>
    let sl := s.slotAt t
    withTable i .dc sl.td s fun _ =>
      withTable i .ac sl.ta s fun _ =>
        withQuant i sl.tq s fun q =>
          match decodeBody (s.coefTables sl) (s.predAt t) s.readCtx with
          | .err e c => .next (({ s with draws := c.draws }.havocDecode t).enterFault i.head e.kind e.info e.pos)
          | .ok (b, p) c =>
            match pipeline s.idctVariant q.q b with
            | none => .fault .reservedIdctVariant
            | some (.error (stage, k)) =>
              .next (({ s with draws := c.draws }.havocDecode t).enterFault i.head .range (infoRangeFault stage k)
                c.br.pos)
            | some (.ok out) =>
              .next ((({ s with blk := out }.setPred t p).withReadCtx c).pushOut (record sl.ci slot d out))

end Sys2Proof.Machine
end

