-- ==== Sys2Proof/Machine/Color.lean ====
section
/-! DEFINITION. The colour converter: both paths and COLOR (46_color.md). -/

namespace Sys2Proof.Machine

/-- `rhu(n/d)` for d > 0: round half up of an exact rational, floor(n/d + 1/2) (00_scope.md R11). -/
def roundHalfUp (n d : Int) : Int := (2 * n + d) / (2 * d)

/-- A channel clamped to 0..255 (46_color.md R312). -/
def channel (v : Int) : Byte := BitVec.ofInt 8 (clamp v 0 255)

/-- `ColorFloat`: exact rational arithmetic with the decimal constants, rounded half up (46_color.md R312). -/
def colorFloat (y cb cr : Int) : Byte × Byte × Byte :=
  let cb := cb - 128
  let cr := cr - 128
  (channel (roundHalfUp (1000 * y + 1402 * cr) 1000),
   channel (roundHalfUp (100000 * y - 34414 * cb - 71414 * cr) 100000),
   channel (roundHalfUp (1000 * y + 1772 * cb) 1000))

/-- `ColorInt`: 16-bit fixed-point constants; dividing by 65536 floors, which is asr by 16 (46_color.md R313). -/
def colorInt (y cb cr : Int) : Byte × Byte × Byte :=
  let cb := cb - 128
  let cr := cr - 128
  (channel (y + (91881 * cr + 32768) / 65536),
   channel (y + (-22554 * cb - 46802 * cr + 32768) / 65536),
   channel (y + (116130 * cb + 32768) / 65536))

/-- R in 7:0, G in 15:8, B in 23:16, A = 255 in 31:24 (46_color.md R315). -/
def packRgba (rgb : Byte × Byte × Byte) : Word := 255#8 ++ rgb.2.2 ++ rgb.2.1 ++ rgb.1

/-- COLOR y, cb, cr (46_color.md R310). -/
def execColor (y cb cr : Byte) (s : State) : Result :=
  .next (s.pushResult (packRgba (
    if s.integerColor then colorInt y.toNat cb.toNat cr.toNat else colorFloat y.toNat cb.toNat cr.toNat)))

end Sys2Proof.Machine
end

