-- ==== Sys2Proof/Machine/System.lean ====
section
/-! DEFINITION. The system commands NOP, SYNC, SET_CONFIG, SET_RSTINT, BLK_WRITE and BLK_READ (47_system.md). -/

namespace Sys2Proof.Machine

/-- NOP (47_system.md R330). -/
def execNop (s : State) : Result := .next s

/-- SYNC tag (47_system.md R331). -/
def execSync (tag : BitVec 16) (s : State) : Result := .next (s.pushResult (tag.setWidth 32))

/-- SET_CONFIG hm, im, cm (47_system.md R332). IM = 3 is IllegalCommand reason 2, a check fault. -/
def execSetConfig (hm : BitVec 1) (im : BitVec 2) (cm : BitVec 1) (s : State) : Result :=
  if im = 3 then raiseCheck (.setConfig hm im cm) .illegalCommand (infoReason 2) s
  else
    let s1 := if hm ≠ s.config.extractLsb' 0 1 then s.invalidateTables else s
    .next { s1 with config := cm ++ im ++ hm }

/-- SET_RSTINT ri (47_system.md R335). -/
def execSetRstint (ri : BitVec 16) (s : State) : Result := .next { s with rstint := ri }

/-- BLK_WRITE k, value (47_system.md R340). -/
def execBlkWrite (k : BitVec 6) (d : Word) (s : State) : Result := .next (s.setBlkAt k d)

/-- BLK_READ k (47_system.md R341). -/
def execBlkRead (k : BitVec 6) (s : State) : Result := .next (s.pushResult (s.blkAt k))

end Sys2Proof.Machine
end

