-- ==== Sys2Proof/Machine/HostPort.lean ====
section
/-! DEFINITION. The register window: what a host read and a host write of each register do (10_state.md R40-R42,
20_memory.md R62-R69), and one host access as a step. -/

namespace Sys2Proof.Machine

/-- The registers of the window by name (10_state.md R40). -/
inductive Reg where
  | id | ctrl | status | irqEn | cmd | result | out | segAddr | segData | segLen | brPos | brState | brReg
  | faultCode | faultCmd | faultInfo | faultPos | config | rstint | tblValid
  | pred (s : BitVec 2)
  | reserved
  deriving DecidableEq, Repr

/-- The register at a word-aligned offset (10_state.md R40). -/
def Reg.ofOffset (off : Byte) : Reg :=
  if off = 0x00#8 then .id
  else if off = 0x04#8 then .ctrl
  else if off = 0x08#8 then .status
  else if off = 0x0C#8 then .irqEn
  else if off = 0x10#8 then .cmd
  else if off = 0x14#8 then .result
  else if off = 0x18#8 then .out
  else if off = 0x1C#8 then .segAddr
  else if off = 0x20#8 then .segData
  else if off = 0x24#8 then .segLen
  else if off = 0x28#8 then .brPos
  else if off = 0x2C#8 then .brState
  else if off = 0x30#8 then .brReg
  else if off = 0x34#8 then .faultCode
  else if off = 0x38#8 then .faultCmd
  else if off = 0x3C#8 then .faultInfo
  else if off = 0x40#8 then .faultPos
  else if off = 0x44#8 then .config
  else if off = 0x48#8 then .rstint
  else if off = 0x4C#8 then .tblValid
  else if off = 0x50#8 then .pred 0
  else if off = 0x54#8 then .pred 1
  else if off = 0x58#8 then .pred 2
  else if off = 0x5C#8 then .pred 3
  else .reserved

/-- A read that returns any value: one draw (00_scope.md R14). -/
def anyRead (s : State) : Word × State :=
  (BitVec.ofNat 32 (Config.freeNat s.draws), { s with draws := s.draws + 1 })

/-- A datapath register: its value while BUSY = 0, any value while BUSY = 1 (10_state.md R42). Log 10. -/
def stableRead (s : State) (w : Word) : Word × State := if s.busy then anyRead s else (w, s)

/-- A read of STATUS: while BUSY = 1 its bits 2 and 3 are draws (10_state.md R41, R42). -/
def statusRead (s : State) : Word × State :=
  if s.busy then
    (s.statusWith (Config.freeNat s.draws % 2 == 1) (Config.freeNat (s.draws + 1) % 2 == 1),
      { s with draws := s.draws + 2 })
  else (s.status, s)

/-- A read of RESULT (20_memory.md R67). -/
def resultRead (s : State) : Word × State :=
  match s.resq with
  | w :: rest => (w, { s with resq := rest })
  | [] => anyRead { s with resUnderflow := true }

/-- A read of OUT (20_memory.md R68). -/
def outRead (s : State) : Word × State :=
  match s.outq with
  | w :: rest => (w, { s with outq := rest })
  | [] => anyRead { s with outUnderflow := true }

/-- A read of SEG_DATA: it does not advance SEG_ADDR (20_memory.md R62). -/
def segDataRead (s : State) : Word :=
  if s.seg.addr.toNat < Config.segSize then (s.seg.byte s.seg.addr.toNat).setWidth 32 else 0

/-- A host read: the word returned, and the state after it (10_state.md R40). -/
def hostRead (r : Reg) (s : State) : Word × State :=
  match r with
  | .id => (0x4A504547#32, s)
  | .ctrl => (0, s)
  | .status => statusRead s
  | .irqEn => (s.irqEn.setWidth 32, s)
  | .cmd => (0, s)
  | .result => resultRead s
  | .out => outRead s
  | .segAddr => (s.seg.addr.setWidth 32, s)
  | .segData => (segDataRead s, s)
  | .segLen => (s.seg.len.setWidth 32, s)
  | .brPos => stableRead s (s.br.pos.setWidth 32)
  | .brState => stableRead s s.brState
  | .brReg => stableRead s s.br.bitreg
  | .faultCode => stableRead s (s.faultCode.setWidth 32)
  | .faultCmd => stableRead s s.faultCmd
  | .faultInfo => stableRead s s.faultInfo
  | .faultPos => stableRead s (s.faultPos.setWidth 32)
  | .config => (s.config.setWidth 32, s)
  | .rstint => (s.rstint.setWidth 32, s)
  | .tblValid => (s.tblValid, s)
  | .pred t => stableRead s (s.predAt t)
  | .reserved => (0, s)

/-- A write of CTRL: SOFT_RESET, then CLEAR_FAULT, then CLEAR_STICKY (47_system.md R343). -/
def ctrlWrite (w : Word) (s : State) : State :=
  let s1 := if w.getLsbD 0 then s.softReset else s
  let s2 := if w.getLsbD 1 then s1.clearFault else s1
  if w.getLsbD 2 then s2.clearSticky else s2

/-- A write of CMD (20_memory.md R66). -/
def cmdWrite (w : Word) (s : State) : State :=
  if s.cmdFull then { s with cmdOverrun := true } else { s with cmdq := s.cmdq ++ [w] }

/-- A write of SEG_DATA (20_memory.md R62). While BUSY = 1 a command in flight may still see the old byte (R72). -/
def segDataWrite (w : Word) (s : State) : State :=
  let a := s.seg.addr.toNat
  if a < Config.segSize then
    { s with seg := { s.seg with
        cells := Memory.write s.seg.cells a (field w 0 8)
        addr := s.seg.addr + 1
        oldBytes := if s.busy then (a, s.seg.byte a) :: s.seg.oldBytes else s.seg.oldBytes } }
  else { s with seg := { s.seg with addr := s.seg.addr + 1 } }

/-- A write of SEG_LEN, clamped to SEG_SIZE (20_memory.md R63). While BUSY = 1 a command in flight may still see the old
length (R72). -/
def segLenWrite (w : Word) (s : State) : State :=
  { s with seg := { s.seg with
      len := BitVec.ofNat 25 (min (field w 0 25).toNat Config.segSize)
      oldLens := if s.busy then s.seg.len :: s.seg.oldLens else s.seg.oldLens } }

/-- A host write: read-only and reserved registers ignore it (10_state.md R40). DESIGN CHOICE, unsafe: so do the POP
registers RESULT and OUT, of which the spec defines only the read. Log 23. -/
def hostWrite (r : Reg) (w : Word) (s : State) : State :=
  match r with
  | .ctrl => ctrlWrite w s
  | .irqEn => { s with irqEn := field w 0 4 }
  | .cmd => cmdWrite w s
  | .segAddr => { s with seg := { s.seg with addr := field w 0 24 } }
  | .segData => segDataWrite w s
  | .segLen => segLenWrite w s
  | .id | .status | .result | .out | .brPos | .brState | .brReg | .faultCode | .faultCmd | .faultInfo | .faultPos
  | .config | .rstint | .tblValid | .pred _ | .reserved => s

/-- The offset of a bus address in this block's window at CORE_BASE, if it lies there (10_state.md R40). -/
def windowOffset (addr : Nat) : Option Byte :=
  if addr / 256 = Config.corePage then some (BitVec.ofNat 8 addr) else none

/-- The bus address of an offset in this block's window. -/
def busAddress (off : Byte) : Nat := Config.coreBase + off.toNat

/-- One access inside the window. Only an aligned 32-bit access has a meaning (20_memory.md R65). -/
def windowAccess (off : Byte) (a : HostAccess) (s : State) : Result :=
  if a.bytes ≠ 4 ∨ off.toNat % 4 ≠ 0 then .refused .hostAccess
  else
    match a.dir with
    | .read => .next { (hostRead (Reg.ofOffset off) s).2 with busData := (hostRead (Reg.ofOffset off) s).1 }
    | .write w => .next (hostWrite (Reg.ofOffset off) w s)

/-- One host access. An address outside the window is not this block's, and changes nothing here (60_exceptions.md
R376). DESIGN CHOICE, unsafe: the start address alone decides, so an access that starts below CORE_BASE and reaches into
the window changes nothing either; the host makes no such access (20_memory.md R65). Log 17. -/
def hostAccess (a : HostAccess) (s : State) : Result :=
  match windowOffset a.addr with
  | none => .next s
  | some off => windowAccess off a s

/-- Segment writes settle when BUSY becomes 0: from then on every command sees the new values (20_memory.md R72-R74).
Log 9. -/
def State.settle (s : State) : State :=
  if s.busy then s else { s with seg := { s.seg with oldBytes := [], oldLens := [] } }

/-- A step's outcome with its segment writes settled. -/
def settleResult : Result → Result
  | .next s => .next s.settle
  | .fault r => .fault r
  | .refused r => .refused r

end Sys2Proof.Machine
end

