-- ==== Sys2Proof/Machine/Fetch.lean ====
section
/-! DEFINITION. Taking the next command from CMDQ: readiness (20_memory.md R70) and the order of checks up to a
command's own (30_encoding.md R100). -/

namespace Sys2Proof.Machine

/-- The commands that push a word to RESQ (40_bitreader.md R138 and the rule of each). -/
def Op.pushesResult : Op → Bool
  | .sync | .brNextbit | .brPeek | .htDecode | .extend | .color | .blkRead => true
  | .nop | .setConfig | .setRstint | .brSeek | .brConsume | .brAlign | .htInit | .htInsert | .qtLoad | .predReset
  | .scanSetup | .decodeCoefs | .dequant | .reorder | .idct | .levelShift | .emit | .decodeBlock | .blkWrite => false

/-- The commands that push a record to OUTQ (45_level_shift_output.md R292, R296). -/
def Op.pushesRecord : Op → Bool
  | .emit | .decodeBlock => true
  | .nop | .sync | .setConfig | .setRstint | .brSeek | .brNextbit | .brPeek | .brConsume | .brAlign | .htInit
  | .htInsert | .htDecode | .qtLoad | .predReset | .scanSetup | .decodeCoefs | .extend | .dequant | .reorder | .idct
  | .levelShift | .color | .blkWrite | .blkRead => false

/-- The output FIFOs have the room a command needs, by its operation code (20_memory.md R70). Log 4. -/
def State.roomFor (s : State) (o : Op) : Bool :=
  (!Op.pushesResult o || s.resRoom) && (!Op.pushesRecord o || s.outRoom)

/-- What the core's turn finds at the head of CMDQ. -/
inductive Fetched where
  /-- No command is ready: the core holds (20_memory.md R70). -/
  | hold
  /-- IllegalCommand: the command word, the reason, and the words left in CMDQ (30_encoding.md R92, R95). -/
  | illegal (w : Word) (reason : Byte) (rest : List Word)
  /-- A command, and the words left in CMDQ. -/
  | run (i : Instr) (rest : List Word)
  deriving DecidableEq, Repr

/-- Take the next command from CMDQ, if one is ready (20_memory.md R70, 30_encoding.md R100). An undefined OP needs only
its own word. A reserved bit is found after the data words are taken. -/
def State.fetch (s : State) : Fetched :=
  if s.faulted then .hold
  else
    match s.cmdq with
    | [] => .hold
    | w :: rest =>
      match Op.ofCode (field w 24 8) with
      | none => .illegal w 0 rest
      | some o =>
        if s.roomFor o then
          match decode (w :: rest) with
          | .ok (i, left) => .run i left
          | .error .reservedBits => .illegal w 1 (rest.drop o.dataWords)
          | .error .undefinedOp => .illegal w 0 rest
          | .error .missingData => .hold
          | .error .empty => .hold
        else .hold

/-- IllegalCommand raised by the command word itself: a check fault (60_exceptions.md R361, R364). -/
def State.illegalCommand (s : State) (w : Word) (reason : Byte) : State :=
  s.enterFault w .illegalCommand (infoReason reason) s.br.pos

/-- CMDQ with the words of an instruction numbered as the opcode table numbers its bits at its head and nothing after
them: the command word and as many data words as its OP takes. -/
def placedWords (nbits w : Nat) : List Word :=
  match tableWords nbits w with
  | [] => []
  | c :: rest =>
    match Op.ofCode (field c 24 8) with
    | none => [c]
    | some o => c :: rest.take o.dataWords

end Sys2Proof.Machine
end

