-- ==== Sys2Proof/Machine/Dispatch.lean ====
section
/-! DEFINITION. The meaning of every command, one arm each. -/

namespace Sys2Proof.Machine

open Sys2Proof

/-- What a command does, once its words are out of CMDQ. -/
def exec (i : Instr) (s : State) : Host.Outcome State Fault Refusal :=
  match i with
  | .nop => Sys2Proof.Machine.execNop s
  | .sync tag => Sys2Proof.Machine.execSync tag s
  | .setConfig hm im cm => Sys2Proof.Machine.execSetConfig hm im cm s
  | .setRstint ri => Sys2Proof.Machine.execSetRstint ri s
  | .brSeek p => Sys2Proof.Machine.execBrSeek p s
  | .brNextbit => Sys2Proof.Machine.execBrNextbit s
  | .brPeek n => Sys2Proof.Machine.execBrPeek n s
  | .brConsume n => Sys2Proof.Machine.execBrConsume n s
  | .brAlign => Sys2Proof.Machine.execBrAlign s
  | .htInit tc th d0 d1 d2 d3 => Sys2Proof.Machine.execHtInit tc th d0 d1 d2 d3 s
  | .htInsert tc th l v => Sys2Proof.Machine.execHtInsert tc th l v s
  | .htDecode tc th => Sys2Proof.Machine.execHtDecode tc th s
  | .qtLoad pq tq ds => Sys2Proof.Machine.execQtLoad pq tq ds s
  | .predReset => Sys2Proof.Machine.execPredReset s
  | .scanSetup slot td ta tq ci => Sys2Proof.Machine.execScanSetup slot td ta tq ci s
  | .decodeCoefs slot => Sys2Proof.Machine.execDecodeCoefs slot s
  | .extend t v => Sys2Proof.Machine.execExtend t v s
  | .dequant tq => Sys2Proof.Machine.execDequant tq s
  | .reorder => Sys2Proof.Machine.execReorder s
  | .idct => Sys2Proof.Machine.execIdct s
  | .levelShift => Sys2Proof.Machine.execLevelShift s
  | .emit slot d => Sys2Proof.Machine.execEmit slot d s
  | .decodeBlock slot d => Sys2Proof.Machine.execDecodeBlock slot d s
  | .color y cb cr => Sys2Proof.Machine.execColor y cb cr s
  | .blkWrite k d => Sys2Proof.Machine.execBlkWrite k d s
  | .blkRead k => Sys2Proof.Machine.execBlkRead k s

end Sys2Proof.Machine
end

