-- ==== Sys2Proof/Machine/Step.lean ====
section
/-! DEFINITION. One step: a host access or a turn of the core (20_memory.md R70, R71). -/

namespace Sys2Proof.Machine

/-- One turn of the core: the next ready command runs whole, an illegal command word faults, and with nothing ready the
core holds and the state stays (20_memory.md R70). -/
def coreStep (s : State) : Result :=
  match s.fetch with
  | .hold => .next s
  | .illegal w reason rest => .next ({ s with cmdq := rest }.illegalCommand w reason)
  | .run i rest => exec i { s with cmdq := rest }

/-- One step. The head of the host's pending moves says whose it is; with none pending it is the core's (log 1). Segment
writes settle when BUSY becomes 0 (log 9). -/
def step (s : State) : Host.Outcome State Fault Refusal :=
  settleResult (
    match s.bus with
    | [] => coreStep s
    | .core :: rest => coreStep { s with bus := rest }
    | .access a :: rest => hostAccess a { s with bus := rest })

/-- The state with one command, and nothing else, in CMDQ, placed so that the next step runs it: the host's pending moves
wait behind one turn of the core, and the block is not halted on a fault. Commands are pushed by the host, not fetched
from memory (20_memory.md R76), so this stands for that push. Log 2. -/
def State.withFetchWord (s : State) (nbits w : Nat) : State :=
  { s with cmdq := placedWords nbits w, faulted := false, bus := .core :: s.bus }

end Sys2Proof.Machine
end

