-- ==== Sys2Proof/Machine/Duties.lean ====
section
/-! DEFINITION. The host's duties (20_memory.md R79): what a host must have done before each of its accesses and before a
command it issued runs, and the machine that holds the host to them. -/

namespace Sys2Proof.Machine

/-- What a command can find not loaded: a Huffman table, a quantization table or a slot (60_exceptions.md R361,
TableNotLoaded). -/
inductive Table where
  | huff (c : HuffClass) (t : BitVec 2)
  | quant (t : BitVec 2)
  | slot (t : BitVec 2)
  deriving DecidableEq, Repr

/-- The 16 of them, as in TBL_VALID (10_state.md R40). -/
def Table.all : List Table :=
  [0, 1, 2, 3].flatMap fun t => [.huff .dc t, .huff .ac t, .quant t, .slot t]

/-- Its VALID bit (10_state.md R25, R27, R28). -/
def Table.valid (x : Table) (s : State) : Bool :=
  match x with
  | .huff c t => (s.table c t).valid
  | .quant t => (s.quant t).valid
  | .slot t => (s.slotAt t).valid

/-- What must be remembered of the host's moves to say which duty it owes (20_memory.md R79). It is no state of the
block. -/
structure HostLog where
  /-- The data words still to come of the command being pushed. -/
  owed : Nat
  /-- The words already read of the record being collected. -/
  recordRead : Nat
  /-- The FAULT_* registers read since the fault. -/
  faultRead : List Reg
  /-- A block was decoded since the last PRED_RESET or reset. -/
  decoded : Bool
  /-- An offset the reader is known to have reached in the last such decode, in the segment as it now stands. -/
  decodedTo : Option Nat
  /-- The target of the last BR_SEEK since the last block decode. -/
  sought : Option Nat
  /-- The bit reader's registers are draws: an execution fault left them so (60_exceptions.md R364), and no BR_SEEK has
  run since. -/
  readerLost : Bool
  /-- The tables and slots that a soft reset emptied and that no command has loaded since. -/
  reload : List Table
  deriving DecidableEq, Repr

/-- The log of a host that has made no move since power-on. -/
def HostLog.start : HostLog :=
  { owed := 0, recordRead := 0, faultRead := [], decoded := false, decodedTo := none, sought := none,
    readerLost := false, reload := [] }

/-- The host owes nothing: every command has its data words, and every record begun was read whole. -/
def HostLog.paid (h : HostLog) : Bool := h.owed == 0 && h.recordRead == 0

/-! ## Accesses -/

/-- The registers of a fault, which the host reads before it clears one (20_memory.md R79). -/
def faultRegs : List Reg := [.faultCode, .faultCmd, .faultInfo, .faultPos]

/-- The register an access reads or writes; none for an access that is not an aligned 32-bit access of this window. -/
def HostAccess.reg (a : HostAccess) : Option Reg :=
  match windowOffset a.addr with
  | none => none
  | some off => if a.bytes ≠ 4 ∨ off.toNat % 4 ≠ 0 then none else some (Reg.ofOffset off)

/-- Does one register access keep the host's duties: CMD only while CMD_FULL = 0; RESULT and OUT only while there is
something to read; the segment only while BUSY = 0; FAULT_* before CLEAR_FAULT; no soft reset inside a record
(20_memory.md R79). -/
def regDuty (h : HostLog) (r : Reg) (dir : HostDir) (s : State) : Bool :=
  match r, dir with
  | .cmd, .write _ => !s.cmdFull
  | .result, .read => s.resAvail
  | .out, .read => s.outAvail
  | .segAddr, .write _ => !s.busy
  | .segData, .write _ => !s.busy
  | .segLen, .write _ => !s.busy
  | .ctrl, .write w =>
    if w.getLsbD 0 then h.recordRead == 0
    else !(w.getLsbD 1 && s.faulted) || faultRegs.all fun r => h.faultRead.contains r
  | _, _ => true

/-- The log after a word pushed to CMD: a command word, or a data word of the one before (30_encoding.md R93). -/
def HostLog.pushed (h : HostLog) (w : Word) : HostLog :=
  if h.owed = 0 then
    { h with owed := match Op.ofCode (field w 24 8) with
             | some o => o.dataWords
             | none => 0 }
  else { h with owed := h.owed - 1 }

/-- The log after a write of CTRL. A soft reset or a cleared fault discards the words of a command half pushed. A soft
reset empties the tables and slots that were loaded, and they are to be loaded again (20_memory.md R79). -/
def HostLog.ctrl (h : HostLog) (w : Word) (s : State) : HostLog :=
  if w.getLsbD 0 then
    { HostLog.start with reload := Table.all.filter fun x => x.valid s || h.reload.contains x }
  else if w.getLsbD 1 then { h with owed := 0, faultRead := [] }
  else h

/-- The log after one register access. A write of the segment leaves no offset known in it. -/
def HostLog.access (h : HostLog) (r : Reg) (dir : HostDir) (s : State) : HostLog :=
  match r, dir with
  | .cmd, .write w => h.pushed w
  | .ctrl, .write w => h.ctrl w s
  | .segData, .write _ => { h with decodedTo := none }
  | .out, .read => { h with recordRead := (h.recordRead + 1) % 18 }
  | r, .read => if s.faulted && faultRegs.contains r then { h with faultRead := r :: h.faultRead } else h
  | _, _ => h

/-! ## Commands -/

/-- RST0 to RST7 (40_bitreader.md R127). -/
def isRestart (b : Byte) : Bool := decide (0xD0#8 ≤ b ∧ b ≤ 0xD7#8)

/-- A restart marker stands at offset `q` of the segment. -/
def Segment.restartAt (g : Segment) (q : Nat) : Bool :=
  decide (q + 1 < g.len.toNat) && g.byte q == 0xFF#8 && isRestart (g.byte (q + 1))

/-- The next byte the reader needs is a restart marker, met already or not: BR_POS is its offset whether or not
MARKER_HIT = 1 (42_coefficient.md R216). -/
def State.restartNext (s : State) : Bool :=
  if s.br.markerHit then isRestart s.br.marker else s.seg.restartAt s.br.pos.toNat

/-- The unread bits of the reader that come from the segment. DEDUCED: pad bytes are the newest bytes of BITREG, and
PADCNT counts them since BR_SEEK (40_bitreader.md R124-R127, R136). -/
def BitReader.dataBits (br : BitReader) : Nat := br.bitcnt - 8 * br.padcnt.toNat

/-- A pad bit was consumed (40_bitreader.md R136). -/
def BitReader.padTaken (br : BitReader) : Bool := decide (br.bitcnt < 8 * br.padcnt.toNat)

/-- The tables and the slot a command uses, as far as it comes to use them. -/
def State.tablesFor (s : State) : Instr → List Table
  | .htInsert tc th _ _ | .htDecode tc th =>
    match classOf tc, idOf th with
    | some c, some t => [.huff c t]
    | _, _ => []
  | .dequant tq =>
    match idOf tq with
    | some t => [.quant t]
    | none => []
  | .emit n _ =>
    match idOf n with
    | some t => [.slot t]
    | none => []
  | .decodeCoefs n =>
    match idOf n with
    | some t =>
      .slot t :: if (s.slotAt t).valid then [.huff .dc (s.slotAt t).td, .huff .ac (s.slotAt t).ta] else []
    | none => []
  | .decodeBlock n _ =>
    match idOf n with
    | some t =>
      .slot t :: if (s.slotAt t).valid then
        [.huff .dc (s.slotAt t).td, .huff .ac (s.slotAt t).ta, .quant (s.slotAt t).tq] else []
    | none => []
  | _ => []

/-- The slot of a command that decodes a block. -/
def decodeSlot : Instr → Option (BitVec 2)
  | .decodeCoefs n | .decodeBlock n _ => idOf n
  | _ => none

/-- The command decodes a block at a restart marker: the marker comes next, fewer than 8 bits of the interval are left,
and they hold no whole block, so the decode takes pad bits (42_coefficient.md R216). DEDUCED: bits left that do hold a
block are no padding. Log 16. -/
def State.decodesPastRestart (s : State) (i : Instr) : Bool :=
  match decodeSlot i with
  | none => false
  | some t =>
    s.restartNext && decide (s.br.dataBits < 8) && (s.tablesFor i).all (fun x => x.valid s)
      && (decodeBody (s.coefTables (s.slotAt t)) (s.predAt t) s.readCtx).ctx.br.padTaken

/-- The PRED_RESET of a restart marker is owed: a block was decoded since the last one, and BR_SEEK has then gone past a
restart marker of the segment, either to the byte after it or from where that decode is known to have been
(42_coefficient.md R216). The drawn registers of a lost reader have no part in it. Log 16. -/
def HostLog.predOwed (h : HostLog) (g : Segment) : Bool :=
  h.decoded &&
    match h.sought with
    | none => false
    | some p =>
      (decide (2 ≤ p) && g.restartAt (p - 2)) ||
        match h.decodedTo with
        | none => false
        | some e => (List.range' e (p - 1 - e)).any g.restartAt

/-- BR_SEEK has gone into a restart marker, to its second byte, and not past it (42_coefficient.md R216). -/
def HostLog.insideRestart (h : HostLog) (g : Segment) : Bool :=
  match h.sought with
  | none => false
  | some p => decide (1 ≤ p) && g.restartAt (p - 1)

/-- May a block be decoded: the restart sequence of the markers passed is done, BR_SEEK past the marker and PRED_RESET, and
the reader stands at no marker. A reader whose registers are draws stands nowhere. -/
def restartDuty (h : HostLog) (i : Instr) (s : State) : Bool :=
  !h.predOwed s.seg && !h.insideRestart s.seg && (h.readerLost || !s.decodesPastRestart i)

/-- Did the host keep its duties in issuing the command that now runs: no block is decoded at a restart marker before
BR_SEEK past it and PRED_RESET, and no table is used that a soft reset emptied and that was not loaded again
(20_memory.md R79, 42_coefficient.md R216). A table that is not loaded for another reason, such as a change of CONFIG.HM,
breaks no duty: the command faults. DEDUCED: no command waits for a SET_CONFIG after a soft reset, since
70_reset_and_hazards.md R404 step 1 asks for one only if a variant other than the reset one is wanted. Log 16. -/
def commandDuty (h : HostLog) (i : Instr) (s : State) : Bool :=
  ((decodeSlot i).isNone || restartDuty h i s) && (s.tablesFor i).all fun x => !h.reload.contains x

/-- The faults after which a command that reads bits leaves the bit reader's registers any values (60_exceptions.md
R364). -/
def readerFaults : List FaultKind :=
  [.bitstreamMarker, .huffmanDecode, .unsupportedRunLength, .acIndexOverflow, .dcCategory, .range]

/-- Command `i` ended in `t` by an execution fault that leaves the bit reader's registers any values (60_exceptions.md
R364). -/
def State.lostReader (t : State) : Instr → Bool
  | .brNextbit | .brPeek _ | .brConsume _ | .htDecode _ _ | .decodeCoefs _ | .decodeBlock _ _ =>
    t.faulted && readerFaults.any fun k => k.code == t.faultCode
  | _ => false

/-- The log after a block decode from `s` to `t`. A check fault decodes no block. An execution fault leaves BR_POS a draw,
and the place where the decode began is then the last one known. -/
def HostLog.ranDecode (h : HostLog) (i : Instr) (s t : State) : HostLog :=
  if t.faulted && !t.lostReader i then h
  else
    { h with
      decoded := true, sought := none
      decodedTo := if h.readerLost then h.decodedTo else some (if t.lostReader i then s.br.pos else t.br.pos).toNat
      readerLost := h.readerLost || t.lostReader i }

/-- The log after a command has run from `s` to `t`. A table or slot once loaded is owed no longer. DEDUCED: the
PRED_RESET of a restart marker may run before its BR_SEEK (log 16). -/
def HostLog.ran (h : HostLog) (i : Instr) (s t : State) : HostLog :=
  let h := { h with reload := h.reload.filter fun x => !x.valid t }
  match i with
  | .brSeek p => if t.faulted then h else { h with sought := some p.toNat, readerLost := false }
  | .predReset => { h with decoded := false, decodedTo := none }
  | .brNextbit | .brPeek _ | .brConsume _ | .htDecode _ _ => { h with readerLost := h.readerLost || t.lostReader i }
  | .decodeCoefs _ | .decodeBlock _ _ => h.ranDecode i s t
  | _ => h

/-! ## The machine that holds the host to its duties (20_memory.md R79, 93_implementation_defined.md U16) -/

/-- The block, and the log of its host. -/
structure Held where
  core : State
  log : HostLog
  deriving DecidableEq, Repr

/-- Does the next step keep the host's duties? -/
def Held.dutyKept (h : Held) : Bool :=
  match h.core.bus with
  | .access a :: _ =>
    match a.reg with
    | some r => regDuty h.log r a.dir h.core
    | none => true
  | _ =>
    match h.core.fetch with
    | .run i _ => commandDuty h.log i h.core
    | _ => true

/-- The host's log after the next step, which ends in `t`. -/
def Held.nextLog (h : Held) (t : State) : HostLog :=
  match h.core.bus with
  | .access a :: _ =>
    match a.reg with
    | some r => h.log.access r a.dir h.core
    | none => h.log
  | _ =>
    match h.core.fetch with
    | .run i _ => h.log.ran i h.core t
    | _ => h.log

/-- One step of a run in which the host keeps its duties: the step of the block, and no move where a duty is broken. The
block's own `step` gives a broken duty the effect of 20_memory.md R66-R68 and R72; a claim that holds only of a host that
keeps its duties is a claim about this one. The refusal is the spec's: U16 says to refuse such a move. Log 16. -/
def heldStep (h : Held) : Host.Outcome Held Fault Refusal :=
  if h.dutyKept then
    match step h.core with
    | .next t => .next { core := t, log := h.nextLog t }
    | .fault r => .fault r
    | .refused r => .refused r
  else .refused .hostDuty

/-- Power-on, with a host that has made no move. -/
def Held.reset : Held := { core := State.reset, log := HostLog.start }

end Sys2Proof.Machine
end

