-- ==== Sys2Proof/Safety.lean ====
section
/-! DEFINITION. What claims are stated in: the invariants of the state, the ends of a run, endless runs and their fairness,
and, in the spec's numbers, the command stream, the faults, the bit stream, the codes and the coded blocks. -/

namespace Sys2Proof.Machine

/-! ## Invariants -/

/-- The bit reader's registers hold values of their types: BITCNT ≤ 23, BITREG < 2^BITCNT, and MARKER is 0 or a stopping
marker as MARKER_HIT says (10_state.md R22-R24). -/
abbrev BitReader.Ok (b : BitReader) : Prop :=
  b.bitcnt ≤ 23 ∧ b.bitreg.toNat < 2 ^ b.bitcnt ∧ (b.markerHit = false → b.marker = 0)
    ∧ (b.markerHit = true → b.marker ∈ markerBytes)

/-- The decode-table entries of one length with `n` codes, the first of them number `k`, are those of 41_huffman.md R162:
where there is no code only MAXCODE = NONE is fixed. -/
abbrev LenRow.Ok (codes : List (BitVec 24)) (k n : Nat) (r : LenRow) : Prop :=
  if n = 0 then r.maxcode = none
  else r = { mincode := codes.getD k 0, maxcode := some (codes.getD (k + n - 1) 0), valptr := k }

/-- A loaded Huffman table: at most 256 values, NVAL the sum of BITS, NINS ≤ NVAL, the derived tables those of its BITS,
and every inserted code fits in its length (10_state.md R25, 41_huffman.md R161, R162, R164). -/
abbrev HuffTable.Ok (t : HuffTable) : Prop :=
  t.valid = true →
    t.nval = (countList t.bits).sum ∧ t.nval ≤ 256 ∧ t.nins ≤ t.nval
      ∧ t.huffsize = genSizes 1 (countList t.bits) ∧ t.huffcode = genCodes 0 (countList t.bits)
      ∧ (∀ l : Fin 16, (t.rows[l]).Ok t.huffcode ((countList t.bits).take l.val).sum ((countList t.bits).getD l.val 0))
      ∧ ∀ k, k < t.nins → (t.huffcode.getD k 0).toNat < 2 ^ t.huffsize.getD k 0

/-- A loaded 8-bit quantization table has no entry above 255 (43_dequant_reorder.md R240, R241). -/
abbrev QuantTable.Ok (q : QuantTable) : Prop :=
  q.valid = true → q.prec = false → ∀ k : Fin 64, (q.q[k]).toNat ≤ 255

/-- Segment RAM is canonical and lies below SEG_SIZE, and SEG_LEN ≤ SEG_SIZE; so do the old values in flight (10_state.md
R38, 20_memory.md R63). -/
abbrev Segment.Ok (g : Segment) : Prop :=
  Memory.wf g.cells = true ∧ (∀ x ∈ g.cells, x.1 < Config.segSize) ∧ g.len.toNat ≤ Config.segSize
    ∧ (∀ x ∈ g.oldBytes, x.1 < Config.segSize) ∧ (∀ n ∈ g.oldLens, n.toNat ≤ Config.segSize)

/-- The codes of 60_exceptions.md R361 that some command raises. -/
def raisedCodes : List Byte := [1, 2, 3, 4, 5, 8, 9, 10, 11, 12, 13]

/-- The fault registers are 0 while FAULTED = 0, and FAULT_CODE is a raised code while FAULTED = 1 (10_state.md R34,
60_exceptions.md R361). -/
abbrev State.FaultOk (s : State) : Prop :=
  (s.faulted = false → s.faultCode = 0 ∧ s.faultCmd = 0 ∧ s.faultInfo = 0 ∧ s.faultPos = 0)
    ∧ (s.faulted = true → s.faultCode ∈ raisedCodes)

/-- No FIFO holds more words than its capacity (10_state.md R37). -/
abbrev State.QueuesOk (s : State) : Prop :=
  s.cmdq.length ≤ Config.cmdqDepth ∧ s.resq.length ≤ Config.resqDepth ∧ s.outq.length ≤ Config.outqDepth

/-- No segment write is in flight (20_memory.md R72). -/
abbrev State.Settled (s : State) : Prop := s.seg.oldBytes = [] ∧ s.seg.oldLens = []

/-- The invariant of the machine. -/
structure State.Inv (s : State) : Prop where
  reader : s.br.Ok
  pos : s.br.pos.toNat ≤ Config.segSize
  dc : ∀ t : Fin 4, (s.htDc[t]).Ok
  ac : ∀ t : Fin 4, (s.htAc[t]).Ok
  quant : ∀ t : Fin 4, (s.qt[t]).Ok
  config : s.idctVariant ≠ 3
  fault : s.FaultOk
  queues : s.QueuesOk
  seg : s.seg.Ok
  settled : s.busy = false → s.Settled

/-! ## Ends of a run (20_memory.md R80) -/

/-- The good end: CMDQ is empty and FAULTED = 0. -/
abbrev State.GoodEnd (s : State) : Prop := s.cmdq = [] ∧ s.faulted = false

/-- A run has ended: CMDQ is empty and FAULTED = 0, or FAULTED = 1. -/
abbrev State.RunEnded (s : State) : Prop := s.GoodEnd ∨ s.faulted = true

/-! ## The command stream, in the spec's numbers -/

/-- The data words of a command, by its OP (30_encoding.md R93). -/
def dataCount (op : Byte) : Nat :=
  if op = 0x20 then 4 else if op = 0x28 then 32 else if op ∈ [0x51#8, 0x52#8, 0x60#8] then 1 else 0

/-- The OPs listed in 30_encoding.md R94. -/
def definedOps : List Byte :=
  [0x00, 0x01, 0x02, 0x03, 0x10, 0x11, 0x12, 0x13, 0x14, 0x20, 0x21, 0x22, 0x28] ++
    [0x30, 0x31, 0x32, 0x33, 0x40, 0x41, 0x48, 0x50, 0x51, 0x52, 0x58, 0x60, 0x61]

/-- The OPs whose commands push a result word: SYNC, BR_NEXTBIT, BR_PEEK, HT_DECODE, EXTEND, COLOR, BLK_READ. -/
def resultOps : List Byte := [0x01, 0x11, 0x12, 0x22, 0x33, 0x58, 0x61]

/-- The OPs whose commands push an output record: EMIT, DECODE_BLOCK. -/
def recordOps : List Byte := [0x51, 0x52]

/-- The fields, as (high bit, low bit), that the format of each command names in w[23:0] (30_encoding.md R91, R94). -/
def fieldsOf : Op → List (Nat × Nat)
  | .nop | .brNextbit | .brAlign | .predReset | .reorder | .idct | .levelShift => []
  | .sync | .setRstint => [(15, 0)]
  | .setConfig => [(0, 0), (2, 1), (3, 3)]
  | .brSeek => [(23, 0)]
  | .brPeek | .brConsume => [(4, 0)]
  | .htInit | .htDecode | .qtLoad => [(23, 20), (19, 16)]
  | .htInsert => [(23, 20), (19, 16), (12, 8), (7, 0)]
  | .dequant => [(19, 16)]
  | .scanSetup => [(23, 20), (19, 16), (15, 12), (11, 8), (7, 0)]
  | .decodeCoefs | .emit | .decodeBlock => [(23, 20)]
  | .extend => [(20, 16), (15, 0)]
  | .color => [(23, 16), (15, 8), (7, 0)]
  | .blkWrite | .blkRead => [(5, 0)]

/-- Bit `k` of a command word is reserved: it lies in w[23:0] and the format names it nowhere (30_encoding.md R91). -/
def ReservedBit (o : Op) (k : Nat) : Prop := k < 24 ∧ ∀ f ∈ fieldsOf o, ¬(f.2 ≤ k ∧ k ≤ f.1)

/-- A command is ready (20_memory.md R70). Readiness goes by the OP (log 4). -/
def State.Ready (s : State) : Prop :=
  s.faulted = false ∧ ∃ w rest, s.cmdq = w :: rest ∧ dataCount (field w 24 8) ≤ rest.length
    ∧ (field w 24 8 ∈ resultOps → s.resq.length < Config.resqDepth)
    ∧ (field w 24 8 ∈ recordOps → s.outq.length + 18 ≤ Config.outqDepth)

/-! ## Endless runs and progress (70_reset_and_hazards.md R421) -/

/-- What the host and the core do, move by move, for ever. -/
abbrev Schedule := Nat → HostMove

/-- The states an endless schedule leads through: move number `n` leads from state `n` to the next. -/
def IsRun (moves : Schedule) (run : Nat → State) : Prop :=
  ∀ n, step { run n with bus := [moves n] } = .next (run (n + 1))

/-- Weak fairness of the core step: a core that always has a command ready gets a turn (70_reset_and_hazards.md R421). -/
def WeaklyFair (moves : Schedule) (run : Nat → State) : Prop :=
  ∀ n, (∀ m, n ≤ m → (run m).Ready) → ∃ m, n ≤ m ∧ moves m = .core

/-- A move that discards the command stream: a write of CTRL with SOFT_RESET or CLEAR_FAULT (70_reset_and_hazards.md
R411). -/
def Discards (m : HostMove) : Prop :=
  ∃ w : Word, m = .access ⟨busAddress 0x04, 4, .write w⟩ ∧ (w.getLsbD 0 = true ∨ w.getLsbD 1 = true)

/-- A ready command is executed at last, unless the host discards the command stream: a turn of the core comes, and finds
the words that were ready still at the head of CMDQ (70_reset_and_hazards.md R421). -/
def Progress (moves : Schedule) (run : Nat → State) : Prop :=
  ∀ n, (run n).Ready → ∃ m, n ≤ m ∧
    (Discards (moves m) ∨
      moves m = .core ∧ (run m).Ready ∧ ∃ more, (run m).cmdq = (run n).cmdq ++ more)

/-! ## Runs of commands -/

/-- Commands run one after another, stopping at the first state that is halted on a fault (60_exceptions.md R364). -/
def execSeq : List Instr → State → Result
  | [], s => .next s
  | i :: rest, s =>
    match exec i s with
    | .next t => if t.faulted then .next t else execSeq rest t
    | .fault r => .fault r
    | .refused r => .refused r

/-- A result with its next state changed. -/
def mapNext (f : State → State) : Result → Result
  | .next s => .next (f s)
  | .fault r => .fault r
  | .refused r => .refused r

/-! ## Faults, in the spec's numbers -/

/-- The state halted on a fault: the five fault registers written, all else kept (60_exceptions.md R364). -/
def State.halt (s : State) (cmd : Word) (code : Byte) (info : Word) (pos : BitVec 25) : State :=
  { s with faulted := true, faultCode := code, faultCmd := cmd, faultInfo := info, faultPos := pos }

/-- A command ends in a check fault: precise, with FAULT_POS = POS (60_exceptions.md R363, R364). -/
def FailsCheck (i : Instr) (s : State) (code : Byte) (info : Nat) : Prop :=
  exec i s = .next (s.halt i.head code (BitVec.ofNat 32 info) s.br.pos)

/-- A command ends in an execution fault whose write set is the bit reader (60_exceptions.md R364). -/
def StopsReading (i : Instr) (s : State) (code : Byte) (info : Word) (pos : BitVec 25) : Prop :=
  ∃ br d, br.Ok ∧ exec i s = .next ({ s with br := br, draws := d }.halt i.head code info pos)

/-- A command ends in an execution fault whose write set is BLK (60_exceptions.md R364). -/
def StopsBlock (i : Instr) (s : State) (info : Nat) : Prop :=
  ∃ blk d, exec i s =
    .next ({ s with blk := blk, draws := d }.halt i.head 12 (BitVec.ofNat 32 info) s.br.pos)

/-- A block decode of slot `n` ends in an execution fault: its write set is the bit reader, BLK and PRED[n]
(60_exceptions.md R364). -/
def StopsDecoding (i : Instr) (s : State) (n : BitVec 2) (code : Byte) (info : Word) (pos : BitVec 25) : Prop :=
  ∃ br blk p d, br.Ok ∧ exec i s =
    .next ({ s with br := br, blk := blk, pred := s.pred.set n.toNat p n.isLt, draws := d }.halt i.head code info pos)

/-! ## The bit stream ahead of the bit reader (40_bitreader.md) -/

/-- The low `n` bits of `v`, most significant first (20_memory.md R64). -/
def bitsMsb (n v : Nat) : List Bool := (List.range n).map fun i => v.testBit (n - 1 - i)

/-- The number written by bits, most significant first (20_memory.md R64). -/
def bitsToNat (l : List Bool) : Nat := l.foldl (fun a b => 2 * a + b.toNat) 0

/-- The buffered bits, oldest first (10_state.md R22). -/
def BitReader.bits (b : BitReader) : List Bool := bitsMsb b.bitcnt b.bitreg.toNat

/-- The bytes of the segment from an offset up to SEG_LEN. -/
def Segment.bytesFrom (g : Segment) (pos : Nat) : List Byte :=
  (List.range (g.len.toNat - pos)).map fun i => g.byte (pos + i)

/-- Destuffing: the data bytes that segment bytes from offset `pos` on carry, and what ends them. None: pad bits without
end follow (the end of the buffer, or a restart or DNL marker). Some: a BitstreamMarkerError, with the offset of its 0xFF
and its FAULT_INFO (40_bitreader.md R123, R124, R126-R129). -/
def destuff (pos : Nat) : List Byte → List Byte × Option (Nat × Word)
  | [] => ([], none)
  | [b] => if b = 0xFF then ([], some (pos, 0x1FF)) else ([b], none)
  | b :: b2 :: rest =>
    if b ≠ 0xFF then
      let r := destuff (pos + 1) (b2 :: rest)
      (b :: r.1, r.2)
    else if b2 = 0 then
      let r := destuff (pos + 2) rest
      (0xFF :: r.1, r.2)
    else if (0xD0 ≤ b2.toNat ∧ b2.toNat ≤ 0xD7) ∨ b2.toNat = 0xDC then ([], none)
    else ([], some (pos, b2.setWidth 32))

/-- The bits a reader will deliver before it pads or fails, and what ends them: the buffered bits, then the bits of the
destuffed bytes. After a marker hit only the buffered bits are left (40_bitreader.md R127). -/
def ahead (g : Segment) (b : BitReader) : List Bool × Option (Nat × Word) :=
  if b.markerHit then (b.bits, none)
  else
    let r := destuff b.pos.toNat (g.bytesFrom b.pos.toNat)
    (b.bits ++ r.1.flatMap (fun x => bitsMsb 8 x.toNat), r.2)

/-- The next `n` bits of a stream followed by pad bits, which are 1s (40_bitreader.md R124, R127). -/
def padTo (n : Nat) (l : List Bool) : List Bool := (l ++ List.replicate n true).take n

/-- POS after `k` more data bytes are fetched from offset `pos`: a stuffed pair counts as one, and at the end of the
segment or at a marker POS stays (40_bitreader.md R123, R124, R126, R127). -/
def Segment.fetched (g : Segment) : Nat → Nat → Nat
  | 0, pos => pos
  | k + 1, pos =>
    if g.len.toNat ≤ pos then pos
    else if g.byte pos ≠ 0xFF#8 then g.fetched k (pos + 1)
    else if pos + 1 < g.len.toNat ∧ g.byte (pos + 1) = 0x00#8 then g.fetched k (pos + 2)
    else pos

/-- POS after the next `n` bits are read: only the bytes that hold them are fetched, and none after a marker hit
(40_bitreader.md R122, R127). -/
def posAfter (g : Segment) (b : BitReader) (n : Nat) : Nat :=
  if b.markerHit then b.pos.toNat else g.fetched ((n - b.bitcnt + 7) / 8) b.pos.toNat

/-- The bit reader after exactly `n` more bits are read, with no segment write in flight: the stream has lost them, as far
as needed with pad bits; only the bytes that hold them are fetched; and a marker hit stays (40_bitreader.md R122-R124, R127,
R130). -/
structure ReadsTo (g : Segment) (b : BitReader) (n : Nat) (b' : BitReader) : Prop where
  ok : b'.Ok
  cnt : b'.bitcnt + n = b.bitcnt + 8 * ((n - b.bitcnt + 7) / 8)
  pos : b'.pos.toNat = posAfter g b n
  hit : b.markerHit = true → b'.markerHit = true ∧ b'.marker = b.marker
  stop : b'.markerHit = true → b.markerHit = true ∨ g.fetched 1 b'.pos.toNat = b'.pos.toNat
  stream : ∃ p, n ≤ (ahead g b).1.length + p ∧ (n ≤ (ahead g b).1.length → p = 0) ∧
    ahead g b' = (((ahead g b).1 ++ List.replicate p true).drop n, (ahead g b).2)

/-! ## Huffman codes and coded blocks -/

/-- HUFFVAL[k] (10_state.md R25). -/
def HuffTable.value (t : HuffTable) (k : Nat) : Byte := t.huffval.toList.getD k 0

/-- HUFFSIZE[k] (10_state.md R25). -/
def HuffTable.size (t : HuffTable) (k : Nat) : Nat := t.huffsize.getD k 0

/-- The code of value number `k` as bits, first bit first (41_huffman.md R161). -/
def HuffTable.codeBits (t : HuffTable) (k : Nat) : List Bool := bitsMsb (t.size k) (t.huffcode.getD k 0).toNat

/-- The first `m` bits of a stream are the code of value number `k` (41_huffman.md R171). -/
def HuffTable.Matches (t : HuffTable) (l : List Bool) (m k : Nat) : Prop :=
  k < t.nval ∧ t.size k = m ∧ (t.huffcode.getD k 0).toNat = bitsToNat (padTo m l)

/-- The array decode reads `m` bits of a stream and finds no value: at no shorter length has it read an assigned code, and
the `m` bits are a code that was not inserted, or are 16 bits that are no code (41_huffman.md R171). -/
def HuffTable.NoValue (t : HuffTable) (l : List Bool) (m : Nat) : Prop :=
  (∀ j k, j < m → ¬t.Matches l j k) ∧
    ((∃ k, t.nins ≤ k ∧ 1 ≤ m ∧ t.Matches l m k) ∨ (m = 16 ∧ ∀ k, ¬t.Matches l 16 k))

/-- What a decode of a code that is not there does, on a stream that ends in `e`. `pos m` is POS after `m` of its bits, and
`stops` the end of the command with a fault code, FAULT_INFO and FAULT_POS. The array variant raises HuffmanDecodeError
after the `m` bits it reads, or the BitstreamMarkerError it meets within them. The tree variant raises the same,
HuffmanDecodeError, or a BitstreamMarkerError met within one bit more, with any FAULT_POS (41_huffman.md R171, R172,
60_exceptions.md R363). -/
def DecodeFails (array : Bool) (c : HuffClass) (t : BitVec 2) (tab : HuffTable) (l : List Bool) (e : Option (Nat × Word))
    (pos : Nat → Nat) (stops : Byte → Word → BitVec 25 → Prop) : Prop :=
  ∀ m, tab.NoValue l m →
    let noCode := BitVec.ofNat 32 (c.code.toNat * 16 + t.toNat)
    (array = true →
      (m ≤ l.length ∨ e = none → stops 2 noCode (BitVec.ofNat 25 (pos m))) ∧
      (∀ q info, e = some (q, info) → l.length < m → stops 1 info (BitVec.ofNat 25 q))) ∧
    (array = false →
      ∃ at', stops 2 noCode at' ∨ ∃ q info, e = some (q, info) ∧ l.length ≤ m ∧ stops 1 info at')

/-- The magnitude bit count of value number `k`: SSSS (00_scope.md R15). -/
def HuffTable.ssss (t : HuffTable) (k : Nat) : Nat := (t.value k).toNat % 16

/-- The zero run of value number `k`: RRRR (00_scope.md R15). -/
def HuffTable.rrrr (t : HuffTable) (k : Nat) : Nat := (t.value k).toNat / 16

/-- The bits of a list of AC symbols, each given by its value number and its magnitude bits. -/
def acBits (t : HuffTable) : List (Nat × Nat) → List Bool
  | [] => []
  | (c, raw) :: rest => t.codeBits c ++ bitsMsb (t.ssss c) raw ++ acBits t rest

/-- Where a list of AC symbols leaves the position and the block, read from position `k` on; none when a symbol is not
inserted, is an EOB or an invalid run, or runs past the end (42_coefficient.md R211). -/
def acPlace (t : HuffTable) : Nat → List (Nat × Nat) → Blk → Option (Nat × Blk)
  | k, [], b => some (k, b)
  | k, (c, raw) :: rest, b =>
    if 63 < k ∨ t.nins ≤ c ∨ 2 ^ t.ssss c ≤ raw then none
    else if t.ssss c = 0 then
      if t.rrrr c = 15 then acPlace t (k + 16) rest b else none
    else if 63 < k + t.rrrr c then none
    else acPlace t (k + t.rrrr c + 1) rest
      (b.setIfInBounds (k + t.rrrr c) (BitVec.ofInt 32 (extendValue raw (t.ssss c))))

/-- The block DECODE_COEFS starts its AC loop from: the DC value, and zeros (42_coefficient.md R210). -/
def dcBlock (p : Word) : Blk := (Vector.replicate 64 0).setIfInBounds 0 p

/-- The zig-zag walk by its generating rule: the 15 anti-diagonals d = row + column, bottom-left to top-right on even d,
top-right to bottom-left on odd d; entry k is the natural position 8·row + column (43_dequant_reorder.md R247). -/
def zigzagWalk : List Nat :=
  (List.range 15).flatMap fun d =>
    let rows := (List.range 8).filter fun r => decide (r ≤ d) && decide (d - r < 8)
    (if d % 2 = 0 then rows.reverse else rows).map fun r => 8 * r + (d - r)

end Sys2Proof.Machine
end

