-- ==== Sys2Proof/Certificates/Slice0/Obligations.lean ====
section
/-! DEFINITION. The statements for the provers, from the numbered rules of the spec. -/

open Sys2Proof Sys2Proof.Machine

/-! ## Encoding and dispatch -/

/-- Decoding the words of any well-formed command gives it back and leaves the words after it (30_encoding.md R90, R91,
R93, R94). -/
def Obligations.DecodeOfEncode : Prop :=
  ∀ (i : Instr) (rest : List Word), i.wellFormed = true → decode (encode i ++ rest) = .ok (i, rest)

/-- A word list decodes to a command only if it begins with that command's own words: no bit of a word is dropped
(30_encoding.md R91, R92, R95). -/
def Obligations.EncodeOfDecode : Prop :=
  ∀ (ws : List Word) (i : Instr) (rest : List Word),
    decode ws = .ok (i, rest) → i.wellFormed = true ∧ encode i ++ rest = ws

/-- The example words of 30_encoding.md R105 and of 95_test_vectors.md section 2.1 decode to the commands they stand for,
one or more of every family. -/
def Obligations.SpecWordsDecode : Prop :=
  decode [0x0100BEEF] = .ok (.sync 0xBEEF, []) ∧
  decode [0x02000005] = .ok (.setConfig 1 2 0, []) ∧
  decode [0x10123456] = .ok (.brSeek 0x123456, []) ∧
  decode [0x12000010] = .ok (.brPeek 16, []) ∧
  decode [0x20100000, 0x01020200, 0x00000102, 0, 0] = .ok (.htInit 1 0 0x01020200 0x00000102 0 0, []) ∧
  decode [0x21100521] = .ok (.htInsert 1 0 5 0x21, []) ∧
  decode [0x312111C3] = .ok (.scanSetup 2 1 1 1 0xC3, []) ∧
  decode [0x33050005] = .ok (.extend 5 5, []) ∧
  decode [0x40020000] = .ok (.dequant 2, []) ∧
  decode [0x48000000] = .ok (.idct, []) ∧
  decode [0x52000000, 0x00020003] = .ok (.decodeBlock 0 0x00020003, []) ∧
  decode [0x584C55FF] = .ok (.color 76 85 255, []) ∧
  decode [0x6000003F, 0xFFFFFFFF] = .ok (.blkWrite 63 0xFFFFFFFF, []) ∧
  decode [0x12000011] = .ok (.brPeek 17, []) ∧
  decode [0x13000020] = .error .reservedBits ∧
  decode [0x29000000, 0] = .error .undefinedOp

/-- A ready command takes its command word and exactly the data words of 30_encoding.md R93 from CMDQ, whatever becomes of
it, an undefined OP none; the command that runs carries those data words. IM = 3 is never stored (`Inv.config`). -/
def Obligations.CommandWordsTaken : Prop :=
  ∀ (s : State) (w : Word) (rest : List Word),
    s.Ready → s.cmdq = w :: rest → s.idctVariant ≠ 3 →
      (∃ t, coreStep s = .next t ∧ t.cmdq = rest.drop (dataCount (field w 24 8))) ∧
      (∀ i left, s.fetch = .run i left →
        i.data = rest.take (dataCount (field w 24 8)) ∧ left = rest.drop (dataCount (field w 24 8)))

/-- An OP that is not one of the 26 takes no data words and raises IllegalCommand with reason 0, a precise fault
(30_encoding.md R95). -/
def Obligations.UndefinedOpFaults : Prop :=
  ∀ (s : State) (w : Word) (rest : List Word),
    s.faulted = false → s.cmdq = w :: rest → field w 24 8 ∉ definedOps →
      coreStep s = .next ({ s with cmdq := rest }.halt w 8 0 s.br.pos)

/-- A ready command of a defined OP with any reserved bit set raises IllegalCommand with reason 1 after its data words are
taken from CMDQ (30_encoding.md R92). -/
def Obligations.ReservedBitFaults : Prop :=
  ∀ (s : State) (w : Word) (rest : List Word) (o : Op) (k : Nat),
    s.Ready → s.cmdq = w :: rest → field w 24 8 = o.code → ReservedBit o k → w.getLsbD k = true →
      coreStep s = .next ({ s with cmdq := rest.drop (dataCount o.code) }.halt w 8 1 s.br.pos)

/-- One step with no host move pending, or with a core turn first, runs exactly the command whose words stand at the head
of CMDQ: its words leave CMDQ, the turn leaves the pending moves, `exec` acts, and segment writes settle. -/
def Obligations.StepRunsDecoded : Prop :=
  ∀ (s : State) (i : Instr) (rest : List Word) (moves : List HostMove),
    s.Ready → s.cmdq = encode i ++ rest → i.wellFormed = true →
    (s.bus = .core :: moves ∨ (s.bus = [] ∧ moves = [])) →
      step s = settleResult (exec i { s with cmdq := rest, bus := moves })

/-- With no ready command the core holds: its turn changes nothing (20_memory.md R70, log 3 and log 4). -/
def Obligations.NotReadyHolds : Prop :=
  ∀ s : State, ¬s.Ready → coreStep s = .next s

/-- Every command fits in CMDQ, adds at most one RESQ word and 18 OUTQ words, and is ready once its words are pushed and
both output FIFOs are drained (70_reset_and_hazards.md R412). In every endless run in which the core step is weakly fair, a
ready command is executed at last, unless the host discards the command stream by CTRL (R421). -/
def Obligations.CommandsCanBecomeReady : Prop :=
  (∀ i : Instr, i.wellFormed = true →
    (encode i).length ≤ 33 ∧ 33 ≤ Config.cmdqDepth ∧
    (∀ s t : State, exec i s = .next t →
      t.resq.length ≤ s.resq.length + 1 ∧ t.outq.length ≤ s.outq.length + 18) ∧
    (∀ (s : State) (rest : List Word),
      ({ s with faulted := false, cmdq := encode i ++ rest, resq := [], outq := [] } : State).Ready)) ∧
  (∀ (moves : Schedule) (run : Nat → State), IsRun moves run → WeaklyFair moves run → Progress moves run)

/-! ## Whole-machine rules -/

/-- The frame of every command: what a command that answers a next state leaves unchanged, whether it completes or faults.
No command touches segment RAM (every byte reads as before), the interrupt enables, the sticky bits, CMDQ or the host's
side; every other item changes only by the commands named, RESQ by at most one word appended and OUTQ by at most one
record appended. -/
def Obligations.CommandWriteSets : Prop :=
  ∀ (i : Instr) (s t : State), exec i s = .next t →
    (t.seg = s.seg ∧ ∀ a, t.seg.byte a = s.seg.byte a) ∧
    (t.irqEn = s.irqEn ∧ t.cmdOverrun = s.cmdOverrun ∧ t.resUnderflow = s.resUnderflow ∧
      t.outUnderflow = s.outUnderflow ∧ t.cmdq = s.cmdq ∧ t.bus = s.bus ∧ t.busData = s.busData) ∧
    (i.op ≠ .setRstint → t.rstint = s.rstint) ∧
    (i.op ≠ .setConfig → t.config = s.config) ∧
    (i.op ≠ .scanSetup → t.slot = s.slot) ∧
    (i.op ≠ .qtLoad → t.qt = s.qt) ∧
    (i.op ∉ [.setConfig, .htInit, .htInsert] → t.htDc = s.htDc ∧ t.htAc = s.htAc) ∧
    (i.op ∉ [.predReset, .decodeCoefs, .decodeBlock] → t.pred = s.pred) ∧
    (i.op ∉ [.decodeCoefs, .dequant, .reorder, .idct, .levelShift, .decodeBlock, .blkWrite] → t.blk = s.blk) ∧
    (i.op ∉ [.brSeek, .brNextbit, .brPeek, .brConsume, .brAlign, .htDecode, .decodeCoefs, .decodeBlock] →
      t.br = s.br) ∧
    (t.resq = s.resq ∨ i.op.code ∈ resultOps ∧ ∃ w, t.resq = s.resq ++ [w]) ∧
    (t.outq = s.outq ∨ i.op.code ∈ recordOps ∧ ∃ r : List Word, r.length = 18 ∧ t.outq = s.outq ++ r) ∧
    (t.faulted = s.faulted → t.faulted = false →
      t.faultCode = s.faultCode ∧ t.faultCmd = s.faultCmd ∧ t.faultInfo = s.faultInfo ∧ t.faultPos = s.faultPos)

/-- No fault leaves a usable result: a core turn that faults pushes no result word and no output record, and nothing more
runs until the host clears the fault (60_exceptions.md R365). -/
def Obligations.FaultLeavesNoResult : Prop :=
  (∀ s t : State, s.faulted = false → coreStep s = .next t → t.faulted = true →
    t.resq = s.resq ∧ t.outq = s.outq) ∧
  (∀ s : State, s.faulted = true → coreStep s = .next s)

/-- Fault entry of a command: FAULT_CMD is its command word and FAULT_CODE one of the raised codes. A check fault leaves
all else unchanged, with FAULT_POS = POS; an execution fault changes only the command's write set (60_exceptions.md R361,
R363, R364). -/
def Obligations.FaultEntryWriteSets : Prop :=
  ∀ (i : Instr) (s t : State), s.faulted = false → exec i s = .next t → t.faulted = true →
    t.faultCmd = i.head ∧ t.faultCode ∈ raisedCodes ∧
    (t.faultCode ∈ [(3 : Byte), 5, 8, 9, 13] ∨ i.op = .emit →
      t = { s with draws := t.draws }.halt i.head t.faultCode t.faultInfo s.br.pos) ∧
    (t = { s with br := t.br, blk := t.blk, pred := t.pred, draws := t.draws }.halt i.head t.faultCode t.faultInfo
      t.faultPos) ∧
    (i.op ∉ [.brNextbit, .brPeek, .brConsume, .htDecode, .decodeCoefs, .decodeBlock] → t.br = s.br) ∧
    (i.op ∉ [.decodeCoefs, .decodeBlock, .dequant, .levelShift] → t.blk = s.blk) ∧
    (i.op ∉ [.decodeCoefs, .decodeBlock] → t.pred = s.pred) ∧
    (∀ slot n, (i = .decodeCoefs slot ∨ ∃ d, i = .decodeBlock slot d) → idOf slot = some n →
      ∀ m : BitVec 2, m ≠ n → t.predAt m = s.predAt m)

/-- Every step, a command or a host access, keeps the invariant: the bit reader's bounds, POS ≤ SEG_SIZE, well-formed
tables, IM ≠ 3, fault registers 0 while not faulted, FIFO capacities, segment RAM canonical and below SEG_SIZE, and no
segment write in flight while BUSY = 0 (10_state.md R22-R25, R31, R34, R37, R38). -/
def Obligations.InvKept : Prop :=
  ∀ s t : State, s.Inv → step s = .next t → t.Inv

/-- The invariant holds after reset. -/
def Obligations.InvAtReset : Prop := State.reset.Inv

/-- The values the spec gives for power-on reset (70_reset_and_hazards.md R400), STATUS = 0 and IRQ = 0 among them; of the
items it leaves at any value only SEG is named, a free value. The block is then idle and runs nothing by itself (R402). -/
def Obligations.ResetValues : Prop :=
  let s := State.reset
  (s.br.pos = 0 ∧ s.br.bitreg = 0 ∧ s.br.bitcnt = 0 ∧ s.br.markerHit = false ∧ s.br.marker = 0 ∧ s.br.padcnt = 0) ∧
  (∀ (c : HuffClass) (t : BitVec 2), (s.table c t).valid = false) ∧
  (∀ t : BitVec 2, (s.quant t).valid = false ∧ (s.quant t).prec = false) ∧
  (∀ t : BitVec 2, s.slotAt t = { valid := false, ci := 0, td := 0, ta := 0, tq := 0 }) ∧
  (∀ t : BitVec 2, s.predAt t = 0) ∧ (∀ k : BitVec 6, s.blkAt k = 0) ∧
  (s.config = 0 ∧ s.rstint = 0 ∧ s.irqEn = 0) ∧
  (s.faulted = false ∧ s.faultCode = 0 ∧ s.faultCmd = 0 ∧ s.faultInfo = 0 ∧ s.faultPos = 0) ∧
  (s.cmdOverrun = false ∧ s.resUnderflow = false ∧ s.outUnderflow = false) ∧
  (s.cmdq = [] ∧ s.resq = [] ∧ s.outq = []) ∧
  (s.seg.len = 0 ∧ s.seg.addr = 0 ∧ ∀ a, s.seg.byte a = Config.segPowerOn a) ∧
  (s.status = 0 ∧ s.busy = false ∧ s.irq = false) ∧
  hostAccess ⟨busAddress 0x00, 4, .read⟩ s = .next { s with busData := 0x4A504547 } ∧
  step s = .next s

/-- A Huffman table is written only by HT_INIT and HT_INSERT, each to the table it names, by a SET_CONFIG that changes HM,
and by a soft reset; decoding changes none (41_huffman.md R174). -/
def Obligations.TablesWrittenOnlyBy : Prop :=
  ∀ (s u : State) (c : HuffClass) (t : BitVec 2), step s = .next u → u.table c t ≠ s.table c t →
    ((s.bus = [] ∨ ∃ moves, s.bus = .core :: moves) ∧ ∃ i rest, s.fetch = .run i rest ∧
      ((∃ d0 d1 d2 d3, i = .htInit c.code (t.setWidth 4) d0 d1 d2 d3) ∨
        (∃ l v, i = .htInsert c.code (t.setWidth 4) l v) ∨
        (∃ hm im cm, i = .setConfig hm im cm ∧ hm ≠ s.config.extractLsb' 0 1))) ∨
    (∃ off w rest, s.bus = .access ⟨busAddress off, 4, .write w⟩ :: rest ∧ off = 0x04 ∧ w.getLsbD 0 = true)

/-- Reads and writes of SEG beyond SEG_LEN do not matter to any command: replacing the segment by one that agrees below
SEG_LEN changes nothing else in any outcome, and no command changes the segment (40_bitreader.md R120). -/
def Obligations.SegmentTailInvisible : Prop :=
  ∀ (i : Instr) (s : State) (g : Segment),
    s.Settled → g.oldBytes = [] → g.oldLens = [] → g.len = s.seg.len →
    (∀ a, a < s.seg.len.toNat → g.byte a = s.seg.byte a) →
      exec i { s with seg := g } = mapNext (fun t => { t with seg := g }) (exec i s)

/-! ## Bit reader -/

/-- NextByte and PadByte, case by case, on a segment with no write in flight (40_bitreader.md R123, R125, R129). -/
def Obligations.NextByteCases : Prop :=
  ∀ (g : Segment) (c : ReadCtx), g.oldBytes = [] → g.oldLens = [] →
    let p := c.br.pos.toNat
    let len := g.len.toNat
    let pads := fun (r : ReadResult Byte) (hit : Bool) (m : Byte) =>
      ∃ k : Byte, k.toNat = min 255 (c.br.padcnt.toNat + 1) ∧
        r = .ok 0xFF { c with br := { c.br with padcnt := k, markerHit := hit, marker := m } }
    let moves := fun (r : ReadResult Byte) (v : Byte) (n : Nat) =>
      ∃ q : BitVec 25, q.toNat = p + n ∧ r = .ok v { c with br := { c.br with pos := q } }
    (c.br.markerHit = true ∨ len ≤ p → pads (nextByte g c) c.br.markerHit c.br.marker) ∧
    (c.br.markerHit = false → p < len → g.byte p ≠ 0xFF → moves (nextByte g c) (g.byte p) 1) ∧
    (c.br.markerHit = false → p + 1 = len → g.byte p = 0xFF →
      nextByte g c = .err ⟨.bitstreamMarker, 0x1FF, c.br.pos⟩ c) ∧
    (c.br.markerHit = false → p + 1 < len → g.byte p = 0xFF → g.byte (p + 1) = 0x00 →
      moves (nextByte g c) 0xFF 2) ∧
    (c.br.markerHit = false → p + 1 < len → g.byte p = 0xFF →
      (0xD0 ≤ (g.byte (p + 1)).toNat ∧ (g.byte (p + 1)).toNat ≤ 0xD7) ∨ g.byte (p + 1) = 0xDC →
      pads (nextByte g c) true (g.byte (p + 1))) ∧
    (c.br.markerHit = false → p + 1 < len → g.byte p = 0xFF → g.byte (p + 1) ≠ 0x00 →
      ¬(0xD0 ≤ (g.byte (p + 1)).toNat ∧ (g.byte (p + 1)).toNat ≤ 0xD7) → g.byte (p + 1) ≠ 0xDC →
      nextByte g c = .err ⟨.bitstreamMarker, (g.byte (p + 1)).setWidth 32, c.br.pos⟩ c)

/-- Fill(n) for n ≤ 16 loses no buffered bit: it appends whole bytes after the buffered bits, at most two, stops once n
bits are buffered, and keeps BITCNT ≤ 23 and BITREG < 2^BITCNT (10_state.md R23, R24). -/
def Obligations.FillKeepsBits : Prop :=
  ∀ (g : Segment) (n : Nat) (c c' : ReadCtx), n ≤ 16 → c.br.Ok → fill g n c = .ok () c' →
    c'.br.Ok ∧ n ≤ c'.br.bitcnt ∧ (n ≤ c.br.bitcnt → c' = c) ∧ (c.br.bitcnt < n → c'.br.bitcnt ≤ n - 1 + 8) ∧
    ∃ bs : List Byte, bs.length ≤ 2 ∧ c'.br.bits = c.br.bits ++ bs.flatMap fun b => bitsMsb 8 b.toNat

/-- The properties of Peek: twice gives the same value and the second reads no byte; Peek then Consume is Take; a shorter
Peek after it gives the top bits of its result (40_bitreader.md R133). -/
def Obligations.PeekProperties : Prop :=
  ∀ (g : Segment) (n v : Nat) (c c1 : ReadCtx), n ≤ 16 → peek g n c = .ok v c1 →
    peek g n c1 = .ok v c1 ∧
    (∀ c2, consume g n c1 = .ok () c2 → take g n c = .ok v c2) ∧
    (∀ m, m ≤ n → peek g m c1 = .ok (v / 2 ^ (n - m)) c1)

/-- BR_NEXTBIT, BR_PEEK and BR_CONSUME deliver the destuffed bit stream in order, then 1s: the value pushed, the stream
left after the command and every other item unchanged. They fault exactly where a needed bit lies past an unexpected or
truncated marker, and for a count above 16. -/
def Obligations.BitCommandsReadStream : Prop :=
  ∀ (s : State) (n : BitVec 5) (l : List Bool) (e : Option (Nat × Word)),
    s.Settled → s.br.Ok → ahead s.seg s.br = (l, e) →
    (n.toNat ≤ 16 → (n.toNat ≤ l.length ∨ e = none) →
      (∃ br p, exec (.brPeek n) s =
          .next { s with br := br, resq := s.resq ++ [BitVec.ofNat 32 (bitsToNat (padTo n.toNat l))] } ∧
        ahead s.seg br = (l ++ List.replicate p true, e) ∧ (n.toNat ≤ l.length → p = 0)) ∧
      (∃ br p, exec (.brConsume n) s = .next { s with br := br } ∧ n.toNat ≤ l.length + p ∧
        ahead s.seg br = ((l ++ List.replicate p true).drop n.toNat, e) ∧ (n.toNat ≤ l.length → p = 0))) ∧
    (1 ≤ l.length ∨ e = none →
      ∃ br p, exec .brNextbit s =
          .next { s with br := br, resq := s.resq ++ [BitVec.ofNat 32 (bitsToNat (padTo 1 l))] } ∧
        1 ≤ l.length + p ∧ ahead s.seg br = ((l ++ List.replicate p true).drop 1, e) ∧ (1 ≤ l.length → p = 0)) ∧
    (∀ q info, e = some (q, info) →
      (n.toNat ≤ 16 → l.length < n.toNat →
        StopsReading (.brPeek n) s 1 info (BitVec.ofNat 25 q) ∧
        StopsReading (.brConsume n) s 1 info (BitVec.ofNat 25 q)) ∧
      (l = [] → StopsReading .brNextbit s 1 info (BitVec.ofNat 25 q))) ∧
    (16 < n.toNat → FailsCheck (.brPeek n) s 13 1 ∧ FailsCheck (.brConsume n) s 13 1)

/-- BR_SEEK, with no SEG_LEN write in flight: it sets POS and empties the reader, and beyond SEG_LEN it is ArgumentError
reason 2, a precise fault. -/
def Obligations.SeekSetsPosition : Prop :=
  ∀ (s : State) (p : BitVec 24), s.seg.oldLens = [] →
    (p.toNat ≤ s.seg.len.toNat →
      exec (.brSeek p) s = .next { s with br :=
        { pos := BitVec.ofNat 25 p.toNat, bitreg := 0, bitcnt := 0, markerHit := false, marker := 0, padcnt := 0 } }) ∧
    (s.seg.len.toNat < p.toNat → FailsCheck (.brSeek p) s 13 2)

/-- BR_ALIGN drops the BITCNT mod 8 oldest bits, the rest of a partly consumed byte, keeps every whole byte, and changes
nothing else. -/
def Obligations.AlignDropsPartialByte : Prop :=
  ∀ s : State, s.br.Ok →
    ∃ reg cnt, exec .brAlign s = .next { s with br := { s.br with bitreg := reg, bitcnt := cnt } } ∧
      cnt % 8 = 0 ∧ s.br.bitcnt - cnt = s.br.bitcnt % 8 ∧ cnt ≤ s.br.bitcnt ∧ reg.toNat < 2 ^ cnt ∧
      BitReader.bits { s.br with bitreg := reg, bitcnt := cnt } = s.br.bits.drop (s.br.bitcnt % 8)

/-- A command other than BR_SEEK that does not fault never moves POS back nor past SEG_LEN, and keeps a marker hit, with
MARKER and POS, once there is one. -/
def Obligations.PositionOnlyGrows : Prop :=
  ∀ (i : Instr) (s t : State), i.op ≠ .brSeek → s.faulted = false → exec i s = .next t → t.faulted = false →
    s.br.pos.toNat ≤ t.br.pos.toNat ∧
    (s.Settled → t.br.pos.toNat ≤ max s.br.pos.toNat s.seg.len.toNat) ∧
    (s.br.markerHit = true →
      t.br.markerHit = true ∧ t.br.marker = s.br.marker ∧ t.br.pos = s.br.pos)

/-! ## Huffman tables and decoding -/

/-- HUFFSIZE and HUFFCODE of the table HT_INIT builds: BITS[L] codes of each length L in length order, the first code 0,
each next code one more, shifted left by the increase in length; none is cut off by its 24 bits (41_huffman.md R161). -/
def Obligations.CanonicalCodes : Prop :=
  ∀ (old : HuffTable) (bits : Vector Byte 16) (d : Nat), (bits.toList.map BitVec.toNat).sum ≤ 256 →
    let t := old.build bits d
    t.huffsize.length = (bits.toList.map BitVec.toNat).sum ∧ t.huffcode.length = t.huffsize.length ∧
    t.huffsize.Pairwise (· ≤ ·) ∧
    (∀ len : Fin 16, t.huffsize.count (len.val + 1) = (bits[len]).toNat) ∧
    (∀ k, k < t.huffsize.length → 1 ≤ t.size k ∧ t.size k ≤ 16) ∧
    (0 < t.huffcode.length → (t.huffcode.getD 0 0).toNat = 0) ∧
    (∀ k, k + 1 < t.huffcode.length →
      (t.huffcode.getD (k + 1) 0).toNat = ((t.huffcode.getD k 0).toNat + 1) * 2 ^ (t.size (k + 1) - t.size k))

/-- MAXCODE, MINCODE and VALPTR of the table HT_INIT builds: MAXCODE is NONE where a length has no code, and there the other
two are any value; else they are the code of the length's last index, the code of its first, and its first index
(41_huffman.md R162). -/
def Obligations.DecodeTables : Prop :=
  ∀ (old : HuffTable) (bits : Vector Byte 16) (d : Nat), (bits.toList.map BitVec.toNat).sum ≤ 256 →
    let t := old.build bits d
    ∀ len : Fin 16,
      let n := (bits[len]).toNat
      let row := t.rows[len]
      (n = 0 → row.maxcode = none) ∧
      (n ≠ 0 →
        row.valptr = t.huffsize.countP (fun x => decide (x < len.val + 1)) ∧
        t.size row.valptr = len.val + 1 ∧ t.size (row.valptr + n - 1) = len.val + 1 ∧
        row.mincode = t.huffcode.getD row.valptr 0 ∧
        row.maxcode = some (t.huffcode.getD (row.valptr + n - 1) 0))

/-- HT_INIT: the four data words carry BITS[1..16] little-endian; a sum above 256 and an id out of range fault precisely;
otherwise the named table, and nothing else of the block, becomes the table built from BITS, valid and with no value
inserted. -/
def Obligations.HtInitBuilds : Prop :=
  ∀ (s : State) (tc th : BitVec 4) (d0 d1 d2 d3 : Word),
    let i := Instr.htInit tc th d0 d1 d2 d3
    (1 < tc.toNat → FailsCheck i s 5 (tc.toNat * 16 + 1)) ∧
    (tc.toNat ≤ 1 → 3 < th.toNat → FailsCheck i s 5 (th.toNat * 16 + 2)) ∧
    ∃ bits : Vector Byte 16,
      (∀ j : Fin 4, bits[j.val]'(by omega) = field d0 (8 * j.val) 8 ∧
        bits[4 + j.val]'(by omega) = field d1 (8 * j.val) 8 ∧
        bits[8 + j.val]'(by omega) = field d2 (8 * j.val) 8 ∧
        bits[12 + j.val]'(by omega) = field d3 (8 * j.val) 8) ∧
      (tc.toNat ≤ 1 → th.toNat ≤ 3 → 256 < (bits.toList.map BitVec.toNat).sum →
        FailsCheck i s 3 (5 * 2 ^ 24 + tc.toNat * 16 + th.toNat)) ∧
      (∀ (c : HuffClass) (t : BitVec 2), tc = c.code → th = t.setWidth 4 →
        (bits.toList.map BitVec.toNat).sum ≤ 256 →
        let tab := (s.table c t).build bits s.draws
        (∃ d, exec i s = .next ({ s with draws := d }.setTable c t tab)) ∧
        tab.valid = true ∧ tab.nins = 0 ∧ tab.bits = bits ∧ tab.nval = (bits.toList.map BitVec.toNat).sum)

/-- HT_INSERT appends one value at the next canonical code of the named table and changes nothing else; its six refusals
come in the order of 41_huffman.md R164, each a precise fault. -/
def Obligations.HtInsertAppends : Prop :=
  ∀ (s : State) (tc th : BitVec 4) (l : BitVec 5) (v : Byte),
    let i := Instr.htInsert tc th l v
    (1 < tc.toNat → FailsCheck i s 5 (tc.toNat * 16 + 1)) ∧
    (tc.toNat ≤ 1 → 3 < th.toNat → FailsCheck i s 5 (th.toNat * 16 + 2)) ∧
    (∀ (c : HuffClass) (t : BitVec 2), tc = c.code → th = t.setWidth 4 →
      let tab := s.table c t
      let why := fun reason : Nat => reason * 2 ^ 24 + l.toNat * 2 ^ 8 + tc.toNat * 16 + th.toNat
      let next := (tab.huffcode.getD tab.nins 0).toNat
      (tab.valid = false → FailsCheck i s 9 (tc.toNat * 16 + th.toNat)) ∧
      (tab.valid = true → l.toNat < 1 ∨ 16 < l.toNat → FailsCheck i s 3 (why 1)) ∧
      (tab.valid = true → 1 ≤ l.toNat → l.toNat ≤ 16 → tab.nins = tab.nval → FailsCheck i s 3 (why 2)) ∧
      (tab.valid = true → 1 ≤ l.toNat → l.toNat ≤ 16 → tab.nins ≠ tab.nval → l.toNat ≠ tab.size tab.nins →
        FailsCheck i s 3 (why 3)) ∧
      (tab.valid = true → 1 ≤ l.toNat → l.toNat ≤ 16 → tab.nins ≠ tab.nval → l.toNat = tab.size tab.nins →
        2 ^ l.toNat ≤ next → FailsCheck i s 3 (why 4)) ∧
      (tab.valid = true → 1 ≤ l.toNat → l.toNat ≤ 16 → tab.nins < tab.nval → tab.nval ≤ 256 →
        l.toNat = tab.size tab.nins → next < 2 ^ l.toNat →
        ∃ vals, exec i s = .next (s.setTable c t { tab with huffval := vals, nins := tab.nins + 1 }) ∧
          ∀ k : Fin 256, vals[k] = if k.val = tab.nins then v else tab.huffval[k]))

/-- Loading a table: HT_INIT with counts that sum to at most 256 and whose codes all fit, then one HT_INSERT per value in
order, each with its length from BITS, are all accepted and leave the table full with those values (41_huffman.md R165). -/
def Obligations.LoadingFillsTable : Prop :=
  ∀ (s : State) (c : HuffClass) (t : BitVec 2) (d0 d1 d2 d3 : Word) (vs : List Byte),
    let built := (s.table c t).build (countsOf d0 d1 d2 d3) s.draws
    s.faulted = false → built.nval ≤ 256 → vs.length = built.nval →
    (∀ k, k < built.nval → (built.huffcode.getD k 0).toNat < 2 ^ built.size k) →
    ∃ vals d, execSeq (.htInit c.code (t.setWidth 4) d0 d1 d2 d3 ::
        (List.range vs.length).map fun k =>
          .htInsert c.code (t.setWidth 4) (BitVec.ofNat 5 (built.size k)) (vs.getD k 0)) s =
      .next ({ s with draws := d }.setTable c t { built with huffval := vals, nins := built.nval }) ∧
      ∀ k, k < vs.length → vals.toList.getD k 0 = vs.getD k 0

/-- HT_DECODE: on a bit stream that begins with the code of an inserted value, read with its pad bits, it pushes that value
and consumes exactly the code's bits, in both Huffman variants; an id out of range and a table not loaded fault precisely
(41_huffman.md R171, R172, R175). -/
def Obligations.HtDecodeFindsCode : Prop :=
  (∀ (s : State) (c : HuffClass) (t : BitVec 2) (k : Nat) (l : List Bool) (e : Option (Nat × Word)),
    let tab := s.table c t
    s.Settled → s.br.Ok → tab.valid = true → tab.Ok → k < tab.nins → ahead s.seg s.br = (l, e) →
    padTo (tab.size k) l = tab.codeBits k → (tab.size k ≤ l.length ∨ e = none) →
    ∃ br p, exec (.htDecode c.code (t.setWidth 4)) s =
        .next { s with br := br, resq := s.resq ++ [(tab.value k).setWidth 32] } ∧
      tab.size k ≤ l.length + p ∧
      ahead s.seg br = ((l ++ List.replicate p true).drop (tab.size k), e) ∧ (tab.size k ≤ l.length → p = 0)) ∧
  (∀ (s : State) (tc th : BitVec 4),
    (1 < tc.toNat → FailsCheck (.htDecode tc th) s 5 (tc.toNat * 16 + 1)) ∧
    (tc.toNat ≤ 1 → 3 < th.toNat → FailsCheck (.htDecode tc th) s 5 (th.toNat * 16 + 2)) ∧
    (∀ (c : HuffClass) (t : BitVec 2), tc = c.code → th = t.setWidth 4 → (s.table c t).valid = false →
      FailsCheck (.htDecode tc th) s 9 (tc.toNat * 16 + th.toNat)))

/-- HT_DECODE never returns a value that was not inserted, and what it consumed is that value's code, at most 16 bits
(41_huffman.md R171, R173). On a stream that begins with no inserted code it stops, with only the bit reader touched: in the
array variant with HuffmanDecodeError, its class and id in FAULT_INFO and FAULT_POS = POS after the bits it read, or with
the BitstreamMarkerError it met within them; in the tree variant with that fault, HuffmanDecodeError, or a
BitstreamMarkerError met within one bit more, at any FAULT_POS (41_huffman.md R171, R172, 60_exceptions.md R363; log 12). -/
def Obligations.HtDecodeOnlyInserted : Prop :=
  (∀ (s u : State) (c : HuffClass) (t : BitVec 2) (l : List Bool) (e : Option (Nat × Word)),
    let tab := s.table c t
    s.br.Ok → tab.valid = true → tab.Ok → s.faulted = false → ahead s.seg s.br = (l, e) →
    exec (.htDecode c.code (t.setWidth 4)) s = .next u → u.faulted = false →
    ∃ k, k < tab.nins ∧ tab.size k ≤ 16 ∧ u.resq = s.resq ++ [(tab.value k).setWidth 32] ∧
      (s.Settled → padTo (tab.size k) l = tab.codeBits k ∧
        ∃ p, ahead s.seg u.br = ((l ++ List.replicate p true).drop (tab.size k), e))) ∧
  (∀ (s : State) (c : HuffClass) (t : BitVec 2) (l : List Bool) (e : Option (Nat × Word)),
    let tab := s.table c t
    s.Settled → s.br.Ok → tab.valid = true → tab.Ok → ahead s.seg s.br = (l, e) →
    ((∀ k, k < tab.nins → padTo (tab.size k) l ≠ tab.codeBits k) → ∃ m, 1 ≤ m ∧ m ≤ 16 ∧ tab.NoValue l m) ∧
    DecodeFails s.arrayVariant c t tab l e (posAfter s.seg s.br) (StopsReading (.htDecode c.code (t.setWidth 4)) s))

/-! ## Coefficients -/

/-- PRED_RESET zeroes the four predictors; SCAN_SETUP binds its slot, and no other, and its range checks come in the order
of 42_coefficient.md R201; neither changes anything else. -/
def Obligations.SlotsAndPredictors : Prop :=
  (∀ s : State, ∃ p, exec .predReset s = .next { s with pred := p } ∧ ∀ t : Fin 4, p[t] = 0) ∧
  (∀ (s : State) (n d a q : BitVec 2) (ci : Byte),
    ∃ slots, exec (.scanSetup (n.setWidth 4) (d.setWidth 4) (a.setWidth 4) (q.setWidth 4) ci) s =
        .next { s with slot := slots } ∧
      (∀ t : Fin 4, slots[t] =
        if t.val = n.toNat then { valid := true, ci := ci, td := d, ta := a, tq := q } else s.slot[t]) ∧
      ({ s with slot := slots } : State).tblValid.getLsbD (12 + n.toNat) = true) ∧
  (∀ (s : State) (n td ta tq : BitVec 4) (ci : Byte),
    let i := Instr.scanSetup n td ta tq ci
    (3 < n.toNat → FailsCheck i s 13 3) ∧
    (n.toNat ≤ 3 → 3 < td.toNat → FailsCheck i s 5 (td.toNat * 16 + 4)) ∧
    (n.toNat ≤ 3 → td.toNat ≤ 3 → 3 < ta.toNat → FailsCheck i s 5 (ta.toNat * 16 + 5)) ∧
    (n.toNat ≤ 3 → td.toNat ≤ 3 → ta.toNat ≤ 3 → 3 < tq.toNat → FailsCheck i s 5 (tq.toNat * 16 + 3)))

/-- EXTEND pushes Extend(V, T): 0 for T = 0, V - 2^T + 1 for V < 2^(T-1), and V otherwise, so that for T ≥ 1 it lies in
-(2^T - 1)..-(2^(T-1)) or 2^(T-1)..2^T - 1 (42_coefficient.md R203). It changes nothing else, and faults precisely for
T > 16 and for V ≥ 2^T. -/
def Obligations.ExtendSigns : Prop :=
  ∀ (s : State) (t : BitVec 5) (v : BitVec 16),
    (t.toNat ≤ 16 → v.toNat < 2 ^ t.toNat →
      ∃ w : Word, exec (.extend t v) s = .next { s with resq := s.resq ++ [w] } ∧
        (t.toNat = 0 → w.toInt = 0) ∧
        (t.toNat ≠ 0 → v.toNat < 2 ^ (t.toNat - 1) →
          w.toInt = (v.toNat : Int) - 2 ^ t.toNat + 1 ∧
          -(2 ^ t.toNat - 1) ≤ w.toInt ∧ w.toInt ≤ -(2 ^ (t.toNat - 1))) ∧
        (t.toNat ≠ 0 → 2 ^ (t.toNat - 1) ≤ v.toNat →
          w.toInt = v.toNat ∧ 2 ^ (t.toNat - 1) ≤ w.toInt ∧ w.toInt ≤ 2 ^ t.toNat - 1)) ∧
    (16 < t.toNat → FailsCheck (.extend t v) s 13 4) ∧
    (t.toNat ≤ 16 → 2 ^ t.toNat ≤ v.toNat → FailsCheck (.extend t v) s 13 5)

/-- DECODE_COEFS rebuilds the block that the bit stream encodes. Let the stream, with its pad bits, begin with the code of
a DC category of at most 11, its magnitude bits, the codes and magnitude bits of AC symbols that place coefficients up to
position k, and, if k ≤ 63, the code of an EOB. Then BLK is that block in zig-zag order, PRED[s] the new DC value, the
stream loses exactly these bits, pad bits among them, only the bytes that hold them are fetched, and nothing else changes
(42_coefficient.md R210, R211, 40_bitreader.md R122, R127). -/
def Obligations.DecodeCoefsRebuilds : Prop :=
  ∀ (s : State) (n : BitVec 2) (kd raw : Nat) (items : List (Nat × Nat)) (k : Nat) (b : Blk) (ke : Nat)
    (l rest : List Bool) (e : Option (Nat × Word)) (p : Nat),
    let sl := s.slotAt n
    let dc := s.table .dc sl.td
    let ac := s.table .ac sl.ta
    let cat := (dc.value kd).toNat
    let v := (s.predAt n).toInt + extendValue raw cat
    s.Settled → s.br.Ok → sl.valid = true → dc.valid = true → dc.Ok → ac.valid = true → ac.Ok →
    kd < dc.nins → cat ≤ 11 → raw < 2 ^ cat → -2147483648 ≤ v → v ≤ 2147483647 →
    acPlace ac 1 items (dcBlock (BitVec.ofInt 32 v)) = some (k, b) →
    (k ≤ 63 → ke < ac.nins ∧ ac.value ke = 0) →
    ahead s.seg s.br = (l, e) → (p = 0 ∨ e = none) →
    l ++ List.replicate p true =
      dc.codeBits kd ++ bitsMsb cat raw ++ acBits ac items ++ (if k ≤ 63 then ac.codeBits ke else []) ++ rest →
    ∃ br, exec (.decodeCoefs (n.setWidth 4)) s =
        .next { s with blk := b, pred := s.pred.set n.toNat (BitVec.ofInt 32 v) n.isLt, br := br } ∧
      (p = 0 → ahead s.seg br = (rest, e)) ∧
      ReadsTo s.seg s.br (dc.codeBits kd ++ bitsMsb cat raw ++ acBits ac items ++
        (if k ≤ 63 then ac.codeBits ke else [])).length br

/-- DECODE_COEFS stops where the stream it reads goes wrong, each stop with its code, FAULT_INFO and FAULT_POS, and with only
the write set touched: at the DC symbol or an AC symbol, where the stream has no inserted code (HuffmanDecodeError, or a
BitstreamMarkerError, as 41_huffman.md R171 and R172 say); a magnitude that the stream ends within (BitstreamMarkerError); a
DC category above 11; a DC value past 32 bits; an AC symbol with SSSS = 0 and RRRR neither 0 nor 15; and a run past position
63 (42_coefficient.md R210, R212-R214, 60_exceptions.md R363). Before any bit is read it checks the slot, then the DC table,
then the AC table. -/
def Obligations.DecodeCoefsStops : Prop :=
  (∀ (s : State) (n : BitVec 2) (kd raw : Nat) (items : List (Nat × Nat)) (k : Nat) (b : Blk) (kx : Nat)
    (l rest : List Bool) (e : Option (Nat × Word)) (p : Nat),
    let sl := s.slotAt n
    let dc := s.table .dc sl.td
    let ac := s.table .ac sl.ta
    let cat := (dc.value kd).toNat
    let v := (s.predAt n).toInt + extendValue raw cat
    let i := Instr.decodeCoefs (n.setWidth 4)
    let stops := fun (code : Byte) (info : Nat) (read : List Bool) =>
      StopsDecoding i s n code (BitVec.ofNat 32 info) (BitVec.ofNat 25 (posAfter s.seg s.br read.length))
    let stream := l ++ List.replicate p true
    let dcBits := dc.codeBits kd ++ bitsMsb cat raw
    s.Settled → s.br.Ok → sl.valid = true → dc.valid = true → dc.Ok → ac.valid = true → ac.Ok →
    ahead s.seg s.br = (l, e) → (p = 0 ∨ e = none) →
    DecodeFails s.arrayVariant .dc sl.td dc l e (posAfter s.seg s.br) (StopsDecoding i s n) ∧
    (kd < dc.nins →
      (11 < cat → stream = dc.codeBits kd ++ rest → stops 11 cat (dc.codeBits kd)) ∧
      (∀ q info, cat ≤ 11 → e = some (q, info) → l = dc.codeBits kd ++ rest → rest.length < cat →
        StopsDecoding i s n 1 info (BitVec.ofNat 25 q)) ∧
      (cat ≤ 11 → raw < 2 ^ cat → v < -2147483648 ∨ 2147483647 < v → stream = dcBits ++ rest → stops 12 1 dcBits) ∧
      (cat ≤ 11 → raw < 2 ^ cat → -2147483648 ≤ v → v ≤ 2147483647 →
        acPlace ac 1 items (dcBlock (BitVec.ofInt 32 v)) = some (k, b) → k ≤ 63 →
        (stream = dcBits ++ acBits ac items ++ rest →
          DecodeFails s.arrayVariant .ac sl.ta ac rest e
            (fun m => posAfter s.seg s.br ((dcBits ++ acBits ac items).length + m)) (StopsDecoding i s n)) ∧
        (kx < ac.nins → stream = dcBits ++ acBits ac items ++ ac.codeBits kx ++ rest →
          (ac.ssss kx = 0 → ac.rrrr kx ≠ 0 → ac.rrrr kx ≠ 15 →
            stops 4 ((ac.value kx).toNat + 256 * k) (dcBits ++ acBits ac items ++ ac.codeBits kx)) ∧
          (ac.ssss kx ≠ 0 → 63 < k + ac.rrrr kx →
            stops 10 ((ac.value kx).toNat + 256 * (k + ac.rrrr kx)) (dcBits ++ acBits ac items ++ ac.codeBits kx)) ∧
          (∀ q info, ac.ssss kx ≠ 0 → k + ac.rrrr kx ≤ 63 → e = some (q, info) → rest.length < ac.ssss kx →
            StopsDecoding i s n 1 info (BitVec.ofNat 25 q)))))) ∧
  (∀ (s : State) (n : BitVec 4), 3 < n.toNat → FailsCheck (.decodeCoefs n) s 13 3) ∧
  (∀ (s : State) (n : BitVec 2),
    let sl := s.slotAt n
    let i := Instr.decodeCoefs (n.setWidth 4)
    (sl.valid = false → FailsCheck i s 13 7) ∧
    (sl.valid = true → (s.table .dc sl.td).valid = false → FailsCheck i s 9 sl.td.toNat) ∧
    (sl.valid = true → (s.table .dc sl.td).valid = true → (s.table .ac sl.ta).valid = false →
      FailsCheck i s 9 (16 + sl.ta.toNat)))

/-! ## Dequantizer and reorderer -/

/-- QT_LOAD: the 32 data words carry 64 entries two per word, the lower half first; the table becomes valid with that
precision and those entries, and nothing else changes; its checks come in the order of 43_dequant_reorder.md R240, the
first entry above 255 reported for an 8-bit table. -/
def Obligations.QtLoadLoads : Prop :=
  ∀ (s : State) (pq tq : BitVec 4) (ds : List Word), ds.length = 32 →
    let i := Instr.qtLoad pq tq ds
    let entry := fun k : Nat => (ds.getD (k / 2) 0).toNat / 2 ^ (16 * (k % 2)) % 2 ^ 16
    (1 < pq.toNat → FailsCheck i s 5 (pq.toNat * 16 + 6)) ∧
    (pq.toNat ≤ 1 → 3 < tq.toNat → FailsCheck i s 5 (tq.toNat * 16 + 3)) ∧
    (∀ k, pq.toNat = 0 → tq.toNat ≤ 3 → k < 64 → 255 < entry k → (∀ j, j < k → entry j ≤ 255) →
      FailsCheck i s 5 (k * 2 ^ 24 + entry k * 16 + 7)) ∧
    (∀ t : BitVec 2, tq = t.setWidth 4 → pq.toNat = 1 ∨ (pq.toNat = 0 ∧ ∀ k, k < 64 → entry k ≤ 255) →
      ∃ q tables, exec i s = .next { s with qt := tables } ∧
        (∀ j : Fin 4, tables[j] = if j.val = t.toNat then q else s.qt[j]) ∧
        q.valid = true ∧ (q.prec = true ↔ pq.toNat = 1) ∧
        (∀ k : Fin 64, (q.q[k]).toNat = entry k.val) ∧
        ({ s with qt := tables } : State).tblValid.getLsbD t.toNat = true)

/-- DEQUANT multiplies BLK entry-wise by the table, as exact integers, and changes nothing else; the first product outside
32 bits is RangeFault stage 2 at its index; an id out of range and a table not loaded fault precisely. -/
def Obligations.DequantMultiplies : Prop :=
  (∀ (s : State) (t : BitVec 2),
    let q := (s.quant t).q
    let prod := fun k : Fin 64 => (s.blk[k]).toInt * (q[k]).toNat
    let i := Instr.dequant (t.setWidth 4)
    ((s.quant t).valid = false → FailsCheck i s 9 (2 * 16 + t.toNat)) ∧
    ((s.quant t).valid = true → (∀ k, -2147483648 ≤ prod k ∧ prod k ≤ 2147483647) →
      ∃ b, exec i s = .next { s with blk := b } ∧ ∀ k : Fin 64, (b[k]).toInt = prod k) ∧
    (∀ k : Fin 64, (s.quant t).valid = true → (prod k < -2147483648 ∨ 2147483647 < prod k) →
      (∀ j : Fin 64, j < k → -2147483648 ≤ prod j ∧ prod j ≤ 2147483647) →
      StopsBlock i s (2 + 256 * k.val))) ∧
  (∀ (s : State) (tq : BitVec 4), 3 < tq.toNat → FailsCheck (.dequant tq) s 5 (tq.toNat * 16 + 3))

/-- REORDER sends the entry at zig-zag index k to the k-th cell of the diagonal walk of 43_dequant_reorder.md R247 and
changes nothing else; the walk meets every cell once. -/
def Obligations.ReorderWalksDiagonals : Prop :=
  ∀ s : State, ∃ b, exec .reorder s = .next { s with blk := b } ∧
    ∀ k : Fin 64, b.toList.getD (zigzagWalk.getD k.val 0) 0 = s.blk[k] ∧
      (∀ j : Fin 64, zigzagWalk.getD j.val 0 = zigzagWalk.getD k.val 0 → j = k)

/-- REORDER is a permutation of the block that fixes entries 0 and 63 and is not its own inverse (43_dequant_reorder.md
R246). -/
def Obligations.ReorderPermutes : Prop :=
  (∀ b : Blk, ∃ a, reorderBody a = b ∧ ∀ a', reorderBody a' = b → a' = a) ∧
  (∀ b : Blk, (reorderBody b)[0] = b[0] ∧ (reorderBody b)[63] = b[63]) ∧
  (∀ b : Blk, (reorderBody b)[2] = b[5] ∧ (reorderBody b)[5] = b[15]) ∧
  (∃ b : Blk, reorderBody (reorderBody b) ≠ b)

/-- Dequantization commutes with the reordering: the product by Q_zz and then REORDER equals REORDER and then the product
by the reordered table Q_nat[p] = Q_zz[ZZINDEX[p]], and one stays in range exactly when the other does
(43_dequant_reorder.md R243). -/
def Obligations.DequantCommutesWithReorder : Prop :=
  ∀ (b : Blk) (q qn : Vector (BitVec 16) 64),
    (∀ p : Fin 64, qn[p] = q.toList.getD (zzIndex.getD p.val 0) 0) →
    (∀ b1, dequantBody b q = .ok b1 → dequantBody (reorderBody b) qn = .ok (reorderBody b1)) ∧
    (∀ b2, dequantBody (reorderBody b) qn = .ok b2 → ∃ b1, dequantBody b q = .ok b1)

/-! ## IDCT -/

/-- IDCT completes on every block, changes only BLK, and gives samples in -128..127, all 0 for an all-zero block; the naive
and the cached variant give the same block (44_idct.md R260, R263). -/
def Obligations.IdctSamplesInRange : Prop :=
  (∀ s : State, s.idctVariant ≠ 3 →
    ∃ b, exec .idct s = .next { s with blk := b } ∧
      (∀ k : Fin 64, -128 ≤ (b[k]).toInt ∧ (b[k]).toInt ≤ 127) ∧
      ((∀ k : Fin 64, s.blk[k] = 0) → ∀ k : Fin 64, b[k] = 0)) ∧
  (∀ (s : State) (c0 c1 : BitVec 4), c0.extractLsb' 1 2 = 0 → c1.extractLsb' 1 2 = 1 →
    ∃ b, exec .idct { s with config := c0 } = .next { s with config := c0, blk := b } ∧
      exec .idct { s with config := c1 } = .next { s with config := c1, blk := b })

/-- DC-only blocks: with F[0][0] = c, |c| < 2^27, and every other coefficient 0, Chen-Wang gives 64 samples of
clamp(floor(c/8 + 1/2)); float gives the same unless c = 4 mod 8, where each sample is one of the two neighbours of c/8,
one of which is the Chen-Wang sample (44_idct.md R268). -/
def Obligations.IdctOfDcOnly : Prop :=
  ∀ (s : State) (c : Int), -2 ^ 27 < c → c < 2 ^ 27 → (s.blk[0]).toInt = c → (∀ k : Fin 64, k.val ≠ 0 → s.blk[k] = 0) →
    let cut := fun v : Int => max (-128) (min 127 v)
    (s.idctVariant = 2 →
      ∃ b, exec .idct s = .next { s with blk := b } ∧ ∀ k : Fin 64, (b[k]).toInt = cut ((c + 4) / 8)) ∧
    (s.idctVariant = 0 ∨ s.idctVariant = 1 →
      ∃ b, exec .idct s = .next { s with blk := b } ∧
        (c % 8 ≠ 4 → ∀ k : Fin 64, (b[k]).toInt = cut ((c + 4) / 8)) ∧
        (c % 8 = 4 → ∀ k : Fin 64, (b[k]).toInt = cut ((c + 4) / 8) ∨ (b[k]).toInt = cut ((c + 4) / 8 - 1)))

/-- The float IDCT against the real transform of 44_idct.md R261: where the exact real r[y][x] is farther than FLOAT_TIE_EPS
from every half-integer, the sample is the nearest integer, clamped; within FLOAT_TIE_EPS of a half-integer n + 1/2 it is n
or n + 1, clamped (44_idct.md R262). FLOAT_TIE_EPS is any rational number in 0 < eps ≤ 2^-10 (00_scope.md R9, log 6). -/
def Obligations.FloatIdctRoundsTransform : Prop :=
  ∀ s : State, s.idctVariant = 0 ∨ s.idctVariant = 1 →
    ∃ b, exec .idct s = .next { s with blk := b } ∧
    0 < Config.tieEps ∧ Config.tieEps ≤ 1 / 2 ^ 10 ∧
    ∀ y x : Fin 8,
      let cof : ℕ → ℝ := fun k => if k = 0 then 1 / Real.sqrt 2 else 1
      let r : ℝ := (1 / 4) * ∑ v : Fin 8, ∑ u : Fin 8,
        cof u.val * cof v.val * ((blkGet s.blk (8 * v.val + u.val)).toInt : ℝ)
          * Real.cos ((2 * x.val + 1) * u.val * Real.pi / 16) * Real.cos ((2 * y.val + 1) * v.val * Real.pi / 16)
      let eps : ℝ := (Config.tieEps : ℝ)
      let cut := fun v : ℤ => max (-128) (min 127 v)
      let sample := (blkGet b (8 * y.val + x.val)).toInt
      ((∀ n : ℤ, eps < |r - (n + 1 / 2)|) → sample = cut ⌊r + 1 / 2⌋) ∧
      (∀ n : ℤ, |r - (n + 1 / 2)| ≤ eps → sample = cut n ∨ sample = cut (n + 1))

/-! ## Level shift, output and the fused pipeline -/

/-- LEVEL_SHIFT adds 128 to every entry and changes nothing else; the first sum past 32 bits is RangeFault stage 3 at its
index (45_level_shift_output.md R290). -/
def Obligations.LevelShiftAdds : Prop :=
  ∀ s : State,
    ((∀ k : Fin 64, (s.blk[k]).toInt ≤ 2147483647 - 128) →
      ∃ b, exec .levelShift s = .next { s with blk := b } ∧
        ∀ k : Fin 64, (b[k]).toInt = (s.blk[k]).toInt + 128) ∧
    (∀ k : Fin 64, 2147483647 - 128 < (s.blk[k]).toInt →
      (∀ j : Fin 64, j < k → (s.blk[j]).toInt ≤ 2147483647 - 128) →
      StopsBlock .levelShift s (3 + 256 * k.val))

/-- EMIT appends one 18-word record to OUTQ and changes nothing else: the component id and slot, the data word, and the
samples, where sample (row y, column x) is in word 2 + 2·y + x div 4 at bits 8·(x mod 4) + 7 down. Its checks come in
order: slot number, slot set up, then the first entry that is no byte, all precise (45_level_shift_output.md R292,
R293). -/
def Obligations.EmitPushesRecord : Prop :=
  (∀ (s : State) (n : BitVec 2) (d : Word),
    let i := Instr.emit (n.setWidth 4) d
    ((s.slotAt n).valid = false → FailsCheck i s 13 7) ∧
    ((s.slotAt n).valid = true → (∀ k : Fin 64, 0 ≤ (s.blk[k]).toInt ∧ (s.blk[k]).toInt ≤ 255) →
      ∃ r : List Word, exec i s = .next { s with outq := s.outq ++ r } ∧ r.length = 18 ∧
        (r.getD 0 0).toNat = (s.slotAt n).ci.toNat + 256 * n.toNat ∧ r.getD 1 0 = d ∧
        ∀ y x : Fin 8,
          ((r.getD (2 + 2 * y.val + x.val / 4) 0).toNat / 2 ^ (8 * (x.val % 4)) % 256 : Int) =
            (blkGet s.blk (8 * y.val + x.val)).toInt) ∧
    (∀ k : Fin 64, (s.slotAt n).valid = true → ((s.blk[k]).toInt < 0 ∨ 255 < (s.blk[k]).toInt) →
      (∀ j : Fin 64, j < k → 0 ≤ (s.blk[j]).toInt ∧ (s.blk[j]).toInt ≤ 255) →
      FailsCheck i s 12 (4 + 256 * k.val))) ∧
  (∀ (s : State) (n : BitVec 4) (d : Word), 3 < n.toNat → FailsCheck (.emit n d) s 13 3)

/-- DECODE_BLOCK on a stream that encodes a block, whose dequantized products fit in 32 bits: BLK ends as the level-shifted
samples of the transform of the dequantized, reordered block, all 0..255; its record is pushed; PRED[s] is the new DC value,
and the stream loses exactly the bits of the block, pad bits among them; nothing else changes (45_level_shift_output.md
R296). -/
def Obligations.DecodeBlockRebuilds : Prop :=
  ∀ (s : State) (n : BitVec 2) (d : Word) (kd raw : Nat) (items : List (Nat × Nat)) (k : Nat) (b b1 b2 : Blk) (ke : Nat)
    (l rest : List Bool) (e : Option (Nat × Word)) (p : Nat),
    let sl := s.slotAt n
    let dc := s.table .dc sl.td
    let ac := s.table .ac sl.ta
    let cat := (dc.value kd).toNat
    let v := (s.predAt n).toInt + extendValue raw cat
    s.Settled → s.br.Ok → sl.valid = true → dc.valid = true → dc.Ok → ac.valid = true → ac.Ok →
    (s.quant sl.tq).valid = true → s.idctVariant ≠ 3 →
    kd < dc.nins → cat ≤ 11 → raw < 2 ^ cat → -2147483648 ≤ v → v ≤ 2147483647 →
    acPlace ac 1 items (dcBlock (BitVec.ofInt 32 v)) = some (k, b) →
    (k ≤ 63 → ke < ac.nins ∧ ac.value ke = 0) →
    ahead s.seg s.br = (l, e) → (p = 0 ∨ e = none) →
    l ++ List.replicate p true =
      dc.codeBits kd ++ bitsMsb cat raw ++ acBits ac items ++ (if k ≤ 63 then ac.codeBits ke else []) ++ rest →
    dequantBody b (s.quant sl.tq).q = .ok b1 → idctBody s.idctVariant (reorderBody b1) = some b2 →
    ∃ br out, exec (.decodeBlock (n.setWidth 4) d) s =
        .next { s with blk := out, pred := s.pred.set n.toNat (BitVec.ofInt 32 v) n.isLt, br := br,
                       outq := s.outq ++ record sl.ci (n.setWidth 4) d out } ∧
      (∀ j : Fin 64, (out[j]).toInt = (b2[j]).toInt + 128 ∧ 0 ≤ (out[j]).toInt ∧ (out[j]).toInt ≤ 255) ∧
      (p = 0 → ahead s.seg br = (rest, e)) ∧
      ReadsTo s.seg s.br (dc.codeBits kd ++ bitsMsb cat raw ++ acBits ac items ++
        (if k ≤ 63 then ac.codeBits ke else [])).length br

/-- DECODE_BLOCK has the same effect, result and fault code as DECODE_COEFS, DEQUANT with the slot's table, REORDER, IDCT,
LEVEL_SHIFT and EMIT run one after another: the same next state when the sequence completes, and when it faults a fault
with the same code, information and position, whose FAULT_CMD is the DECODE_BLOCK word. With the slot's quantization table
not loaded the sequence faults by DEQUANT at the latest, and DECODE_BLOCK, its slot set up and its other tables loaded,
before it reads a bit (45_level_shift_output.md R297). A slot number out of range is ArgumentError reason 3. -/
def Obligations.DecodeBlockIsSequence : Prop :=
  (∀ (s t : State) (n : BitVec 2) (d : Word),
    let q := s.quant (s.slotAt n).tq
    let one := Instr.decodeBlock (n.setWidth 4) d
    let coefs := Instr.decodeCoefs (n.setWidth 4)
    let deq := Instr.dequant ((s.slotAt n).tq.setWidth 4)
    s.faulted = false → s.idctVariant ≠ 3 →
    execSeq [coefs, deq, .reorder, .idct, .levelShift, .emit (n.setWidth 4) d] s = .next t →
      (q.valid = true → t.faulted = false → exec one s = .next t) ∧
      (q.valid = true → t.faulted = true → ∃ u, exec one s = .next u ∧ u.faulted = true ∧
        u.faultCode = t.faultCode ∧ u.faultInfo = t.faultInfo ∧ u.faultPos = t.faultPos ∧ u.faultCmd = one.head ∧
        u.resq = t.resq ∧ u.outq = t.outq) ∧
      (q.valid = false → t.faulted = true ∧
        (t.faultCmd = coefs.head ∨ t.faultCmd = deq.head ∧ t.faultCode = 9))) ∧
  (∀ (s : State) (n : BitVec 2) (d : Word),
    let sl := s.slotAt n
    sl.valid = true → (s.table .dc sl.td).valid = true → (s.table .ac sl.ta).valid = true →
    (s.quant sl.tq).valid = false → FailsCheck (.decodeBlock (n.setWidth 4) d) s 9 (2 * 16 + sl.tq.toNat)) ∧
  (∀ (s : State) (n : BitVec 4) (d : Word), 3 < n.toNat → FailsCheck (.decodeBlock n d) s 13 3)

/-! ## Colour -/

/-- COLOR pushes the pixel of the path CONFIG.CM selects, packed R, G, B, A from bit 0 up with A = 255, and changes nothing
else: the float path is exact rational arithmetic rounded half up, the integer path its fixed-point form, both clamped to
0..255 (46_color.md R312, R313, R315). -/
def Obligations.ColorConverts : Prop :=
  ∀ (s : State) (y cb cr : Byte),
    let yy : ℚ := y.toNat
    let b' : ℚ := (cb.toNat : ℚ) - 128
    let r' : ℚ := (cr.toNat : ℚ) - 128
    let cut := fun v : ℤ => max 0 (min 255 v)
    ∃ r g b : Byte,
      exec (.color y cb cr) s = .next { s with resq := s.resq ++ [255#8 ++ b ++ g ++ r] } ∧
      (s.config.getLsbD 3 = false →
        (r.toNat : ℤ) = cut ⌊yy + 1402 / 1000 * r' + 1 / 2⌋ ∧
        (g.toNat : ℤ) = cut ⌊yy - 34414 / 100000 * b' - 71414 / 100000 * r' + 1 / 2⌋ ∧
        (b.toNat : ℤ) = cut ⌊yy + 1772 / 1000 * b' + 1 / 2⌋) ∧
      (s.config.getLsbD 3 = true →
        (r.toNat : ℤ) = cut (y.toNat + ⌊(91881 * r' + 32768) / 65536⌋) ∧
        (g.toNat : ℤ) = cut (y.toNat + ⌊(-22554 * b' - 46802 * r' + 32768) / 65536⌋) ∧
        (b.toNat : ℤ) = cut (y.toNat + ⌊(116130 * b' + 32768) / 65536⌋)) ∧
      (cb = 128 → cr = 128 → r = y ∧ g = y ∧ b = y)

/-- The two colour paths against each other on every triple: R agrees exactly, G and B differ by at most 1, and either can
be the larger (46_color.md R314). -/
def Obligations.ColorPathsAgree : Prop :=
  (∀ y cb cr : Byte,
    let f := colorFloat y.toNat cb.toNat cr.toNat
    let i := colorInt y.toNat cb.toNat cr.toNat
    f.1 = i.1 ∧
    ((f.2.1.toNat : Int) - i.2.1.toNat ≤ 1 ∧ (i.2.1.toNat : Int) - f.2.1.toNat ≤ 1) ∧
    ((f.2.2.toNat : Int) - i.2.2.toNat ≤ 1 ∧ (i.2.2.toNat : Int) - f.2.2.toNat ≤ 1)) ∧
  ((colorFloat 250 3 128).2.2.toNat = (colorInt 250 3 128).2.2.toNat + 1 ∧
    (colorFloat 100 178 78).2.1.toNat = (colorInt 100 178 78).2.1.toNat + 1 ∧
    (colorInt 128 2 97).2.1.toNat = (colorFloat 128 2 97).2.1.toNat + 1)

/-! ## System commands -/

/-- NOP changes nothing; SYNC pushes its tag; SET_RSTINT writes RSTINT; BLK_WRITE writes one entry of BLK and BLK_READ
pushes one: the value written last reads back, and no other entry, register or byte of memory changes (47_system.md R330,
R331, R335, R340, R341). -/
def Obligations.SystemCommands : Prop :=
  ∀ (s : State) (tag ri : BitVec 16) (k : BitVec 6) (d : Word),
    exec .nop s = .next s ∧
    exec (.sync tag) s = .next { s with resq := s.resq ++ [0#16 ++ tag] } ∧
    exec (.setRstint ri) s = .next { s with rstint := ri } ∧
    (∃ b, exec (.blkWrite k d) s = .next { s with blk := b } ∧
      (∀ j : Fin 64, b[j] = if j.val = k.toNat then d else s.blk[j]) ∧
      exec (.blkRead k) { s with blk := b } = .next { s with blk := b, resq := s.resq ++ [d] }) ∧
    (∃ w, exec (.blkRead k) s = .next { s with resq := s.resq ++ [w] } ∧ w = blkGet s.blk k.toNat)

/-- SET_CONFIG: IM = 3 is IllegalCommand reason 2 and changes nothing else; otherwise CONFIG holds the three fields, and
every Huffman table loses VALID exactly when HM changes, keeping its other fields; nothing else changes (47_system.md
R332). -/
def Obligations.SetConfigSelects : Prop :=
  ∀ (s : State) (hm cm : BitVec 1) (im : BitVec 2),
    (im = 3 → FailsCheck (.setConfig hm im cm) s 8 2) ∧
    (im ≠ 3 → ∃ dc ac c, exec (.setConfig hm im cm) s = .next { s with htDc := dc, htAc := ac, config := c } ∧
      c.toNat = hm.toNat + 2 * im.toNat + 8 * cm.toNat ∧
      (hm.toNat = s.config.toNat % 2 → dc = s.htDc ∧ ac = s.htAc) ∧
      (hm.toNat ≠ s.config.toNat % 2 → ∀ t : Fin 4,
        dc[t] = { s.htDc[t] with valid := false } ∧ ac[t] = { s.htAc[t] with valid := false }))

/-! ## The host's side -/

/-- The FIFO ports. CMD: a word is appended while CMDQ has room, faulted or not, and otherwise dropped with CMD_OVERRUN set;
CLEAR_FAULT discards it; a read gives 0 (20_memory.md R66). RESULT and OUT: a read removes and returns the head word, or,
when there is none, returns a free value and sets the underflow bit (R67, R68). -/
def Obligations.FifoPorts : Prop :=
  ∀ (s : State) (w : Word),
    hostAccess ⟨busAddress 0x10, 4, .write w⟩ s =
      .next (if s.cmdq.length < Config.cmdqDepth then { s with cmdq := s.cmdq ++ [w] }
        else { s with cmdOverrun := true }) ∧
    (∃ t, hostAccess ⟨busAddress 0x04, 4, .write 2⟩ s = .next t ∧ t.cmdq = []) ∧
    hostAccess ⟨busAddress 0x10, 4, .read⟩ s = .next { s with busData := 0 } ∧
    (∀ rest, s.resq = w :: rest →
      hostAccess ⟨busAddress 0x14, 4, .read⟩ s = .next { s with resq := rest, busData := w }) ∧
    (s.resq = [] → ∃ v d, hostAccess ⟨busAddress 0x14, 4, .read⟩ s =
      .next { s with resUnderflow := true, busData := v, draws := d }) ∧
    (∀ rest, s.outq = w :: rest →
      hostAccess ⟨busAddress 0x18, 4, .read⟩ s = .next { s with outq := rest, busData := w }) ∧
    (s.outq = [] → ∃ v d, hostAccess ⟨busAddress 0x18, 4, .read⟩ s =
      .next { s with outUnderflow := true, busData := v, draws := d })

/-- SEG_DATA: a write stores w[7:0] at SEG_ADDR if that is below SEG_SIZE and no other byte of memory changes, and advances
SEG_ADDR modulo 2^24; a read returns the byte, or 0 at or above SEG_SIZE, and advances nothing (20_memory.md R62). -/
def Obligations.SegDataPort : Prop :=
  ∀ (s : State) (w : Word),
    (∃ g, hostAccess ⟨busAddress 0x20, 4, .write w⟩ s = .next { s with seg := g } ∧
      g.addr.toNat = (s.seg.addr.toNat + 1) % 2 ^ 24 ∧ g.len = s.seg.len ∧
      ∀ a, g.byte a =
        if a = s.seg.addr.toNat ∧ s.seg.addr.toNat < Config.segSize then field w 0 8 else s.seg.byte a) ∧
    hostAccess ⟨busAddress 0x20, 4, .read⟩ s = .next { s with busData :=
      if s.seg.addr.toNat < Config.segSize then 0#24 ++ s.seg.byte s.seg.addr.toNat else 0 }

/-- SEG_LEN: a write stores min(w[24:0], SEG_SIZE), moves neither POS nor a byte of memory, and a read returns it; a later
BR_SEEK checks against the new length, and with POS at or above it the reader pads. The last two with no write in
flight (20_memory.md R63). -/
def Obligations.SegLenPort : Prop :=
  ∀ (s : State) (w : Word), ∃ g,
    hostAccess ⟨busAddress 0x24, 4, .write w⟩ s = .next { s with seg := g } ∧
    g.len.toNat = min (w.toNat % 2 ^ 25) Config.segSize ∧ g.addr = s.seg.addr ∧ (∀ a, g.byte a = s.seg.byte a) ∧
    hostAccess ⟨busAddress 0x24, 4, .read⟩ { s with seg := g } =
      .next { s with seg := g, busData := BitVec.ofNat 32 g.len.toNat } ∧
    (s.busy = false → s.Settled → s.faulted = false →
      (∀ p : BitVec 24, ∃ t, exec (.brSeek p) { s with seg := g } = .next t ∧
        (t.faulted = true ↔ g.len.toNat < p.toNat)) ∧
      (s.br.markerHit = false → g.len.toNat ≤ s.br.pos.toNat → ahead g s.br = (s.br.bits, none)))

/-- CTRL: SOFT_RESET first, with which the other bits have no further effect; then CLEAR_FAULT, which empties CMDQ and
zeroes the fault registers; then CLEAR_STICKY; bits 31:3 are ignored, and a write of 0 does nothing (47_system.md R342,
R343, 60_exceptions.md R366). After a soft reset every item is as after power-on but the bytes of SEG
(70_reset_and_hazards.md R401). Two clauses of the soft reset are the model's choice and no rule of the spec: the fields of
a table that is not VALID, which R400 leaves at any value, take the zeros the model names (log 8, DESIGN CHOICE, unsafe); and
the model's own draw counter, pending host moves and read-data word are no items of the block and stay (log 13, DESIGN
CHOICE). -/
def Obligations.CtrlPort : Prop :=
  ∀ (s : State) (w : Word),
    (w.getLsbD 0 = true →
      hostAccess ⟨busAddress 0x04, 4, .write w⟩ s = .next { State.reset with
        seg := { State.reset.seg with cells := s.seg.cells }, draws := s.draws, bus := s.bus, busData := s.busData }) ∧
    (w.getLsbD 0 = false → w.getLsbD 1 = true → w.getLsbD 2 = false →
      hostAccess ⟨busAddress 0x04, 4, .write w⟩ s = .next { s with
        cmdq := [], faulted := false, faultCode := 0, faultCmd := 0, faultInfo := 0, faultPos := 0 }) ∧
    (w.getLsbD 0 = false → w.getLsbD 1 = false → w.getLsbD 2 = true →
      hostAccess ⟨busAddress 0x04, 4, .write w⟩ s = .next { s with
        cmdOverrun := false, resUnderflow := false, outUnderflow := false }) ∧
    (w.getLsbD 0 = false → w.getLsbD 1 = true → w.getLsbD 2 = true →
      hostAccess ⟨busAddress 0x04, 4, .write w⟩ s = .next { s with
        cmdq := [], faulted := false, faultCode := 0, faultCmd := 0, faultInfo := 0, faultPos := 0,
        cmdOverrun := false, resUnderflow := false, outUnderflow := false }) ∧
    (w.getLsbD 0 = false → w.getLsbD 1 = false → w.getLsbD 2 = false →
      hostAccess ⟨busAddress 0x04, 4, .write w⟩ s = .next s)

/-- STATUS and the interrupt line: a read of STATUS returns the fields of 10_state.md R41 from the state, MARKER_HIT and
PAD_ACTIVE while BUSY = 0, and changes nothing of the block. RES_COUNT and OUT_WORDS, min(255, count) in bits 23:16 and
31:24, follow R41, against the vectors of 95_test_vectors.md section 2.10 and program P1 (log 18, DEDUCED, unsafe). IRQ is
the level of 60_exceptions.md R370, and a write of IRQ_EN stores w[3:0] (47_system.md R344). -/
def Obligations.StatusAndIrq : Prop :=
  ∀ (s : State) (w : Word),
    (∃ v d, hostAccess ⟨busAddress 0x08, 4, .read⟩ s = .next { s with busData := v, draws := d } ∧
      v.getLsbD 0 = (!s.faulted && decide (s.cmdq ≠ [])) ∧ v.getLsbD 1 = s.faulted ∧
      (s.busy = false → v.getLsbD 2 = s.br.markerHit ∧ v.getLsbD 3 = decide (0 < s.br.padcnt.toNat) ∧ d = s.draws) ∧
      (s.cmdq.length ≤ Config.cmdqDepth → v.getLsbD 4 = decide (s.cmdq.length = Config.cmdqDepth)) ∧
      v.getLsbD 5 = decide (s.resq ≠ []) ∧ v.getLsbD 6 = decide (s.outq ≠ []) ∧
      v.getLsbD 7 = (s.irqEn.getLsbD 0 && s.faulted || s.irqEn.getLsbD 1 && decide (s.resq ≠ []) ||
        s.irqEn.getLsbD 2 && decide (s.outq ≠ []) || s.irqEn.getLsbD 3 && (decide (s.cmdq = []) && !s.faulted)) ∧
      v.getLsbD 8 = s.cmdOverrun ∧ v.getLsbD 9 = s.resUnderflow ∧ v.getLsbD 10 = s.outUnderflow ∧
      (∀ k, 11 ≤ k → k ≤ 15 → v.getLsbD k = false) ∧
      v.toNat / 2 ^ 16 % 256 = min 255 s.resq.length ∧ v.toNat / 2 ^ 24 = min 255 s.outq.length) ∧
    hostAccess ⟨busAddress 0x0C, 4, .write w⟩ s = .next { s with irqEn := BitVec.ofNat 4 w.toNat } ∧
    hostAccess ⟨busAddress 0x0C, 4, .read⟩ s = .next { s with busData := BitVec.ofNat 32 s.irqEn.toNat }

/-- The read-only registers of 10_state.md R40 while BUSY = 0: each read returns its item and changes nothing of the
block. -/
def Obligations.RegistersReadBack : Prop :=
  ∀ s : State, s.busy = false →
    let reads := fun (off : Byte) (w : Word) =>
      hostAccess ⟨busAddress off, 4, .read⟩ s = .next { s with busData := w }
    reads 0x00 0x4A504547 ∧ reads 0x04 0 ∧ reads 0x1C (0#8 ++ s.seg.addr) ∧
    reads 0x28 (0#7 ++ s.br.pos) ∧
    (s.br.Ok → ∃ w, reads 0x2C w ∧ w.toNat % 64 = s.br.bitcnt ∧ w.toNat / 64 % 4 = 0 ∧
      w.toNat / 2 ^ 8 % 256 = s.br.marker.toNat ∧ w.getLsbD 16 = s.br.markerHit ∧ w.toNat / 2 ^ 17 % 128 = 0 ∧
      w.toNat / 2 ^ 24 = s.br.padcnt.toNat) ∧
    reads 0x30 s.br.bitreg ∧ reads 0x34 (0#24 ++ s.faultCode) ∧ reads 0x38 s.faultCmd ∧ reads 0x3C s.faultInfo ∧
    reads 0x40 (0#7 ++ s.faultPos) ∧ reads 0x44 (0#28 ++ s.config) ∧ reads 0x48 (0#16 ++ s.rstint) ∧
    (∃ w, reads 0x4C w ∧ w.toNat < 2 ^ 16 ∧ ∀ t : Fin 4,
      w.getLsbD t.val = s.qt[t].valid ∧ w.getLsbD (4 + t.val) = s.htDc[t].valid ∧
      w.getLsbD (8 + t.val) = s.htAc[t].valid ∧ w.getLsbD (12 + t.val) = s.slot[t].valid) ∧
    reads 0x50 (s.pred[0]) ∧ reads 0x54 (s.pred[1]) ∧ reads 0x58 (s.pred[2]) ∧ reads 0x5C (s.pred[3])

/-- The rules of the window: an access of another width or at an offset that is no multiple of 4 is refused; every read but
of RESULT and OUT leaves the block unchanged (20_memory.md R69); reserved offsets read 0; a write of a register that is
not CTRL, IRQ_EN, CMD, SEG_ADDR, SEG_DATA or SEG_LEN is ignored; a write of SEG_ADDR stores w[23:0]; an address outside the
window is not this block's (10_state.md R40, 20_memory.md R65). Model's choices, no rule of the spec: the refusal, and that
the start address alone decides, so that an access straddling the window's lower edge does nothing (log 17, DESIGN CHOICE);
and that a write of the POP registers RESULT and OUT is ignored (log 23, DESIGN CHOICE, unsafe). -/
def Obligations.WindowRules : Prop :=
  ∀ (s : State) (off : Byte) (w : Word),
    (∀ bytes dir, bytes ≠ 4 ∨ off.toNat % 4 ≠ 0 → hostAccess ⟨busAddress off, bytes, dir⟩ s = .refused .hostAccess) ∧
    (off.toNat % 4 = 0 →
      (off ≠ 0x14 → off ≠ 0x18 → ∃ v d, hostAccess ⟨busAddress off, 4, .read⟩ s =
        .next { s with busData := v, draws := d } ∧ (0x60 ≤ off.toNat → v = 0 ∧ d = s.draws)) ∧
      (off ∉ [0x04#8, 0x0C, 0x10, 0x1C, 0x20, 0x24] →
        hostAccess ⟨busAddress off, 4, .write w⟩ s = .next s)) ∧
    hostAccess ⟨busAddress 0x1C, 4, .write w⟩ s =
      .next { s with seg := { s.seg with addr := BitVec.ofNat 24 w.toNat } } ∧
    (∀ a : HostAccess, a.addr < Config.coreBase ∨ Config.coreBase + 256 ≤ a.addr → hostAccess a s = .next s)

/-- A segment write while BUSY = 1 races, byte or length: a later read of that byte, or of SEG_LEN, by a command is one draw
among the new value, the value before the write, and those in flight already; BR_SEEK checks against one of these lengths.
While BUSY = 0 a write leaves nothing in flight, so commands see the new value alone (20_memory.md R72, R73, log 9). -/
def Obligations.SegmentRace : Prop :=
  (∀ (s : State) (w : Word), s.seg.addr.toNat < Config.segSize →
    let a := s.seg.addr.toNat
    let flying := (s.seg.oldBytes.filter fun x => x.1 == a).map fun x => x.2
    let seen := field w 0 8 :: s.seg.byte a :: flying
    ∃ g, hostAccess ⟨busAddress 0x20, 4, .write w⟩ s = .next { s with seg := g } ∧
      (∀ c v c', readByte g a c = .ok v c' → v ∈ seen) ∧
      (s.busy = true → ∀ c j, Config.freeNat c.draws % seen.length = j →
        readByte g a c = .ok (seen.getD j 0) { c with draws := c.draws + 1 }) ∧
      (s.busy = false → s.Settled → ∀ c, readByte g a c = .ok (field w 0 8) c)) ∧
  (∀ (s : State) (w : Word),
    ∃ g, hostAccess ⟨busAddress 0x24, 4, .write w⟩ s = .next { s with seg := g } ∧
      g.len.toNat = min (w.toNat % 2 ^ 25) Config.segSize ∧
      let seen := g.len :: s.seg.len :: s.seg.oldLens
      (∀ c v c', readLen g c = .ok v c' → v ∈ seen) ∧
      (s.busy = true → ∀ c j, Config.freeNat c.draws % seen.length = j →
        readLen g c = .ok (seen.getD j 0) { c with draws := c.draws + 1 }) ∧
      (s.busy = false → s.Settled → ∀ c, readLen g c = .ok g.len c) ∧
      (∀ p : BitVec 24, ∃ n ∈ seen, ∃ d,
        (p.toNat ≤ n.toNat → exec (.brSeek p) { s with seg := g } = .next { s with seg := g, draws := d, br :=
          { pos := BitVec.ofNat 25 p.toNat, bitreg := 0, bitcnt := 0, markerHit := false, marker := 0, padcnt := 0 } }) ∧
        (n.toNat < p.toNat → exec (.brSeek p) { s with seg := g } =
          .next ({ s with seg := g, draws := d }.halt (Instr.brSeek p).head 13 2 s.br.pos))))

/-- The output FIFOs keep order and whole records: a step leaves OUTQ as it is; or a turn of the core appends one 18-word
record; or a host read of OUT removes its head word; or a host write of CTRL with bit 0 = 1, a soft reset, empties it. RESQ
likewise, with single words and a host read of RESULT. A step that faults leaves both as they are (20_memory.md R73,
45_level_shift_output.md R295). -/
def Obligations.FifosKeepOrder : Prop :=
  ∀ s t : State, step s = .next t →
    let coreTurn := s.bus = [] ∨ ∃ moves, s.bus = .core :: moves
    let hostReads := fun off : Byte => ∃ moves, s.bus = .access ⟨busAddress off, 4, .read⟩ :: moves
    let softReset := ∃ w moves, s.bus = .access ⟨busAddress 0x04, 4, .write w⟩ :: moves ∧ w.getLsbD 0 = true
    (t.outq = s.outq ∨ (coreTurn ∧ ∃ r : List Word, r.length = 18 ∧ t.outq = s.outq ++ r) ∨
      (hostReads 0x18 ∧ ∃ w, s.outq = w :: t.outq) ∨ (softReset ∧ t.outq = [])) ∧
    (t.resq = s.resq ∨ (coreTurn ∧ ∃ w, t.resq = s.resq ++ [w]) ∨ (hostReads 0x14 ∧ ∃ w, s.resq = w :: t.resq) ∨
      (softReset ∧ t.resq = [])) ∧
    (s.faulted = false → t.faulted = true → t.outq = s.outq ∧ t.resq = s.resq)
end

