-- ==== Sys2Proof/Laws/Bits.lean ====
section
/-! SUPPORT. Bit strings, most significant bit first: cutting, joining and reading them as numbers. -/

namespace Sys2Proof.Machine

@[simp] theorem bitsMsb_length (n v : Nat) : (bitsMsb n v).length = n := by simp [bitsMsb]

@[simp] theorem bitsMsb_zero (v : Nat) : bitsMsb 0 v = [] := rfl

theorem bitsMsb_getElem (n v i : Nat) (h : i < (bitsMsb n v).length) :
    (bitsMsb n v)[i] = v.testBit (n - 1 - i) := by simp [bitsMsb]

/-- The `n` oldest of `n + m` bits and the `m` newest. -/
theorem bitsMsb_add (n m v : Nat) : bitsMsb (n + m) v = bitsMsb n (v / 2 ^ m) ++ bitsMsb m v := by
  apply List.ext_getElem
  · simp
  · intro i h1 h2
    rw [bitsMsb_getElem]
    by_cases hi : i < n
    · rw [List.getElem_append_left (by simpa using hi), bitsMsb_getElem, Nat.testBit_div_two_pow]
      congr 1; omega
    · simp at h1
      rw [List.getElem_append_right (by simpa using hi), bitsMsb_getElem]
      congr 1; simp; omega

/-- Only the low `n` bits count. -/
theorem bitsMsb_mod (n v : Nat) : bitsMsb n (v % 2 ^ n) = bitsMsb n v := by
  apply List.ext_getElem
  · simp
  · intro i h1 h2
    simp at h1
    rw [bitsMsb_getElem, bitsMsb_getElem, Nat.testBit_mod_two_pow]
    simp; omega

theorem bitsMsb_take (n k v : Nat) (h : k ≤ n) : (bitsMsb n v).take k = bitsMsb k (v / 2 ^ (n - k)) := by
  have := bitsMsb_add k (n - k) v
  rw [Nat.add_sub_cancel' h] at this
  rw [this, List.take_left' (by simp)]

theorem bitsMsb_drop (n k v : Nat) (h : k ≤ n) : (bitsMsb n v).drop k = bitsMsb (n - k) v := by
  have := bitsMsb_add k (n - k) v
  rw [Nat.add_sub_cancel' h] at this
  rw [this, List.drop_left' (by simp)]

/-- One more bit at the end. -/
theorem bitsMsb_succ (n v : Nat) : bitsMsb (n + 1) v = bitsMsb n (v / 2) ++ [v.testBit 0] := by
  rw [bitsMsb_add n 1 v]; simp [bitsMsb]

theorem bitsToNat_append (l : List Bool) (b : Bool) : bitsToNat (l ++ [b]) = 2 * bitsToNat l + b.toNat := by
  simp [bitsToNat]

/-- Writing a number as bits and reading it back keeps its low bits. -/
theorem bitsToNat_bitsMsb (n v : Nat) : bitsToNat (bitsMsb n v) = v % 2 ^ n := by
  induction n generalizing v with
  | zero => simp [bitsToNat, Nat.mod_one]
  | succ n ih =>
    rw [bitsMsb_succ, bitsToNat_append, ih, Nat.pow_succ, Nat.mul_comm (2 ^ n) 2, Nat.mod_mul]
    have : (v.testBit 0).toNat = v % 2 := by rw [Nat.testBit_zero]; rcases Nat.mod_two_eq_zero_or_one v with h | h <;> simp [h]
    omega

/-- Bits of equal length are equal as numbers only when they are equal. -/
theorem bitsMsb_inj (n v w : Nat) (hv : v < 2 ^ n) (hw : w < 2 ^ n) (h : bitsMsb n v = bitsMsb n w) : v = w := by
  have := congrArg bitsToNat h
  rwa [bitsToNat_bitsMsb, bitsToNat_bitsMsb, Nat.mod_eq_of_lt hv, Nat.mod_eq_of_lt hw] at this

/-- `Append` puts the bits of the byte after the buffered bits. -/
theorem append_bits (b : BitReader) (x : Byte) (h : b.bitreg.toNat < 2 ^ b.bitcnt) (hc : b.bitcnt ≤ 24) :
    BitReader.bits { b with bitreg := (b.bitreg <<< 8) ||| x.setWidth 32, bitcnt := b.bitcnt + 8 } =
      b.bits ++ bitsMsb 8 x.toNat ∧
    ((b.bitreg <<< 8) ||| x.setWidth 32).toNat < 2 ^ (b.bitcnt + 8) := by
  have hp : b.bitreg.toNat < 2 ^ 24 := lt_of_lt_of_le h (Nat.pow_le_pow_right (by decide) hc)
  have e : ((b.bitreg <<< 8) ||| x.setWidth 32).toNat = b.bitreg.toNat * 2 ^ 8 + x.toNat := by
    have hx := x.isLt
    rw [BitVec.toNat_or, BitVec.toNat_shiftLeft, BitVec.toNat_setWidth, Nat.shiftLeft_eq,
      Nat.mod_eq_of_lt (by omega), Nat.mod_eq_of_lt (by omega)]
    rw [Nat.mul_comm]; exact (Nat.two_pow_add_eq_or_of_lt (i := 8) hx b.bitreg.toNat).symm
  have hx := x.isLt
  constructor
  · simp only [BitReader.bits]
    rw [bitsMsb_add, e]
    congr 1
    · congr 1; omega
    · rw [← bitsMsb_mod, Nat.mul_add_mod_self_right, bitsMsb_mod]
  · rw [e, Nat.pow_add]; omega

/-- Keeping the `k` newest bits drops the oldest. -/
theorem keepNewest_bits (b : BitReader) (k : Nat) (h : k ≤ b.bitcnt) (hk : k ≤ 32) :
    (keepNewest b k).bits = b.bits.drop (b.bitcnt - k) ∧ (keepNewest b k).bitreg.toNat < 2 ^ k := by
  have e : (keepNewest b k).bitreg.toNat = b.bitreg.toNat % 2 ^ k := by
    have h1 : b.bitreg.toNat % 2 ^ k < 2 ^ 32 := lt_of_lt_of_le (Nat.mod_lt _ (by positivity)) (Nat.pow_le_pow_right (by decide) hk)
    simp only [keepNewest, BitVec.toNat_ofNat]; exact Nat.mod_eq_of_lt h1
  refine ⟨?_, by rw [e]; exact Nat.mod_lt _ (by positivity)⟩
  have : (keepNewest b k).bits = bitsMsb k (keepNewest b k).bitreg.toNat := rfl
  rw [this, e, bitsMsb_mod, BitReader.bits, bitsMsb_drop _ _ _ (by omega)]
  congr 1; omega

/-- The `n` oldest buffered bits as a number are the first `n` bits of the buffer. -/
theorem oldest_bits (b : BitReader) (n : Nat) (h : n ≤ b.bitcnt) : oldest b n = bitsToNat (b.bits.take n) := by
  rw [BitReader.bits, bitsMsb_take _ _ _ h, bitsToNat_bitsMsb]; rfl

end Sys2Proof.Machine
end

