-- ==== Sys2Proof/Laws/Reader.lean ====
section
/-! SUPPORT. The bit-reader primitives: what a sequence of them answers, and the relations every one of them keeps between
the bit reader before and after, whatever it reads, and the faults each can raise. -/

namespace Sys2Proof.Machine

/-! ## Sequencing -/

theorem Reader.next_ok {α β : Type} {m : Reader α} {k : α → Reader β} {c c' : ReadCtx} {w : β} :
    Reader.next m k c = .ok w c' ↔ ∃ v d, m c = .ok v d ∧ k v d = .ok w c' := by
  simp only [Reader.next]; split <;> simp_all

theorem Reader.next_err {α β : Type} {m : Reader α} {k : α → Reader β} {c c' : ReadCtx} {e : Raise} :
    Reader.next m k c = .err e c' ↔ m c = .err e c' ∨ ∃ v d, m c = .ok v d ∧ k v d = .err e c' := by
  simp only [Reader.next]; split <;> simp_all

theorem Reader.next_of_ok {α β : Type} {m : Reader α} (k : α → Reader β) {c d : ReadCtx} {v : α}
    (h : m c = .ok v d) : Reader.next m k c = k v d := by simp [Reader.next, h]

theorem Reader.next_of_err {α β : Type} {m : Reader α} (k : α → Reader β) {c d : ReadCtx} {e : Raise}
    (h : m c = .err e d) : Reader.next m k c = .err e d := by simp [Reader.next, h]

/-! ## Relations kept by every primitive -/

/-- Whatever `m` answers from a context, the context it leaves stands in relation `R` to it. -/
def Reader.Keeps {α : Type} (R : ReadCtx → ReadCtx → Prop) (m : Reader α) : Prop :=
  ∀ c, (∀ v c', m c = .ok v c' → R c c') ∧ (∀ e c', m c = .err e c' → R c c')

theorem Reader.Keeps.ret {α : Type} {R : ReadCtx → ReadCtx → Prop} (refl : ∀ c, R c c) (v : α) :
    Reader.Keeps R (Reader.ret v) := fun c => ⟨fun _ _ h => by cases h; exact refl _, fun _ _ h => by cases h⟩

theorem Reader.Keeps.raise {α : Type} {R : ReadCtx → ReadCtx → Prop} (refl : ∀ c, R c c) (k : FaultKind) (i : Word) :
    Reader.Keeps R (Reader.raise k i : Reader α) := by
  intro c
  exact ⟨fun v c' h => by simp [Reader.raise] at h, fun e c' h => by
    simp only [Reader.raise, ReadResult.err.injEq] at h; exact h.2 ▸ refl c⟩

theorem Reader.Keeps.next {α β : Type} {R : ReadCtx → ReadCtx → Prop} (trans : ∀ a b c, R a b → R b c → R a c)
    {m : Reader α} {k : α → Reader β} (hm : Reader.Keeps R m) (hk : ∀ v, Reader.Keeps R (k v)) :
    Reader.Keeps R (Reader.next m k) := by
  intro c
  constructor
  · intro v c' h
    obtain ⟨w, d, h1, h2⟩ := Reader.next_ok.1 h
    exact trans _ _ _ ((hm c).1 _ _ h1) ((hk w d).1 _ _ h2)
  · intro e c' h
    rcases Reader.next_err.1 h with h | ⟨w, d, h1, h2⟩
    · exact (hm c).2 _ _ h
    · exact trans _ _ _ ((hm c).1 _ _ h1) ((hk w d).2 _ _ h2)

/-- The largest SEG_LEN a read may see. -/
def Segment.maxLen (g : Segment) : Nat := (g.oldLens.map BitVec.toNat).foldl max g.len.toNat

theorem foldl_max_le (l : List Nat) (a b : Nat) : l.foldl max a ≤ b ↔ a ≤ b ∧ ∀ x ∈ l, x ≤ b := by
  induction l generalizing a with
  | nil => simp
  | cons y l ih => simp [ih, and_assoc]

theorem Segment.maxLen_settled (g : Segment) (h : g.oldLens = []) : g.maxLen = g.len.toNat := by
  simp [Segment.maxLen, h]

/-- What a draw among a value and old ones gives is one of them. -/
theorem choose_mem {α : Type} (now : α) (olds : List α) (d : Nat) : (choose now olds d).1 ∈ now :: olds := by
  cases olds with
  | nil => simp [choose]
  | cons a l =>
    simp only [choose]
    generalize hi : Config.freeNat d % ((a :: l).length + 1) = i
    have hl : i < (now :: a :: l).length := by rw [← hi]; exact Nat.mod_lt _ (by simp)
    simp only [List.getD, List.getElem?_eq_getElem hl, Option.getD_some]
    exact List.getElem_mem hl

@[simp] theorem choose_nil {α : Type} (now : α) (d : Nat) : choose now [] d = (now, d) := rfl

theorem choose_len_le (g : Segment) (d : Nat) : (choose g.len g.oldLens d).1.toNat ≤ g.maxLen := by
  have h := choose_mem g.len g.oldLens d
  have b := (foldl_max_le (g.oldLens.map BitVec.toNat) g.len.toNat g.maxLen).1 (le_of_eq rfl)
  rcases List.mem_cons.1 h with h | h
  · rw [h]; exact b.1
  · exact b.2 _ (List.mem_map.2 ⟨_, h, rfl⟩)

/-- What every read keeps: POS never moves back and never passes what it may read, and a marker hit stays, with MARKER and
POS (40_bitreader.md R127, R141). -/
def PosKept (bound : Nat) (c c' : ReadCtx) : Prop :=
  c.br.pos.toNat ≤ c'.br.pos.toNat ∧ c'.br.pos.toNat ≤ max c.br.pos.toNat bound ∧
    (c.br.markerHit = true → c'.br.markerHit = true ∧ c'.br.marker = c.br.marker ∧ c'.br.pos = c.br.pos)

theorem PosKept.refl (n : Nat) (c : ReadCtx) : PosKept n c c := ⟨le_refl _, le_max_left _ _, fun h => ⟨h, rfl, rfl⟩⟩

theorem PosKept.trans (n : Nat) (a b c : ReadCtx) (h : PosKept n a b) (k : PosKept n b c) : PosKept n a c := by
  obtain ⟨h1, h2, h3⟩ := h
  obtain ⟨k1, k2, k3⟩ := k
  refine ⟨by omega, by omega, fun hm => ?_⟩
  obtain ⟨a1, a2, a3⟩ := h3 hm
  obtain ⟨b1, b2, b3⟩ := k3 a1
  exact ⟨b1, b2.trans a2, b3.trans a3⟩

/-- MARKER is a stopping marker exactly as MARKER_HIT says (10_state.md R22). -/
def MarkerOk (b : BitReader) : Prop := (b.markerHit = false → b.marker = 0) ∧ (b.markerHit = true → b.marker ∈ markerBytes)

theorem stop_mem (b : Byte) (h : (0xD0#8 ≤ b ∧ b ≤ 0xD7#8) ∨ b = 0xDC#8) : b ∈ markerBytes := by
  revert b; decide

/-- NextByte answers in one of four ways: a pad byte, a byte read with POS moved over it, a pad byte at a marker hit, or a
BitstreamMarkerError with the bit reader as it was (40_bitreader.md R123). -/
theorem nextByte_cases (g : Segment) (c : ReadCtx) :
    ∃ d, nextByte g c = padByte { c with draws := d } ∨
      (c.br.markerHit = false ∧ ∃ n b, c.br.pos.toNat + n ≤ g.maxLen ∧ nextByte g c = advance n b { c with draws := d }) ∨
      (c.br.markerHit = false ∧ ∃ b, b ∈ markerBytes ∧ nextByte g c = hitMarker b { c with draws := d }) ∨
      (∃ info, nextByte g c = Reader.raise .bitstreamMarker info { c with draws := d }) := by
  by_cases hm : c.br.markerHit = true
  · exact ⟨c.draws, .inl (by simp [nextByte, hm])⟩
  · have hm : c.br.markerHit = false := by simpa using hm
    have l1 := choose_len_le g c.draws
    have e1 : readLen g c = .ok (choose g.len g.oldLens c.draws).1 { c with draws := (choose g.len g.oldLens c.draws).2 } := rfl
    generalize hl : choose g.len g.oldLens c.draws = len at l1 e1
    simp only [nextByte, hm, Bool.false_eq_true, if_false, Reader.next_of_ok _ e1]
    by_cases h1 : len.1.toNat ≤ c.br.pos.toNat
    · exact ⟨len.2, .inl (by simp [h1])⟩
    · rw [if_neg h1]
      let r := choose (g.byte c.br.pos.toNat) ((g.oldBytes.filter fun x => x.1 == c.br.pos.toNat).map fun x => x.2) len.2
      have e2 : readByte g c.br.pos.toNat { c with draws := len.2 } = .ok r.1 { c with draws := r.2 } := rfl
      rw [Reader.next_of_ok _ e2]
      by_cases h2 : r.1 ≠ 0xFF#8
      · exact ⟨r.2, .inr (.inl ⟨trivial, 1, r.1, by omega, by simp [h2]⟩)⟩
      · rw [if_neg h2]
        have l2 := choose_len_le g r.2
        have e3 : readLen g { c with draws := r.2 } =
          .ok (choose g.len g.oldLens r.2).1 { c with draws := (choose g.len g.oldLens r.2).2 } := rfl
        generalize hl2 : choose g.len g.oldLens r.2 = len2 at l2 e3
        rw [Reader.next_of_ok _ e3]
        by_cases h3 : len2.1.toNat ≤ c.br.pos.toNat + 1
        · exact ⟨len2.2, .inr (.inr (.inr ⟨infoMarker true 0xFF#8, by simp [h3]⟩))⟩
        · rw [if_neg h3]
          let r2 := choose (g.byte (c.br.pos.toNat + 1))
            ((g.oldBytes.filter fun x => x.1 == c.br.pos.toNat + 1).map fun x => x.2) len2.2
          have e4 : readByte g (c.br.pos.toNat + 1) { c with draws := len2.2 } = .ok r2.1 { c with draws := r2.2 } := rfl
          rw [Reader.next_of_ok _ e4, afterFF]
          by_cases h4 : r2.1 = 0x00#8
          · exact ⟨r2.2, .inr (.inl ⟨trivial, 2, 0xFF#8, by omega, by simp [h4]⟩)⟩
          · by_cases h5 : (0xD0#8 ≤ r2.1 ∧ r2.1 ≤ 0xD7#8) ∨ r2.1 = 0xDC#8
            · exact ⟨r2.2, .inr (.inr (.inl ⟨trivial, r2.1, stop_mem _ h5, by rw [if_neg h4, if_pos h5]⟩))⟩
            · exact ⟨r2.2, .inr (.inr (.inr ⟨infoMarker false r2.1, by rw [if_neg h4, if_neg h5]⟩))⟩

theorem Segment.maxLen_lt (g : Segment) : g.maxLen < 2 ^ 25 := by
  have : g.maxLen ≤ 2 ^ 25 - 1 := (foldl_max_le _ _ _).2 ⟨by have := g.len.isLt; omega, fun x hx => by
    obtain ⟨y, -, rfl⟩ := List.mem_map.1 hx; have := y.isLt; omega⟩
  omega

/-- NextByte touches POS, the marker and PADCNT only, and keeps what every read keeps. -/
theorem nextByte_kept (g : Segment) :
    Reader.Keeps (fun c c' => PosKept g.maxLen c c' ∧ c'.br.bitcnt = c.br.bitcnt ∧ c'.br.bitreg = c.br.bitreg ∧
      (MarkerOk c.br → MarkerOk c'.br)) (nextByte g) := by
  intro c
  obtain ⟨d, h | ⟨hm, n, b, hn, h⟩ | ⟨hm, b, hb, h⟩ | ⟨info, h⟩⟩ := nextByte_cases g c <;> rw [h]
  · refine ⟨fun v c' h => ?_, fun e c' h => by simp [padByte] at h⟩
    simp only [padByte, ReadResult.ok.injEq] at h
    obtain ⟨-, rfl⟩ := h
    exact ⟨⟨le_refl _, le_max_left _ _, fun h => ⟨h, rfl, rfl⟩⟩, rfl, rfl, id⟩
  · refine ⟨fun v c' h => ?_, fun e c' h => by simp [advance] at h⟩
    simp only [advance, ReadResult.ok.injEq] at h
    obtain ⟨-, rfl⟩ := h
    have lt := g.maxLen_lt
    have e : (c.br.pos + BitVec.ofNat 25 n).toNat = c.br.pos.toNat + n := by
      simp only [BitVec.toNat_add, BitVec.toNat_ofNat]; omega
    refine ⟨⟨?_, ?_, fun h => by simp [hm] at h⟩, rfl, rfl, id⟩ <;> (simp only [e]; omega)
  · refine ⟨fun v c' h => ?_, fun e c' h => by simp [hitMarker, padByte] at h⟩
    simp only [hitMarker, padByte, ReadResult.ok.injEq] at h
    obtain ⟨-, rfl⟩ := h
    exact ⟨⟨le_refl _, le_max_left _ _, fun h => by simp [hm] at h⟩, rfl, rfl, fun _ => ⟨fun h => by simp at h, fun _ => hb⟩⟩
  · refine ⟨fun v c' h => by simp [Reader.raise] at h, fun e c' h => ?_⟩
    simp only [Reader.raise, ReadResult.err.injEq] at h
    obtain ⟨-, rfl⟩ := h
    exact ⟨PosKept.refl _ _, rfl, rfl, id⟩

/-- What every read of whole fields keeps: POS and the marker as `PosKept` says, and the bit reader's bounds. -/
def ReadKept (bound : Nat) (c c' : ReadCtx) : Prop := PosKept bound c c' ∧ (c.br.Ok → c'.br.Ok)

theorem ReadKept.refl (n : Nat) (c : ReadCtx) : ReadKept n c c := ⟨PosKept.refl n c, id⟩

theorem ReadKept.trans (n : Nat) (a b c : ReadCtx) (h : ReadKept n a b) (k : ReadKept n b c) : ReadKept n a c :=
  ⟨PosKept.trans n a b c h.1 k.1, fun x => k.2 (h.2 x)⟩

theorem fillLoop_kept (g : Segment) (n : Nat) (hn : n ≤ 16) (fuel : Nat) :
    Reader.Keeps (ReadKept g.maxLen) (fillLoop g n fuel) := by
  induction fuel with
  | zero => exact Reader.Keeps.ret (ReadKept.refl _) ()
  | succ fuel ih =>
    intro c
    simp only [fillLoop]
    by_cases hlt : c.br.bitcnt < n
    · simp only [hlt, if_true]
      have nb := nextByte_kept g c
      constructor
      · intro v c' h
        obtain ⟨b, d, h1, h2⟩ := Reader.next_ok.1 h
        obtain ⟨u, d2, h3, h4⟩ := Reader.next_ok.1 h2
        obtain ⟨p, e1, e2, m⟩ := nb.1 _ _ h1
        simp only [append, ReadResult.ok.injEq] at h3
        obtain ⟨-, rfl⟩ := h3
        refine ReadKept.trans _ _ _ _ ⟨?_, ?_⟩ ((ih _).1 _ _ h4)
        · exact p
        · rintro ⟨o1, o2, o3, o4⟩
          have ab := append_bits d.br b (by rw [e1, e2]; exact o2) (by omega)
          exact ⟨by simp only; omega, ab.2, (m ⟨o3, o4⟩).1, (m ⟨o3, o4⟩).2⟩
      · intro e c' h
        rcases Reader.next_err.1 h with h1 | ⟨b, d, h1, h2⟩
        · obtain ⟨p, e1, e2, m⟩ := nb.2 _ _ h1
          exact ⟨p, fun ⟨o1, o2, o3, o4⟩ => ⟨by omega, by rw [e1, e2]; exact o2, (m ⟨o3, o4⟩).1, (m ⟨o3, o4⟩).2⟩⟩
        · obtain ⟨p, e1, e2, m⟩ := nb.1 _ _ h1
          rcases Reader.next_err.1 h2 with h3 | ⟨u, d2, h3, h4⟩
          · simp [append] at h3
          · simp only [append, ReadResult.ok.injEq] at h3
            obtain ⟨-, rfl⟩ := h3
            refine ReadKept.trans _ _ _ _ ⟨?_, ?_⟩ ((ih _).2 _ _ h4)
            · exact p
            · rintro ⟨o1, o2, o3, o4⟩
              have ab := append_bits d.br b (by rw [e1, e2]; exact o2) (by omega)
              exact ⟨by simp only; omega, ab.2, (m ⟨o3, o4⟩).1, (m ⟨o3, o4⟩).2⟩
    · simp only [hlt, if_false]
      exact ⟨fun v c' h => by cases h; exact ReadKept.refl _ _, fun e c' h => by cases h⟩

theorem fill_kept (g : Segment) (n : Nat) (hn : n ≤ 16) : Reader.Keeps (ReadKept g.maxLen) (fill g n) :=
  fillLoop_kept g n hn 2

theorem peek_kept (g : Segment) (n : Nat) (hn : n ≤ 16) : Reader.Keeps (ReadKept g.maxLen) (peek g n) := by
  unfold peek
  split
  · exact Reader.Keeps.ret (ReadKept.refl _) _
  · refine Reader.Keeps.next (ReadKept.trans _) (fill_kept g n hn) fun _ c => ⟨fun v c' h => ?_, fun e c' h => by simp at h⟩
    simp only [ReadResult.ok.injEq] at h
    exact h.2 ▸ ReadKept.refl _ _

/-- Keeping the newest bits keeps the bit reader's bounds. -/
theorem keepNewest_ok (b : BitReader) (k : Nat) (h : k ≤ b.bitcnt) (hb : b.Ok) : (keepNewest b k).Ok := by
  obtain ⟨o1, o2, o3, o4⟩ := hb
  exact ⟨by simp only [keepNewest]; omega, (keepNewest_bits b k h (by omega)).2, o3, o4⟩

theorem consume_kept (g : Segment) (n : Nat) (hn : n ≤ 16) : Reader.Keeps (ReadKept g.maxLen) (consume g n) := by
  unfold consume
  split
  · exact Reader.Keeps.ret (ReadKept.refl _) _
  · refine Reader.Keeps.next (ReadKept.trans _) (fill_kept g n hn) fun _ c => ⟨fun v c' h => ?_, fun e c' h => by simp at h⟩
    simp only [ReadResult.ok.injEq] at h
    obtain ⟨-, rfl⟩ := h
    exact ⟨⟨le_refl _, le_max_left _ _, fun h => ⟨h, rfl, rfl⟩⟩, keepNewest_ok _ _ (Nat.sub_le _ _)⟩

theorem take_kept (g : Segment) (n : Nat) (hn : n ≤ 16) : Reader.Keeps (ReadKept g.maxLen) (take g n) :=
  Reader.Keeps.next (ReadKept.trans _) (peek_kept g n hn) fun _ =>
    Reader.Keeps.next (ReadKept.trans _) (consume_kept g n hn) fun _ => Reader.Keeps.ret (ReadKept.refl _) _

theorem decodeLoop_kept (g : Segment) (c : HuffClass) (t : BitVec 2) (tab : HuffTable) (left i code : Nat) :
    Reader.Keeps (ReadKept g.maxLen) (decodeLoop g c t tab left i code) := by
  induction left generalizing i code with
  | zero => exact Reader.Keeps.raise (ReadKept.refl _) _ _
  | succ left ih =>
    simp only [decodeLoop]
    refine Reader.Keeps.next (ReadKept.trans _) (take_kept g 1 (by decide)) fun b => ?_
    split
    · exact ih _ _
    · split
      · split
        · exact Reader.Keeps.raise (ReadKept.refl _) _ _
        · exact Reader.Keeps.ret (ReadKept.refl _) _
      · exact ih _ _

/-- A failed tree decode fails, and leaves the bit reader where the array decode left it. -/
theorem treeFail_err (g : Segment) (c : HuffClass) (t : BitVec 2) (e : Raise) (ctx : ReadCtx) :
    ∃ e' d, treeFail g c t e ctx = .err e' { ctx with draws := d } ∧
      ∃ beyond, beyond = nextBit g { ctx with draws := ctx.draws + 2 } ∧ (e'.kind, e'.info) ∈ treeFaults c t e beyond := by
  refine ⟨_, _, rfl, _, rfl, ?_⟩
  simp only
  generalize hl : treeFaults c t e (nextBit g { ctx with draws := ctx.draws + 2 }) = faults
  have lt : Config.freeNat ctx.draws % faults.length < faults.length :=
    Nat.mod_lt _ (by rw [← hl]; simp [treeFaults])
  simp only [List.getD, List.getElem?_eq_getElem lt, Option.getD_some]
  exact List.getElem_mem lt

theorem huffDecode_kept (g : Segment) (array : Bool) (c : HuffClass) (t : BitVec 2) (tab : HuffTable) :
    Reader.Keeps (ReadKept g.maxLen) (huffDecode g array c t tab) := by
  intro ctx
  have h := decodeLoop_kept g c t tab 16 0 0 ctx
  simp only [huffDecode, huffDecodeArray]
  split
  · rename_i v ctx' h1
    exact ⟨fun w d e => by cases e; exact h.1 _ _ h1, fun w d e => by simp at e⟩
  · rename_i e ctx' h1
    have k := h.2 _ _ h1
    obtain ⟨e', d', hf, -⟩ := treeFail_err g c t e ctx'
    rw [hf]
    refine ⟨fun w d e => by split at e <;> simp at e, fun w d e => ?_⟩
    split at e
    · cases e; exact k
    · simp only [ReadResult.err.injEq] at e
      obtain ⟨-, rfl⟩ := e
      exact k

theorem acLoop_kept (x : CoefTables) (fuel k : Nat) (b : Blk) : Reader.Keeps (ReadKept x.seg.maxLen) (acLoop x fuel k b) := by
  induction fuel generalizing k b with
  | zero => exact Reader.Keeps.ret (ReadKept.refl _) _
  | succ fuel ih =>
    simp only [acLoop]
    split
    · exact Reader.Keeps.ret (ReadKept.refl _) _
    · refine Reader.Keeps.next (ReadKept.trans _) (huffDecode_kept _ _ _ _ _) fun rs => ?_
      have hs : (rs.extractLsb' 0 4).toNat ≤ 16 := by have := (rs.extractLsb' 0 4).isLt; omega
      split
      · split
        · exact Reader.Keeps.ret (ReadKept.refl _) _
        · split
          · exact ih _ _
          · exact Reader.Keeps.raise (ReadKept.refl _) _ _
      · split
        · exact Reader.Keeps.raise (ReadKept.refl _) _ _
        · exact Reader.Keeps.next (ReadKept.trans _) (take_kept _ _ hs) fun _ => ih _ _

/-- Everything a block decode keeps of the bit reader. -/
theorem decodeBody_kept (x : CoefTables) (pred : Word) : Reader.Keeps (ReadKept x.seg.maxLen) (decodeBody x pred) := by
  unfold decodeBody
  refine Reader.Keeps.next (ReadKept.trans _) (huffDecode_kept _ _ _ _ _) fun t => ?_
  split
  · exact Reader.Keeps.raise (ReadKept.refl _) _ _
  · refine Reader.Keeps.next (ReadKept.trans _) (take_kept _ _ (by omega)) fun v => ?_
    simp only []
    split
    · exact Reader.Keeps.next (ReadKept.trans _) (acLoop_kept _ _ _ _) fun _ => Reader.Keeps.ret (ReadKept.refl _) _
    · exact Reader.Keeps.raise (ReadKept.refl _) _ _

/-! ## The faults a read can raise -/

/-- Every fault `m` raises is one of `K`. -/
def Reader.RaisesIn {α : Type} (K : List FaultKind) (m : Reader α) : Prop := ∀ c e c', m c = .err e c' → e.kind ∈ K

theorem Reader.RaisesIn.ret {α : Type} {K : List FaultKind} (v : α) : Reader.RaisesIn K (Reader.ret v) := by
  intro c e c' h; simp [Reader.ret] at h

theorem Reader.RaisesIn.raise {α : Type} {K : List FaultKind} {k : FaultKind} (h : k ∈ K) (i : Word) :
    Reader.RaisesIn K (Reader.raise k i : Reader α) := by
  intro c e c' he
  simp only [Reader.raise, ReadResult.err.injEq] at he
  rw [← he.1]; exact h

theorem Reader.RaisesIn.next {α β : Type} {K : List FaultKind} {m : Reader α} {k : α → Reader β}
    (hm : Reader.RaisesIn K m) (hk : ∀ v, Reader.RaisesIn K (k v)) : Reader.RaisesIn K (Reader.next m k) := by
  intro c e c' h
  rcases Reader.next_err.1 h with h | ⟨v, d, -, h⟩
  · exact hm _ _ _ h
  · exact hk _ _ _ _ h

theorem Reader.RaisesIn.mono {α : Type} {K L : List FaultKind} (h : K ⊆ L) {m : Reader α} (hm : Reader.RaisesIn K m) :
    Reader.RaisesIn L m := fun c e c' he => h (hm c e c' he)

/-- NextByte raises BitstreamMarkerError only (40_bitreader.md R128, R129). -/
theorem nextByte_raises (g : Segment) : Reader.RaisesIn [.bitstreamMarker] (nextByte g) := by
  intro c e c' h
  obtain ⟨d, h1 | ⟨-, n, b, -, h1⟩ | ⟨-, b, -, h1⟩ | ⟨info, h1⟩⟩ := nextByte_cases g c <;> rw [h1] at h
  · simp [padByte] at h
  · simp [advance] at h
  · simp [hitMarker, padByte] at h
  · simp only [Reader.raise, ReadResult.err.injEq] at h
    rw [← h.1]; simp

theorem fillLoop_raises (g : Segment) (n fuel : Nat) : Reader.RaisesIn [.bitstreamMarker] (fillLoop g n fuel) := by
  induction fuel with
  | zero => exact Reader.RaisesIn.ret ()
  | succ fuel ih =>
    intro c e c' h
    simp only [fillLoop] at h
    split at h
    · refine Reader.RaisesIn.next (nextByte_raises g) (fun b => Reader.RaisesIn.next ?_ fun _ => ih) c e c' h
      intro c e c' h; simp [append] at h
    · simp at h

theorem peek_raises (g : Segment) (n : Nat) : Reader.RaisesIn [.bitstreamMarker] (peek g n) := by
  unfold peek
  split
  · exact Reader.RaisesIn.ret 0
  · exact Reader.RaisesIn.next (fillLoop_raises g n 2) fun _ c e c' h => by simp at h

theorem consume_raises (g : Segment) (n : Nat) : Reader.RaisesIn [.bitstreamMarker] (consume g n) := by
  unfold consume
  split
  · exact Reader.RaisesIn.ret ()
  · exact Reader.RaisesIn.next (fillLoop_raises g n 2) fun _ c e c' h => by simp at h

theorem take_raises (g : Segment) (n : Nat) : Reader.RaisesIn [.bitstreamMarker] (take g n) :=
  Reader.RaisesIn.next (peek_raises g n) fun _ =>
    Reader.RaisesIn.next (consume_raises g n) fun _ => Reader.RaisesIn.ret _

theorem decodeLoop_raises (g : Segment) (c : HuffClass) (t : BitVec 2) (tab : HuffTable) (left i code : Nat) :
    Reader.RaisesIn [.bitstreamMarker, .huffmanDecode] (decodeLoop g c t tab left i code) := by
  induction left generalizing i code with
  | zero => exact Reader.RaisesIn.raise (by simp) _
  | succ left ih =>
    simp only [decodeLoop]
    refine Reader.RaisesIn.next ((take_raises g 1).mono (by simp)) fun b => ?_
    split
    · exact ih _ _
    · split
      · split
        · exact Reader.RaisesIn.raise (by simp) _
        · exact Reader.RaisesIn.ret _
      · exact ih _ _

/-- A decode raises BitstreamMarkerError or HuffmanDecodeError, in both variants (41_huffman.md R171, R172). -/
theorem huffDecode_raises (g : Segment) (array : Bool) (c : HuffClass) (t : BitVec 2) (tab : HuffTable) :
    Reader.RaisesIn [.bitstreamMarker, .huffmanDecode] (huffDecode g array c t tab) := by
  intro ctx e c' h
  simp only [huffDecode, huffDecodeArray] at h
  split at h
  · simp at h
  · rename_i e1 ctx1 h1
    have k := decodeLoop_raises g c t tab 16 0 0 ctx _ _ h1
    split at h
    · simp only [ReadResult.err.injEq] at h
      rw [← h.1]; exact k
    · obtain ⟨e', d', hf, beyond, hb, hm⟩ := treeFail_err g c t e1 ctx1
      rw [hf] at h
      simp only [ReadResult.err.injEq] at h
      rw [← h.1]
      simp only [treeFaults, List.mem_cons, Prod.mk.injEq] at hm
      rcases hm with ⟨hm, -⟩ | ⟨hm, -⟩ | hm
      · rw [hm]; exact k
      · rw [hm]; simp
      · split at hm
        · simp at hm
        · rename_i e2 c2
          have := take_raises g 1 _ _ _ hb.symm
          simp only [List.mem_singleton, Prod.mk.injEq] at hm this
          rw [hm.1, this]; simp

/-- The faults a block decode raises after its checks, all execution faults (42_coefficient.md R212-R214). -/
def decodeKinds : List FaultKind :=
  [.bitstreamMarker, .huffmanDecode, .unsupportedRunLength, .acIndexOverflow, .dcCategory, .range]

theorem acLoop_raises (x : CoefTables) (fuel k : Nat) (b : Blk) : Reader.RaisesIn decodeKinds (acLoop x fuel k b) := by
  induction fuel generalizing k b with
  | zero => exact Reader.RaisesIn.ret _
  | succ fuel ih =>
    simp only [acLoop]
    split
    · exact Reader.RaisesIn.ret _
    · refine Reader.RaisesIn.next ((huffDecode_raises _ _ _ _ _).mono (by simp [decodeKinds])) fun rs => ?_
      split
      · split
        · exact Reader.RaisesIn.ret _
        · split
          · exact ih _ _
          · exact Reader.RaisesIn.raise (by simp [decodeKinds]) _
      · split
        · exact Reader.RaisesIn.raise (by simp [decodeKinds]) _
        · exact Reader.RaisesIn.next ((take_raises _ _).mono (by simp [decodeKinds])) fun _ => ih _ _

theorem decodeBody_raises (x : CoefTables) (pred : Word) : Reader.RaisesIn decodeKinds (decodeBody x pred) := by
  unfold decodeBody
  refine Reader.RaisesIn.next ((huffDecode_raises _ _ _ _ _).mono (by simp [decodeKinds])) fun t => ?_
  split
  · exact Reader.RaisesIn.raise (by simp [decodeKinds]) _
  · refine Reader.RaisesIn.next ((take_raises _ _).mono (by simp [decodeKinds])) fun v => ?_
    simp only []
    split
    · exact Reader.RaisesIn.next (acLoop_raises _ _ _ _) fun _ => Reader.RaisesIn.ret _
    · exact Reader.RaisesIn.raise (by simp [decodeKinds]) _

/-! ## The free bit reader after an execution fault -/

theorem anyReader_ok (bound d : Nat) : (anyReader bound d).Ok := by
  have hc : Config.freeNat d % 24 < 24 := Nat.mod_lt _ (by decide)
  refine ⟨by simp only [anyReader]; omega, ?_, fun h => ?_, fun h => ?_⟩
  · simp only [anyReader, BitVec.toNat_ofNat]
    have h1 : Config.freeNat (d + 1) % 2 ^ (Config.freeNat d % 24) < 2 ^ (Config.freeNat d % 24) := Nat.mod_lt _ (by positivity)
    exact lt_of_le_of_lt (Nat.mod_le _ _) h1
  · simp only [anyReader] at h ⊢; simp [h]
  · simp only [anyReader] at h ⊢
    simp only [h, if_true]
    have : ∀ i, i < 9 → markerBytes.getD i 0 ∈ markerBytes := by decide
    exact this _ (Nat.mod_lt _ (by decide))

theorem anyReader_pos (bound d : Nat) : (anyReader bound d).pos.toNat ≤ bound := by
  simp only [anyReader, BitVec.toNat_ofNat]
  have : Config.freeNat (d + 2) % (bound + 1) < bound + 1 := Nat.mod_lt _ (by omega)
  exact le_trans (Nat.mod_le _ _) (by omega)

theorem State.posBound_eq (s : State) : s.posBound = max s.br.pos.toNat s.seg.maxLen := by
  apply le_antisymm
  · rw [State.posBound, foldl_max_le]
    have := (foldl_max_le (s.seg.oldLens.map BitVec.toNat) s.seg.len.toNat s.seg.maxLen).1 (le_of_eq rfl)
    exact ⟨by omega, fun x hx => le_trans (this.2 x hx) (le_max_right _ _)⟩
  · have h := (foldl_max_le (s.seg.oldLens.map BitVec.toNat) (max s.seg.len.toNat s.br.pos.toNat) s.posBound).1 (le_of_eq rfl)
    have : s.seg.maxLen ≤ s.posBound := (foldl_max_le _ _ _).2 ⟨by omega, h.2⟩
    omega

end Sys2Proof.Machine
end

