-- ==== Sys2Proof/Laws/Stream.lean ====
section
/-! SUPPORT. The bit reader as a stream of bits, on a segment with no write in flight: what NextByte, Fill, Peek, Consume
and Take deliver of `ahead`. -/

namespace Sys2Proof.Machine

/-- No write of the segment is in flight. -/
abbrev Segment.Still (g : Segment) : Prop := g.oldBytes = [] ∧ g.oldLens = []

theorem readLen_still (g : Segment) (h : g.Still) (c : ReadCtx) : readLen g c = .ok g.len c := by
  simp [readLen, h.2]

theorem readByte_still (g : Segment) (h : g.Still) (a : Nat) (c : ReadCtx) : readByte g a c = .ok (g.byte a) c := by
  simp [readByte, h.1]

/-- NextByte with no write in flight, as the spec writes it (40_bitreader.md R123). -/
theorem nextByte_still (g : Segment) (h : g.Still) (c : ReadCtx) :
    nextByte g c =
      if c.br.markerHit = true ∨ g.len.toNat ≤ c.br.pos.toNat then padByte c
      else if g.byte c.br.pos.toNat ≠ 0xFF#8 then advance 1 (g.byte c.br.pos.toNat) c
      else if g.len.toNat ≤ c.br.pos.toNat + 1 then Reader.raise .bitstreamMarker (infoMarker true 0xFF#8) c
      else afterFF (g.byte (c.br.pos.toNat + 1)) c := by
  by_cases hm : c.br.markerHit = true
  · simp [nextByte, hm]
  · have hm' : c.br.markerHit = false := by simpa using hm
    have e : nextByte g c = Reader.next (readLen g) (fun len =>
      if len.toNat ≤ c.br.pos.toNat then padByte
      else Reader.next (readByte g c.br.pos.toNat) fun b =>
        if b ≠ 0xFF#8 then advance 1 b
        else Reader.next (readLen g) fun len2 =>
          if len2.toNat ≤ c.br.pos.toNat + 1 then Reader.raise .bitstreamMarker (infoMarker true 0xFF#8)
          else Reader.next (readByte g (c.br.pos.toNat + 1)) afterFF) c := by simp [nextByte, hm']
    rw [e, Reader.next_of_ok _ (readLen_still g h c)]
    by_cases hp : g.len.toNat ≤ c.br.pos.toNat
    · rw [if_pos hp, if_pos (.inr hp)]
    · rw [if_neg hp, if_neg (by simp [hm', hp]), Reader.next_of_ok _ (readByte_still g h _ c)]
      by_cases hf : g.byte c.br.pos.toNat ≠ 0xFF#8
      · rw [if_pos hf, if_pos hf]
      · rw [if_neg hf, if_neg hf, Reader.next_of_ok _ (readLen_still g h c)]
        by_cases hl : g.len.toNat ≤ c.br.pos.toNat + 1
        · rw [if_pos hl, if_pos hl]
        · rw [if_neg hl, if_neg hl, Reader.next_of_ok _ (readByte_still g h _ c)]

theorem Segment.bytesFrom_nil (g : Segment) (p : Nat) (h : g.len.toNat ≤ p) : g.bytesFrom p = [] := by
  simp [Segment.bytesFrom, Nat.sub_eq_zero_of_le h]

theorem Segment.bytesFrom_cons (g : Segment) (p : Nat) (h : p < g.len.toNat) :
    g.bytesFrom p = g.byte p :: g.bytesFrom (p + 1) := by
  simp only [Segment.bytesFrom]
  rw [show g.len.toNat - p = (g.len.toNat - (p + 1)) + 1 by omega, List.range_succ_eq_map]
  simp only [List.map_cons, List.map_map, Nat.add_zero, List.cons.injEq, true_and]
  apply List.map_congr_left
  intro i _
  simp only [Function.comp, Nat.succ_eq_add_one]
  congr 1; omega

/-- The data bytes left and what ends them. -/
def bytesAhead (g : Segment) (b : BitReader) : List Byte × Option (Nat × Word) :=
  if b.markerHit then ([], none) else destuff b.pos.toNat (g.bytesFrom b.pos.toNat)

/-- The bits of a list of bytes. -/
def bitsOf (bs : List Byte) : List Bool := bs.flatMap fun x => bitsMsb 8 x.toNat

theorem ahead_eq (g : Segment) (b : BitReader) :
    ahead g b = (b.bits ++ bitsOf (bytesAhead g b).1, (bytesAhead g b).2) := by
  simp only [ahead, bytesAhead, bitsOf]; split <;> simp

theorem infoMarker_false (b : Byte) : infoMarker false b = b.setWidth 32 := by revert b; decide

theorem stop_iff (b : Byte) :
    ((0xD0 ≤ b.toNat ∧ b.toNat ≤ 0xD7) ∨ b.toNat = 0xDC) ↔ ((0xD0#8 ≤ b ∧ b ≤ 0xD7#8) ∨ b = 0xDC#8) := by
  revert b; decide

/-- NextByte takes the next data byte of the destuffed segment, pads where there is none, or fails where it ends in an
error. It leaves the buffered bits alone. -/
theorem nextByte_ahead (g : Segment) (h : g.Still) (c : ReadCtx) :
    (∀ x xs e, bytesAhead g c.br = (x :: xs, e) →
      ∃ br, nextByte g c = .ok x { c with br := br } ∧ bytesAhead g br = (xs, e) ∧ br.bitcnt = c.br.bitcnt ∧
        br.bitreg = c.br.bitreg) ∧
    (bytesAhead g c.br = ([], none) →
      ∃ br, nextByte g c = .ok 0xFF { c with br := br } ∧ bytesAhead g br = ([], none) ∧ br.bitcnt = c.br.bitcnt ∧
        br.bitreg = c.br.bitreg) ∧
    (∀ q info, bytesAhead g c.br = ([], some (q, info)) →
      nextByte g c = .err ⟨.bitstreamMarker, info, BitVec.ofNat 25 q⟩ c) := by
  rw [nextByte_still g h c]
  have lt := g.len.isLt
  have mv : ∀ n, c.br.pos.toNat + n < 2 ^ 25 → (c.br.pos + BitVec.ofNat 25 n).toNat = c.br.pos.toNat + n := by
    intro n hn; simp only [BitVec.toNat_add, BitVec.toNat_ofNat]; omega
  by_cases hm : c.br.markerHit = true
  · have e : bytesAhead g c.br = ([], none) := by simp [bytesAhead, hm]
    rw [if_pos (.inl hm), e]
    refine ⟨by simp, fun _ => ⟨_, rfl, by simp [bytesAhead, hm], rfl, rfl⟩, by simp⟩
  · have hm : c.br.markerHit = false := by simpa using hm
    by_cases hp : g.len.toNat ≤ c.br.pos.toNat
    · have e : bytesAhead g c.br = ([], none) := by
        simp [bytesAhead, hm, Segment.bytesFrom_nil g _ hp, destuff]
      rw [if_pos (.inr hp), e]
      refine ⟨by simp, fun _ => ⟨_, rfl, ?_, rfl, rfl⟩, by simp⟩
      simp [bytesAhead, hm, Segment.bytesFrom_nil g _ hp, destuff]
    · rw [if_neg (by simp [hm, hp])]
      have hp : c.br.pos.toNat < g.len.toNat := by omega
      have b0 := Segment.bytesFrom_cons g _ hp
      by_cases hf : g.byte c.br.pos.toNat = 0xFF#8
      · rw [if_neg (by simp [hf])]
        by_cases hl : g.len.toNat ≤ c.br.pos.toNat + 1
        · rw [if_pos hl]
          have e : bytesAhead g c.br = ([], some (c.br.pos.toNat, 0x1FF)) := by
            simp [bytesAhead, hm, b0, Segment.bytesFrom_nil g _ hl, destuff, hf]
          rw [e]
          refine ⟨by simp, by simp, fun q info he => ?_⟩
          simp only [Prod.mk.injEq, Option.some.injEq, true_and] at he
          obtain ⟨rfl, rfl⟩ := he
          simp only [Reader.raise, ReadResult.err.injEq, Raise.mk.injEq, true_and, and_true]
          exact ⟨by decide, by simp⟩
        · rw [if_neg hl]
          have hl : c.br.pos.toNat + 1 < g.len.toNat := by omega
          have b1 := Segment.bytesFrom_cons g _ hl
          simp only [afterFF]
          by_cases hz : g.byte (c.br.pos.toNat + 1) = 0x00#8
          · rw [if_pos hz]
            have e : bytesAhead g c.br = (0xFF :: (destuff (c.br.pos.toNat + 2) (g.bytesFrom (c.br.pos.toNat + 2))).1,
                (destuff (c.br.pos.toNat + 2) (g.bytesFrom (c.br.pos.toNat + 2))).2) := by
              simp [bytesAhead, hm, b0, b1, destuff, hf, hz]
            rw [e]
            refine ⟨fun x xs e he => ?_, by simp, by simp⟩
            simp only [Prod.mk.injEq, List.cons.injEq] at he
            obtain ⟨⟨rfl, rfl⟩, rfl⟩ := he
            exact ⟨_, rfl, by simp [bytesAhead, hm, mv 2 (by omega)], rfl, rfl⟩
          · rw [if_neg hz]
            by_cases hs : (0xD0#8 ≤ g.byte (c.br.pos.toNat + 1) ∧ g.byte (c.br.pos.toNat + 1) ≤ 0xD7#8) ∨
                g.byte (c.br.pos.toNat + 1) = 0xDC#8
            · rw [if_pos hs]
              have e : bytesAhead g c.br = ([], none) := by
                simp only [bytesAhead, hm, Bool.false_eq_true, if_false, b0, b1, destuff, hf, ne_eq]
                rw [if_neg (by simp), if_neg (show ¬g.byte (c.br.pos.toNat + 1) = 0 from hz), if_pos ((stop_iff _).2 hs)]
              rw [e]
              exact ⟨by simp, fun _ => ⟨_, rfl, by simp [bytesAhead], rfl, rfl⟩, by simp⟩
            · rw [if_neg hs]
              have e : bytesAhead g c.br = ([], some (c.br.pos.toNat, (g.byte (c.br.pos.toNat + 1)).setWidth 32)) := by
                simp only [bytesAhead, hm, Bool.false_eq_true, if_false, b0, b1, destuff, hf, ne_eq]
                rw [if_neg (by simp), if_neg (show ¬g.byte (c.br.pos.toNat + 1) = 0 from hz), if_neg (fun k => hs ((stop_iff _).1 k))]
              rw [e]
              refine ⟨by simp, by simp, fun q info he => ?_⟩
              simp only [Prod.mk.injEq, Option.some.injEq, true_and] at he
              obtain ⟨rfl, rfl⟩ := he
              simp [Reader.raise, infoMarker_false]
      · rw [if_pos hf]
        have e : bytesAhead g c.br = (g.byte c.br.pos.toNat :: (destuff (c.br.pos.toNat + 1) (g.bytesFrom (c.br.pos.toNat + 1))).1,
            (destuff (c.br.pos.toNat + 1) (g.bytesFrom (c.br.pos.toNat + 1))).2) := by
          have hf' : ¬g.byte c.br.pos.toNat = 255#8 := hf
          simp only [bytesAhead, hm, Bool.false_eq_true, if_false, b0]
          cases hb : g.bytesFrom (c.br.pos.toNat + 1) with
          | nil => simp [destuff, hf']
          | cons y ys => simp [destuff, hf']
        rw [e]
        refine ⟨fun x xs e he => ?_, by simp, by simp⟩
        simp only [Prod.mk.injEq, List.cons.injEq] at he
        obtain ⟨⟨rfl, rfl⟩, rfl⟩ := he
        exact ⟨_, rfl, by simp [bytesAhead, hm, mv 1 (by omega)], rfl, rfl⟩

theorem bits_congr (b b' : BitReader) (h1 : b.bitcnt = b'.bitcnt) (h2 : b.bitreg = b'.bitreg) : b.bits = b'.bits := by
  simp [BitReader.bits, h1, h2]

/-- The state of the buffer after `Append`. -/
abbrev appended (b : BitReader) (x : Byte) : BitReader :=
  { b with bitreg := (b.bitreg <<< 8) ||| x.setWidth 32, bitcnt := b.bitcnt + 8 }

theorem ff_bits : bitsMsb 8 (0xFF#8).toNat = List.replicate 8 true := by decide

/-- The fill loop delivers the stream into the buffer: the stream is the same but for pad bits, which come only where it
runs out, and it fails exactly where a needed bit lies past its error. -/
theorem fillLoop_ahead (g : Segment) (h : g.Still) (n : Nat) (hn : n ≤ 16) (fuel : Nat) (c : ReadCtx)
    (hb : c.br.bitreg.toNat < 2 ^ c.br.bitcnt) (hf : n ≤ c.br.bitcnt + 8 * fuel) (l : List Bool)
    (e : Option (Nat × Word)) (ha : ahead g c.br = (l, e)) :
    ((n ≤ l.length ∨ e = none) →
      ∃ br p, fillLoop g n fuel c = .ok () { c with br := br } ∧ ahead g br = (l ++ List.replicate p true, e) ∧
        (n ≤ l.length → p = 0) ∧ n ≤ br.bitcnt ∧ br.bitreg.toNat < 2 ^ br.bitcnt ∧ (c.br.bitcnt ≤ 23 → br.bitcnt ≤ 23) ∧
        (c.br.bitcnt < n → br.bitcnt ≤ n + 7) ∧ (n ≤ c.br.bitcnt → br = c.br)) ∧
    (∀ q info, e = some (q, info) → l.length < n →
      ∃ c', fillLoop g n fuel c = .err ⟨.bitstreamMarker, info, BitVec.ofNat 25 q⟩ c' ∧ c'.draws = c.draws) := by
  have hbl : c.br.bits.length = c.br.bitcnt := by simp [BitReader.bits]
  induction fuel generalizing c l with
  | zero =>
    refine ⟨fun _ => ⟨c.br, 0, rfl, by simpa using ha, fun _ => rfl, by omega, hb, id, by omega, fun _ => rfl⟩, fun q info he hl => ?_⟩
    rw [ahead_eq] at ha
    have := congrArg (fun x => x.1.length) ha
    simp at this; omega
  | succ fuel ih =>
    simp only [fillLoop]
    by_cases hlt : c.br.bitcnt < n
    · rw [if_pos hlt]
      have nb := nextByte_ahead g h c
      rw [ahead_eq] at ha
      rcases hba : bytesAhead g c.br with ⟨xs, e'⟩
      rw [hba] at ha
      simp only [Prod.mk.injEq] at ha
      obtain ⟨hl, rfl⟩ := ha
      cases xs with
      | cons x xs =>
        obtain ⟨br, h1, h2, h3, h4⟩ := nb.1 x xs e' hba
        rw [Reader.next_of_ok _ h1]
        have hap : append x { c with br := br } = .ok () { c with br := appended br x } := rfl
        rw [Reader.next_of_ok _ hap]
        have ab := append_bits br x (by rw [h3, h4]; exact hb) (by omega)
        have key := ih { c with br := appended br x } ab.2 (by show n ≤ br.bitcnt + 8 + 8 * fuel; omega) l
          (by rw [ahead_eq]
              have : bytesAhead g (appended br x) = (xs, e') := h2
              simp only [this, Prod.mk.injEq, and_true]
              rw [ab.1, bits_congr br c.br h3 h4, ← hl]; simp [bitsOf])
          (by simp [BitReader.bits])
        refine ⟨fun hc => ?_, key.2⟩
        obtain ⟨br', p, k1, k2, k3, k4, k5, k6, k7, k8⟩ := key.1 hc
        refine ⟨br', p, k1, k2, k3, k4, k5, fun _ => k6 (by show br.bitcnt + 8 ≤ 23; omega), fun _ => ?_, by omega⟩
        by_cases hq : n ≤ br.bitcnt + 8
        · rw [k8 hq]; show br.bitcnt + 8 ≤ n + 7; omega
        · exact k7 (by show br.bitcnt + 8 < n; omega)
      | nil =>
        have hl0 : l = c.br.bits := by rw [← hl]; simp [bitsOf]
        cases e' with
        | none =>
          obtain ⟨br, h1, h2, h3, h4⟩ := nb.2.1 hba
          rw [Reader.next_of_ok _ h1]
          have hap : append 0xFF { c with br := br } = .ok () { c with br := appended br 0xFF } := rfl
          rw [Reader.next_of_ok _ hap]
          have ab := append_bits br 0xFF (by rw [h3, h4]; exact hb) (by omega)
          have key := ih { c with br := appended br 0xFF } ab.2 (by show n ≤ br.bitcnt + 8 + 8 * fuel; omega) (l ++ List.replicate 8 true)
            (by rw [ahead_eq]
                have : bytesAhead g (appended br 0xFF) = ([], none) := h2
                simp only [this, Prod.mk.injEq, and_true]
                rw [ab.1, bits_congr br c.br h3 h4, hl0, ← ff_bits]; simp [bitsOf])
            (by simp [BitReader.bits])
          refine ⟨fun hc => ?_, by simp⟩
          obtain ⟨br', p, k1, k2, k3, k4, k5, k6, k7, k8⟩ := key.1 (.inr rfl)
          refine ⟨br', 8 + p, k1, by rw [k2, List.append_assoc, List.replicate_append_replicate], ?_, k4, k5,
            fun _ => k6 (by show br.bitcnt + 8 ≤ 23; omega), fun _ => ?_, by omega⟩
          · intro hx; rw [hl0, hbl] at hx; omega
          · by_cases hq : n ≤ br.bitcnt + 8
            · rw [k8 hq]; show br.bitcnt + 8 ≤ n + 7; omega
            · exact k7 (by show br.bitcnt + 8 < n; omega)
        | some qi =>
          obtain ⟨q, info⟩ := qi
          have h1 := nb.2.2 q info hba
          rw [Reader.next_of_err _ h1]
          refine ⟨fun hc => ?_, fun q' info' he hx => ?_⟩
          · rcases hc with hc | hc
            · rw [hl0, hbl] at hc; omega
            · simp at hc
          · simp only [Option.some.injEq, Prod.mk.injEq] at he
            obtain ⟨rfl, rfl⟩ := he
            exact ⟨c, rfl, rfl⟩
    · rw [if_neg hlt]
      refine ⟨fun _ => ⟨c.br, 0, rfl, by simpa using ha, fun _ => rfl, by omega, hb, id, by omega, fun _ => rfl⟩, fun q info he hl => ?_⟩
      rw [ahead_eq] at ha
      have := congrArg (fun x => x.1.length) ha
      simp at this; omega

/-- Fill in stream terms. -/
theorem fill_ahead (g : Segment) (h : g.Still) (n : Nat) (hn : n ≤ 16) (c : ReadCtx) (hb : c.br.Ok) (l : List Bool)
    (e : Option (Nat × Word)) (ha : ahead g c.br = (l, e)) :
    ((n ≤ l.length ∨ e = none) →
      ∃ br p, fill g n c = .ok () { c with br := br } ∧ ahead g br = (l ++ List.replicate p true, e) ∧
        (n ≤ l.length → p = 0) ∧ n ≤ br.bitcnt ∧ br.Ok ∧ (n ≤ c.br.bitcnt → br = c.br)) ∧
    (∀ q info, e = some (q, info) → l.length < n →
      ∃ c', fill g n c = .err ⟨.bitstreamMarker, info, BitVec.ofNat 25 q⟩ c' ∧ c'.draws = c.draws) := by
  have key := fillLoop_ahead g h n hn 2 c hb.2.1 (by omega) l e ha
  refine ⟨fun hc => ?_, key.2⟩
  obtain ⟨br, p, k1, k2, k3, k4, k5, k6, k7, k8⟩ := key.1 hc
  exact ⟨br, p, k1, k2, k3, k4, ((fill_kept g n hn c).1 _ _ k1).2 hb, k8⟩

/-- The buffered bits are the beginning of the stream. -/
theorem bits_take_ahead (g : Segment) (b : BitReader) (l : List Bool) (e : Option (Nat × Word)) (n : Nat)
    (ha : ahead g b = (l, e)) (hn : n ≤ b.bitcnt) : b.bits.take n = l.take n ∧ n ≤ l.length := by
  rw [ahead_eq] at ha
  simp only [Prod.mk.injEq] at ha
  have hl : b.bits.length = b.bitcnt := by simp [BitReader.bits]
  rw [← ha.1]
  exact ⟨(List.take_append_of_le_length (by omega)).symm, by simp; omega⟩

/-- The next `n` bits of a stream with its pad bits. -/
theorem padTo_append (n p : Nat) (l : List Bool) (h : n ≤ l.length + p) : padTo n l = (l ++ List.replicate p true).take n := by
  simp only [padTo]
  apply List.ext_getElem
  · simp; omega
  · intro i h1 h2
    simp only [List.getElem_take]
    by_cases hi : i < l.length
    · rw [List.getElem_append_left hi, List.getElem_append_left hi]
    · rw [List.getElem_append_right (by omega), List.getElem_append_right (by omega)]; simp

/-- Peek in stream terms: the next bits as a number, and nothing consumed. -/
theorem peek_ahead (g : Segment) (h : g.Still) (n : Nat) (hn : n ≤ 16) (c : ReadCtx) (hb : c.br.Ok) (l : List Bool)
    (e : Option (Nat × Word)) (ha : ahead g c.br = (l, e)) :
    ((n ≤ l.length ∨ e = none) →
      ∃ br p, peek g n c = .ok (bitsToNat (padTo n l)) { c with br := br } ∧
        ahead g br = (l ++ List.replicate p true, e) ∧ (n ≤ l.length → p = 0) ∧ n ≤ br.bitcnt ∧ br.Ok) ∧
    (∀ q info, e = some (q, info) → l.length < n →
      ∃ c', peek g n c = .err ⟨.bitstreamMarker, info, BitVec.ofNat 25 q⟩ c' ∧ c'.draws = c.draws) := by
  unfold peek
  by_cases h0 : n = 0
  · subst h0
    simp only [if_true]
    exact ⟨fun _ => ⟨c.br, 0, by simp [Reader.ret, padTo, bitsToNat], by simpa using ha, fun _ => rfl, by omega, hb⟩, by simp⟩
  · rw [if_neg h0]
    have key := fill_ahead g h n hn c hb l e ha
    refine ⟨fun hc => ?_, fun q info he hl => ?_⟩
    · obtain ⟨br, p, k1, k2, k3, k4, k5, -⟩ := key.1 hc
      have tk := bits_take_ahead g br _ e n k2 k4
      refine ⟨br, p, ?_, k2, k3, k4, k5⟩
      rw [Reader.next_of_ok _ k1]
      simp only [ReadResult.ok.injEq, and_true]
      rw [oldest_bits _ _ k4, tk.1, padTo_append n p l (by simpa using tk.2)]
    · obtain ⟨c', k1, k2⟩ := key.2 q info he hl
      exact ⟨c', Reader.next_of_err _ k1, k2⟩

/-- Consume in stream terms: the next bits are gone. -/
theorem consume_ahead (g : Segment) (h : g.Still) (n : Nat) (hn : n ≤ 16) (c : ReadCtx) (hb : c.br.Ok) (l : List Bool)
    (e : Option (Nat × Word)) (ha : ahead g c.br = (l, e)) :
    ((n ≤ l.length ∨ e = none) →
      ∃ br p, consume g n c = .ok () { c with br := br } ∧ n ≤ l.length + p ∧
        ahead g br = ((l ++ List.replicate p true).drop n, e) ∧ (n ≤ l.length → p = 0) ∧ br.Ok) ∧
    (∀ q info, e = some (q, info) → l.length < n →
      ∃ c', consume g n c = .err ⟨.bitstreamMarker, info, BitVec.ofNat 25 q⟩ c' ∧ c'.draws = c.draws) := by
  unfold consume
  by_cases h0 : n = 0
  · subst h0
    simp only [if_true]
    exact ⟨fun _ => ⟨c.br, 0, rfl, by omega, by simpa using ha, fun _ => rfl, hb⟩, by simp⟩
  · rw [if_neg h0]
    have key := fill_ahead g h n hn c hb l e ha
    refine ⟨fun hc => ?_, fun q info he hl => ?_⟩
    · obtain ⟨br, p, k1, k2, k3, k4, k5, -⟩ := key.1 hc
      have tk := bits_take_ahead g br _ e n k2 k4
      refine ⟨keepNewest br (br.bitcnt - n), p, by rw [Reader.next_of_ok _ k1], by simpa using tk.2, ?_, k3,
        keepNewest_ok _ _ (Nat.sub_le _ _) k5⟩
      have kb := (keepNewest_bits br (br.bitcnt - n) (Nat.sub_le _ _) (by have := k5.1; omega)).1
      rw [ahead_eq] at k2 ⊢
      have : bytesAhead g (keepNewest br (br.bitcnt - n)) = bytesAhead g br := rfl
      simp only [Prod.mk.injEq] at k2
      rw [this, kb, ← k2.1, k2.2, List.drop_append_of_le_length (by simp [BitReader.bits]; omega)]
      simp; congr 2; omega
    · obtain ⟨c', k1, k2⟩ := key.2 q info he hl
      exact ⟨c', Reader.next_of_err _ k1, k2⟩

/-- Take in stream terms: it delivers the next bits and they are gone. -/
theorem take_ahead (g : Segment) (h : g.Still) (n : Nat) (hn : n ≤ 16) (c : ReadCtx) (hb : c.br.Ok) (l : List Bool)
    (e : Option (Nat × Word)) (ha : ahead g c.br = (l, e)) :
    ((n ≤ l.length ∨ e = none) →
      ∃ br p, take g n c = .ok (bitsToNat (padTo n l)) { c with br := br } ∧ n ≤ l.length + p ∧
        ahead g br = ((l ++ List.replicate p true).drop n, e) ∧ (n ≤ l.length → p = 0) ∧ br.Ok) ∧
    (∀ q info, e = some (q, info) → l.length < n →
      ∃ c', take g n c = .err ⟨.bitstreamMarker, info, BitVec.ofNat 25 q⟩ c' ∧ c'.draws = c.draws) := by
  have key := peek_ahead g h n hn c hb l e ha
  refine ⟨fun hc => ?_, fun q info he hl => ?_⟩
  · obtain ⟨br, p, k1, k2, k3, k4, k5⟩ := key.1 hc
    have tk := bits_take_ahead g br _ e n k2 k4
    have k := (consume_ahead g h n hn { c with br := br } k5 _ e k2).1 (.inl tk.2)
    obtain ⟨br2, p2, m1, m2, m3, m4, m5⟩ := k
    have hp2 := m4 tk.2
    subst hp2
    refine ⟨br2, p, ?_, by simpa using tk.2, by simpa using m3, k3, m5⟩
    unfold take
    rw [Reader.next_of_ok _ k1, Reader.next_of_ok _ m1]; rfl
  · obtain ⟨c', k1, k2⟩ := key.2 q info he hl
    exact ⟨c', by unfold take; exact Reader.next_of_err _ k1, k2⟩

/-! ## Which bytes are fetched -/

theorem Segment.fetched_stuck (g : Segment) (p : Nat) (h : g.fetched 1 p = p) (k : Nat) : g.fetched k p = p := by
  cases k with
  | zero => rfl
  | succ k =>
    simp only [Segment.fetched] at h ⊢
    split
    · rfl
    · rename_i h1
      rw [if_neg h1] at h
      split
      · rename_i h2; rw [if_pos h2] at h; omega
      · rename_i h2
        rw [if_neg h2] at h
        split
        · rename_i h3; rw [if_pos h3] at h; omega
        · rfl

theorem Segment.fetched_add (g : Segment) (j k p : Nat) : g.fetched (j + k) p = g.fetched k (g.fetched j p) := by
  induction j generalizing p with
  | zero => simp [Segment.fetched]
  | succ j ih =>
    rw [show j + 1 + k = j + k + 1 by omega]
    have stuck : g.fetched 1 p = p → p = g.fetched k p := fun h => (g.fetched_stuck p h k).symm
    simp only [Segment.fetched] at stuck ⊢
    split
    · rename_i h1; rw [if_pos h1] at stuck; exact stuck rfl
    · rename_i h1
      split
      · exact ih _
      · rename_i h2
        split
        · exact ih _
        · rename_i h3; rw [if_neg h1, if_neg h2, if_neg h3] at stuck; exact stuck rfl

/-- The bit reader after `k` more bytes are fetched: its position and its marker. -/
structure Fetches (g : Segment) (b : BitReader) (k : Nat) (b' : BitReader) : Prop where
  pos : b'.pos.toNat = if b.markerHit then b.pos.toNat else g.fetched k b.pos.toNat
  hit : b.markerHit = true → b'.markerHit = true ∧ b'.marker = b.marker
  stop : b'.markerHit = true → b.markerHit = true ∨ g.fetched 1 b'.pos.toNat = b'.pos.toNat

theorem Fetches.refl (g : Segment) (b : BitReader) : Fetches g b 0 b :=
  ⟨by simp [Segment.fetched], fun h => ⟨h, rfl⟩, fun h => .inl h⟩

theorem Fetches.trans {g : Segment} {a b c : BitReader} {j k : Nat} (h1 : Fetches g a j b) (h2 : Fetches g b k c) :
    Fetches g a (j + k) c := by
  refine ⟨?_, fun h => ?_, fun h => ?_⟩
  · have p1 := h1.pos
    have p2 := h2.pos
    by_cases ha : a.markerHit = true
    · rw [if_pos ha] at p1 ⊢
      rw [if_pos (h1.hit ha).1] at p2
      omega
    · rw [if_neg ha] at p1 ⊢
      rw [Segment.fetched_add, ← p1]
      by_cases hb : b.markerHit = true
      · rw [if_pos hb] at p2
        rcases h1.stop hb with x | x
        · exact absurd x ha
        · rw [g.fetched_stuck _ x, p2]
      · rw [if_neg hb] at p2; exact p2
  · obtain ⟨x, y⟩ := h1.hit h
    obtain ⟨z, w⟩ := h2.hit x
    exact ⟨z, w.trans y⟩
  · rcases h2.stop h with x | x
    · rcases h1.stop x with y | y
      · exact .inl y
      · right
        have p2 := h2.pos
        rw [if_pos x] at p2
        rw [p2]; exact y
    · exact .inr x

/-- Fetching depends on the position and the marker alone. -/
theorem Fetches.congr {g : Segment} {a a' b b' : BitReader} {k : Nat} (h : Fetches g a k b)
    (ha : a'.pos = a.pos ∧ a'.markerHit = a.markerHit ∧ a'.marker = a.marker)
    (hb : b'.pos = b.pos ∧ b'.markerHit = b.markerHit ∧ b'.marker = b.marker) : Fetches g a' k b' := by
  obtain ⟨a1, a2, a3⟩ := ha
  obtain ⟨b1, b2, b3⟩ := hb
  exact ⟨by rw [a1, a2, b1]; exact h.pos, by rw [a2, a3, b2, b3]; exact h.hit, by rw [a2, b1, b2]; exact h.stop⟩

/-- NextByte fetches one byte, or pads (40_bitreader.md R123). -/
theorem nextByte_fetches (g : Segment) (h : g.Still) (c c' : ReadCtx) (v : Byte) (hr : nextByte g c = .ok v c') :
    Fetches g c.br 1 c'.br ∧ c'.br.bitcnt = c.br.bitcnt := by
  rw [nextByte_still g h c] at hr
  have lt := g.len.isLt
  have mv : ∀ n, c.br.pos.toNat + n < 2 ^ 25 → (c.br.pos + BitVec.ofNat 25 n).toNat = c.br.pos.toNat + n := by
    intro n hn; simp only [BitVec.toNat_add, BitVec.toNat_ofNat]; omega
  by_cases hm : c.br.markerHit = true
  · rw [if_pos (.inl hm)] at hr
    simp only [padByte, ReadResult.ok.injEq] at hr
    obtain ⟨-, rfl⟩ := hr
    exact ⟨⟨by simp [hm], fun x => ⟨x, rfl⟩, fun _ => .inl hm⟩, rfl⟩
  · by_cases hp : g.len.toNat ≤ c.br.pos.toNat
    · rw [if_pos (.inr hp)] at hr
      simp only [padByte, ReadResult.ok.injEq] at hr
      obtain ⟨-, rfl⟩ := hr
      exact ⟨⟨by simp [hm, Segment.fetched, hp], fun x => ⟨x, rfl⟩, fun x => .inl x⟩, rfl⟩
    · rw [if_neg (by simp [hm, hp])] at hr
      by_cases hf : g.byte c.br.pos.toNat ≠ 0xFF#8
      · rw [if_pos hf] at hr
        simp only [advance, ReadResult.ok.injEq] at hr
        obtain ⟨-, rfl⟩ := hr
        refine ⟨⟨?_, fun x => absurd x hm, fun x => absurd x hm⟩, rfl⟩
        simp only [hm, Bool.false_eq_true, if_false, Segment.fetched]
        rw [if_neg hp, if_pos hf, mv 1 (by omega)]
      · rw [if_neg hf] at hr
        by_cases hl : g.len.toNat ≤ c.br.pos.toNat + 1
        · rw [if_pos hl] at hr; simp [Reader.raise] at hr
        · rw [if_neg hl] at hr
          simp only [afterFF] at hr
          by_cases hz : g.byte (c.br.pos.toNat + 1) = 0x00#8
          · rw [if_pos hz] at hr
            simp only [advance, ReadResult.ok.injEq] at hr
            obtain ⟨-, rfl⟩ := hr
            refine ⟨⟨?_, fun x => absurd x hm, fun x => absurd x hm⟩, rfl⟩
            simp only [hm, Bool.false_eq_true, if_false, Segment.fetched]
            rw [if_neg hp, if_neg hf, if_pos ⟨by omega, hz⟩, mv 2 (by omega)]
          · rw [if_neg hz] at hr
            split at hr
            · simp only [hitMarker, padByte, ReadResult.ok.injEq] at hr
              obtain ⟨-, rfl⟩ := hr
              have st : g.fetched 1 c.br.pos.toNat = c.br.pos.toNat := by
                simp only [Segment.fetched]
                rw [if_neg hp, if_neg hf, if_neg (fun x => hz x.2)]
              exact ⟨⟨by simp [hm, st], fun x => absurd x hm, fun _ => .inr st⟩, rfl⟩
            · simp [Reader.raise] at hr

/-- The fill loop fetches just the bytes that hold the bits it needs (40_bitreader.md R122). -/
theorem fillLoop_fetches (g : Segment) (h : g.Still) (n fuel : Nat) (c c' : ReadCtx) (hf : n ≤ c.br.bitcnt + 8 * fuel)
    (hr : fillLoop g n fuel c = .ok () c') :
    Fetches g c.br ((n - c.br.bitcnt + 7) / 8) c'.br ∧ c'.br.bitcnt = c.br.bitcnt + 8 * ((n - c.br.bitcnt + 7) / 8) := by
  induction fuel generalizing c with
  | zero =>
    simp only [fillLoop, Reader.ret, ReadResult.ok.injEq, true_and] at hr
    subst hr
    rw [show (n - c.br.bitcnt + 7) / 8 = 0 by omega]
    exact ⟨Fetches.refl _ _, rfl⟩
  | succ fuel ih =>
    simp only [fillLoop] at hr
    split at hr
    · obtain ⟨b, d, h1, h2⟩ := Reader.next_ok.1 hr
      obtain ⟨f1, e1⟩ := nextByte_fetches g h _ _ _ h1
      have h3 : append b d = .ok () { d with br := appended d.br b } := rfl
      rw [Reader.next_of_ok _ h3] at h2
      have e2 : (appended d.br b).bitcnt = c.br.bitcnt + 8 := by simp [e1]
      obtain ⟨f2, e3⟩ := ih _ (by show n ≤ (appended d.br b).bitcnt + 8 * fuel; omega) h2
      simp only at f2 e3
      have f3 := f1.trans (f2.congr (a' := d.br) (b' := c'.br) ⟨rfl, rfl, rfl⟩ ⟨rfl, rfl, rfl⟩)
      rw [show 1 + (n - (d.br.bitcnt + 8) + 7) / 8 = (n - c.br.bitcnt + 7) / 8 by omega] at f3
      exact ⟨f3, by omega⟩
    · simp only [ReadResult.ok.injEq, true_and] at hr
      subst hr
      rw [show (n - c.br.bitcnt + 7) / 8 = 0 by omega]
      exact ⟨Fetches.refl _ _, rfl⟩

theorem peek_fetches (g : Segment) (h : g.Still) (n : Nat) (hn : n ≤ 16) (c c' : ReadCtx) (v : Nat)
    (hr : peek g n c = .ok v c') :
    Fetches g c.br ((n - c.br.bitcnt + 7) / 8) c'.br ∧ c'.br.bitcnt = c.br.bitcnt + 8 * ((n - c.br.bitcnt + 7) / 8) := by
  unfold peek at hr
  split at hr
  · simp only [Reader.ret, ReadResult.ok.injEq] at hr
    obtain ⟨-, rfl⟩ := hr
    rw [show (n - c.br.bitcnt + 7) / 8 = 0 by omega]
    exact ⟨Fetches.refl _ _, rfl⟩
  · obtain ⟨u, d, h1, h2⟩ := Reader.next_ok.1 hr
    simp only [ReadResult.ok.injEq] at h2
    obtain ⟨-, rfl⟩ := h2
    exact fillLoop_fetches g h n 2 c d (by omega) h1

theorem consume_fetches (g : Segment) (h : g.Still) (n : Nat) (hn : n ≤ 16) (c c' : ReadCtx)
    (hr : consume g n c = .ok () c') :
    Fetches g c.br ((n - c.br.bitcnt + 7) / 8) c'.br ∧
      c'.br.bitcnt + n = c.br.bitcnt + 8 * ((n - c.br.bitcnt + 7) / 8) := by
  unfold consume at hr
  split at hr
  · simp only [Reader.ret, ReadResult.ok.injEq, true_and] at hr
    subst hr
    rw [show (n - c.br.bitcnt + 7) / 8 = 0 by omega]
    exact ⟨Fetches.refl _ _, by omega⟩
  · obtain ⟨u, d, h1, h2⟩ := Reader.next_ok.1 hr
    simp only [ReadResult.ok.injEq, true_and] at h2
    subst h2
    obtain ⟨f, e⟩ := fillLoop_fetches g h n 2 c d (by omega) h1
    exact ⟨f.congr ⟨rfl, rfl, rfl⟩ ⟨rfl, rfl, rfl⟩, by simp only [keepNewest]; omega⟩

/-! ## Reading exactly some bits -/

/-- Reading bits is reading some of them and then the rest. -/
theorem ReadsTo.trans {g : Segment} {a b c : BitReader} {n m : Nat} (h1 : ReadsTo g a n b) (h2 : ReadsTo g b m c) :
    ReadsTo g a (n + m) c := by
  have f1 : Fetches g a ((n - a.bitcnt + 7) / 8) b := ⟨h1.pos, h1.hit, h1.stop⟩
  have f2 : Fetches g b ((m - b.bitcnt + 7) / 8) c := ⟨h2.pos, h2.hit, h2.stop⟩
  have c1 := h1.cnt
  have c2 := h2.cnt
  have f := f1.trans f2
  rw [show (n - a.bitcnt + 7) / 8 + (m - b.bitcnt + 7) / 8 = (n + m - a.bitcnt + 7) / 8 by omega] at f
  obtain ⟨p, p1, p2, p3⟩ := h1.stream
  obtain ⟨q, q1, q2, q3⟩ := h2.stream
  rw [p3] at q1 q2 q3
  simp only [List.length_drop, List.length_append, List.length_replicate] at q1 q2
  refine ⟨h2.ok, by omega, f.pos, f.hit, f.stop, p + q, by omega, fun x => ?_, ?_⟩
  · have e1 := p2 (by omega)
    have e2 := q2 (by omega)
    omega
  · rw [q3, ← List.drop_append_of_le_length (by simp; omega), List.append_assoc, List.replicate_append_replicate,
      List.drop_drop]

theorem ReadsTo.refl (g : Segment) (b : BitReader) (h : b.Ok) : ReadsTo g b 0 b :=
  ⟨h, by omega, by simp [posAfter, Segment.fetched], fun x => ⟨x, rfl⟩, fun x => .inl x, 0, by omega, fun _ => rfl,
    by simp⟩

/-- Consume reads exactly the bits asked for. -/
theorem consume_readsTo (g : Segment) (h : g.Still) (n : Nat) (hn : n ≤ 16) (c c' : ReadCtx) (hb : c.br.Ok)
    (hr : consume g n c = .ok () c') : ReadsTo g c.br n c'.br := by
  obtain ⟨f, e⟩ := consume_fetches g h n hn c c' hr
  obtain ⟨l, err, hl⟩ : ∃ l err, ahead g c.br = (l, err) := ⟨_, _, rfl⟩
  have k := consume_ahead g h n hn c hb l err hl
  by_cases hc : n ≤ l.length ∨ err = none
  · obtain ⟨br, p, k1, k2, k3, k4, k5⟩ := k.1 hc
    rw [hr] at k1
    simp only [ReadResult.ok.injEq, true_and] at k1
    subst k1
    exact ⟨k5, e, f.pos, f.hit, f.stop, p, by rw [hl]; exact k2, by rw [hl]; exact k4, by rw [hl]; exact k3⟩
  · exfalso
    simp only [not_or] at hc
    obtain ⟨⟨q, info⟩, hq⟩ := Option.ne_none_iff_exists'.1 hc.2
    obtain ⟨d, k1, -⟩ := k.2 q info hq (by omega)
    rw [hr] at k1; simp at k1

/-- Take reads exactly the bits asked for. -/
theorem take_readsTo (g : Segment) (h : g.Still) (n : Nat) (hn : n ≤ 16) (c c' : ReadCtx) (v : Nat) (hb : c.br.Ok)
    (hr : take g n c = .ok v c') : ReadsTo g c.br n c'.br := by
  obtain ⟨l, err, hl⟩ : ∃ l err, ahead g c.br = (l, err) := ⟨_, _, rfl⟩
  have k := take_ahead g h n hn c hb l err hl
  obtain ⟨w, d, h1, h2⟩ := Reader.next_ok.1 hr
  obtain ⟨u, d', h3, h4⟩ := Reader.next_ok.1 h2
  simp only [Reader.ret, ReadResult.ok.injEq] at h4
  obtain ⟨rfl, rfl⟩ := h4
  obtain ⟨f1, e1⟩ := peek_fetches g h n hn _ _ _ h1
  obtain ⟨f2, e2⟩ := consume_fetches g h n hn _ _ h3
  have f := f1.trans f2
  rw [show (n - d.br.bitcnt + 7) / 8 = 0 by omega] at e2 f
  by_cases hc : n ≤ l.length ∨ err = none
  · obtain ⟨br, p, k1, k2, k3, k4, k5⟩ := k.1 hc
    rw [hr] at k1
    simp only [ReadResult.ok.injEq] at k1
    obtain ⟨-, rfl⟩ := k1
    exact ⟨k5, by simp only at e2 ⊢; omega, f.pos, f.hit, f.stop, p, by rw [hl]; exact k2, by rw [hl]; exact k4,
      by rw [hl]; exact k3⟩
  · exfalso
    simp only [not_or] at hc
    obtain ⟨⟨q, info⟩, hq⟩ := Option.ne_none_iff_exists'.1 hc.2
    obtain ⟨d, k1, -⟩ := k.2 q info hq (by omega)
    rw [hr] at k1; simp at k1

end Sys2Proof.Machine
end

