-- ==== Sys2Proof/Laws/Vector.lean ====
section
/-! SUPPORT. The entries of the list-backed vectors, and the search for the first bad entry. -/

namespace Sys2Proof

@[simp] theorem vecOfFn_getElem {α : Type} {n : Nat} (f : Fin n → α) (k : Nat) (h : k < n) :
    (vecOfFn f)[k] = f ⟨k, h⟩ := by simp [vecOfFn]

@[simp] theorem vecMap_getElem {α β : Type} {n : Nat} (f : α → β) (v : Vector α n) (k : Nat) (h : k < n) :
    (vecMap f v)[k] = f v[k] := by simp [vecMap]

@[simp] theorem vecOfFn_toList {α : Type} {n : Nat} (f : Fin n → α) : (vecOfFn f).toList = List.ofFn f := by
  simp [vecOfFn, Vector.toList]

@[simp] theorem vecMap_toList {α β : Type} {n : Nat} (f : α → β) (v : Vector α n) :
    (vecMap f v).toList = v.toList.map f := by
  simp [vecMap, Vector.toList]

/-- Reading an entry by `getD` is reading it by index. -/
theorem vec_getD {α : Type} {n : Nat} (v : Vector α n) (k : Nat) (d : α) (h : k < n) : v.toList.getD k d = v[k] := by
  simp [List.getD, h]

theorem vec_ext_getD {α : Type} {n : Nat} (v w : Vector α n) (d : α)
    (h : ∀ k, k < n → v.toList.getD k d = w.toList.getD k d) : v = w := by
  apply Vector.ext
  intro i hi
  have := h i hi
  rwa [vec_getD v i d hi, vec_getD w i d hi] at this

namespace Machine

/-- A 4-bit field that holds a 2-bit id is in range. -/
@[simp] theorem idOf_setWidth (t : BitVec 2) : idOf (t.setWidth 4) = some t := by revert t; decide

theorem idOf_eq_some (v : BitVec 4) (t : BitVec 2) : idOf v = some t ↔ v = t.setWidth 4 := by revert v t; decide

theorem idOf_eq_none (v : BitVec 4) : idOf v = none ↔ 3 < v.toNat := by revert v; decide

@[simp] theorem classOf_code (c : HuffClass) : classOf c.code = some c := by cases c <;> rfl

theorem classOf_eq_some (v : BitVec 4) (c : HuffClass) : classOf v = some c ↔ v = c.code := by
  cases c <;> (revert v; decide)

theorem classOf_eq_none (v : BitVec 4) : classOf v = none ↔ 1 < v.toNat := by revert v; decide

/-- No bad entry is reported exactly when there is none. -/
theorem firstBad_eq_none {α : Type} (bad : α → Bool) (v : Vector α 64) :
    firstBad bad v = none ↔ ∀ k : Fin 64, bad v[k] = false := by
  simp only [firstBad, Option.map_eq_none_iff, List.findIdx?_eq_none_iff]
  constructor
  · intro h k; exact h _ (by simp)
  · intro h x hx
    rw [Vector.mem_toList_iff, Vector.mem_iff_getElem] at hx
    obtain ⟨i, hi, rfl⟩ := hx
    exact h ⟨i, hi⟩

/-- The bad entry reported is the first one. -/
theorem firstBad_eq_some {α : Type} (bad : α → Bool) (v : Vector α 64) (i : BitVec 6) :
    firstBad bad v = some i ↔
      bad (v[i.toNat]'i.isLt) = true ∧ ∀ j : Fin 64, j.val < i.toNat → bad v[j] = false := by
  simp only [firstBad, Option.map_eq_some_iff, List.findIdx?_eq_some_iff_getElem]
  constructor
  · rintro ⟨k, ⟨hk, hb, hl⟩, rfl⟩
    have hk' : k < 64 := by simpa using hk
    have e : (BitVec.ofNat 6 k).toNat = k := by simp; omega
    refine ⟨by simpa [e] using hb, fun j hj => ?_⟩
    rw [e] at hj
    simpa using hl j.val hj
  · rintro ⟨hb, hl⟩
    refine ⟨i.toNat, ⟨by simpa using i.isLt, by simpa using hb, fun j hj => ?_⟩, by simp⟩
    have := hl ⟨j, by omega⟩ hj
    simpa using this

end Machine

end Sys2Proof
end

