-- ==== Sys2Proof/Laws/Huffman.lean ====
section
/-! SUPPORT. Canonical Huffman codes: the code counter, the codes and lengths it gives, and what the array decode does on a
stream of bits. -/

namespace Sys2Proof.Machine

/-! ## The code counter (41_huffman.md R161) -/

/-- The code counter at the start of the length at index `i`. -/
def codeCounter (code : Nat) : List Nat → Nat → Nat
  | _, 0 => code
  | [], i + 1 => codeCounter (2 * code) [] i
  | n :: rest, i + 1 => codeCounter (2 * (code + n)) rest i

@[simp] theorem codeCounter_zero (code : Nat) (ns : List Nat) : codeCounter code ns 0 = code := by cases ns <;> rfl

theorem codeCounter_succ (code : Nat) (ns : List Nat) (i : Nat) :
    codeCounter code ns (i + 1) = 2 * (codeCounter code ns i + ns.getD i 0) := by
  induction i generalizing code ns with
  | zero => cases ns <;> simp [codeCounter]
  | succ i ih =>
    cases ns with
    | nil => rw [codeCounter, ih, codeCounter]; simp
    | cons n rest => rw [codeCounter, ih, codeCounter]; simp

theorem genSizes_length (len : Nat) (ns : List Nat) : (genSizes len ns).length = ns.sum := by
  induction ns generalizing len with
  | nil => rfl
  | cons n rest ih => simp [genSizes, ih]

theorem genCodes_length (code : Nat) (ns : List Nat) : (genCodes code ns).length = ns.sum := by
  induction ns generalizing code with
  | nil => rfl
  | cons n rest ih => simp [genCodes, ih]

theorem genSizes_getD (len : Nat) (ns : List Nat) (i j : Nat) (hi : i < ns.length) (hj : j < ns.getD i 0) :
    (genSizes len ns).getD ((ns.take i).sum + j) 0 = len + i := by
  induction ns generalizing len i with
  | nil => simp at hi
  | cons n rest ih =>
    cases i with
    | zero =>
      simp at hj
      simp [genSizes, List.getElem?_append_left, hj]
    | succ i =>
      have h := ih (len + 1) i (by simpa using hi) (by simpa using hj)
      simp only [genSizes, List.take_succ_cons, List.sum_cons]
      simp only [List.getD] at h ⊢
      rw [List.getElem?_append_right (by simp; omega), List.length_replicate]
      rw [show n + (rest.take i).sum + j - n = (rest.take i).sum + j by omega, h]; omega

theorem genCodes_getD (code : Nat) (ns : List Nat) (i j : Nat) (hi : i < ns.length) (hj : j < ns.getD i 0) :
    (genCodes code ns).getD ((ns.take i).sum + j) 0 = BitVec.ofNat 24 (codeCounter code ns i + j) := by
  induction ns generalizing code i with
  | nil => simp at hi
  | cons n rest ih =>
    cases i with
    | zero =>
      simp at hj
      simp [genCodes, List.getElem?_append_left, hj]
    | succ i =>
      have h := ih (2 * (code + n)) i (by simpa using hi) (by simpa using hj)
      simp only [genCodes, List.take_succ_cons, List.sum_cons, codeCounter]
      simp only [List.getD] at h ⊢
      rw [List.getElem?_append_right (by simp; omega)]
      simp only [List.length_map, List.length_range]
      rw [show n + (rest.take i).sum + j - n = (rest.take i).sum + j by omega, h]

/-- Every code number belongs to one length. -/
theorem index_split (ns : List Nat) (k : Nat) (h : k < ns.sum) :
    ∃ i j, i < ns.length ∧ j < ns.getD i 0 ∧ k = (ns.take i).sum + j := by
  induction ns generalizing k with
  | nil => simp at h
  | cons n rest ih =>
    by_cases hk : k < n
    · exact ⟨0, k, by simp, by simpa using hk, by simp⟩
    · obtain ⟨i, j, h1, h2, h3⟩ := ih (k - n) (by simp at h; omega)
      exact ⟨i + 1, j, by simpa using h1, by simpa using h2, by simp; omega⟩

theorem codeCounter_le (ns : List Nat) (i : Nat) : codeCounter 0 ns i ≤ 2 ^ i * (ns.take i).sum := by
  induction i with
  | zero => simp
  | succ i ih =>
    rw [codeCounter_succ]
    have e : (ns.take (i + 1)).sum = (ns.take i).sum + ns.getD i 0 := by
      rw [List.take_add_one]
      cases h : ns[i]? <;> simp [h]
    rw [e, Nat.pow_succ]
    have : ns.getD i 0 ≤ 2 ^ i * ns.getD i 0 := Nat.le_mul_of_pos_left _ (by positivity)
    nlinarith

theorem sum_take_le (ns : List Nat) (i : Nat) : (ns.take i).sum ≤ ns.sum := by
  have := congrArg List.sum (List.take_append_drop i ns)
  rw [List.sum_append] at this; omega

theorem getD_le_sum (ns : List Nat) (i : Nat) : (ns.take i).sum + ns.getD i 0 ≤ ns.sum := by
  have e : (ns.take (i + 1)).sum = (ns.take i).sum + ns.getD i 0 := by
    rw [List.take_add_one]
    cases h : ns[i]? <;> simp [h]
  rw [← e]; exact sum_take_le ns (i + 1)

/-- No code is cut off by its 24 bits (10_state.md R25). -/
theorem codeCounter_bound (ns : List Nat) (i : Nat) (hi : i < 16) (hs : ns.sum ≤ 256) :
    codeCounter 0 ns i + ns.getD i 0 < 2 ^ 24 := by
  have h1 := codeCounter_le ns i
  have h2 := getD_le_sum ns i
  have h3 : 2 ^ i ≤ 2 ^ 15 := Nat.pow_le_pow_right (by decide) (by omega)
  have h4 : 2 ^ i * (ns.take i).sum ≤ 2 ^ 15 * 256 := Nat.mul_le_mul h3 (by omega)
  omega

/-- A later length starts past every code of an earlier one. -/
theorem codeCounter_mono (code : Nat) (ns : List Nat) (i d : Nat) :
    (codeCounter code ns i + ns.getD i 0) * 2 ^ (d + 1) ≤ codeCounter code ns (i + d + 1) := by
  induction d with
  | zero => rw [codeCounter_succ]; simp; omega
  | succ d ih =>
    rw [show i + (d + 1) + 1 = (i + d + 1) + 1 by omega, codeCounter_succ, Nat.pow_succ]
    nlinarith

/-! ## A loaded table -/

/-- The decode-table entries HT_INIT derives are those of 41_huffman.md R162. -/
theorem lenRow_ok (codes : List (BitVec 24)) (k n d : Nat) : (lenRow codes k n d).Ok codes k n := by
  unfold LenRow.Ok lenRow
  split
  · rfl
  · rfl

theorem genRows_ok (bits : Vector Byte 16) (codes : List (BitVec 24)) (d : Nat) (l : Fin 16) :
    ((genRows bits codes d)[l]).Ok codes ((countList bits).take l.val).sum ((countList bits).getD l.val 0) := by
  simp only [genRows, Fin.getElem_fin, vecOfFn_getElem]
  exact lenRow_ok _ _ _ _

/-- The table HT_INIT builds is a loaded table (41_huffman.md R160-R162). -/
theorem HuffTable.build_ok (old : HuffTable) (bits : Vector Byte 16) (d : Nat) (h : (countList bits).sum ≤ 256) :
    (old.build bits d).Ok :=
  fun _ => ⟨rfl, h, Nat.zero_le _, rfl, rfl, genRows_ok bits _ d, fun k hk => absurd hk (Nat.not_lt_zero k)⟩

/-- The counts of a table have one entry for each of the 16 lengths. -/
@[simp] theorem countList_length (b : Vector Byte 16) : (countList b).length = 16 := by simp [countList]

/-- Where value number `k` of a loaded table stands: the index of its length, and its place in that length. -/
theorem HuffTable.Ok.place {t : HuffTable} (h : t.Ok) (hv : t.valid = true) (k : Nat) (hk : k < t.nval) :
    ∃ i j, i < 16 ∧ j < (countList t.bits).getD i 0 ∧ k = ((countList t.bits).take i).sum + j ∧ t.size k = i + 1 ∧
      (t.huffcode.getD k 0).toNat = codeCounter 0 (countList t.bits) i + j := by
  obtain ⟨h1, h2, h3, h4, h5, h6, h7⟩ := h hv
  obtain ⟨i, j, hi, hj, rfl⟩ := index_split (countList t.bits) k (by omega)
  have hi' : i < 16 := by simpa using hi
  refine ⟨i, j, hi', hj, rfl, ?_, ?_⟩
  · rw [HuffTable.size, h4, genSizes_getD 1 _ i j hi hj]; omega
  · rw [h5, genCodes_getD 0 _ i j hi hj, BitVec.toNat_ofNat]
    have := codeCounter_bound (countList t.bits) i hi' (by omega)
    exact Nat.mod_eq_of_lt (by omega)

/-- The decode row of a length of a loaded table (41_huffman.md R162). -/
theorem HuffTable.Ok.row {t : HuffTable} (h : t.Ok) (hv : t.valid = true) (i : Nat) (hi : i < 16) :
    let n := (countList t.bits).getD i 0
    let row := t.rows.toList.getD i { mincode := 0, maxcode := none, valptr := 0 }
    (n = 0 → row.maxcode = none) ∧
    (n ≠ 0 → row.valptr = ((countList t.bits).take i).sum ∧ row.mincode.toNat = codeCounter 0 (countList t.bits) i ∧
      ∃ m, row.maxcode = some m ∧ m.toNat = codeCounter 0 (countList t.bits) i + n - 1) := by
  obtain ⟨h1, h2, h3, h4, h5, h6, h7⟩ := h hv
  intro n row
  have hr : row.Ok t.huffcode ((countList t.bits).take i).sum n := by
    have : row = t.rows[i] := vec_getD _ _ _ hi
    rw [this]
    exact h6 ⟨i, hi⟩
  have hb := codeCounter_bound (countList t.bits) i hi (by omega)
  constructor
  · intro hn; rwa [LenRow.Ok, if_pos hn] at hr
  · intro hn
    have c0 := genCodes_getD 0 (countList t.bits) i 0 (by simpa using hi) (by omega)
    have c1 := genCodes_getD 0 (countList t.bits) i (n - 1) (by simpa using hi) (by omega)
    rw [LenRow.Ok, if_neg hn] at hr
    rw [hr]
    refine ⟨rfl, ?_, _, rfl, ?_⟩
    · rw [h5]; simp only [Nat.add_zero] at c0; rw [c0, BitVec.toNat_ofNat]; exact Nat.mod_eq_of_lt (by omega)
    · rw [h5, show ((countList t.bits).take i).sum + n - 1 = ((countList t.bits).take i).sum + (n - 1) by omega, c1,
        BitVec.toNat_ofNat, Nat.mod_eq_of_lt (by omega)]
      omega

/-- A length with no code has no decode row. -/
theorem HuffTable.Ok.row_none {t : HuffTable} (h : t.Ok) (hv : t.valid = true) (i : Nat) (hi : i < 16)
    (hn : (countList t.bits).getD i 0 = 0) :
    (t.rows.toList.getD i { mincode := 0, maxcode := none, valptr := 0 }).maxcode = none := (h.row hv i hi).1 hn

/-- The decode row of a length with codes. -/
theorem HuffTable.Ok.row_some {t : HuffTable} (h : t.Ok) (hv : t.valid = true) (i : Nat) (hi : i < 16)
    (hn : (countList t.bits).getD i 0 ≠ 0) :
    let row := t.rows.toList.getD i { mincode := 0, maxcode := none, valptr := 0 }
    row.valptr = ((countList t.bits).take i).sum ∧ row.mincode.toNat = codeCounter 0 (countList t.bits) i ∧
      ∃ m, row.maxcode = some m ∧ m.toNat = codeCounter 0 (countList t.bits) i + (countList t.bits).getD i 0 - 1 :=
  (h.row hv i hi).2 hn

/-! ## The array decode -/

/-- One bit of a stream with its pad bits. -/
theorem padTo_succ (n : Nat) (l : List Bool) : padTo (n + 1) l = l.getD 0 true :: padTo n (l.drop 1) := by
  cases l with
  | nil => simp [padTo, List.replicate_succ]
  | cons b l =>
    simp only [padTo, List.cons_append, List.take_succ_cons, List.getD_cons_zero, List.drop_one, List.tail_cons]
    congr 1
    have := padTo_append n (n + 1) l (by omega)
    rw [padTo] at this; exact this.symm

theorem padTo_drop_pads (n p : Nat) (l : List Bool) (h : 1 ≤ l.length + p) :
    padTo n ((l ++ List.replicate p true).drop 1) = padTo n (l.drop 1) := by
  cases l with
  | nil =>
    simp only [List.nil_append, List.drop_replicate, padTo, List.drop_nil, List.replicate_append_replicate, List.take_replicate]
    congr 1; omega
  | cons b l =>
    simp only [List.cons_append, List.drop_one, List.tail_cons, padTo, List.append_assoc, List.replicate_append_replicate]
    have h1 := padTo_append n (p + n) l (by omega)
    rw [← h1, padTo]

/-- Reading one bit of the stream. -/
theorem nextBit_ahead (g : Segment) (h : g.Still) (c : ReadCtx) (hb : c.br.Ok) (l : List Bool)
    (e : Option (Nat × Word)) (ha : ahead g c.br = (l, e)) :
    ((1 ≤ l.length ∨ e = none) →
      ∃ br p, nextBit g c = .ok (l.getD 0 true).toNat { c with br := br } ∧ 1 ≤ l.length + p ∧
        ahead g br = ((l ++ List.replicate p true).drop 1, e) ∧ (1 ≤ l.length → p = 0) ∧ br.Ok) ∧
    (∀ q info, e = some (q, info) → l.length < 1 →
      ∃ c', nextBit g c = .err ⟨.bitstreamMarker, info, BitVec.ofNat 25 q⟩ c' ∧ c'.draws = c.draws) := by
  have k := take_ahead g h 1 (by decide) c hb l e ha
  refine ⟨fun hc => ?_, k.2⟩
  obtain ⟨br, p, h1, h2⟩ := k.1 hc
  refine ⟨br, p, ?_, h2⟩
  have : bitsToNat (padTo 1 l) = (l.getD 0 true).toNat := by
    rw [padTo_succ]; simp [padTo, bitsToNat]
  rw [nextBit, h1, this]

/-- Reading one bit reads exactly one. -/
theorem nextBit_readsTo (g : Segment) (h : g.Still) (c c' : ReadCtx) (v : Nat) (hb : c.br.Ok)
    (hr : nextBit g c = .ok v c') : ReadsTo g c.br 1 c'.br := take_readsTo g h 1 (by decide) c c' v hb hr

/-- Reading one bit fails before it changes anything. -/
theorem nextBit_err_same (g : Segment) (h : g.Still) (c c' : ReadCtx) (e : Raise) (hr : nextBit g c = .err e c') :
    c' = c := by
  have fl : ∀ d d' e', fill g 1 d = .err e' d' → d' = d ∧ d.br.bitcnt < 1 := by
    intro d d' e' hf
    simp only [fill, fillLoop] at hf
    split at hf
    · rename_i hlt
      rcases Reader.next_err.1 hf with h1 | ⟨v, d1, h1, h2⟩
      · rw [nextByte_still g h d] at h1
        refine ⟨?_, hlt⟩
        split at h1
        · simp [padByte] at h1
        · split at h1
          · simp [advance] at h1
          · split at h1
            · simp only [Reader.raise, ReadResult.err.injEq] at h1; exact h1.2.symm
            · simp only [afterFF] at h1
              split at h1
              · simp [advance] at h1
              · split at h1
                · simp [hitMarker, padByte] at h1
                · simp only [Reader.raise, ReadResult.err.injEq] at h1; exact h1.2.symm
      · exfalso
        have h3 : append v d1 = .ok () { d1 with br := appended d1.br v } := rfl
        rw [Reader.next_of_ok _ h3] at h2
        simp only at h2
        rw [if_neg (by omega)] at h2
        simp at h2
    · simp at hf
  rcases Reader.next_err.1 hr with h1 | ⟨v, d, h1, h2⟩
  · rw [peek, if_neg (by decide)] at h1
    rcases Reader.next_err.1 h1 with h1 | ⟨v, d, -, h1⟩
    · exact (fl _ _ _ h1).1
    · simp at h1
  · exfalso
    obtain ⟨-, e1⟩ := peek_fetches g h 1 (by decide) _ _ _ h1
    rcases Reader.next_err.1 h2 with h2 | ⟨u, d', -, h2⟩
    · rw [consume, if_neg (by decide)] at h2
      rcases Reader.next_err.1 h2 with h2 | ⟨u, d', -, h2⟩
      · have := (fl _ _ _ h2).2; omega
      · simp at h2
    · simp [Reader.ret] at h2

/-- A bit read is 0 or 1. -/
theorem nextBit_lt (g : Segment) (c c' : ReadCtx) (v : Nat) (h : nextBit g c = .ok v c') : v < 2 := by
  obtain ⟨w, d, h1, h2⟩ := Reader.next_ok.1 h
  obtain ⟨u, d', h3, h4⟩ := Reader.next_ok.1 h2
  simp only [Reader.ret, ReadResult.ok.injEq] at h4
  rw [← h4.1]
  rw [peek, if_neg (by decide)] at h1
  obtain ⟨u, d', h5, h6⟩ := Reader.next_ok.1 h1
  simp only [ReadResult.ok.injEq] at h6
  rw [← h6.1, oldest]
  exact Nat.mod_lt _ (by decide)

/-- The last bits of a number, one bit at a time. -/
theorem head_bit (n code : Nat) (l : List Bool) (h : padTo (n + 1) l = bitsMsb (n + 1) code) :
    (l.getD 0 true).toNat = code / 2 ^ n % 2 ∧ padTo n (l.drop 1) = bitsMsb n code := by
  rw [padTo_succ, show n + 1 = 1 + n by omega, bitsMsb_add] at h
  have : bitsMsb 1 (code / 2 ^ n) = [(code / 2 ^ n).testBit 0] := rfl
  rw [this] at h
  simp only [List.cons_append, List.nil_append, List.cons.injEq] at h
  refine ⟨?_, h.2⟩
  rw [h.1, Nat.testBit_zero]
  rcases Nat.mod_two_eq_zero_or_one (code / 2 ^ n) with h | h <;> simp [h]

/-- The bit loop finds the inserted code the stream begins with, and consumes exactly its bits: a code is above every code
of each shorter length (41_huffman.md R171). -/
theorem decodeLoop_finds (g : Segment) (h : g.Still) (c : HuffClass) (t : BitVec 2) (tab : HuffTable) (hv : tab.valid = true)
    (ho : tab.Ok) (k : Nat) (hk : k < tab.nins) (left i code : Nat) (hl : i + left = 16) (hi : i < tab.size k)
    (hc : code = (tab.huffcode.getD k 0).toNat / 2 ^ (tab.size k - i)) (ctx : ReadCtx) (hb : ctx.br.Ok) (l : List Bool)
    (e : Option (Nat × Word)) (ha : ahead g ctx.br = (l, e))
    (hp : padTo (tab.size k - i) l = bitsMsb (tab.size k - i) (tab.huffcode.getD k 0).toNat)
    (hn : tab.size k - i ≤ l.length ∨ e = none) :
    ∃ br p, decodeLoop g c t tab left i code ctx = .ok (tab.value k) { ctx with br := br } ∧
      tab.size k - i ≤ l.length + p ∧ ahead g br = ((l ++ List.replicate p true).drop (tab.size k - i), e) ∧
      (tab.size k - i ≤ l.length → p = 0) ∧ br.Ok ∧ ReadsTo g ctx.br (tab.size k - i) br := by
  have hnv : k < tab.nval := by have := (ho hv).2.2.1; omega
  obtain ⟨ik, jk, q1, q2, q3, q4, q5⟩ := ho.place hv k hnv
  induction left generalizing i code ctx l with
  | zero => omega
  | succ left ih =>
    obtain ⟨m, hm⟩ : ∃ m, tab.size k - i = m + 1 := ⟨tab.size k - i - 1, by omega⟩
    rw [hm] at hp hn hc ⊢
    obtain ⟨b1, b2⟩ := head_bit m _ l hp
    obtain ⟨br, p, r1, r2, r3, r4, r5⟩ := (nextBit_ahead g h ctx hb l e ha).1 (hn.imp (fun x => by omega) id)
    have rd := nextBit_readsTo g h ctx _ _ hb r1
    simp only [decodeLoop]
    rw [Reader.next_of_ok _ r1]
    have hcode : 2 * code + (l.getD 0 true).toNat = (tab.huffcode.getD k 0).toNat / 2 ^ m := by
      rw [b1, hc, Nat.pow_succ, ← Nat.div_div_eq_div_mul]; omega
    simp only [hcode]
    have hi16 : i < 16 := by omega
    by_cases hm0 : m = 0
    · -- the last bit: the code matches at its own length
      subst hm0
      have hii : i = ik := by omega
      subst hii
      have hnz : (countList tab.bits).getD i 0 ≠ 0 := by omega
      obtain ⟨w1, w2, mx, w3, w4⟩ := ho.row_some hv i hi16 hnz
      have hle : codeCounter 0 (countList tab.bits) i + jk ≤ mx.toNat := by omega
      have hj : ((countList tab.bits).take i).sum + (codeCounter 0 (countList tab.bits) i + jk) -
          codeCounter 0 (countList tab.bits) i = k := by omega
      have hnk : ¬tab.nins ≤ k := by omega
      simp only [w3, Nat.pow_zero, Nat.div_one]
      rw [q5, if_pos hle, w1, w2, hj, if_neg hnk]
      exact ⟨br, p, rfl, by omega, r3, fun x => r4 (by omega), r5, rd⟩
    · -- not yet: the bits read so far are above every code of this length
      have big : codeCounter 0 (countList tab.bits) i + (countList tab.bits).getD i 0 ≤
          (tab.huffcode.getD k 0).toNat / 2 ^ m := by
        rw [Nat.le_div_iff_mul_le (by positivity)]
        have := codeCounter_mono 0 (countList tab.bits) i (m - 1)
        rw [show m - 1 + 1 = m by omega, show i + (m - 1) + 1 = ik by omega] at this
        omega
      have key := ih (i + 1) ((tab.huffcode.getD k 0).toNat / 2 ^ m) (by omega) (by omega)
        (by congr 2; omega) { ctx with br := br } r5 ((l ++ List.replicate p true).drop 1) r3
        (by rw [show tab.size k - (i + 1) = m by omega, padTo_drop_pads m p l r2, b2])
        (by rcases hn with hn | hn
            · left; simp; omega
            · exact .inr hn)
      rw [show tab.size k - (i + 1) = m by omega] at key
      obtain ⟨br', p', s1, s2, s3, s4, s5, s6⟩ := key
      have goal : ∃ br0 p0, decodeLoop g c t tab left (i + 1) ((tab.huffcode.getD k 0).toNat / 2 ^ m) { ctx with br := br } =
            .ok (tab.value k) { ctx with br := br0 } ∧
          m + 1 ≤ l.length + p0 ∧ ahead g br0 = ((l ++ List.replicate p0 true).drop (m + 1), e) ∧
          (m + 1 ≤ l.length → p0 = 0) ∧ br0.Ok ∧ ReadsTo g ctx.br (m + 1) br0 := by
        refine ⟨br', p + p', s1, ?_, ?_, ?_, s5, Nat.add_comm 1 m ▸ rd.trans s6⟩
        · simp at s2; omega
        · rw [s3]
          congr 1
          rw [← List.drop_append_of_le_length (by simp; omega), List.append_assoc, List.replicate_append_replicate,
            List.drop_drop, Nat.add_comm]
        · intro x
          have e1 := r4 (by omega)
          have e2 := s4 (by simp; omega)
          omega
      by_cases hz : (countList tab.bits).getD i 0 = 0
      · have w := ho.row_none hv i hi16 hz
        simp only [w]; exact goal
      · obtain ⟨w1, w2, mx, w3, w4⟩ := ho.row_some hv i hi16 hz
        have hgt : ¬(tab.huffcode.getD k 0).toNat / 2 ^ m ≤ mx.toNat := by omega
        simp only [w3]
        rw [if_neg hgt]
        exact goal

/-- The array decode finds the inserted code the stream begins with. -/
theorem huffDecodeArray_finds (g : Segment) (h : g.Still) (c : HuffClass) (t : BitVec 2) (tab : HuffTable)
    (hv : tab.valid = true) (ho : tab.Ok) (k : Nat) (hk : k < tab.nins) (ctx : ReadCtx) (hb : ctx.br.Ok) (l : List Bool)
    (e : Option (Nat × Word)) (ha : ahead g ctx.br = (l, e)) (hp : padTo (tab.size k) l = tab.codeBits k)
    (hn : tab.size k ≤ l.length ∨ e = none) :
    ∃ br p, huffDecodeArray g c t tab ctx = .ok (tab.value k) { ctx with br := br } ∧ tab.size k ≤ l.length + p ∧
      ahead g br = ((l ++ List.replicate p true).drop (tab.size k), e) ∧ (tab.size k ≤ l.length → p = 0) ∧ br.Ok ∧ ReadsTo g ctx.br (tab.size k) br := by
  have hnv : k < tab.nval := by have := (ho hv).2.2.1; omega
  obtain ⟨ik, jk, q1, q2, q3, q4, q5⟩ := ho.place hv k hnv
  have fits := (ho hv).2.2.2.2.2.2 k hk
  refine decodeLoop_finds g h c t tab hv ho k hk 16 0 0 rfl (by omega) ?_ ctx hb l e ha hp hn
  rw [Nat.sub_zero, Nat.div_eq_of_lt]
  exact fits

/-- What the bit loop returns is an inserted value of a length not yet passed, at most 16 (41_huffman.md R173); and with no
segment write in flight it has consumed that value's code. -/
theorem decodeLoop_sound (g : Segment) (c : HuffClass) (t : BitVec 2) (tab : HuffTable) (hv : tab.valid = true)
    (ho : tab.Ok) (left i code : Nat) (hl : i + left = 16) (hc : codeCounter 0 (countList tab.bits) i ≤ 2 * code)
    (ctx ctx' : ReadCtx) (v : Byte) (hd : decodeLoop g c t tab left i code ctx = .ok v ctx') :
    ∃ k, k < tab.nins ∧ v = tab.value k ∧ i < tab.size k ∧ tab.size k ≤ 16 ∧
      (tab.huffcode.getD k 0).toNat / 2 ^ (tab.size k - i) = code ∧
      (g.Still → ctx.br.Ok → ∀ l e, ahead g ctx.br = (l, e) →
        padTo (tab.size k - i) l = bitsMsb (tab.size k - i) (tab.huffcode.getD k 0).toNat ∧
        ∃ p, ahead g ctx'.br = ((l ++ List.replicate p true).drop (tab.size k - i), e) ∧
          tab.size k - i ≤ l.length + p) := by
  induction left generalizing i code ctx with
  | zero => simp [decodeLoop, Reader.raise] at hd
  | succ left ih =>
    simp only [decodeLoop] at hd
    obtain ⟨b, d, h1, h2⟩ := Reader.next_ok.1 hd
    have hb2 := nextBit_lt g _ _ _ h1
    have okd : ctx.br.Ok → d.br.Ok := fun x => ((take_kept g 1 (by decide) ctx).1 _ _ h1).2 x
    have hi16 : i < 16 := by omega
    have step : ∀ (k : Nat), i + 1 ≤ tab.size k →
        (tab.huffcode.getD k 0).toNat / 2 ^ (tab.size k - (i + 1)) = 2 * code + b →
        (g.Still → d.br.Ok → ∀ l e, ahead g d.br = (l, e) →
          padTo (tab.size k - (i + 1)) l = bitsMsb (tab.size k - (i + 1)) (tab.huffcode.getD k 0).toNat ∧
          ∃ p, ahead g ctx'.br = ((l ++ List.replicate p true).drop (tab.size k - (i + 1)), e) ∧
            tab.size k - (i + 1) ≤ l.length + p) →
        (tab.huffcode.getD k 0).toNat / 2 ^ (tab.size k - i) = code ∧
        (g.Still → ctx.br.Ok → ∀ l e, ahead g ctx.br = (l, e) →
          padTo (tab.size k - i) l = bitsMsb (tab.size k - i) (tab.huffcode.getD k 0).toNat ∧
          ∃ p, ahead g ctx'.br = ((l ++ List.replicate p true).drop (tab.size k - i), e) ∧
            tab.size k - i ≤ l.length + p) := by
      intro k hk hq hs
      obtain ⟨m, hm⟩ : ∃ m, tab.size k - i = m + 1 := ⟨tab.size k - i - 1, by omega⟩
      rw [show tab.size k - (i + 1) = m by omega] at hq hs
      rw [hm]
      refine ⟨by rw [Nat.pow_succ, ← Nat.div_div_eq_div_mul, hq]; omega, fun hg ho' l e ha => ?_⟩
      have nb := nextBit_ahead g hg ctx ho' l e ha
      by_cases hne : 1 ≤ l.length ∨ e = none
      · obtain ⟨br, p, r1, r2, r3, r4, r5⟩ := nb.1 hne
        rw [r1] at h1
        simp only [ReadResult.ok.injEq] at h1
        obtain ⟨hbv, rfl⟩ := h1
        obtain ⟨s1, p', s2, s3⟩ := hs hg r5 _ e r3
        rw [padTo_drop_pads m p l r2] at s1
        refine ⟨?_, p + p', ?_, ?_⟩
        · rw [padTo_succ, s1, show m + 1 = 1 + m by omega, bitsMsb_add]
          have : bitsMsb 1 ((tab.huffcode.getD k 0).toNat / 2 ^ m) = [((tab.huffcode.getD k 0).toNat / 2 ^ m).testBit 0] := rfl
          rw [this, hq]
          simp only [List.cons_append, List.nil_append, List.cons.injEq, and_true]
          rw [Nat.testBit_zero, ← hbv]
          cases l.getD 0 true <;> simp
        · rw [s2]
          congr 1
          rw [← List.drop_append_of_le_length (by simp; omega), List.append_assoc, List.replicate_append_replicate,
            List.drop_drop, Nat.add_comm]
        · simp at s3; omega
      · exfalso
        have he : e ≠ none := fun x => hne (.inr x)
        obtain ⟨⟨q, info⟩, rfl⟩ := Option.ne_none_iff_exists'.1 he
        obtain ⟨c', r1, -⟩ := nb.2 q info rfl (by omega)
        rw [r1] at h1; simp at h1
    have cont : decodeLoop g c t tab left (i + 1) (2 * code + b) d = .ok v ctx' →
        codeCounter 0 (countList tab.bits) (i + 1) ≤ 2 * (2 * code + b) →
        ∃ k, k < tab.nins ∧ v = tab.value k ∧ i < tab.size k ∧ tab.size k ≤ 16 ∧
          (tab.huffcode.getD k 0).toNat / 2 ^ (tab.size k - i) = code ∧
          (g.Still → ctx.br.Ok → ∀ l e, ahead g ctx.br = (l, e) →
            padTo (tab.size k - i) l = bitsMsb (tab.size k - i) (tab.huffcode.getD k 0).toNat ∧
            ∃ p, ahead g ctx'.br = ((l ++ List.replicate p true).drop (tab.size k - i), e) ∧
              tab.size k - i ≤ l.length + p) := by
      intro hd' hc'
      obtain ⟨k, k1, k2, k3, k4, k5, k6⟩ := ih (i + 1) (2 * code + b) (by omega) hc' d hd'
      obtain ⟨x1, x2⟩ := step k (by omega) k5 k6
      exact ⟨k, k1, k2, by omega, k4, x1, x2⟩
    by_cases hz : (countList tab.bits).getD i 0 = 0
    · simp only [ho.row_none hv i hi16 hz] at h2
      exact cont h2 (by rw [codeCounter_succ, hz]; omega)
    · obtain ⟨w1, w2, mx, w3, w4⟩ := ho.row_some hv i hi16 hz
      simp only [w3] at h2
      by_cases hle : 2 * code + b ≤ mx.toNat
      · rw [if_pos hle] at h2
        by_cases hj : tab.nins ≤ (tab.rows.toList.getD i { mincode := 0, maxcode := none, valptr := 0 }).valptr +
            (2 * code + b) - (tab.rows.toList.getD i { mincode := 0, maxcode := none, valptr := 0 }).mincode.toNat
        · rw [if_pos hj] at h2; simp [Reader.raise] at h2
        · rw [if_neg hj] at h2
          simp only [Reader.ret, ReadResult.ok.injEq] at h2
          obtain ⟨hval, rfl⟩ := h2
          rw [w1, w2] at hj hval
          generalize hk : ((countList tab.bits).take i).sum + (2 * code + b) - codeCounter 0 (countList tab.bits) i = k at hj hval
          have hjj : 2 * code + b - codeCounter 0 (countList tab.bits) i < (countList tab.bits).getD i 0 := by omega
          have hk' : k = ((countList tab.bits).take i).sum + (2 * code + b - codeCounter 0 (countList tab.bits) i) := by omega
          have sz : tab.size k = i + 1 := by
            rw [hk', HuffTable.size, (ho hv).2.2.2.1, genSizes_getD 1 _ i _ (by simp; omega) hjj]; omega
          have cd : (tab.huffcode.getD k 0).toNat = 2 * code + b := by
            have hbd := codeCounter_bound (countList tab.bits) i (by omega) (by have := ho hv; omega)
            rw [hk', (ho hv).2.2.2.2.1, genCodes_getD 0 _ i _ (by simp; omega) hjj, BitVec.toNat_ofNat,
              Nat.mod_eq_of_lt (by omega)]
            omega
          have fin := step k (by omega) (by rw [sz, cd]; simp)
            (fun _ _ l e ha => ⟨by rw [sz]; simp [padTo], 0, by rw [sz]; simpa using ha, by omega⟩)
          exact ⟨k, by omega, hval.symm, by omega, by omega, fin.1, fin.2⟩
      · rw [if_neg hle] at h2
        exact cont h2 (by rw [codeCounter_succ]; omega)

/-! ## A decode that finds no value -/

/-- The lengths of the codes of a loaded table. -/
theorem HuffTable.Ok.size_range {t : HuffTable} (h : t.Ok) (hv : t.valid = true) (k : Nat) (hk : k < t.nval) :
    1 ≤ t.size k ∧ t.size k ≤ 16 := by
  obtain ⟨i, j, h1, -, -, h2, -⟩ := h.place hv k hk
  omega

@[simp] theorem padTo_length (n : Nat) (l : List Bool) : (padTo n l).length = n := by simp [padTo]

/-- The last of the next bits of a stream. -/
theorem padTo_last (n : Nat) (l : List Bool) : padTo (n + 1) l = padTo n l ++ [l.getD n true] := by
  rw [padTo_append (n + 1) (n + 1) l (by omega), padTo_append n (n + 1) l (by omega), List.take_add_one]
  congr 1
  by_cases h : n < l.length
  · rw [List.getElem?_append_left h, List.getD, List.getElem?_eq_getElem h]; rfl
  · rw [List.getElem?_append_right (by omega), List.getD, List.getElem?_eq_none (by omega : l.length ≤ n)]
    rw [List.getElem?_replicate, if_pos (by omega)]; rfl

/-- One more bit of a number read off a stream. -/
theorem bitsToNat_padTo_succ (n : Nat) (l : List Bool) :
    bitsToNat (padTo (n + 1) l) = 2 * bitsToNat (padTo n l) + (l.getD n true).toNat := by
  rw [padTo_last, bitsToNat, bitsToNat, List.foldl_append]; rfl

/-- The value number that bits of a length stand for, where they lie in the range of that length's codes. -/
theorem HuffTable.Ok.matches_of_le {t : HuffTable} (h : t.Ok) (hv : t.valid = true) (i code : Nat) (hi : i < 16)
    (l : List Bool) (hc : code = bitsToNat (padTo (i + 1) l)) (lo : codeCounter 0 (countList t.bits) i ≤ code)
    (hi2 : code < codeCounter 0 (countList t.bits) i + (countList t.bits).getD i 0) :
    t.Matches l (i + 1) (((countList t.bits).take i).sum + code - codeCounter 0 (countList t.bits) i) := by
  obtain ⟨h1, h2, h3, h4, h5, h6, h7⟩ := h hv
  have hjj : code - codeCounter 0 (countList t.bits) i < (countList t.bits).getD i 0 := by omega
  have hk : ((countList t.bits).take i).sum + code - codeCounter 0 (countList t.bits) i =
      ((countList t.bits).take i).sum + (code - codeCounter 0 (countList t.bits) i) := by omega
  have bd := codeCounter_bound (countList t.bits) i hi (by omega)
  have sm := getD_le_sum (countList t.bits) i
  refine ⟨by omega, ?_, ?_⟩
  · rw [hk, HuffTable.size, h4, genSizes_getD 1 _ i _ (by simpa using hi) hjj]; omega
  · rw [hk, h5, genCodes_getD 0 _ i _ (by simpa using hi) hjj, BitVec.toNat_ofNat, Nat.mod_eq_of_lt (by omega)]; omega

/-- Where a match of bits with an assigned code stands. -/
theorem HuffTable.Ok.matches_place {t : HuffTable} (h : t.Ok) (hv : t.valid = true) (i k : Nat) (l : List Bool)
    (hm : t.Matches l (i + 1) k) :
    ∃ j, j < (countList t.bits).getD i 0 ∧ k = ((countList t.bits).take i).sum + j ∧
      bitsToNat (padTo (i + 1) l) = codeCounter 0 (countList t.bits) i + j := by
  obtain ⟨m1, m2, m3⟩ := hm
  obtain ⟨i', j, p1, p2, p3, p4, p5⟩ := h.place hv k m1
  obtain rfl : i' = i := by omega
  exact ⟨j, p2, p3, by omega⟩

/-- The bit loop on a stream that begins with no inserted code: it reads the bits of `NoValue` and raises
HuffmanDecodeError, or meets the error the stream ends in (41_huffman.md R171). -/
theorem decodeLoop_fails (g : Segment) (h : g.Still) (c : HuffClass) (t : BitVec 2) (tab : HuffTable)
    (hv : tab.valid = true) (ho : tab.Ok) (m : Nat) (l0 : List Bool) (hno : tab.NoValue l0 m) (left i : Nat)
    (hl : i + left = 16) (hi : i < m) (hc : codeCounter 0 (countList tab.bits) i ≤ 2 * bitsToNat (padTo i l0))
    (ctx : ReadCtx) (hb : ctx.br.Ok) (l : List Bool) (e : Option (Nat × Word)) (ha : ahead g ctx.br = (l, e))
    (hp : ∀ j, padTo j l = (padTo (i + j) l0).drop i) :
    (m - i ≤ l.length ∨ e = none →
      ∃ br, decodeLoop g c t tab left i (bitsToNat (padTo i l0)) ctx =
          .err ⟨.huffmanDecode, infoDecode c t, br.pos⟩ { ctx with br := br } ∧ ReadsTo g ctx.br (m - i) br) ∧
    (∀ q info, e = some (q, info) → l.length < m - i →
      ∃ br, decodeLoop g c t tab left i (bitsToNat (padTo i l0)) ctx =
        .err ⟨.bitstreamMarker, info, BitVec.ofNat 25 q⟩ { ctx with br := br } ∧ br.Ok ∧ ahead g br = ([], e)) := by
  induction left generalizing i ctx l with
  | zero =>
    exfalso
    obtain ⟨-, ⟨k, -, -, hk⟩ | ⟨h16, -⟩⟩ := hno
    · have := ho.size_range hv k hk.1; have := hk.2.1; omega
    · omega
  | succ left ih =>
    have hi16 : i < 16 := by omega
    have nb := nextBit_ahead g h ctx hb l e ha
    simp only [decodeLoop]
    by_cases hne : 1 ≤ l.length ∨ e = none
    · obtain ⟨br, p, r1, r2, r3, r4, r5⟩ := nb.1 hne
      have rd := nextBit_readsTo g h ctx _ _ hb r1
      simp only at rd
      rw [Reader.next_of_ok _ r1]
      have hbit : (l.getD 0 true) = l0.getD i true := by
        have h1 := hp 1
        rw [padTo_last i l0, padTo_succ, List.drop_left' (padTo_length i l0)] at h1
        simpa [padTo] using h1
      have hcode : 2 * bitsToNat (padTo i l0) + (l.getD 0 true).toNat = bitsToNat (padTo (i + 1) l0) := by
        rw [bitsToNat_padTo_succ, hbit]
      simp only [hcode]
      have rel : ∀ j, padTo j ((l ++ List.replicate p true).drop 1) = (padTo (i + 1 + j) l0).drop (i + 1) := by
        intro j
        rw [padTo_drop_pads j p l r2]
        have h1 := hp (j + 1)
        rw [padTo_succ] at h1
        have h2 := congrArg (List.drop 1) h1
        rw [List.drop_drop] at h2
        simpa [Nat.add_comm, Nat.add_left_comm] using h2
      -- the loop goes on, unless the 16 bits are all read
      have cont : codeCounter 0 (countList tab.bits) (i + 1) ≤ 2 * bitsToNat (padTo (i + 1) l0) →
          (∀ k, ¬tab.Matches l0 (i + 1) k) →
          (m - i ≤ l.length ∨ e = none →
            ∃ br0, decodeLoop g c t tab left (i + 1) (bitsToNat (padTo (i + 1) l0)) { ctx with br := br } =
              .err ⟨.huffmanDecode, infoDecode c t, br0.pos⟩ { ctx with br := br0 } ∧ ReadsTo g ctx.br (m - i) br0) ∧
          (∀ q info, e = some (q, info) → l.length < m - i →
            ∃ br0, decodeLoop g c t tab left (i + 1) (bitsToNat (padTo (i + 1) l0)) { ctx with br := br } =
              .err ⟨.bitstreamMarker, info, BitVec.ofNat 25 q⟩ { ctx with br := br0 } ∧ br0.Ok ∧
                ahead g br0 = ([], e)) := by
        intro hcc hnm
        by_cases him : i + 1 = m
        · have h16 : m = 16 := by
            obtain ⟨-, ⟨k, -, -, hk⟩ | ⟨h16, -⟩⟩ := hno
            · exact absurd (him ▸ hk) (hnm k)
            · exact h16
          obtain rfl : left = 0 := by omega
          refine ⟨fun _ => ⟨br, rfl, by rw [show m - i = 1 by omega]; exact rd⟩, fun q info he hlt => ?_⟩
          rcases hne with hne | hne
          · omega
          · rw [hne] at he; simp at he
        · have key := ih (i + 1) (by omega) (by omega) hcc { ctx with br := br } r5 _ r3 rel
          refine ⟨fun hn => ?_, fun q info he hlt => ?_⟩
          · obtain ⟨br0, k1, k2⟩ := key.1 (hn.imp (fun x => by simp; omega) id)
            refine ⟨br0, k1, ?_⟩
            rw [show m - i = 1 + (m - (i + 1)) by omega]
            exact rd.trans k2
          · have hl1 : 1 ≤ l.length := by
              rcases hne with hne | hne
              · exact hne
              · rw [hne] at he; simp at he
            exact key.2 q info he (by rw [r4 hl1]; simp; omega)
      by_cases hz : (countList tab.bits).getD i 0 = 0
      · simp only [ho.row_none hv i hi16 hz]
        refine cont (by rw [codeCounter_succ, hz, bitsToNat_padTo_succ]; omega) fun k hk => ?_
        obtain ⟨j, hj, -⟩ := ho.matches_place hv i k l0 hk
        omega
      · obtain ⟨w1, w2, mx, w3, w4⟩ := ho.row_some hv i hi16 hz
        have lo : codeCounter 0 (countList tab.bits) i ≤ bitsToNat (padTo (i + 1) l0) := by
          rw [bitsToNat_padTo_succ]; omega
        simp only [w3]
        by_cases hle : bitsToNat (padTo (i + 1) l0) ≤ mx.toNat
        · rw [if_pos hle, w1, w2]
          have mt := ho.matches_of_le hv i _ hi16 l0 rfl lo (by omega)
          have him : i + 1 = m := by
            by_contra hx
            exact hno.1 (i + 1) _ (by omega) mt
          have hins : tab.nins ≤ ((countList tab.bits).take i).sum + bitsToNat (padTo (i + 1) l0) -
              codeCounter 0 (countList tab.bits) i := by
            obtain ⟨-, ⟨k, hk, -, hk2⟩ | ⟨h16, hx⟩⟩ := hno
            · rw [← him] at hk2
              obtain ⟨j, j1, j2, j3⟩ := ho.matches_place hv i k l0 hk2
              omega
            · rw [← h16, ← him] at hx; exact absurd mt (hx _)
          rw [if_pos hins]
          refine ⟨fun _ => ⟨br, rfl, by rw [show m - i = 1 by omega]; exact rd⟩, fun q info he hlt => ?_⟩
          rcases hne with hne | hne
          · omega
          · rw [hne] at he; simp at he
        · rw [if_neg hle]
          refine cont (by rw [codeCounter_succ]; omega) fun k hk => ?_
          obtain ⟨j, j1, j2, j3⟩ := ho.matches_place hv i k l0 hk
          omega
    · simp only [not_or] at hne
      obtain ⟨⟨q, info⟩, rfl⟩ := Option.ne_none_iff_exists'.1 hne.2
      have l0' : l = [] := List.length_eq_zero_iff.1 (by omega)
      subst l0'
      obtain ⟨c', r1, -⟩ := nb.2 q info rfl (by simp)
      have same := nextBit_err_same g h ctx c' _ r1
      subst same
      refine ⟨fun hn => ?_, fun q' info' he hlt => ?_⟩
      · rcases hn with hn | hn
        · simp at hn; omega
        · simp at hn
      · simp only [Option.some.injEq, Prod.mk.injEq] at he
        obtain ⟨rfl, rfl⟩ := he
        exact ⟨c'.br, Reader.next_of_err _ r1, hb, ha⟩

/-- The array decode on a stream that begins with no inserted code. -/
theorem huffDecodeArray_fails (g : Segment) (h : g.Still) (c : HuffClass) (t : BitVec 2) (tab : HuffTable)
    (hv : tab.valid = true) (ho : tab.Ok) (m : Nat) (ctx : ReadCtx) (hb : ctx.br.Ok) (l : List Bool)
    (e : Option (Nat × Word)) (ha : ahead g ctx.br = (l, e)) (hno : tab.NoValue l m) :
    (m ≤ l.length ∨ e = none →
      ∃ br, huffDecodeArray g c t tab ctx = .err ⟨.huffmanDecode, infoDecode c t, br.pos⟩ { ctx with br := br } ∧
        ReadsTo g ctx.br m br) ∧
    (∀ q info, e = some (q, info) → l.length < m →
      ∃ br, huffDecodeArray g c t tab ctx = .err ⟨.bitstreamMarker, info, BitVec.ofNat 25 q⟩ { ctx with br := br } ∧
        br.Ok ∧ ahead g br = ([], e)) := by
  have h1 : 0 < m := by
    obtain ⟨-, ⟨k, -, hk, -⟩ | ⟨h16, -⟩⟩ := hno <;> omega
  have key := decodeLoop_fails g h c t tab hv ho m l hno 16 0 rfl h1 (by simp) ctx hb l e ha (by simp)
  have z : bitsToNat (padTo 0 l) = 0 := by simp [padTo, bitsToNat]
  rw [z] at key
  simpa [huffDecodeArray] using key

end Sys2Proof.Machine
end

