-- ==== Sys2Proof/Laws/Coefficient.lean ====
section
/-! SUPPORT. Decoding a block on a stream of bits: what the reader's stream, with its pad bits, serves, and what the symbol
loop of DECODE_COEFS makes of it. -/

namespace Sys2Proof.Machine

/-! ## A stream serves a bit string -/

/-- The stream, with its pad bits where it has any, begins with `w` (and then with pad bits as far as `w` has any). -/
def Serves (l : List Bool) (e : Option (Nat × Word)) (w : List Bool) : Prop :=
  ∃ a b, l ++ List.replicate a true = w ++ List.replicate b true ∧ (e = none ∨ (a = 0 ∧ b = 0))

theorem Serves.of_eq (l w : List Bool) (e : Option (Nat × Word)) (p : Nat) (h : l ++ List.replicate p true = w)
    (hp : p = 0 ∨ e = none) : Serves l e w :=
  ⟨p, 0, by simpa using h, hp.elim (fun x => .inr ⟨x, rfl⟩) .inl⟩

/-- The stream can give the first part of what it serves. -/
theorem Serves.enough {l u w : List Bool} {e : Option (Nat × Word)} (h : Serves l e (u ++ w)) :
    u.length ≤ l.length ∨ e = none := by
  obtain ⟨a, b, h1, h2 | ⟨rfl, rfl⟩⟩ := h
  · exact .inr h2
  · left; have := congrArg List.length h1; simp at this; omega

/-- The first part of what a stream serves is its next bits. -/
theorem Serves.padTo {l u w : List Bool} {e : Option (Nat × Word)} (h : Serves l e (u ++ w)) :
    padTo u.length l = u := by
  obtain ⟨a, b, h1, -⟩ := h
  rw [padTo_append u.length (a + u.length) l (by omega), ← List.replicate_append_replicate, ← List.append_assoc, h1]
  simp

/-- After the first part is read, the stream serves the rest, and exactly the rest if it was exact. -/
theorem Serves.drop {l u w : List Bool} {e : Option (Nat × Word)} (h : Serves l e (u ++ w)) (q : Nat)
    (h1 : u.length ≤ l.length + q) (h2 : u.length ≤ l.length → q = 0) :
    Serves ((l ++ List.replicate q true).drop u.length) e w ∧
      (l = u ++ w → (l ++ List.replicate q true).drop u.length = w) := by
  have exact : l = u ++ w → (l ++ List.replicate q true).drop u.length = w := by
    intro hl
    have : q = 0 := h2 (by rw [hl]; simp)
    subst this; simp [hl]
  refine ⟨?_, exact⟩
  obtain ⟨a, b, k1, k2⟩ := h
  rcases k2 with rfl | ⟨rfl, rfl⟩
  · refine ⟨a, b + q, ?_, .inl rfl⟩
    rw [← List.drop_append_of_le_length (by simpa using h1), List.append_assoc, List.replicate_append_replicate,
      Nat.add_comm q a, ← List.replicate_append_replicate, ← List.append_assoc, k1]
    simp [List.append_assoc, List.replicate_append_replicate]
  · simp only [List.replicate_zero, List.append_nil] at k1
    exact ⟨0, 0, by simp [exact k1], .inr ⟨rfl, rfl⟩⟩

@[simp] theorem HuffTable.codeBits_length (t : HuffTable) (k : Nat) : (t.codeBits k).length = t.size k := by
  simp [HuffTable.codeBits]

/-! ## Reading one symbol and its magnitude bits -/

/-- Reading one inserted value off a stream that serves its code, in either Huffman variant. -/
theorem huffDecode_serves (g : Segment) (h : g.Still) (array : Bool) (c : HuffClass) (t : BitVec 2) (tab : HuffTable)
    (hv : tab.valid = true) (ho : tab.Ok) (k : Nat) (hk : k < tab.nins) (ctx : ReadCtx) (hb : ctx.br.Ok) (l w : List Bool)
    (e : Option (Nat × Word)) (ha : ahead g ctx.br = (l, e)) (hs : Serves l e (tab.codeBits k ++ w)) :
    ∃ br l', huffDecode g array c t tab ctx = .ok (tab.value k) { ctx with br := br } ∧ br.Ok ∧ ahead g br = (l', e) ∧
      Serves l' e w ∧ (l = tab.codeBits k ++ w → l' = w) ∧ ReadsTo g ctx.br (tab.codeBits k).length br := by
  have e1 := hs.padTo
  have e2 := hs.enough
  rw [HuffTable.codeBits_length] at e1 e2
  obtain ⟨br, p, h1, h2, h3, h4, h5, h6⟩ := huffDecodeArray_finds g h c t tab hv ho k hk ctx hb l e ha e1 e2
  have d := hs.drop p (by simpa using h2) (by simpa using h4)
  rw [HuffTable.codeBits_length] at d
  exact ⟨br, _, by simp [huffDecode, h1], h5, h3, d.1, d.2, by simpa using h6⟩

/-- Reading magnitude bits off a stream that serves them. -/
theorem receive_serves (g : Segment) (h : g.Still) (n raw : Nat) (hn : n ≤ 16) (hr : raw < 2 ^ n) (ctx : ReadCtx)
    (hb : ctx.br.Ok) (l w : List Bool) (e : Option (Nat × Word)) (ha : ahead g ctx.br = (l, e))
    (hs : Serves l e (bitsMsb n raw ++ w)) :
    ∃ br l', receive g n ctx = .ok raw { ctx with br := br } ∧ br.Ok ∧ ahead g br = (l', e) ∧ Serves l' e w ∧
      (l = bitsMsb n raw ++ w → l' = w) ∧ ReadsTo g ctx.br (bitsMsb n raw).length br := by
  have e1 := hs.padTo
  have e2 := hs.enough
  rw [bitsMsb_length] at e1 e2
  obtain ⟨br, p, h1, h2, h3, h4, h5⟩ := (take_ahead g h n hn ctx hb l e ha).1 e2
  have d := hs.drop p (by simpa using h2) (by simpa using h4)
  rw [bitsMsb_length] at d
  refine ⟨br, _, ?_, h5, h3, d.1, d.2, by simpa using take_readsTo g h n hn _ _ _ hb h1⟩
  rw [receive, h1, e1, bitsToNat_bitsMsb, Nat.mod_eq_of_lt hr]

theorem nibbles (rs : Byte) : (rs.extractLsb' 4 4).toNat = rs.toNat / 16 ∧ (rs.extractLsb' 0 4).toNat = rs.toNat % 16 := by
  revert rs; decide

/-! ## The AC loop -/

/-- The symbol loop reads a list of symbols that place coefficients, whatever it does after them (42_coefficient.md
R211). -/
theorem acLoop_items (x : CoefTables) (h : x.seg.Still) (hv : x.ac.valid = true) (ho : x.ac.Ok)
    (items : List (Nat × Nat)) (fuel k k' : Nat) (b b' : Blk) (hf : 64 ≤ fuel + k) (hp : acPlace x.ac k items b = some (k', b'))
    (ctx : ReadCtx) (hb : ctx.br.Ok) (l w : List Bool) (e : Option (Nat × Word)) (ha : ahead x.seg ctx.br = (l, e))
    (hs : Serves l e (acBits x.ac items ++ w)) :
    ∃ br l' fuel', acLoop x fuel k b ctx = acLoop x fuel' k' b' { ctx with br := br } ∧ 64 ≤ fuel' + k' ∧ br.Ok ∧
      ahead x.seg br = (l', e) ∧ Serves l' e w ∧ (l = acBits x.ac items ++ w → l' = w) ∧
      ReadsTo x.seg ctx.br (acBits x.ac items).length br := by
  induction items generalizing fuel k b ctx l with
  | nil =>
    simp only [acPlace, Option.some.injEq, Prod.mk.injEq] at hp
    obtain ⟨rfl, rfl⟩ := hp
    exact ⟨ctx.br, l, fuel, rfl, hf, hb, ha, by simpa [acBits] using hs, by simp [acBits],
      by simpa [acBits] using ReadsTo.refl x.seg ctx.br hb⟩
  | cons it items ih =>
    obtain ⟨c, raw⟩ := it
    simp only [acPlace] at hp
    split at hp
    · simp at hp
    · rename_i hbad
      obtain ⟨hk, hc, hr⟩ : k ≤ 63 ∧ c < x.ac.nins ∧ raw < 2 ^ x.ac.ssss c := by omega
      obtain ⟨fuel, rfl⟩ : ∃ f, fuel = f + 1 := ⟨fuel - 1, by omega⟩
      have ns := nibbles (x.ac.value c)
      simp only [acBits, List.append_assoc] at hs
      obtain ⟨br1, l1, h1, o1, a1, s1, x1, t1⟩ := huffDecode_serves x.seg h x.array .ac x.ta x.ac hv ho c hc ctx hb l _ e ha hs
      simp only [acLoop]
      rw [if_neg (by omega), Reader.next_of_ok _ h1]
      simp only [ns.1, ns.2]
      have er : (x.ac.value c).toNat / 16 = x.ac.rrrr c := rfl
      have es : (x.ac.value c).toNat % 16 = x.ac.ssss c := rfl
      simp only [er, es]
      split at hp
      · rename_i h0
        split at hp
        · rename_i h15
          rw [if_pos h0, if_neg (by omega), if_pos h15]
          have hz : bitsMsb (x.ac.ssss c) raw = [] := by rw [h0]; rfl
          rw [hz] at s1 x1
          obtain ⟨br, l', f', k1, k2, k3, k4, k5, k6, k7⟩ := ih fuel (k + 16) b (by omega) hp { ctx with br := br1 } o1 l1 a1
            (by simpa using s1)
          refine ⟨br, l', f', k1, k2, k3, k4, k5, fun hl => k6 ?_, ?_⟩
          · have := x1 (by rw [hl]; simp [acBits, hz])
            simpa using this
          · simpa [acBits, hz] using t1.trans k7
        · simp at hp
      · rename_i h0
        split at hp
        · simp at hp
        · rename_i hrun
          rw [if_neg h0, if_neg hrun]
          have hs16 : x.ac.ssss c ≤ 16 := by simp only [HuffTable.ssss]; omega
          obtain ⟨br2, l2, h2, o2, a2, s2, x2, t2⟩ := receive_serves x.seg h (x.ac.ssss c) raw hs16 hr { ctx with br := br1 } o1 l1 _ e a1 s1
          rw [Reader.next_of_ok _ h2]
          obtain ⟨br, l', f', k1, k2, k3, k4, k5, k6, k7⟩ := ih fuel (k + x.ac.rrrr c + 1) _ (by omega) hp { ctx with br := br2 } o2 l2 a2 s2
          refine ⟨br, l', f', k1, k2, k3, k4, k5, fun hl => k6 (x2 (x1 ?_)), ?_⟩
          · rw [hl]; simp [acBits]
          · simpa [acBits, Nat.add_assoc] using (t1.trans t2).trans k7

/-- The symbol loop ends past position 63 or at an EOB. -/
theorem acLoop_places (x : CoefTables) (h : x.seg.Still) (hv : x.ac.valid = true) (ho : x.ac.Ok)
    (items : List (Nat × Nat)) (fuel k k' : Nat) (b b' : Blk) (hf : 64 ≤ fuel + k) (hp : acPlace x.ac k items b = some (k', b'))
    (ke : Nat) (he : k' ≤ 63 → ke < x.ac.nins ∧ x.ac.value ke = 0)
    (ctx : ReadCtx) (hb : ctx.br.Ok) (l w : List Bool) (e : Option (Nat × Word)) (ha : ahead x.seg ctx.br = (l, e))
    (hs : Serves l e (acBits x.ac items ++ ((if k' ≤ 63 then x.ac.codeBits ke else []) ++ w))) :
    ∃ br l', acLoop x fuel k b ctx = .ok b' { ctx with br := br } ∧ br.Ok ∧ ahead x.seg br = (l', e) ∧
      (l = acBits x.ac items ++ ((if k' ≤ 63 then x.ac.codeBits ke else []) ++ w) → l' = w) ∧
      ReadsTo x.seg ctx.br (acBits x.ac items ++ (if k' ≤ 63 then x.ac.codeBits ke else [])).length br := by
  obtain ⟨br, l1, f, h1, h2, h3, h4, h5, h6, h7⟩ := acLoop_items x h hv ho items fuel k k' b b' hf hp ctx hb l _ e ha hs
  rw [h1]
  by_cases hk : k' ≤ 63
  · rw [if_pos hk] at h5
    obtain ⟨f, rfl⟩ : ∃ f', f = f' + 1 := ⟨f - 1, by omega⟩
    obtain ⟨z1, z2⟩ := he hk
    obtain ⟨br2, l2, r1, r2, r3, r4, r5, r6⟩ := huffDecode_serves x.seg h x.array .ac x.ta x.ac hv ho ke z1 { ctx with br := br } h3 l1 w e h4 h5
    refine ⟨br2, l2, ?_, r2, r3, fun hl => r5 (h6 (by rw [hl]) |>.trans (by rw [if_pos hk])),
      by simpa [hk] using h7.trans r6⟩
    simp only [acLoop]
    rw [if_neg (by omega), Reader.next_of_ok _ r1, z2]
    rfl
  · rw [if_neg hk] at h5
    refine ⟨br, l1, ?_, h3, h4, fun hl => (h6 (by rw [hl])).trans (by rw [if_neg hk]; rfl), by simpa [hk] using h7⟩
    cases f with
    | zero => rfl
    | succ f => simp only [acLoop]; rw [if_pos (by omega)]; rfl

/-- The body of DECODE_COEFS reads a DC difference that fits and a list of AC symbols that place coefficients; what it then
does is what the AC loop does. -/
theorem decodeBody_reaches (x : CoefTables) (h : x.seg.Still) (hvd : x.dc.valid = true) (hod : x.dc.Ok)
    (hva : x.ac.valid = true) (hoa : x.ac.Ok) (pred : Word) (kd raw : Nat) (hkd : kd < x.dc.nins)
    (hcat : (x.dc.value kd).toNat ≤ 11) (hraw : raw < 2 ^ (x.dc.value kd).toNat)
    (hlo : -2147483648 ≤ pred.toInt + extendValue raw (x.dc.value kd).toNat)
    (hhi : pred.toInt + extendValue raw (x.dc.value kd).toNat ≤ 2147483647)
    (items : List (Nat × Nat)) (k : Nat) (b : Blk)
    (hp : acPlace x.ac 1 items (dcBlock (BitVec.ofInt 32 (pred.toInt + extendValue raw (x.dc.value kd).toNat))) = some (k, b))
    (ctx : ReadCtx) (hb : ctx.br.Ok) (l w : List Bool) (e : Option (Nat × Word)) (ha : ahead x.seg ctx.br = (l, e))
    (hs : Serves l e (x.dc.codeBits kd ++ (bitsMsb (x.dc.value kd).toNat raw ++ (acBits x.ac items ++ w)))) :
    ∃ br l' fuel, decodeBody x pred ctx =
        Reader.next (acLoop x fuel k b)
          (fun b => Reader.ret (b, BitVec.ofInt 32 (pred.toInt + extendValue raw (x.dc.value kd).toNat)))
          { ctx with br := br } ∧
      64 ≤ fuel + k ∧ br.Ok ∧ ahead x.seg br = (l', e) ∧ Serves l' e w ∧
      (l = x.dc.codeBits kd ++ (bitsMsb (x.dc.value kd).toNat raw ++ (acBits x.ac items ++ w)) → l' = w) ∧
      ReadsTo x.seg ctx.br (x.dc.codeBits kd ++ bitsMsb (x.dc.value kd).toNat raw ++ acBits x.ac items).length br := by
  obtain ⟨br1, l1, h1, o1, a1, s1, x1, t1⟩ := huffDecode_serves x.seg h x.array .dc x.td x.dc hvd hod kd hkd ctx hb l _ e ha hs
  obtain ⟨br2, l2, h2, o2, a2, s2, x2, t2⟩ := receive_serves x.seg h _ raw (by omega) hraw { ctx with br := br1 } o1 l1 _ e a1 s1
  obtain ⟨br3, l3, fuel, h3, f3, o3, a3, s3, x3, t3⟩ := acLoop_items x h hva hoa items 63 1 k _ b (by omega) hp
    { ctx with br := br2 } o2 l2 w e a2 s2
  refine ⟨br3, l3, fuel, ?_, f3, o3, a3, s3, fun hl => x3 (x2 (x1 hl)), by simpa [Nat.add_assoc] using (t1.trans t2).trans t3⟩
  unfold decodeBody
  rw [Reader.next_of_ok _ h1, if_neg (by omega), Reader.next_of_ok _ h2]
  have hfit : fits32 (pred.toInt + extendValue raw (x.dc.value kd).toNat) = true := by simp [fits32, hlo, hhi]
  simp only [hfit, if_true, Reader.next]
  rw [show setEntry (Vector.replicate 64 0) 0 (pred.toInt + extendValue raw (x.dc.value kd).toNat) =
    dcBlock (BitVec.ofInt 32 (pred.toInt + extendValue raw (x.dc.value kd).toNat)) from rfl, h3]
  rfl

/-- The body of DECODE_COEFS on a stream that serves a coded block. -/
theorem decodeBody_rebuilds (x : CoefTables) (h : x.seg.Still) (hvd : x.dc.valid = true) (hod : x.dc.Ok)
    (hva : x.ac.valid = true) (hoa : x.ac.Ok) (pred : Word) (kd raw : Nat) (hkd : kd < x.dc.nins)
    (hcat : (x.dc.value kd).toNat ≤ 11) (hraw : raw < 2 ^ (x.dc.value kd).toNat)
    (hlo : -2147483648 ≤ pred.toInt + extendValue raw (x.dc.value kd).toNat)
    (hhi : pred.toInt + extendValue raw (x.dc.value kd).toNat ≤ 2147483647)
    (items : List (Nat × Nat)) (k : Nat) (b : Blk)
    (hp : acPlace x.ac 1 items (dcBlock (BitVec.ofInt 32 (pred.toInt + extendValue raw (x.dc.value kd).toNat))) = some (k, b))
    (ke : Nat) (he : k ≤ 63 → ke < x.ac.nins ∧ x.ac.value ke = 0)
    (ctx : ReadCtx) (hb : ctx.br.Ok) (l w : List Bool) (e : Option (Nat × Word)) (ha : ahead x.seg ctx.br = (l, e))
    (hs : Serves l e (x.dc.codeBits kd ++ (bitsMsb (x.dc.value kd).toNat raw ++
      (acBits x.ac items ++ ((if k ≤ 63 then x.ac.codeBits ke else []) ++ w))))) :
    ∃ br l', decodeBody x pred ctx =
        .ok (b, BitVec.ofInt 32 (pred.toInt + extendValue raw (x.dc.value kd).toNat)) { ctx with br := br } ∧ br.Ok ∧
      ahead x.seg br = (l', e) ∧
      (l = x.dc.codeBits kd ++ (bitsMsb (x.dc.value kd).toNat raw ++
        (acBits x.ac items ++ ((if k ≤ 63 then x.ac.codeBits ke else []) ++ w))) → l' = w) ∧
      ReadsTo x.seg ctx.br (x.dc.codeBits kd ++ bitsMsb (x.dc.value kd).toNat raw ++ acBits x.ac items ++
        (if k ≤ 63 then x.ac.codeBits ke else [])).length br := by
  obtain ⟨br1, l1, fuel, h1, f1, o1, a1, s1, x1, t1⟩ := decodeBody_reaches x h hvd hod hva hoa pred kd raw hkd hcat hraw hlo
    hhi items k b hp ctx hb l _ e ha hs
  obtain ⟨br2, l2, h2, o2, a2, x2, t2⟩ := acLoop_places x h hva hoa [] fuel k k b b f1 rfl ke he { ctx with br := br1 } o1 l1
    w e a1 (by simpa [acBits] using s1)
  refine ⟨br2, l2, by rw [h1, Reader.next_of_ok _ h2]; rfl, o2, a2, fun hl => x2 (by simpa [acBits] using x1 hl), ?_⟩
  simpa [acBits, Nat.add_assoc] using t1.trans t2

end Sys2Proof.Machine
end

