-- ==== Sys2Proof/Laws/Cosine.lean ====
section
/-! SUPPORT. The scaled cosines of the float IDCT against the real cosine: each within 2^-128. -/

namespace Sys2Proof.Machine

/-- Half an angle: bounds on the cosine of 2x bound the cosine of x, where that is not negative. -/
theorem cos_half_bounds (x lo hi a b : ℝ) (ha : a ≤ Real.cos (2 * x)) (hb : Real.cos (2 * x) ≤ b) (hx : 0 ≤ Real.cos x)
    (hl : lo ^ 2 ≤ (1 + a) / 2) (hh : (1 + b) / 2 ≤ hi ^ 2) (h0 : 0 ≤ hi) : lo ≤ Real.cos x ∧ Real.cos x ≤ hi := by
  have e := Real.cos_sq x
  constructor
  · exact le_of_sq_le_sq (by rw [e]; linarith) hx
  · exact le_of_sq_le_sq (by rw [e]; linarith) h0

theorem cos_sixteenth_nonneg (k : ℕ) (h : k ≤ 8) : 0 ≤ Real.cos (k * Real.pi / 16) := by
  have p := Real.pi_pos
  have hk : (k : ℝ) ≤ 8 := by exact_mod_cast h
  have h0 : (0 : ℝ) ≤ k := Nat.cast_nonneg k
  apply Real.cos_nonneg_of_mem_Icc
  constructor <;> nlinarith

/-- The tight bounds the ROM is checked against. -/
theorem cos_sixteenth_bounds :
    ((707106781186547524400844362104849039284835937688474036588338 : ℝ) / 10 ^ 60 ≤ Real.cos ((4 : ℕ) * Real.pi / 16) ∧
      Real.cos ((4 : ℕ) * Real.pi / 16) ≤ 707106781186547524400844362104849039284835937688474036588340 / 10 ^ 60) ∧
    ((923879532511286756128183189396788286822416625863642486115095 : ℝ) / 10 ^ 60 ≤ Real.cos ((2 : ℕ) * Real.pi / 16) ∧
      Real.cos ((2 : ℕ) * Real.pi / 16) ≤ 923879532511286756128183189396788286822416625863642486115099 / 10 ^ 60) ∧
    ((980785280403230449126182236134239036973933730893336095002913 : ℝ) / 10 ^ 60 ≤ Real.cos ((1 : ℕ) * Real.pi / 16) ∧
      Real.cos ((1 : ℕ) * Real.pi / 16) ≤ 980785280403230449126182236134239036973933730893336095002919 / 10 ^ 60) ∧
    ((382683432365089771728459984030398866761344562485627041433797 : ℝ) / 10 ^ 60 ≤ Real.cos ((6 : ℕ) * Real.pi / 16) ∧
      Real.cos ((6 : ℕ) * Real.pi / 16) ≤ 382683432365089771728459984030398866761344562485627041433803 / 10 ^ 60) ∧
    ((831469612302545237078788377617905756738560811987249963446121 : ℝ) / 10 ^ 60 ≤ Real.cos ((3 : ℕ) * Real.pi / 16) ∧
      Real.cos ((3 : ℕ) * Real.pi / 16) ≤ 831469612302545237078788377617905756738560811987249963446127 / 10 ^ 60) ∧
    ((555570233019602224742830813948532874374937190754804045924145 : ℝ) / 10 ^ 60 ≤ Real.cos ((5 : ℕ) * Real.pi / 16) ∧
      Real.cos ((5 : ℕ) * Real.pi / 16) ≤ 555570233019602224742830813948532874374937190754804045924161 / 10 ^ 60) ∧
    ((195090322016128267848284868477022240927691617751954807754495 : ℝ) / 10 ^ 60 ≤ Real.cos ((7 : ℕ) * Real.pi / 16) ∧
      Real.cos ((7 : ℕ) * Real.pi / 16) ≤ 195090322016128267848284868477022240927691617751954807754509 / 10 ^ 60) := by
  have n := cos_sixteenth_nonneg
  have dbl : ∀ (j k : ℕ), 2 * j = k → Real.cos (2 * (j * Real.pi / 16)) = Real.cos (k * Real.pi / 16) := by
    rintro j k rfl; congr 1; push_cast; ring
  have refl : ∀ (j k : ℕ), 2 * j + k = 16 → Real.cos (2 * (j * Real.pi / 16)) = -Real.cos (k * Real.pi / 16) := by
    intro j k h
    rw [← Real.cos_pi_sub]
    congr 1
    have : (2 : ℝ) * j + k = 16 := by exact_mod_cast h
    have : (k : ℝ) = 16 - 2 * j := by linarith
    rw [this]; ring
  have c8 : Real.cos (2 * ((4 : ℕ) * Real.pi / 16)) = 0 := by
    rw [show 2 * (((4 : ℕ) : ℝ) * Real.pi / 16) = Real.pi / 2 by push_cast; ring]; exact Real.cos_pi_div_two
  have c4 := cos_half_bounds ((4 : ℕ) * Real.pi / 16)
    (707106781186547524400844362104849039284835937688474036588338 / 10 ^ 60)
    (707106781186547524400844362104849039284835937688474036588340 / 10 ^ 60) 0 0 (le_of_eq c8.symm) (le_of_eq c8)
    (n 4 (by decide)) (by norm_num) (by norm_num) (by norm_num)
  have c2 := cos_half_bounds ((2 : ℕ) * Real.pi / 16)
    (923879532511286756128183189396788286822416625863642486115095 / 10 ^ 60)
    (923879532511286756128183189396788286822416625863642486115099 / 10 ^ 60) _ _ ((dbl 2 4 rfl) ▸ c4.1)
    ((dbl 2 4 rfl) ▸ c4.2) (n 2 (by decide)) (by norm_num) (by norm_num) (by norm_num)
  have c1 := cos_half_bounds ((1 : ℕ) * Real.pi / 16)
    (980785280403230449126182236134239036973933730893336095002913 / 10 ^ 60)
    (980785280403230449126182236134239036973933730893336095002919 / 10 ^ 60) _ _ ((dbl 1 2 rfl) ▸ c2.1)
    ((dbl 1 2 rfl) ▸ c2.2) (n 1 (by decide)) (by norm_num) (by norm_num) (by norm_num)
  have c6 := cos_half_bounds ((6 : ℕ) * Real.pi / 16)
    (382683432365089771728459984030398866761344562485627041433797 / 10 ^ 60)
    (382683432365089771728459984030398866761344562485627041433803 / 10 ^ 60) _ _
    (le_trans (neg_le_neg c4.2) (le_of_eq (refl 6 4 rfl).symm))
    (le_trans (le_of_eq (refl 6 4 rfl)) (neg_le_neg c4.1))
    (n 6 (by decide)) (by norm_num) (by norm_num) (by norm_num)
  have c3 := cos_half_bounds ((3 : ℕ) * Real.pi / 16)
    (831469612302545237078788377617905756738560811987249963446121 / 10 ^ 60)
    (831469612302545237078788377617905756738560811987249963446127 / 10 ^ 60) _ _ ((dbl 3 6 rfl) ▸ c6.1)
    ((dbl 3 6 rfl) ▸ c6.2) (n 3 (by decide)) (by norm_num) (by norm_num) (by norm_num)
  have c5 := cos_half_bounds ((5 : ℕ) * Real.pi / 16)
    (555570233019602224742830813948532874374937190754804045924145 / 10 ^ 60)
    (555570233019602224742830813948532874374937190754804045924161 / 10 ^ 60) _ _
    (le_trans (neg_le_neg c6.2) (le_of_eq (refl 5 6 rfl).symm))
    (le_trans (le_of_eq (refl 5 6 rfl)) (neg_le_neg c6.1))
    (n 5 (by decide)) (by norm_num) (by norm_num) (by norm_num)
  have c7 := cos_half_bounds ((7 : ℕ) * Real.pi / 16)
    (195090322016128267848284868477022240927691617751954807754495 / 10 ^ 60)
    (195090322016128267848284868477022240927691617751954807754509 / 10 ^ 60) _ _
    (le_trans (neg_le_neg c2.2) (le_of_eq (refl 7 2 rfl).symm))
    (le_trans (le_of_eq (refl 7 2 rfl)) (neg_le_neg c2.1))
    (n 7 (by decide)) (by norm_num) (by norm_num) (by norm_num)
  exact ⟨c4, c2, c1, c6, c3, c5, c7⟩

/-- Each entry of the ROM is within 2^-128 of the cosine it stands for. -/
theorem cosRom_close (k : ℕ) (h : k ≤ 8) :
    |((cosRom.getD k 0 : ℤ) : ℝ) / 2 ^ 128 - Real.cos (k * Real.pi / 16)| ≤ 1 / 2 ^ 128 := by
  obtain ⟨c4, c2, c1, c6, c3, c5, c7⟩ := cos_sixteenth_bounds
  rw [abs_le]
  interval_cases k
  · simp [cosRom]; norm_num
  · simp only [cosRom, List.getD_cons_succ, List.getD_cons_zero]
    constructor <;> (push_cast at c1 ⊢; norm_num at c1 ⊢; linarith [c1.1, c1.2])
  · simp only [cosRom, List.getD_cons_succ, List.getD_cons_zero]
    constructor <;> (push_cast at c2 ⊢; norm_num at c2 ⊢; linarith [c2.1, c2.2])
  · simp only [cosRom, List.getD_cons_succ, List.getD_cons_zero]
    constructor <;> (push_cast at c3 ⊢; norm_num at c3 ⊢; linarith [c3.1, c3.2])
  · simp only [cosRom, List.getD_cons_succ, List.getD_cons_zero]
    constructor <;> (push_cast at c4 ⊢; norm_num at c4 ⊢; linarith [c4.1, c4.2])
  · simp only [cosRom, List.getD_cons_succ, List.getD_cons_zero]
    constructor <;> (push_cast at c5 ⊢; norm_num at c5 ⊢; linarith [c5.1, c5.2])
  · simp only [cosRom, List.getD_cons_succ, List.getD_cons_zero]
    constructor <;> (push_cast at c6 ⊢; norm_num at c6 ⊢; linarith [c6.1, c6.2])
  · simp only [cosRom, List.getD_cons_succ, List.getD_cons_zero]
    constructor <;> (push_cast at c7 ⊢; norm_num at c7 ⊢; linarith [c7.1, c7.2])
  · simp only [cosRom, List.getD_cons_succ, List.getD_cons_zero]
    rw [show ((8 : ℕ) : ℝ) * Real.pi / 16 = Real.pi / 2 by push_cast; ring, Real.cos_pi_div_two]
    norm_num

/-- The scaled cosine of any multiple of π/16 is within 2^-128 of the real one. -/
theorem cosScaled_close (k : ℕ) : |((cosScaled k : ℤ) : ℝ) / 2 ^ 128 - Real.cos (k * Real.pi / 16)| ≤ 1 / 2 ^ 128 := by
  have per : Real.cos (k * Real.pi / 16) = Real.cos (((k % 32 : ℕ) : ℝ) * Real.pi / 16) := by
    have : (k : ℝ) * Real.pi / 16 = ((k % 32 : ℕ) : ℝ) * Real.pi / 16 + (k / 32 : ℕ) * (2 * Real.pi) := by
      have h : (k : ℝ) = 32 * (k / 32 : ℕ) + (k % 32 : ℕ) := by exact_mod_cast (Nat.div_add_mod k 32).symm
      rw [show (k : ℝ) * Real.pi / 16 = (32 * (k / 32 : ℕ) + (k % 32 : ℕ)) * Real.pi / 16 by rw [← h]]
      ring
    rw [this, Real.cos_add_nat_mul_two_pi]
  rw [per]
  unfold cosScaled
  have hm : k % 32 < 32 := Nat.mod_lt _ (by decide)
  generalize k % 32 = m at hm
  simp only
  have neg : ∀ (a : ℤ) (x : ℝ), |(a : ℝ) / 2 ^ 128 - x| ≤ 1 / 2 ^ 128 → |((-a : ℤ) : ℝ) / 2 ^ 128 - -x| ≤ 1 / 2 ^ 128 := by
    intro a x h
    rw [abs_le] at h ⊢
    push_cast
    constructor <;> (rw [neg_div]; linarith [h.1, h.2])
  split
  · exact cosRom_close m ‹_›
  · split
    · have e : Real.cos (m * Real.pi / 16) = -Real.cos (((16 - m : ℕ) : ℝ) * Real.pi / 16) := by
        rw [← Real.cos_pi_sub, Nat.cast_sub ‹_›]; congr 1; push_cast; ring
      rw [e]
      exact neg _ _ (cosRom_close (16 - m) (by omega))
    · split
      · have e : Real.cos (m * Real.pi / 16) = -Real.cos (((m - 16 : ℕ) : ℝ) * Real.pi / 16) := by
          rw [← Real.cos_add_pi, Nat.cast_sub (by omega)]; congr 1; push_cast; ring
        rw [e]
        exact neg _ _ (cosRom_close (m - 16) (by omega))
      · have e : Real.cos (m * Real.pi / 16) = Real.cos (((32 - m : ℕ) : ℝ) * Real.pi / 16) := by
          rw [← Real.cos_two_pi_sub, Nat.cast_sub (by omega)]; congr 1; push_cast; ring
        rw [e]
        exact cosRom_close (32 - m) (by omega)

/-- A factor of the transform, C(u)·cos((2x+1)·u·π/16), is within 2^-128 of its scaled form (44_idct.md R261). -/
theorem basis_close (u x : ℕ) :
    |((basis u x : ℤ) : ℝ) / 2 ^ 128 -
      (if u = 0 then 1 / Real.sqrt 2 else 1) * Real.cos ((2 * x + 1) * u * Real.pi / 16)| ≤ 1 / 2 ^ 128 := by
  unfold basis
  split
  · rename_i h
    subst h
    have := cosScaled_close 4
    rw [show ((4 : ℕ) : ℝ) * Real.pi / 16 = Real.pi / 4 by push_cast; ring, Real.cos_pi_div_four] at this
    have e : (1 : ℝ) / Real.sqrt 2 = Real.sqrt 2 / 2 := by
      have h2 : Real.sqrt 2 * Real.sqrt 2 = 2 := Real.mul_self_sqrt (by norm_num)
      have h0 : Real.sqrt 2 ≠ 0 := by positivity
      field_simp; linarith
    simpa [e] using this
  · have := cosScaled_close ((2 * x + 1) * u)
    push_cast at this
    simpa using this

/-- The size of a factor of the transform. -/
theorem factor_le (u : ℕ) (t : ℝ) : |(if u = 0 then 1 / Real.sqrt 2 else 1) * Real.cos t| ≤ 1 := by
  rw [abs_mul]
  refine mul_le_one₀ ?_ (abs_nonneg _) (Real.abs_cos_le_one t)
  split
  · rw [abs_of_nonneg (by positivity), div_le_one (by positivity)]
    exact Real.one_le_sqrt.2 (by norm_num)
  · simp

theorem sum8_eq (f : ℕ → ℤ) : sum8 f = ∑ i : Fin 8, f i.val := by
  rw [Fin.sum_univ_eight]; rfl

/-- The exact integer `scaledSample` stands for the double sum over the scaled cosines. -/
theorem scaledSample_eq (b : Blk) (y x : Fin 8) :
    scaledSample (rowSums b) y.val x.val =
      ∑ v : Fin 8, ∑ u : Fin 8, basis v.val y.val * basis u.val x.val * (blkGet b (8 * v.val + u.val)).toInt := by
  unfold scaledSample
  rw [sum8_eq]
  refine Finset.sum_congr rfl fun v _ => ?_
  have h : 8 * v.val + x.val < 64 := by omega
  rw [vec_getD _ _ _ h, rowSums, vecOfFn_getElem, sum8_eq, Finset.mul_sum]
  refine Finset.sum_congr rfl fun u _ => ?_
  rw [show (8 * v.val + x.val) % 8 = x.val by omega, show (8 * v.val + x.val) / 8 = v.val by omega, mul_assoc]

/-- The real transform of 44_idct.md R261, one sample. -/
noncomputable def realSample (b : Blk) (y x : ℕ) : ℝ :=
  (1 / 4) * ∑ v : Fin 8, ∑ u : Fin 8,
    ((if v.val = 0 then 1 / Real.sqrt 2 else 1) * Real.cos ((2 * y + 1) * v.val * Real.pi / 16)) *
      ((if u.val = 0 then 1 / Real.sqrt 2 else 1) * Real.cos ((2 * x + 1) * u.val * Real.pi / 16)) *
        ((blkGet b (8 * v.val + u.val)).toInt : ℝ)

/-- The scaled transform is within 2^-91 of the real transform. -/
theorem scaledSample_close (b : Blk) (y x : Fin 8) :
    |((scaledSample (rowSums b) y.val x.val : ℤ) : ℝ) / (sampleScale : ℝ) - realSample b y.val x.val| ≤ 1 / 2 ^ 91 := by
  unfold realSample
  set f : ℕ → ℕ → ℝ := fun u x => (if u = 0 then 1 / Real.sqrt 2 else 1) * Real.cos ((2 * x + 1) * u * Real.pi / 16)
    with hf
  set B : ℕ → ℝ := fun k => ((blkGet b k).toInt : ℝ) with hB
  have hBk : ∀ k, |B k| ≤ 2 ^ 31 := by
    intro k
    have h1 := (blkGet b k).toInt_lt
    have h2 := (blkGet b k).le_toInt
    rw [abs_le]
    simp only [hB]
    constructor
    · have : (-(2 : ℤ) ^ 31) ≤ (blkGet b k).toInt := by simpa using h2
      exact_mod_cast this
    · have : (blkGet b k).toInt ≤ (2 : ℤ) ^ 31 := by have : (blkGet b k).toInt < 2 ^ 31 := by simpa using h1
                                                     exact le_of_lt this
      exact_mod_cast this
  have term : ∀ (v u : ℕ),
      |(basis v y.val : ℝ) / 2 ^ 128 * ((basis u x.val : ℝ) / 2 ^ 128) * B (8 * v + u) - f v y.val * f u x.val * B (8 * v + u)|
        ≤ 3 / 2 ^ 128 * 2 ^ 31 := by
    intro v u
    have hv : |(basis v y.val : ℝ) / 2 ^ 128 - f v y.val| ≤ 1 / 2 ^ 128 := basis_close v y.val
    have hu : |(basis u x.val : ℝ) / 2 ^ 128 - f u x.val| ≤ 1 / 2 ^ 128 := basis_close u x.val
    have fv : |f v y.val| ≤ 1 := factor_le v _
    have fu : |f u x.val| ≤ 1 := factor_le u _
    rw [← sub_mul, abs_mul]
    refine mul_le_mul ?_ (hBk _) (abs_nonneg _) (by positivity)
    have e : (basis v y.val : ℝ) / 2 ^ 128 * ((basis u x.val : ℝ) / 2 ^ 128) - f v y.val * f u x.val =
        ((basis v y.val : ℝ) / 2 ^ 128 - f v y.val) * ((basis u x.val : ℝ) / 2 ^ 128 - f u x.val) +
          ((basis v y.val : ℝ) / 2 ^ 128 - f v y.val) * f u x.val +
          f v y.val * ((basis u x.val : ℝ) / 2 ^ 128 - f u x.val) := by ring
    rw [e]
    refine le_trans (abs_add_three _ _ _) ?_
    rw [abs_mul, abs_mul _ (f u x.val), abs_mul (f v y.val)]
    have p1 := mul_le_mul hv hu (abs_nonneg _) (by positivity)
    have p2 := mul_le_mul hv fu (abs_nonneg _) (by positivity)
    have p3 := mul_le_mul fv hu (abs_nonneg _) (by positivity)
    refine le_trans (add_le_add (add_le_add p1 p2) p3) (by norm_num)
  have e : ((scaledSample (rowSums b) y.val x.val : ℤ) : ℝ) / (sampleScale : ℝ) = (1 / 4) * ∑ v : Fin 8, ∑ u : Fin 8,
      (basis v.val y.val : ℝ) / 2 ^ 128 * ((basis u.val x.val : ℝ) / 2 ^ 128) * B (8 * v.val + u.val) := by
    rw [scaledSample_eq, sampleScale]
    push_cast
    rw [Finset.sum_div, Finset.mul_sum]
    refine Finset.sum_congr rfl fun v _ => ?_
    rw [Finset.sum_div, Finset.mul_sum]
    refine Finset.sum_congr rfl fun u _ => ?_
    simp only [hB]
    ring
  rw [e, ← mul_sub, ← Finset.sum_sub_distrib, abs_mul]
  have s : |∑ v : Fin 8, ((∑ u : Fin 8,
        (basis v.val y.val : ℝ) / 2 ^ 128 * ((basis u.val x.val : ℝ) / 2 ^ 128) * B (8 * v.val + u.val)) -
      ∑ u : Fin 8, f v.val y.val * f u.val x.val * B (8 * v.val + u.val))| ≤ 8 * (8 * (3 / 2 ^ 128 * 2 ^ 31)) := by
    refine le_trans (Finset.abs_sum_le_sum_abs _ _) ?_
    refine le_trans (Finset.sum_le_card_nsmul _ _ (8 * (3 / 2 ^ 128 * 2 ^ 31)) fun v _ => ?_) (by simp)
    rw [← Finset.sum_sub_distrib]
    refine le_trans (Finset.abs_sum_le_sum_abs _ _) ?_
    refine le_trans (Finset.sum_le_card_nsmul _ _ (3 / 2 ^ 128 * 2 ^ 31) fun u _ => term _ _) (by simp)
  refine le_trans (mul_le_mul_of_nonneg_left s (abs_nonneg _)) (by norm_num)

end Sys2Proof.Machine
end

