-- ==== Sys2Proof/Laws/State.lean ====
section
/-! SUPPORT. What every named update does to every field of State, one lemma each, so that no later proof unfolds a record
update. -/

namespace Sys2Proof.Machine

/-! ## pushResult -/

@[simp] theorem State.pushResult_br (s : State) (w : Word) : (s.pushResult w).br = s.br := rfl
@[simp] theorem State.pushResult_htDc (s : State) (w : Word) : (s.pushResult w).htDc = s.htDc := rfl
@[simp] theorem State.pushResult_htAc (s : State) (w : Word) : (s.pushResult w).htAc = s.htAc := rfl
@[simp] theorem State.pushResult_qt (s : State) (w : Word) : (s.pushResult w).qt = s.qt := rfl
@[simp] theorem State.pushResult_slot (s : State) (w : Word) : (s.pushResult w).slot = s.slot := rfl
@[simp] theorem State.pushResult_pred (s : State) (w : Word) : (s.pushResult w).pred = s.pred := rfl
@[simp] theorem State.pushResult_blk (s : State) (w : Word) : (s.pushResult w).blk = s.blk := rfl
@[simp] theorem State.pushResult_config (s : State) (w : Word) : (s.pushResult w).config = s.config := rfl
@[simp] theorem State.pushResult_rstint (s : State) (w : Word) : (s.pushResult w).rstint = s.rstint := rfl
@[simp] theorem State.pushResult_faulted (s : State) (w : Word) : (s.pushResult w).faulted = s.faulted := rfl
@[simp] theorem State.pushResult_faultCode (s : State) (w : Word) : (s.pushResult w).faultCode = s.faultCode := rfl
@[simp] theorem State.pushResult_faultCmd (s : State) (w : Word) : (s.pushResult w).faultCmd = s.faultCmd := rfl
@[simp] theorem State.pushResult_faultInfo (s : State) (w : Word) : (s.pushResult w).faultInfo = s.faultInfo := rfl
@[simp] theorem State.pushResult_faultPos (s : State) (w : Word) : (s.pushResult w).faultPos = s.faultPos := rfl
@[simp] theorem State.pushResult_cmdOverrun (s : State) (w : Word) : (s.pushResult w).cmdOverrun = s.cmdOverrun := rfl
@[simp] theorem State.pushResult_resUnderflow (s : State) (w : Word) :
    (s.pushResult w).resUnderflow = s.resUnderflow := rfl
@[simp] theorem State.pushResult_outUnderflow (s : State) (w : Word) :
    (s.pushResult w).outUnderflow = s.outUnderflow := rfl
@[simp] theorem State.pushResult_irqEn (s : State) (w : Word) : (s.pushResult w).irqEn = s.irqEn := rfl
@[simp] theorem State.pushResult_cmdq (s : State) (w : Word) : (s.pushResult w).cmdq = s.cmdq := rfl
@[simp] theorem State.pushResult_resq (s : State) (w : Word) : (s.pushResult w).resq = s.resq ++ [w] := rfl
@[simp] theorem State.pushResult_outq (s : State) (w : Word) : (s.pushResult w).outq = s.outq := rfl
@[simp] theorem State.pushResult_seg (s : State) (w : Word) : (s.pushResult w).seg = s.seg := rfl
@[simp] theorem State.pushResult_draws (s : State) (w : Word) : (s.pushResult w).draws = s.draws := rfl
@[simp] theorem State.pushResult_bus (s : State) (w : Word) : (s.pushResult w).bus = s.bus := rfl
@[simp] theorem State.pushResult_busData (s : State) (w : Word) : (s.pushResult w).busData = s.busData := rfl

/-! ## pushOut -/

@[simp] theorem State.pushOut_br (s : State) (ws : List Word) : (s.pushOut ws).br = s.br := rfl
@[simp] theorem State.pushOut_htDc (s : State) (ws : List Word) : (s.pushOut ws).htDc = s.htDc := rfl
@[simp] theorem State.pushOut_htAc (s : State) (ws : List Word) : (s.pushOut ws).htAc = s.htAc := rfl
@[simp] theorem State.pushOut_qt (s : State) (ws : List Word) : (s.pushOut ws).qt = s.qt := rfl
@[simp] theorem State.pushOut_slot (s : State) (ws : List Word) : (s.pushOut ws).slot = s.slot := rfl
@[simp] theorem State.pushOut_pred (s : State) (ws : List Word) : (s.pushOut ws).pred = s.pred := rfl
@[simp] theorem State.pushOut_blk (s : State) (ws : List Word) : (s.pushOut ws).blk = s.blk := rfl
@[simp] theorem State.pushOut_config (s : State) (ws : List Word) : (s.pushOut ws).config = s.config := rfl
@[simp] theorem State.pushOut_rstint (s : State) (ws : List Word) : (s.pushOut ws).rstint = s.rstint := rfl
@[simp] theorem State.pushOut_faulted (s : State) (ws : List Word) : (s.pushOut ws).faulted = s.faulted := rfl
@[simp] theorem State.pushOut_faultCode (s : State) (ws : List Word) : (s.pushOut ws).faultCode = s.faultCode := rfl
@[simp] theorem State.pushOut_faultCmd (s : State) (ws : List Word) : (s.pushOut ws).faultCmd = s.faultCmd := rfl
@[simp] theorem State.pushOut_faultInfo (s : State) (ws : List Word) : (s.pushOut ws).faultInfo = s.faultInfo := rfl
@[simp] theorem State.pushOut_faultPos (s : State) (ws : List Word) : (s.pushOut ws).faultPos = s.faultPos := rfl
@[simp] theorem State.pushOut_cmdOverrun (s : State) (ws : List Word) :
    (s.pushOut ws).cmdOverrun = s.cmdOverrun := rfl
@[simp] theorem State.pushOut_resUnderflow (s : State) (ws : List Word) :
    (s.pushOut ws).resUnderflow = s.resUnderflow := rfl
@[simp] theorem State.pushOut_outUnderflow (s : State) (ws : List Word) :
    (s.pushOut ws).outUnderflow = s.outUnderflow := rfl
@[simp] theorem State.pushOut_irqEn (s : State) (ws : List Word) : (s.pushOut ws).irqEn = s.irqEn := rfl
@[simp] theorem State.pushOut_cmdq (s : State) (ws : List Word) : (s.pushOut ws).cmdq = s.cmdq := rfl
@[simp] theorem State.pushOut_resq (s : State) (ws : List Word) : (s.pushOut ws).resq = s.resq := rfl
@[simp] theorem State.pushOut_outq (s : State) (ws : List Word) : (s.pushOut ws).outq = s.outq ++ ws := rfl
@[simp] theorem State.pushOut_seg (s : State) (ws : List Word) : (s.pushOut ws).seg = s.seg := rfl
@[simp] theorem State.pushOut_draws (s : State) (ws : List Word) : (s.pushOut ws).draws = s.draws := rfl
@[simp] theorem State.pushOut_bus (s : State) (ws : List Word) : (s.pushOut ws).bus = s.bus := rfl
@[simp] theorem State.pushOut_busData (s : State) (ws : List Word) : (s.pushOut ws).busData = s.busData := rfl

/-! ## setQuant -/

@[simp] theorem State.setQuant_br (s : State) (t : BitVec 2) (q : QuantTable) : (s.setQuant t q).br = s.br := rfl
@[simp] theorem State.setQuant_htDc (s : State) (t : BitVec 2) (q : QuantTable) :
    (s.setQuant t q).htDc = s.htDc := rfl
@[simp] theorem State.setQuant_htAc (s : State) (t : BitVec 2) (q : QuantTable) :
    (s.setQuant t q).htAc = s.htAc := rfl
@[simp] theorem State.setQuant_qt (s : State) (t : BitVec 2) (q : QuantTable) :
    (s.setQuant t q).qt = s.qt.set t.toNat q t.isLt := rfl
@[simp] theorem State.setQuant_slot (s : State) (t : BitVec 2) (q : QuantTable) :
    (s.setQuant t q).slot = s.slot := rfl
@[simp] theorem State.setQuant_pred (s : State) (t : BitVec 2) (q : QuantTable) :
    (s.setQuant t q).pred = s.pred := rfl
@[simp] theorem State.setQuant_blk (s : State) (t : BitVec 2) (q : QuantTable) : (s.setQuant t q).blk = s.blk := rfl
@[simp] theorem State.setQuant_config (s : State) (t : BitVec 2) (q : QuantTable) :
    (s.setQuant t q).config = s.config := rfl
@[simp] theorem State.setQuant_rstint (s : State) (t : BitVec 2) (q : QuantTable) :
    (s.setQuant t q).rstint = s.rstint := rfl
@[simp] theorem State.setQuant_faulted (s : State) (t : BitVec 2) (q : QuantTable) :
    (s.setQuant t q).faulted = s.faulted := rfl
@[simp] theorem State.setQuant_faultCode (s : State) (t : BitVec 2) (q : QuantTable) :
    (s.setQuant t q).faultCode = s.faultCode := rfl
@[simp] theorem State.setQuant_faultCmd (s : State) (t : BitVec 2) (q : QuantTable) :
    (s.setQuant t q).faultCmd = s.faultCmd := rfl
@[simp] theorem State.setQuant_faultInfo (s : State) (t : BitVec 2) (q : QuantTable) :
    (s.setQuant t q).faultInfo = s.faultInfo := rfl
@[simp] theorem State.setQuant_faultPos (s : State) (t : BitVec 2) (q : QuantTable) :
    (s.setQuant t q).faultPos = s.faultPos := rfl
@[simp] theorem State.setQuant_cmdOverrun (s : State) (t : BitVec 2) (q : QuantTable) :
    (s.setQuant t q).cmdOverrun = s.cmdOverrun := rfl
@[simp] theorem State.setQuant_resUnderflow (s : State) (t : BitVec 2) (q : QuantTable) :
    (s.setQuant t q).resUnderflow = s.resUnderflow := rfl
@[simp] theorem State.setQuant_outUnderflow (s : State) (t : BitVec 2) (q : QuantTable) :
    (s.setQuant t q).outUnderflow = s.outUnderflow := rfl
@[simp] theorem State.setQuant_irqEn (s : State) (t : BitVec 2) (q : QuantTable) :
    (s.setQuant t q).irqEn = s.irqEn := rfl
@[simp] theorem State.setQuant_cmdq (s : State) (t : BitVec 2) (q : QuantTable) :
    (s.setQuant t q).cmdq = s.cmdq := rfl
@[simp] theorem State.setQuant_resq (s : State) (t : BitVec 2) (q : QuantTable) :
    (s.setQuant t q).resq = s.resq := rfl
@[simp] theorem State.setQuant_outq (s : State) (t : BitVec 2) (q : QuantTable) :
    (s.setQuant t q).outq = s.outq := rfl
@[simp] theorem State.setQuant_seg (s : State) (t : BitVec 2) (q : QuantTable) : (s.setQuant t q).seg = s.seg := rfl
@[simp] theorem State.setQuant_draws (s : State) (t : BitVec 2) (q : QuantTable) :
    (s.setQuant t q).draws = s.draws := rfl
@[simp] theorem State.setQuant_bus (s : State) (t : BitVec 2) (q : QuantTable) : (s.setQuant t q).bus = s.bus := rfl
@[simp] theorem State.setQuant_busData (s : State) (t : BitVec 2) (q : QuantTable) :
    (s.setQuant t q).busData = s.busData := rfl

/-! ## setSlot -/

@[simp] theorem State.setSlot_br (s : State) (t : BitVec 2) (x : Slot) : (s.setSlot t x).br = s.br := rfl
@[simp] theorem State.setSlot_htDc (s : State) (t : BitVec 2) (x : Slot) : (s.setSlot t x).htDc = s.htDc := rfl
@[simp] theorem State.setSlot_htAc (s : State) (t : BitVec 2) (x : Slot) : (s.setSlot t x).htAc = s.htAc := rfl
@[simp] theorem State.setSlot_qt (s : State) (t : BitVec 2) (x : Slot) : (s.setSlot t x).qt = s.qt := rfl
@[simp] theorem State.setSlot_slot (s : State) (t : BitVec 2) (x : Slot) :
    (s.setSlot t x).slot = s.slot.set t.toNat x t.isLt := rfl
@[simp] theorem State.setSlot_pred (s : State) (t : BitVec 2) (x : Slot) : (s.setSlot t x).pred = s.pred := rfl
@[simp] theorem State.setSlot_blk (s : State) (t : BitVec 2) (x : Slot) : (s.setSlot t x).blk = s.blk := rfl
@[simp] theorem State.setSlot_config (s : State) (t : BitVec 2) (x : Slot) : (s.setSlot t x).config = s.config := rfl
@[simp] theorem State.setSlot_rstint (s : State) (t : BitVec 2) (x : Slot) : (s.setSlot t x).rstint = s.rstint := rfl
@[simp] theorem State.setSlot_faulted (s : State) (t : BitVec 2) (x : Slot) :
    (s.setSlot t x).faulted = s.faulted := rfl
@[simp] theorem State.setSlot_faultCode (s : State) (t : BitVec 2) (x : Slot) :
    (s.setSlot t x).faultCode = s.faultCode := rfl
@[simp] theorem State.setSlot_faultCmd (s : State) (t : BitVec 2) (x : Slot) :
    (s.setSlot t x).faultCmd = s.faultCmd := rfl
@[simp] theorem State.setSlot_faultInfo (s : State) (t : BitVec 2) (x : Slot) :
    (s.setSlot t x).faultInfo = s.faultInfo := rfl
@[simp] theorem State.setSlot_faultPos (s : State) (t : BitVec 2) (x : Slot) :
    (s.setSlot t x).faultPos = s.faultPos := rfl
@[simp] theorem State.setSlot_cmdOverrun (s : State) (t : BitVec 2) (x : Slot) :
    (s.setSlot t x).cmdOverrun = s.cmdOverrun := rfl
@[simp] theorem State.setSlot_resUnderflow (s : State) (t : BitVec 2) (x : Slot) :
    (s.setSlot t x).resUnderflow = s.resUnderflow := rfl
@[simp] theorem State.setSlot_outUnderflow (s : State) (t : BitVec 2) (x : Slot) :
    (s.setSlot t x).outUnderflow = s.outUnderflow := rfl
@[simp] theorem State.setSlot_irqEn (s : State) (t : BitVec 2) (x : Slot) : (s.setSlot t x).irqEn = s.irqEn := rfl
@[simp] theorem State.setSlot_cmdq (s : State) (t : BitVec 2) (x : Slot) : (s.setSlot t x).cmdq = s.cmdq := rfl
@[simp] theorem State.setSlot_resq (s : State) (t : BitVec 2) (x : Slot) : (s.setSlot t x).resq = s.resq := rfl
@[simp] theorem State.setSlot_outq (s : State) (t : BitVec 2) (x : Slot) : (s.setSlot t x).outq = s.outq := rfl
@[simp] theorem State.setSlot_seg (s : State) (t : BitVec 2) (x : Slot) : (s.setSlot t x).seg = s.seg := rfl
@[simp] theorem State.setSlot_draws (s : State) (t : BitVec 2) (x : Slot) : (s.setSlot t x).draws = s.draws := rfl
@[simp] theorem State.setSlot_bus (s : State) (t : BitVec 2) (x : Slot) : (s.setSlot t x).bus = s.bus := rfl
@[simp] theorem State.setSlot_busData (s : State) (t : BitVec 2) (x : Slot) :
    (s.setSlot t x).busData = s.busData := rfl

/-! ## setPred -/

@[simp] theorem State.setPred_br (s : State) (t : BitVec 2) (w : Word) : (s.setPred t w).br = s.br := rfl
@[simp] theorem State.setPred_htDc (s : State) (t : BitVec 2) (w : Word) : (s.setPred t w).htDc = s.htDc := rfl
@[simp] theorem State.setPred_htAc (s : State) (t : BitVec 2) (w : Word) : (s.setPred t w).htAc = s.htAc := rfl
@[simp] theorem State.setPred_qt (s : State) (t : BitVec 2) (w : Word) : (s.setPred t w).qt = s.qt := rfl
@[simp] theorem State.setPred_slot (s : State) (t : BitVec 2) (w : Word) : (s.setPred t w).slot = s.slot := rfl
@[simp] theorem State.setPred_pred (s : State) (t : BitVec 2) (w : Word) :
    (s.setPred t w).pred = s.pred.set t.toNat w t.isLt := rfl
@[simp] theorem State.setPred_blk (s : State) (t : BitVec 2) (w : Word) : (s.setPred t w).blk = s.blk := rfl
@[simp] theorem State.setPred_config (s : State) (t : BitVec 2) (w : Word) : (s.setPred t w).config = s.config := rfl
@[simp] theorem State.setPred_rstint (s : State) (t : BitVec 2) (w : Word) : (s.setPred t w).rstint = s.rstint := rfl
@[simp] theorem State.setPred_faulted (s : State) (t : BitVec 2) (w : Word) :
    (s.setPred t w).faulted = s.faulted := rfl
@[simp] theorem State.setPred_faultCode (s : State) (t : BitVec 2) (w : Word) :
    (s.setPred t w).faultCode = s.faultCode := rfl
@[simp] theorem State.setPred_faultCmd (s : State) (t : BitVec 2) (w : Word) :
    (s.setPred t w).faultCmd = s.faultCmd := rfl
@[simp] theorem State.setPred_faultInfo (s : State) (t : BitVec 2) (w : Word) :
    (s.setPred t w).faultInfo = s.faultInfo := rfl
@[simp] theorem State.setPred_faultPos (s : State) (t : BitVec 2) (w : Word) :
    (s.setPred t w).faultPos = s.faultPos := rfl
@[simp] theorem State.setPred_cmdOverrun (s : State) (t : BitVec 2) (w : Word) :
    (s.setPred t w).cmdOverrun = s.cmdOverrun := rfl
@[simp] theorem State.setPred_resUnderflow (s : State) (t : BitVec 2) (w : Word) :
    (s.setPred t w).resUnderflow = s.resUnderflow := rfl
@[simp] theorem State.setPred_outUnderflow (s : State) (t : BitVec 2) (w : Word) :
    (s.setPred t w).outUnderflow = s.outUnderflow := rfl
@[simp] theorem State.setPred_irqEn (s : State) (t : BitVec 2) (w : Word) : (s.setPred t w).irqEn = s.irqEn := rfl
@[simp] theorem State.setPred_cmdq (s : State) (t : BitVec 2) (w : Word) : (s.setPred t w).cmdq = s.cmdq := rfl
@[simp] theorem State.setPred_resq (s : State) (t : BitVec 2) (w : Word) : (s.setPred t w).resq = s.resq := rfl
@[simp] theorem State.setPred_outq (s : State) (t : BitVec 2) (w : Word) : (s.setPred t w).outq = s.outq := rfl
@[simp] theorem State.setPred_seg (s : State) (t : BitVec 2) (w : Word) : (s.setPred t w).seg = s.seg := rfl
@[simp] theorem State.setPred_draws (s : State) (t : BitVec 2) (w : Word) : (s.setPred t w).draws = s.draws := rfl
@[simp] theorem State.setPred_bus (s : State) (t : BitVec 2) (w : Word) : (s.setPred t w).bus = s.bus := rfl
@[simp] theorem State.setPred_busData (s : State) (t : BitVec 2) (w : Word) :
    (s.setPred t w).busData = s.busData := rfl

/-! ## setBlkAt -/

@[simp] theorem State.setBlkAt_br (s : State) (k : BitVec 6) (w : Word) : (s.setBlkAt k w).br = s.br := rfl
@[simp] theorem State.setBlkAt_htDc (s : State) (k : BitVec 6) (w : Word) : (s.setBlkAt k w).htDc = s.htDc := rfl
@[simp] theorem State.setBlkAt_htAc (s : State) (k : BitVec 6) (w : Word) : (s.setBlkAt k w).htAc = s.htAc := rfl
@[simp] theorem State.setBlkAt_qt (s : State) (k : BitVec 6) (w : Word) : (s.setBlkAt k w).qt = s.qt := rfl
@[simp] theorem State.setBlkAt_slot (s : State) (k : BitVec 6) (w : Word) : (s.setBlkAt k w).slot = s.slot := rfl
@[simp] theorem State.setBlkAt_pred (s : State) (k : BitVec 6) (w : Word) : (s.setBlkAt k w).pred = s.pred := rfl
@[simp] theorem State.setBlkAt_blk (s : State) (k : BitVec 6) (w : Word) :
    (s.setBlkAt k w).blk = s.blk.set k.toNat w k.isLt := rfl
@[simp] theorem State.setBlkAt_config (s : State) (k : BitVec 6) (w : Word) :
    (s.setBlkAt k w).config = s.config := rfl
@[simp] theorem State.setBlkAt_rstint (s : State) (k : BitVec 6) (w : Word) :
    (s.setBlkAt k w).rstint = s.rstint := rfl
@[simp] theorem State.setBlkAt_faulted (s : State) (k : BitVec 6) (w : Word) :
    (s.setBlkAt k w).faulted = s.faulted := rfl
@[simp] theorem State.setBlkAt_faultCode (s : State) (k : BitVec 6) (w : Word) :
    (s.setBlkAt k w).faultCode = s.faultCode := rfl
@[simp] theorem State.setBlkAt_faultCmd (s : State) (k : BitVec 6) (w : Word) :
    (s.setBlkAt k w).faultCmd = s.faultCmd := rfl
@[simp] theorem State.setBlkAt_faultInfo (s : State) (k : BitVec 6) (w : Word) :
    (s.setBlkAt k w).faultInfo = s.faultInfo := rfl
@[simp] theorem State.setBlkAt_faultPos (s : State) (k : BitVec 6) (w : Word) :
    (s.setBlkAt k w).faultPos = s.faultPos := rfl
@[simp] theorem State.setBlkAt_cmdOverrun (s : State) (k : BitVec 6) (w : Word) :
    (s.setBlkAt k w).cmdOverrun = s.cmdOverrun := rfl
@[simp] theorem State.setBlkAt_resUnderflow (s : State) (k : BitVec 6) (w : Word) :
    (s.setBlkAt k w).resUnderflow = s.resUnderflow := rfl
@[simp] theorem State.setBlkAt_outUnderflow (s : State) (k : BitVec 6) (w : Word) :
    (s.setBlkAt k w).outUnderflow = s.outUnderflow := rfl
@[simp] theorem State.setBlkAt_irqEn (s : State) (k : BitVec 6) (w : Word) : (s.setBlkAt k w).irqEn = s.irqEn := rfl
@[simp] theorem State.setBlkAt_cmdq (s : State) (k : BitVec 6) (w : Word) : (s.setBlkAt k w).cmdq = s.cmdq := rfl
@[simp] theorem State.setBlkAt_resq (s : State) (k : BitVec 6) (w : Word) : (s.setBlkAt k w).resq = s.resq := rfl
@[simp] theorem State.setBlkAt_outq (s : State) (k : BitVec 6) (w : Word) : (s.setBlkAt k w).outq = s.outq := rfl
@[simp] theorem State.setBlkAt_seg (s : State) (k : BitVec 6) (w : Word) : (s.setBlkAt k w).seg = s.seg := rfl
@[simp] theorem State.setBlkAt_draws (s : State) (k : BitVec 6) (w : Word) : (s.setBlkAt k w).draws = s.draws := rfl
@[simp] theorem State.setBlkAt_bus (s : State) (k : BitVec 6) (w : Word) : (s.setBlkAt k w).bus = s.bus := rfl
@[simp] theorem State.setBlkAt_busData (s : State) (k : BitVec 6) (w : Word) :
    (s.setBlkAt k w).busData = s.busData := rfl

/-! ## withReadCtx -/

@[simp] theorem State.withReadCtx_br (s : State) (c : ReadCtx) : (s.withReadCtx c).br = c.br := rfl
@[simp] theorem State.withReadCtx_htDc (s : State) (c : ReadCtx) : (s.withReadCtx c).htDc = s.htDc := rfl
@[simp] theorem State.withReadCtx_htAc (s : State) (c : ReadCtx) : (s.withReadCtx c).htAc = s.htAc := rfl
@[simp] theorem State.withReadCtx_qt (s : State) (c : ReadCtx) : (s.withReadCtx c).qt = s.qt := rfl
@[simp] theorem State.withReadCtx_slot (s : State) (c : ReadCtx) : (s.withReadCtx c).slot = s.slot := rfl
@[simp] theorem State.withReadCtx_pred (s : State) (c : ReadCtx) : (s.withReadCtx c).pred = s.pred := rfl
@[simp] theorem State.withReadCtx_blk (s : State) (c : ReadCtx) : (s.withReadCtx c).blk = s.blk := rfl
@[simp] theorem State.withReadCtx_config (s : State) (c : ReadCtx) : (s.withReadCtx c).config = s.config := rfl
@[simp] theorem State.withReadCtx_rstint (s : State) (c : ReadCtx) : (s.withReadCtx c).rstint = s.rstint := rfl
@[simp] theorem State.withReadCtx_faulted (s : State) (c : ReadCtx) : (s.withReadCtx c).faulted = s.faulted := rfl
@[simp] theorem State.withReadCtx_faultCode (s : State) (c : ReadCtx) :
    (s.withReadCtx c).faultCode = s.faultCode := rfl
@[simp] theorem State.withReadCtx_faultCmd (s : State) (c : ReadCtx) : (s.withReadCtx c).faultCmd = s.faultCmd := rfl
@[simp] theorem State.withReadCtx_faultInfo (s : State) (c : ReadCtx) :
    (s.withReadCtx c).faultInfo = s.faultInfo := rfl
@[simp] theorem State.withReadCtx_faultPos (s : State) (c : ReadCtx) : (s.withReadCtx c).faultPos = s.faultPos := rfl
@[simp] theorem State.withReadCtx_cmdOverrun (s : State) (c : ReadCtx) :
    (s.withReadCtx c).cmdOverrun = s.cmdOverrun := rfl
@[simp] theorem State.withReadCtx_resUnderflow (s : State) (c : ReadCtx) :
    (s.withReadCtx c).resUnderflow = s.resUnderflow := rfl
@[simp] theorem State.withReadCtx_outUnderflow (s : State) (c : ReadCtx) :
    (s.withReadCtx c).outUnderflow = s.outUnderflow := rfl
@[simp] theorem State.withReadCtx_irqEn (s : State) (c : ReadCtx) : (s.withReadCtx c).irqEn = s.irqEn := rfl
@[simp] theorem State.withReadCtx_cmdq (s : State) (c : ReadCtx) : (s.withReadCtx c).cmdq = s.cmdq := rfl
@[simp] theorem State.withReadCtx_resq (s : State) (c : ReadCtx) : (s.withReadCtx c).resq = s.resq := rfl
@[simp] theorem State.withReadCtx_outq (s : State) (c : ReadCtx) : (s.withReadCtx c).outq = s.outq := rfl
@[simp] theorem State.withReadCtx_seg (s : State) (c : ReadCtx) : (s.withReadCtx c).seg = s.seg := rfl
@[simp] theorem State.withReadCtx_draws (s : State) (c : ReadCtx) : (s.withReadCtx c).draws = c.draws := rfl
@[simp] theorem State.withReadCtx_bus (s : State) (c : ReadCtx) : (s.withReadCtx c).bus = s.bus := rfl
@[simp] theorem State.withReadCtx_busData (s : State) (c : ReadCtx) : (s.withReadCtx c).busData = s.busData := rfl

/-! ## havocReader -/

@[simp] theorem State.havocReader_br (s : State) : (s.havocReader).br = anyReader s.posBound s.draws := rfl
@[simp] theorem State.havocReader_htDc (s : State) : (s.havocReader).htDc = s.htDc := rfl
@[simp] theorem State.havocReader_htAc (s : State) : (s.havocReader).htAc = s.htAc := rfl
@[simp] theorem State.havocReader_qt (s : State) : (s.havocReader).qt = s.qt := rfl
@[simp] theorem State.havocReader_slot (s : State) : (s.havocReader).slot = s.slot := rfl
@[simp] theorem State.havocReader_pred (s : State) : (s.havocReader).pred = s.pred := rfl
@[simp] theorem State.havocReader_blk (s : State) : (s.havocReader).blk = s.blk := rfl
@[simp] theorem State.havocReader_config (s : State) : (s.havocReader).config = s.config := rfl
@[simp] theorem State.havocReader_rstint (s : State) : (s.havocReader).rstint = s.rstint := rfl
@[simp] theorem State.havocReader_faulted (s : State) : (s.havocReader).faulted = s.faulted := rfl
@[simp] theorem State.havocReader_faultCode (s : State) : (s.havocReader).faultCode = s.faultCode := rfl
@[simp] theorem State.havocReader_faultCmd (s : State) : (s.havocReader).faultCmd = s.faultCmd := rfl
@[simp] theorem State.havocReader_faultInfo (s : State) : (s.havocReader).faultInfo = s.faultInfo := rfl
@[simp] theorem State.havocReader_faultPos (s : State) : (s.havocReader).faultPos = s.faultPos := rfl
@[simp] theorem State.havocReader_cmdOverrun (s : State) : (s.havocReader).cmdOverrun = s.cmdOverrun := rfl
@[simp] theorem State.havocReader_resUnderflow (s : State) : (s.havocReader).resUnderflow = s.resUnderflow := rfl
@[simp] theorem State.havocReader_outUnderflow (s : State) : (s.havocReader).outUnderflow = s.outUnderflow := rfl
@[simp] theorem State.havocReader_irqEn (s : State) : (s.havocReader).irqEn = s.irqEn := rfl
@[simp] theorem State.havocReader_cmdq (s : State) : (s.havocReader).cmdq = s.cmdq := rfl
@[simp] theorem State.havocReader_resq (s : State) : (s.havocReader).resq = s.resq := rfl
@[simp] theorem State.havocReader_outq (s : State) : (s.havocReader).outq = s.outq := rfl
@[simp] theorem State.havocReader_seg (s : State) : (s.havocReader).seg = s.seg := rfl
@[simp] theorem State.havocReader_draws (s : State) : (s.havocReader).draws = s.draws + 6 := rfl
@[simp] theorem State.havocReader_bus (s : State) : (s.havocReader).bus = s.bus := rfl
@[simp] theorem State.havocReader_busData (s : State) : (s.havocReader).busData = s.busData := rfl

/-! ## havocBlk -/

@[simp] theorem State.havocBlk_br (s : State) : (s.havocBlk).br = s.br := rfl
@[simp] theorem State.havocBlk_htDc (s : State) : (s.havocBlk).htDc = s.htDc := rfl
@[simp] theorem State.havocBlk_htAc (s : State) : (s.havocBlk).htAc = s.htAc := rfl
@[simp] theorem State.havocBlk_qt (s : State) : (s.havocBlk).qt = s.qt := rfl
@[simp] theorem State.havocBlk_slot (s : State) : (s.havocBlk).slot = s.slot := rfl
@[simp] theorem State.havocBlk_pred (s : State) : (s.havocBlk).pred = s.pred := rfl
@[simp] theorem State.havocBlk_blk (s : State) : (s.havocBlk).blk = anyBlk s.draws := rfl
@[simp] theorem State.havocBlk_config (s : State) : (s.havocBlk).config = s.config := rfl
@[simp] theorem State.havocBlk_rstint (s : State) : (s.havocBlk).rstint = s.rstint := rfl
@[simp] theorem State.havocBlk_faulted (s : State) : (s.havocBlk).faulted = s.faulted := rfl
@[simp] theorem State.havocBlk_faultCode (s : State) : (s.havocBlk).faultCode = s.faultCode := rfl
@[simp] theorem State.havocBlk_faultCmd (s : State) : (s.havocBlk).faultCmd = s.faultCmd := rfl
@[simp] theorem State.havocBlk_faultInfo (s : State) : (s.havocBlk).faultInfo = s.faultInfo := rfl
@[simp] theorem State.havocBlk_faultPos (s : State) : (s.havocBlk).faultPos = s.faultPos := rfl
@[simp] theorem State.havocBlk_cmdOverrun (s : State) : (s.havocBlk).cmdOverrun = s.cmdOverrun := rfl
@[simp] theorem State.havocBlk_resUnderflow (s : State) : (s.havocBlk).resUnderflow = s.resUnderflow := rfl
@[simp] theorem State.havocBlk_outUnderflow (s : State) : (s.havocBlk).outUnderflow = s.outUnderflow := rfl
@[simp] theorem State.havocBlk_irqEn (s : State) : (s.havocBlk).irqEn = s.irqEn := rfl
@[simp] theorem State.havocBlk_cmdq (s : State) : (s.havocBlk).cmdq = s.cmdq := rfl
@[simp] theorem State.havocBlk_resq (s : State) : (s.havocBlk).resq = s.resq := rfl
@[simp] theorem State.havocBlk_outq (s : State) : (s.havocBlk).outq = s.outq := rfl
@[simp] theorem State.havocBlk_seg (s : State) : (s.havocBlk).seg = s.seg := rfl
@[simp] theorem State.havocBlk_draws (s : State) : (s.havocBlk).draws = s.draws + 64 := rfl
@[simp] theorem State.havocBlk_bus (s : State) : (s.havocBlk).bus = s.bus := rfl
@[simp] theorem State.havocBlk_busData (s : State) : (s.havocBlk).busData = s.busData := rfl

/-! ## havocPred -/

@[simp] theorem State.havocPred_br (s : State) (t : BitVec 2) : (s.havocPred t).br = s.br := rfl
@[simp] theorem State.havocPred_htDc (s : State) (t : BitVec 2) : (s.havocPred t).htDc = s.htDc := rfl
@[simp] theorem State.havocPred_htAc (s : State) (t : BitVec 2) : (s.havocPred t).htAc = s.htAc := rfl
@[simp] theorem State.havocPred_qt (s : State) (t : BitVec 2) : (s.havocPred t).qt = s.qt := rfl
@[simp] theorem State.havocPred_slot (s : State) (t : BitVec 2) : (s.havocPred t).slot = s.slot := rfl
@[simp] theorem State.havocPred_pred (s : State) (t : BitVec 2) :
    (s.havocPred t).pred = s.pred.set t.toNat (BitVec.ofNat 32 (Config.freeNat s.draws)) t.isLt := rfl
@[simp] theorem State.havocPred_blk (s : State) (t : BitVec 2) : (s.havocPred t).blk = s.blk := rfl
@[simp] theorem State.havocPred_config (s : State) (t : BitVec 2) : (s.havocPred t).config = s.config := rfl
@[simp] theorem State.havocPred_rstint (s : State) (t : BitVec 2) : (s.havocPred t).rstint = s.rstint := rfl
@[simp] theorem State.havocPred_faulted (s : State) (t : BitVec 2) : (s.havocPred t).faulted = s.faulted := rfl
@[simp] theorem State.havocPred_faultCode (s : State) (t : BitVec 2) : (s.havocPred t).faultCode = s.faultCode := rfl
@[simp] theorem State.havocPred_faultCmd (s : State) (t : BitVec 2) : (s.havocPred t).faultCmd = s.faultCmd := rfl
@[simp] theorem State.havocPred_faultInfo (s : State) (t : BitVec 2) : (s.havocPred t).faultInfo = s.faultInfo := rfl
@[simp] theorem State.havocPred_faultPos (s : State) (t : BitVec 2) : (s.havocPred t).faultPos = s.faultPos := rfl
@[simp] theorem State.havocPred_cmdOverrun (s : State) (t : BitVec 2) :
    (s.havocPred t).cmdOverrun = s.cmdOverrun := rfl
@[simp] theorem State.havocPred_resUnderflow (s : State) (t : BitVec 2) :
    (s.havocPred t).resUnderflow = s.resUnderflow := rfl
@[simp] theorem State.havocPred_outUnderflow (s : State) (t : BitVec 2) :
    (s.havocPred t).outUnderflow = s.outUnderflow := rfl
@[simp] theorem State.havocPred_irqEn (s : State) (t : BitVec 2) : (s.havocPred t).irqEn = s.irqEn := rfl
@[simp] theorem State.havocPred_cmdq (s : State) (t : BitVec 2) : (s.havocPred t).cmdq = s.cmdq := rfl
@[simp] theorem State.havocPred_resq (s : State) (t : BitVec 2) : (s.havocPred t).resq = s.resq := rfl
@[simp] theorem State.havocPred_outq (s : State) (t : BitVec 2) : (s.havocPred t).outq = s.outq := rfl
@[simp] theorem State.havocPred_seg (s : State) (t : BitVec 2) : (s.havocPred t).seg = s.seg := rfl
@[simp] theorem State.havocPred_draws (s : State) (t : BitVec 2) : (s.havocPred t).draws = s.draws + 1 := rfl
@[simp] theorem State.havocPred_bus (s : State) (t : BitVec 2) : (s.havocPred t).bus = s.bus := rfl
@[simp] theorem State.havocPred_busData (s : State) (t : BitVec 2) : (s.havocPred t).busData = s.busData := rfl

/-! ## havocDecode -/

@[simp] theorem State.havocDecode_br (s : State) (t : BitVec 2) :
    (s.havocDecode t).br = anyReader s.posBound s.draws := rfl
@[simp] theorem State.havocDecode_htDc (s : State) (t : BitVec 2) : (s.havocDecode t).htDc = s.htDc := rfl
@[simp] theorem State.havocDecode_htAc (s : State) (t : BitVec 2) : (s.havocDecode t).htAc = s.htAc := rfl
@[simp] theorem State.havocDecode_qt (s : State) (t : BitVec 2) : (s.havocDecode t).qt = s.qt := rfl
@[simp] theorem State.havocDecode_slot (s : State) (t : BitVec 2) : (s.havocDecode t).slot = s.slot := rfl
@[simp] theorem State.havocDecode_pred (s : State) (t : BitVec 2) :
    (s.havocDecode t).pred = s.pred.set t.toNat (BitVec.ofNat 32 (Config.freeNat (s.draws + 6 + 64))) t.isLt := rfl
@[simp] theorem State.havocDecode_blk (s : State) (t : BitVec 2) : (s.havocDecode t).blk = anyBlk (s.draws + 6) := rfl
@[simp] theorem State.havocDecode_config (s : State) (t : BitVec 2) : (s.havocDecode t).config = s.config := rfl
@[simp] theorem State.havocDecode_rstint (s : State) (t : BitVec 2) : (s.havocDecode t).rstint = s.rstint := rfl
@[simp] theorem State.havocDecode_faulted (s : State) (t : BitVec 2) : (s.havocDecode t).faulted = s.faulted := rfl
@[simp] theorem State.havocDecode_faultCode (s : State) (t : BitVec 2) :
    (s.havocDecode t).faultCode = s.faultCode := rfl
@[simp] theorem State.havocDecode_faultCmd (s : State) (t : BitVec 2) : (s.havocDecode t).faultCmd = s.faultCmd := rfl
@[simp] theorem State.havocDecode_faultInfo (s : State) (t : BitVec 2) :
    (s.havocDecode t).faultInfo = s.faultInfo := rfl
@[simp] theorem State.havocDecode_faultPos (s : State) (t : BitVec 2) : (s.havocDecode t).faultPos = s.faultPos := rfl
@[simp] theorem State.havocDecode_cmdOverrun (s : State) (t : BitVec 2) :
    (s.havocDecode t).cmdOverrun = s.cmdOverrun := rfl
@[simp] theorem State.havocDecode_resUnderflow (s : State) (t : BitVec 2) :
    (s.havocDecode t).resUnderflow = s.resUnderflow := rfl
@[simp] theorem State.havocDecode_outUnderflow (s : State) (t : BitVec 2) :
    (s.havocDecode t).outUnderflow = s.outUnderflow := rfl
@[simp] theorem State.havocDecode_irqEn (s : State) (t : BitVec 2) : (s.havocDecode t).irqEn = s.irqEn := rfl
@[simp] theorem State.havocDecode_cmdq (s : State) (t : BitVec 2) : (s.havocDecode t).cmdq = s.cmdq := rfl
@[simp] theorem State.havocDecode_resq (s : State) (t : BitVec 2) : (s.havocDecode t).resq = s.resq := rfl
@[simp] theorem State.havocDecode_outq (s : State) (t : BitVec 2) : (s.havocDecode t).outq = s.outq := rfl
@[simp] theorem State.havocDecode_seg (s : State) (t : BitVec 2) : (s.havocDecode t).seg = s.seg := rfl
@[simp] theorem State.havocDecode_draws (s : State) (t : BitVec 2) :
    (s.havocDecode t).draws = s.draws + 6 + 64 + 1 := rfl
@[simp] theorem State.havocDecode_bus (s : State) (t : BitVec 2) : (s.havocDecode t).bus = s.bus := rfl
@[simp] theorem State.havocDecode_busData (s : State) (t : BitVec 2) : (s.havocDecode t).busData = s.busData := rfl

/-! ## invalidateTables -/

@[simp] theorem State.invalidateTables_br (s : State) : (s.invalidateTables).br = s.br := rfl
@[simp] theorem State.invalidateTables_htDc (s : State) :
    (s.invalidateTables).htDc = vecMap (fun t => { t with valid := false }) s.htDc := rfl
@[simp] theorem State.invalidateTables_htAc (s : State) :
    (s.invalidateTables).htAc = vecMap (fun t => { t with valid := false }) s.htAc := rfl
@[simp] theorem State.invalidateTables_qt (s : State) : (s.invalidateTables).qt = s.qt := rfl
@[simp] theorem State.invalidateTables_slot (s : State) : (s.invalidateTables).slot = s.slot := rfl
@[simp] theorem State.invalidateTables_pred (s : State) : (s.invalidateTables).pred = s.pred := rfl
@[simp] theorem State.invalidateTables_blk (s : State) : (s.invalidateTables).blk = s.blk := rfl
@[simp] theorem State.invalidateTables_config (s : State) : (s.invalidateTables).config = s.config := rfl
@[simp] theorem State.invalidateTables_rstint (s : State) : (s.invalidateTables).rstint = s.rstint := rfl
@[simp] theorem State.invalidateTables_faulted (s : State) : (s.invalidateTables).faulted = s.faulted := rfl
@[simp] theorem State.invalidateTables_faultCode (s : State) : (s.invalidateTables).faultCode = s.faultCode := rfl
@[simp] theorem State.invalidateTables_faultCmd (s : State) : (s.invalidateTables).faultCmd = s.faultCmd := rfl
@[simp] theorem State.invalidateTables_faultInfo (s : State) : (s.invalidateTables).faultInfo = s.faultInfo := rfl
@[simp] theorem State.invalidateTables_faultPos (s : State) : (s.invalidateTables).faultPos = s.faultPos := rfl
@[simp] theorem State.invalidateTables_cmdOverrun (s : State) : (s.invalidateTables).cmdOverrun = s.cmdOverrun := rfl
@[simp] theorem State.invalidateTables_resUnderflow (s : State) :
    (s.invalidateTables).resUnderflow = s.resUnderflow := rfl
@[simp] theorem State.invalidateTables_outUnderflow (s : State) :
    (s.invalidateTables).outUnderflow = s.outUnderflow := rfl
@[simp] theorem State.invalidateTables_irqEn (s : State) : (s.invalidateTables).irqEn = s.irqEn := rfl
@[simp] theorem State.invalidateTables_cmdq (s : State) : (s.invalidateTables).cmdq = s.cmdq := rfl
@[simp] theorem State.invalidateTables_resq (s : State) : (s.invalidateTables).resq = s.resq := rfl
@[simp] theorem State.invalidateTables_outq (s : State) : (s.invalidateTables).outq = s.outq := rfl
@[simp] theorem State.invalidateTables_seg (s : State) : (s.invalidateTables).seg = s.seg := rfl
@[simp] theorem State.invalidateTables_draws (s : State) : (s.invalidateTables).draws = s.draws := rfl
@[simp] theorem State.invalidateTables_bus (s : State) : (s.invalidateTables).bus = s.bus := rfl
@[simp] theorem State.invalidateTables_busData (s : State) : (s.invalidateTables).busData = s.busData := rfl

/-! ## enterFault -/

@[simp] theorem State.enterFault_br (s : State) (cmd : Word) (kind : FaultKind) (info : Word) (pos : BitVec 25) :
    (s.enterFault cmd kind info pos).br = s.br := rfl
@[simp] theorem State.enterFault_htDc (s : State) (cmd : Word) (kind : FaultKind) (info : Word) (pos : BitVec 25) :
    (s.enterFault cmd kind info pos).htDc = s.htDc := rfl
@[simp] theorem State.enterFault_htAc (s : State) (cmd : Word) (kind : FaultKind) (info : Word) (pos : BitVec 25) :
    (s.enterFault cmd kind info pos).htAc = s.htAc := rfl
@[simp] theorem State.enterFault_qt (s : State) (cmd : Word) (kind : FaultKind) (info : Word) (pos : BitVec 25) :
    (s.enterFault cmd kind info pos).qt = s.qt := rfl
@[simp] theorem State.enterFault_slot (s : State) (cmd : Word) (kind : FaultKind) (info : Word) (pos : BitVec 25) :
    (s.enterFault cmd kind info pos).slot = s.slot := rfl
@[simp] theorem State.enterFault_pred (s : State) (cmd : Word) (kind : FaultKind) (info : Word) (pos : BitVec 25) :
    (s.enterFault cmd kind info pos).pred = s.pred := rfl
@[simp] theorem State.enterFault_blk (s : State) (cmd : Word) (kind : FaultKind) (info : Word) (pos : BitVec 25) :
    (s.enterFault cmd kind info pos).blk = s.blk := rfl
@[simp] theorem State.enterFault_config (s : State) (cmd : Word) (kind : FaultKind) (info : Word) (pos : BitVec 25) :
    (s.enterFault cmd kind info pos).config = s.config := rfl
@[simp] theorem State.enterFault_rstint (s : State) (cmd : Word) (kind : FaultKind) (info : Word) (pos : BitVec 25) :
    (s.enterFault cmd kind info pos).rstint = s.rstint := rfl
@[simp] theorem State.enterFault_faulted (s : State) (cmd : Word) (kind : FaultKind) (info : Word) (pos : BitVec 25) :
    (s.enterFault cmd kind info pos).faulted = true := rfl
@[simp] theorem State.enterFault_faultCode (s : State) (cmd : Word) (kind : FaultKind) (info : Word) (pos : BitVec 25) :
    (s.enterFault cmd kind info pos).faultCode = kind.code := rfl
@[simp] theorem State.enterFault_faultCmd (s : State) (cmd : Word) (kind : FaultKind) (info : Word) (pos : BitVec 25) :
    (s.enterFault cmd kind info pos).faultCmd = cmd := rfl
@[simp] theorem State.enterFault_faultInfo (s : State) (cmd : Word) (kind : FaultKind) (info : Word) (pos : BitVec 25) :
    (s.enterFault cmd kind info pos).faultInfo = info := rfl
@[simp] theorem State.enterFault_faultPos (s : State) (cmd : Word) (kind : FaultKind) (info : Word) (pos : BitVec 25) :
    (s.enterFault cmd kind info pos).faultPos = pos := rfl
@[simp] theorem State.enterFault_cmdOverrun (s : State) (cmd : Word) (kind : FaultKind) (info : Word) (pos : BitVec 25) :
    (s.enterFault cmd kind info pos).cmdOverrun = s.cmdOverrun := rfl
@[simp] theorem State.enterFault_resUnderflow (s : State) (cmd : Word) (kind : FaultKind) (info : Word) (pos : BitVec 25) :
    (s.enterFault cmd kind info pos).resUnderflow = s.resUnderflow := rfl
@[simp] theorem State.enterFault_outUnderflow (s : State) (cmd : Word) (kind : FaultKind) (info : Word) (pos : BitVec 25) :
    (s.enterFault cmd kind info pos).outUnderflow = s.outUnderflow := rfl
@[simp] theorem State.enterFault_irqEn (s : State) (cmd : Word) (kind : FaultKind) (info : Word) (pos : BitVec 25) :
    (s.enterFault cmd kind info pos).irqEn = s.irqEn := rfl
@[simp] theorem State.enterFault_cmdq (s : State) (cmd : Word) (kind : FaultKind) (info : Word) (pos : BitVec 25) :
    (s.enterFault cmd kind info pos).cmdq = s.cmdq := rfl
@[simp] theorem State.enterFault_resq (s : State) (cmd : Word) (kind : FaultKind) (info : Word) (pos : BitVec 25) :
    (s.enterFault cmd kind info pos).resq = s.resq := rfl
@[simp] theorem State.enterFault_outq (s : State) (cmd : Word) (kind : FaultKind) (info : Word) (pos : BitVec 25) :
    (s.enterFault cmd kind info pos).outq = s.outq := rfl
@[simp] theorem State.enterFault_seg (s : State) (cmd : Word) (kind : FaultKind) (info : Word) (pos : BitVec 25) :
    (s.enterFault cmd kind info pos).seg = s.seg := rfl
@[simp] theorem State.enterFault_draws (s : State) (cmd : Word) (kind : FaultKind) (info : Word) (pos : BitVec 25) :
    (s.enterFault cmd kind info pos).draws = s.draws := rfl
@[simp] theorem State.enterFault_bus (s : State) (cmd : Word) (kind : FaultKind) (info : Word) (pos : BitVec 25) :
    (s.enterFault cmd kind info pos).bus = s.bus := rfl
@[simp] theorem State.enterFault_busData (s : State) (cmd : Word) (kind : FaultKind) (info : Word) (pos : BitVec 25) :
    (s.enterFault cmd kind info pos).busData = s.busData := rfl

/-! ## clearFault -/

@[simp] theorem State.clearFault_br (s : State) : (s.clearFault).br = s.br := rfl
@[simp] theorem State.clearFault_htDc (s : State) : (s.clearFault).htDc = s.htDc := rfl
@[simp] theorem State.clearFault_htAc (s : State) : (s.clearFault).htAc = s.htAc := rfl
@[simp] theorem State.clearFault_qt (s : State) : (s.clearFault).qt = s.qt := rfl
@[simp] theorem State.clearFault_slot (s : State) : (s.clearFault).slot = s.slot := rfl
@[simp] theorem State.clearFault_pred (s : State) : (s.clearFault).pred = s.pred := rfl
@[simp] theorem State.clearFault_blk (s : State) : (s.clearFault).blk = s.blk := rfl
@[simp] theorem State.clearFault_config (s : State) : (s.clearFault).config = s.config := rfl
@[simp] theorem State.clearFault_rstint (s : State) : (s.clearFault).rstint = s.rstint := rfl
@[simp] theorem State.clearFault_faulted (s : State) : (s.clearFault).faulted = false := rfl
@[simp] theorem State.clearFault_faultCode (s : State) : (s.clearFault).faultCode = 0 := rfl
@[simp] theorem State.clearFault_faultCmd (s : State) : (s.clearFault).faultCmd = 0 := rfl
@[simp] theorem State.clearFault_faultInfo (s : State) : (s.clearFault).faultInfo = 0 := rfl
@[simp] theorem State.clearFault_faultPos (s : State) : (s.clearFault).faultPos = 0 := rfl
@[simp] theorem State.clearFault_cmdOverrun (s : State) : (s.clearFault).cmdOverrun = s.cmdOverrun := rfl
@[simp] theorem State.clearFault_resUnderflow (s : State) : (s.clearFault).resUnderflow = s.resUnderflow := rfl
@[simp] theorem State.clearFault_outUnderflow (s : State) : (s.clearFault).outUnderflow = s.outUnderflow := rfl
@[simp] theorem State.clearFault_irqEn (s : State) : (s.clearFault).irqEn = s.irqEn := rfl
@[simp] theorem State.clearFault_cmdq (s : State) : (s.clearFault).cmdq = [] := rfl
@[simp] theorem State.clearFault_resq (s : State) : (s.clearFault).resq = s.resq := rfl
@[simp] theorem State.clearFault_outq (s : State) : (s.clearFault).outq = s.outq := rfl
@[simp] theorem State.clearFault_seg (s : State) : (s.clearFault).seg = s.seg := rfl
@[simp] theorem State.clearFault_draws (s : State) : (s.clearFault).draws = s.draws := rfl
@[simp] theorem State.clearFault_bus (s : State) : (s.clearFault).bus = s.bus := rfl
@[simp] theorem State.clearFault_busData (s : State) : (s.clearFault).busData = s.busData := rfl

/-! ## clearSticky -/

@[simp] theorem State.clearSticky_br (s : State) : (s.clearSticky).br = s.br := rfl
@[simp] theorem State.clearSticky_htDc (s : State) : (s.clearSticky).htDc = s.htDc := rfl
@[simp] theorem State.clearSticky_htAc (s : State) : (s.clearSticky).htAc = s.htAc := rfl
@[simp] theorem State.clearSticky_qt (s : State) : (s.clearSticky).qt = s.qt := rfl
@[simp] theorem State.clearSticky_slot (s : State) : (s.clearSticky).slot = s.slot := rfl
@[simp] theorem State.clearSticky_pred (s : State) : (s.clearSticky).pred = s.pred := rfl
@[simp] theorem State.clearSticky_blk (s : State) : (s.clearSticky).blk = s.blk := rfl
@[simp] theorem State.clearSticky_config (s : State) : (s.clearSticky).config = s.config := rfl
@[simp] theorem State.clearSticky_rstint (s : State) : (s.clearSticky).rstint = s.rstint := rfl
@[simp] theorem State.clearSticky_faulted (s : State) : (s.clearSticky).faulted = s.faulted := rfl
@[simp] theorem State.clearSticky_faultCode (s : State) : (s.clearSticky).faultCode = s.faultCode := rfl
@[simp] theorem State.clearSticky_faultCmd (s : State) : (s.clearSticky).faultCmd = s.faultCmd := rfl
@[simp] theorem State.clearSticky_faultInfo (s : State) : (s.clearSticky).faultInfo = s.faultInfo := rfl
@[simp] theorem State.clearSticky_faultPos (s : State) : (s.clearSticky).faultPos = s.faultPos := rfl
@[simp] theorem State.clearSticky_cmdOverrun (s : State) : (s.clearSticky).cmdOverrun = false := rfl
@[simp] theorem State.clearSticky_resUnderflow (s : State) : (s.clearSticky).resUnderflow = false := rfl
@[simp] theorem State.clearSticky_outUnderflow (s : State) : (s.clearSticky).outUnderflow = false := rfl
@[simp] theorem State.clearSticky_irqEn (s : State) : (s.clearSticky).irqEn = s.irqEn := rfl
@[simp] theorem State.clearSticky_cmdq (s : State) : (s.clearSticky).cmdq = s.cmdq := rfl
@[simp] theorem State.clearSticky_resq (s : State) : (s.clearSticky).resq = s.resq := rfl
@[simp] theorem State.clearSticky_outq (s : State) : (s.clearSticky).outq = s.outq := rfl
@[simp] theorem State.clearSticky_seg (s : State) : (s.clearSticky).seg = s.seg := rfl
@[simp] theorem State.clearSticky_draws (s : State) : (s.clearSticky).draws = s.draws := rfl
@[simp] theorem State.clearSticky_bus (s : State) : (s.clearSticky).bus = s.bus := rfl
@[simp] theorem State.clearSticky_busData (s : State) : (s.clearSticky).busData = s.busData := rfl

/-! ## setTable -/

@[simp] theorem State.setTable_br (s : State) (c : HuffClass) (t : BitVec 2) (x : HuffTable) :
    (s.setTable c t x).br = s.br := by cases c <;> rfl
@[simp] theorem State.setTable_qt (s : State) (c : HuffClass) (t : BitVec 2) (x : HuffTable) :
    (s.setTable c t x).qt = s.qt := by cases c <;> rfl
@[simp] theorem State.setTable_slot (s : State) (c : HuffClass) (t : BitVec 2) (x : HuffTable) :
    (s.setTable c t x).slot = s.slot := by cases c <;> rfl
@[simp] theorem State.setTable_pred (s : State) (c : HuffClass) (t : BitVec 2) (x : HuffTable) :
    (s.setTable c t x).pred = s.pred := by cases c <;> rfl
@[simp] theorem State.setTable_blk (s : State) (c : HuffClass) (t : BitVec 2) (x : HuffTable) :
    (s.setTable c t x).blk = s.blk := by cases c <;> rfl
@[simp] theorem State.setTable_config (s : State) (c : HuffClass) (t : BitVec 2) (x : HuffTable) :
    (s.setTable c t x).config = s.config := by cases c <;> rfl
@[simp] theorem State.setTable_rstint (s : State) (c : HuffClass) (t : BitVec 2) (x : HuffTable) :
    (s.setTable c t x).rstint = s.rstint := by cases c <;> rfl
@[simp] theorem State.setTable_faulted (s : State) (c : HuffClass) (t : BitVec 2) (x : HuffTable) :
    (s.setTable c t x).faulted = s.faulted := by cases c <;> rfl
@[simp] theorem State.setTable_faultCode (s : State) (c : HuffClass) (t : BitVec 2) (x : HuffTable) :
    (s.setTable c t x).faultCode = s.faultCode := by cases c <;> rfl
@[simp] theorem State.setTable_faultCmd (s : State) (c : HuffClass) (t : BitVec 2) (x : HuffTable) :
    (s.setTable c t x).faultCmd = s.faultCmd := by cases c <;> rfl
@[simp] theorem State.setTable_faultInfo (s : State) (c : HuffClass) (t : BitVec 2) (x : HuffTable) :
    (s.setTable c t x).faultInfo = s.faultInfo := by cases c <;> rfl
@[simp] theorem State.setTable_faultPos (s : State) (c : HuffClass) (t : BitVec 2) (x : HuffTable) :
    (s.setTable c t x).faultPos = s.faultPos := by cases c <;> rfl
@[simp] theorem State.setTable_cmdOverrun (s : State) (c : HuffClass) (t : BitVec 2) (x : HuffTable) :
    (s.setTable c t x).cmdOverrun = s.cmdOverrun := by cases c <;> rfl
@[simp] theorem State.setTable_resUnderflow (s : State) (c : HuffClass) (t : BitVec 2) (x : HuffTable) :
    (s.setTable c t x).resUnderflow = s.resUnderflow := by cases c <;> rfl
@[simp] theorem State.setTable_outUnderflow (s : State) (c : HuffClass) (t : BitVec 2) (x : HuffTable) :
    (s.setTable c t x).outUnderflow = s.outUnderflow := by cases c <;> rfl
@[simp] theorem State.setTable_irqEn (s : State) (c : HuffClass) (t : BitVec 2) (x : HuffTable) :
    (s.setTable c t x).irqEn = s.irqEn := by cases c <;> rfl
@[simp] theorem State.setTable_cmdq (s : State) (c : HuffClass) (t : BitVec 2) (x : HuffTable) :
    (s.setTable c t x).cmdq = s.cmdq := by cases c <;> rfl
@[simp] theorem State.setTable_resq (s : State) (c : HuffClass) (t : BitVec 2) (x : HuffTable) :
    (s.setTable c t x).resq = s.resq := by cases c <;> rfl
@[simp] theorem State.setTable_outq (s : State) (c : HuffClass) (t : BitVec 2) (x : HuffTable) :
    (s.setTable c t x).outq = s.outq := by cases c <;> rfl
@[simp] theorem State.setTable_seg (s : State) (c : HuffClass) (t : BitVec 2) (x : HuffTable) :
    (s.setTable c t x).seg = s.seg := by cases c <;> rfl
@[simp] theorem State.setTable_draws (s : State) (c : HuffClass) (t : BitVec 2) (x : HuffTable) :
    (s.setTable c t x).draws = s.draws := by cases c <;> rfl
@[simp] theorem State.setTable_bus (s : State) (c : HuffClass) (t : BitVec 2) (x : HuffTable) :
    (s.setTable c t x).bus = s.bus := by cases c <;> rfl
@[simp] theorem State.setTable_busData (s : State) (c : HuffClass) (t : BitVec 2) (x : HuffTable) :
    (s.setTable c t x).busData = s.busData := by cases c <;> rfl

/-! ## settle -/

@[simp] theorem State.settle_br (s : State) : s.settle.br = s.br := by unfold State.settle; split <;> rfl
@[simp] theorem State.settle_htDc (s : State) : s.settle.htDc = s.htDc := by unfold State.settle; split <;> rfl
@[simp] theorem State.settle_htAc (s : State) : s.settle.htAc = s.htAc := by unfold State.settle; split <;> rfl
@[simp] theorem State.settle_qt (s : State) : s.settle.qt = s.qt := by unfold State.settle; split <;> rfl
@[simp] theorem State.settle_slot (s : State) : s.settle.slot = s.slot := by unfold State.settle; split <;> rfl
@[simp] theorem State.settle_pred (s : State) : s.settle.pred = s.pred := by unfold State.settle; split <;> rfl
@[simp] theorem State.settle_blk (s : State) : s.settle.blk = s.blk := by unfold State.settle; split <;> rfl
@[simp] theorem State.settle_config (s : State) : s.settle.config = s.config := by unfold State.settle; split <;> rfl
@[simp] theorem State.settle_rstint (s : State) : s.settle.rstint = s.rstint := by unfold State.settle; split <;> rfl
@[simp] theorem State.settle_faulted (s : State) : s.settle.faulted = s.faulted := by unfold State.settle; split <;> rfl
@[simp] theorem State.settle_faultCode (s : State) : s.settle.faultCode = s.faultCode := by unfold State.settle; split <;> rfl
@[simp] theorem State.settle_faultCmd (s : State) : s.settle.faultCmd = s.faultCmd := by unfold State.settle; split <;> rfl
@[simp] theorem State.settle_faultInfo (s : State) : s.settle.faultInfo = s.faultInfo := by unfold State.settle; split <;> rfl
@[simp] theorem State.settle_faultPos (s : State) : s.settle.faultPos = s.faultPos := by unfold State.settle; split <;> rfl
@[simp] theorem State.settle_cmdOverrun (s : State) : s.settle.cmdOverrun = s.cmdOverrun := by unfold State.settle; split <;> rfl
@[simp] theorem State.settle_resUnderflow (s : State) : s.settle.resUnderflow = s.resUnderflow := by unfold State.settle; split <;> rfl
@[simp] theorem State.settle_outUnderflow (s : State) : s.settle.outUnderflow = s.outUnderflow := by unfold State.settle; split <;> rfl
@[simp] theorem State.settle_irqEn (s : State) : s.settle.irqEn = s.irqEn := by unfold State.settle; split <;> rfl
@[simp] theorem State.settle_cmdq (s : State) : s.settle.cmdq = s.cmdq := by unfold State.settle; split <;> rfl
@[simp] theorem State.settle_resq (s : State) : s.settle.resq = s.resq := by unfold State.settle; split <;> rfl
@[simp] theorem State.settle_outq (s : State) : s.settle.outq = s.outq := by unfold State.settle; split <;> rfl
@[simp] theorem State.settle_draws (s : State) : s.settle.draws = s.draws := by unfold State.settle; split <;> rfl
@[simp] theorem State.settle_bus (s : State) : s.settle.bus = s.bus := by unfold State.settle; split <;> rfl
@[simp] theorem State.settle_busData (s : State) : s.settle.busData = s.busData := by unfold State.settle; split <;> rfl

/-! ## softReset -/

@[simp] theorem State.softReset_seg (s : State) :
    s.softReset.seg = { State.reset.seg with cells := s.seg.cells } := rfl
@[simp] theorem State.softReset_draws (s : State) : s.softReset.draws = s.draws := rfl
@[simp] theorem State.softReset_bus (s : State) : s.softReset.bus = s.bus := rfl
@[simp] theorem State.softReset_busData (s : State) : s.softReset.busData = s.busData := rfl

end Sys2Proof.Machine
end

