-- ==== Sys2Proof/Laws/Exec.lean ====
section
/-! SUPPORT. What each shared operation of the commands, the fetch, a host access and a step can answer, said once. -/

namespace Sys2Proof.Machine

/-! ## Operand checks and faults -/

theorem raiseCheck_next (i : Instr) (k : FaultKind) (info : Word) (s t : State) :
    raiseCheck i k info s = .next t ↔ t = s.enterFault i.head k info s.br.pos := by
  simp [raiseCheck, eq_comm]

/-- Fault entry in the words of Safety: `State.halt` with the code of the kind. -/
theorem State.enterFault_eq_halt (s : State) (cmd : Word) (k : FaultKind) (info : Word) (pos : BitVec 25) :
    s.enterFault cmd k info pos = s.halt cmd k.code info pos := rfl

theorem FaultKind.code_mem (k : FaultKind) : k.code ∈ raisedCodes := by cases k <;> decide

/-- The id checks of the Huffman commands answer a fault 5, or what follows them. -/
theorem withHuffId_cases {i : Instr} {tc th : BitVec 4} {s t : State} {k : HuffClass → BitVec 2 → Result}
    (h : withHuffId i tc th s k = .next t) :
    (∃ c n, tc = c.code ∧ th = n.setWidth 4 ∧ k c n = .next t) ∨
      ∃ info, t = s.enterFault i.head .precisionRange info s.br.pos := by
  unfold withHuffId at h
  split at h
  · exact .inr ⟨_, (raiseCheck_next ..).1 h⟩
  · split at h
    · exact .inr ⟨_, (raiseCheck_next ..).1 h⟩
    · exact .inl ⟨_, _, (classOf_eq_some ..).1 ‹_›, (idOf_eq_some ..).1 ‹_›, h⟩

/-- The slot checks answer a fault 13, or what follows them for a slot that is set up. -/
theorem withSlot_cases {i : Instr} {slot : BitVec 4} {s t : State} {k : BitVec 2 → Result}
    (h : withSlot i slot s k = .next t) :
    (∃ n, slot = n.setWidth 4 ∧ (s.slotAt n).valid = true ∧ k n = .next t) ∨
      ∃ info, t = s.enterFault i.head .argument info s.br.pos := by
  unfold withSlot at h
  split at h
  · exact .inr ⟨_, (raiseCheck_next ..).1 h⟩
  · split at h
    · exact .inl ⟨_, (idOf_eq_some ..).1 ‹_›, ‹_›, h⟩
    · exact .inr ⟨_, (raiseCheck_next ..).1 h⟩

/-- The table check answers a fault 9, or what follows it for a loaded Huffman table. -/
theorem withTable_cases {i : Instr} {c : HuffClass} {n : BitVec 2} {s t : State} {k : HuffTable → Result}
    (h : withTable i c n s k = .next t) :
    ((s.table c n).valid = true ∧ k (s.table c n) = .next t) ∨
      ∃ info, t = s.enterFault i.head .tableNotLoaded info s.br.pos := by
  unfold withTable at h
  split at h
  · exact .inl ⟨‹_›, h⟩
  · exact .inr ⟨_, (raiseCheck_next ..).1 h⟩

/-- The table check answers a fault 9, or what follows it for a loaded quantization table. -/
theorem withQuant_cases {i : Instr} {n : BitVec 2} {s t : State} {k : QuantTable → Result}
    (h : withQuant i n s k = .next t) :
    ((s.quant n).valid = true ∧ k (s.quant n) = .next t) ∨
      ∃ info, t = s.enterFault i.head .tableNotLoaded info s.br.pos := by
  unfold withQuant at h
  split at h
  · exact .inl ⟨‹_›, h⟩
  · exact .inr ⟨_, (raiseCheck_next ..).1 h⟩

/-- A bit-reader command answers its primitive's value and context, or a fault with any bit reader. -/
theorem runReader_cases {α : Type} {i : Instr} {s t : State} {m : Reader α} {k : α → State → State}
    (h : runReader i s m k = .next t) :
    (∃ v c, m s.readCtx = .ok v c ∧ t = k v (s.withReadCtx c)) ∨
      ∃ e c, m s.readCtx = .err e c ∧
        t = ({ s with draws := c.draws }.havocReader).enterFault i.head e.kind e.info e.pos := by
  unfold runReader at h
  split at h <;> rename_i heq <;> simp only [Host.Outcome.next.injEq] at h
  · exact .inl ⟨_, _, heq, h.symm⟩
  · exact .inr ⟨_, _, heq, h.symm⟩

/-! ## Taking the next command -/

theorem Op.ofCode_code (o : Op) : Op.ofCode o.code = some o := by cases o <;> rfl

theorem Op.ofCode_some {c : Byte} {o : Op} (h : Op.ofCode c = some o) : c = o.code := by
  unfold Op.ofCode at h
  have h2 := List.find?_some h
  exact ((beq_iff_eq).1 h2).symm

/-- What a successful decode reads: a defined OP, its data words, and no reserved bit. -/
theorem decode_ok {ws rest : List Word} {i : Instr} (h : decode ws = .ok (i, rest)) :
    ∃ (w : Word) (tl : List Word) (o : Op), ws = w :: tl ∧ field w 24 8 = o.code ∧ o.dataWords ≤ tl.length ∧
      w &&& o.reserved = 0 ∧ i = o.build w (tl.take o.dataWords) ∧ rest = tl.drop o.dataWords := by
  cases ws with
  | nil => cases h
  | cons w tl =>
    simp only [decode] at h
    cases ho : Op.ofCode (field w 24 8) with
    | none => simp only [ho] at h; cases h
    | some o =>
      simp only [ho] at h
      by_cases hl : tl.length < o.dataWords
      · rw [if_pos hl] at h; cases h
      · rw [if_neg hl] at h
        by_cases hr : w &&& o.reserved ≠ 0
        · rw [if_pos hr] at h; cases h
        · rw [if_neg hr] at h
          simp only [Except.ok.injEq, Prod.mk.injEq] at h
          exact ⟨w, tl, o, rfl, Op.ofCode_some ho, by omega, by simpa using hr, h.1.symm, h.2.symm⟩

/-- The core runs a command only when it is not halted, the command's words are at the head of CMDQ, and its output has
room. -/
theorem fetch_run {s : State} {i : Instr} {rest : List Word} (h : s.fetch = .run i rest) :
    s.faulted = false ∧ decode s.cmdq = .ok (i, rest) ∧
      ∃ w tl o, s.cmdq = w :: tl ∧ Op.ofCode (field w 24 8) = some o ∧ s.roomFor o = true := by
  unfold State.fetch at h
  split at h
  · simp at h
  · rename_i hf
    split at h
    · simp at h
    · rename_i w tl hq
      split at h
      · simp at h
      · rename_i o ho
        split at h
        · rename_i hr
          split at h <;> simp at h
          rename_i hd
          obtain ⟨rfl, rfl⟩ := h
          exact ⟨by simpa using hf, hq ▸ hd, w, tl, o, hq, ho, hr⟩
        · simp at h

/-- An illegal command word: the block is not halted, and the word stands at the head of CMDQ. -/
theorem fetch_illegal {s : State} {w : Word} {reason : Byte} {rest : List Word} (h : s.fetch = .illegal w reason rest) :
    s.faulted = false ∧ ∃ tl, s.cmdq = w :: tl ∧ ∃ n, rest = tl.drop n := by
  unfold State.fetch at h
  split at h
  · simp at h
  · rename_i hf
    split at h
    · simp at h
    · rename_i w' tl hq
      split at h
      · simp only [Fetched.illegal.injEq] at h
        obtain ⟨rfl, -, rfl⟩ := h
        exact ⟨by simpa using hf, tl, hq, 0, rfl⟩
      · split at h
        · split at h <;> simp at h
          · obtain ⟨rfl, -, rfl⟩ := h
            exact ⟨by simpa using hf, tl, hq, _, rfl⟩
          · obtain ⟨rfl, -, rfl⟩ := h
            exact ⟨by simpa using hf, tl, hq, 0, rfl⟩
        · simp at h

/-- A turn of the core holds, faults on an illegal command word, or runs one command. -/
theorem coreStep_cases {s t : State} (h : coreStep s = .next t) :
    (s.fetch = .hold ∧ t = s) ∨
      (∃ w reason rest, s.fetch = .illegal w reason rest ∧ t = { s with cmdq := rest }.illegalCommand w reason) ∨
      ∃ i rest, s.fetch = .run i rest ∧ exec i { s with cmdq := rest } = .next t := by
  unfold coreStep at h
  split at h <;> rename_i heq
  · exact .inl ⟨heq, by simpa [eq_comm] using h⟩
  · exact .inr (.inl ⟨_, _, _, heq, by simpa [eq_comm] using h⟩)
  · exact .inr (.inr ⟨_, _, heq, h⟩)

/-- A step is a turn of the core or one host access, and then segment writes settle. -/
theorem step_cases {s t : State} (h : step s = .next t) :
    ∃ u, t = u.settle ∧
      ((s.bus = [] ∧ coreStep s = .next u) ∨
        (∃ moves, s.bus = .core :: moves ∧ coreStep { s with bus := moves } = .next u) ∨
        (∃ a moves, s.bus = .access a :: moves ∧ hostAccess a { s with bus := moves } = .next u)) := by
  have settled : ∀ r : Result, settleResult r = .next t → ∃ u, t = u.settle ∧ r = .next u := by
    intro r hr
    cases r <;> simp [settleResult] at hr
    exact ⟨_, hr.symm, rfl⟩
  unfold step at h
  obtain ⟨u, hu, hr⟩ := settled _ h
  refine ⟨u, hu, ?_⟩
  split at hr
  · exact .inl ⟨‹_›, hr⟩
  · exact .inr (.inl ⟨_, ‹_›, hr⟩)
  · exact .inr (.inr ⟨_, _, ‹_›, hr⟩)

/-! ## The register window -/

theorem windowOffset_busAddress (off : Byte) : windowOffset (busAddress off) = some off := by
  have h := off.isLt
  unfold windowOffset busAddress Config.coreBase
  rw [if_pos (by omega)]
  congr 1
  apply BitVec.eq_of_toNat_eq
  simp only [BitVec.toNat_ofNat]
  omega

theorem windowOffset_some {a : Nat} {off : Byte} (h : windowOffset a = some off) : a = busAddress off := by
  unfold windowOffset at h
  split at h
  · simp only [Option.some.injEq] at h
    subst h
    unfold busAddress Config.coreBase
    simp only [BitVec.toNat_ofNat]
    omega
  · simp at h

theorem windowOffset_none {a : Nat} : windowOffset a = none ↔ a < Config.coreBase ∨ Config.coreBase + 256 ≤ a := by
  unfold windowOffset Config.coreBase
  split
  · simp; omega
  · simp; omega

theorem hostAccess_read (off : Byte) (h : off.toNat % 4 = 0) (s : State) :
    hostAccess ⟨busAddress off, 4, .read⟩ s =
      .next { (hostRead (Reg.ofOffset off) s).2 with busData := (hostRead (Reg.ofOffset off) s).1 } := by
  simp [hostAccess, windowOffset_busAddress, windowAccess, h]

theorem hostAccess_write (off : Byte) (h : off.toNat % 4 = 0) (w : Word) (s : State) :
    hostAccess ⟨busAddress off, 4, .write w⟩ s = .next (hostWrite (Reg.ofOffset off) w s) := by
  simp [hostAccess, windowOffset_busAddress, windowAccess, h]

/-- A host access that is answered lies outside the window and does nothing, or reads or writes one register. -/
theorem hostAccess_cases {a : HostAccess} {s t : State} (h : hostAccess a s = .next t) :
    (windowOffset a.addr = none ∧ t = s) ∨
      (∃ off, a = ⟨busAddress off, 4, .read⟩ ∧ off.toNat % 4 = 0 ∧
        t = { (hostRead (Reg.ofOffset off) s).2 with busData := (hostRead (Reg.ofOffset off) s).1 }) ∨
      ∃ off w, a = ⟨busAddress off, 4, .write w⟩ ∧ off.toNat % 4 = 0 ∧ t = hostWrite (Reg.ofOffset off) w s := by
  obtain ⟨addr, bytes, dir⟩ := a
  unfold hostAccess at h
  split at h
  · exact .inl ⟨‹_›, by simpa [eq_comm] using h⟩
  · rename_i off ho
    obtain rfl := windowOffset_some ho
    unfold windowAccess at h
    split at h
    · simp at h
    · rename_i hb
      simp only [not_or, not_not, ne_eq] at hb
      obtain ⟨rfl, hm⟩ := hb
      cases dir with
      | read => exact .inr (.inl ⟨off, rfl, hm, by simpa [eq_comm] using h⟩)
      | write w => exact .inr (.inr ⟨off, w, rfl, hm, by simpa [eq_comm] using h⟩)

end Sys2Proof.Machine
end

