-- ==== Sys2Proof/Laws/Duties.lean ====
section
/-! SUPPORT. What a host access leaves a ready command, and what a host that keeps its duties leaves undone. -/

namespace Sys2Proof.Machine

/-! ## Progress (70_reset_and_hazards.md R421) -/

/-- Readiness looks at CMDQ, FAULTED and the room in the output FIFOs only, and more words in CMDQ or more room do not end
it. -/
theorem State.Ready.mono {s t : State} (h : s.Ready) (hf : t.faulted = s.faulted) (hq : ∃ more, t.cmdq = s.cmdq ++ more)
    (hr : t.resq.length ≤ s.resq.length) (ho : t.outq.length ≤ s.outq.length) : t.Ready := by
  obtain ⟨h1, w, rest, h2, h3, h4, h5⟩ := h
  obtain ⟨more, hm⟩ := hq
  refine ⟨hf.trans h1, w, rest ++ more, by rw [hm, h2]; rfl, ?_, fun x => ?_, fun x => ?_⟩
  · rw [List.length_append]; omega
  · have := h4 x; omega
  · have := h5 x; omega

/-- A read moves nothing but the heads of RESQ and OUTQ, an underflow bit and the draws. -/
theorem hostRead_frame (r : Reg) (s : State) :
    ∃ q o ru ou d, (hostRead r s).2 = { s with resq := q, outq := o, resUnderflow := ru, outUnderflow := ou, draws := d } ∧
      (q = s.resq ∨ r = .result ∧ ∃ w, s.resq = w :: q) ∧ (o = s.outq ∨ r = .out ∧ ∃ w, s.outq = w :: o) ∧
      (ru = s.resUnderflow ∨ r = .result ∧ s.resq = []) ∧ (ou = s.outUnderflow ∨ r = .out ∧ s.outq = []) := by
  have stable : ∀ w, ∃ d, (stableRead s w).2 = { s with draws := d } := by
    intro w; unfold stableRead anyRead; split <;> exact ⟨_, rfl⟩
  have plain : ∀ t : State, (∃ d, t = { s with draws := d }) →
      ∃ q o ru ou d, t = { s with resq := q, outq := o, resUnderflow := ru, outUnderflow := ou, draws := d } ∧
        (q = s.resq ∨ r = .result ∧ ∃ w, s.resq = w :: q) ∧ (o = s.outq ∨ r = .out ∧ ∃ w, s.outq = w :: o) ∧
        (ru = s.resUnderflow ∨ r = .result ∧ s.resq = []) ∧ (ou = s.outUnderflow ∨ r = .out ∧ s.outq = []) := by
    rintro t ⟨d, rfl⟩
    exact ⟨s.resq, s.outq, s.resUnderflow, s.outUnderflow, d, rfl, .inl rfl, .inl rfl, .inl rfl, .inl rfl⟩
  have id : ∃ d, s = { s with draws := d } := ⟨s.draws, rfl⟩
  cases r with
  | result =>
    cases h : s.resq with
    | nil =>
      exact ⟨[], s.outq, true, s.outUnderflow, s.draws + 1, by simp [hostRead, resultRead, h, anyRead], .inl rfl, .inl rfl,
        .inr ⟨rfl, rfl⟩, .inl rfl⟩
    | cons w q =>
      exact ⟨q, s.outq, s.resUnderflow, s.outUnderflow, s.draws, by simp [hostRead, resultRead, h], .inr ⟨rfl, w, rfl⟩,
        .inl rfl, .inl rfl, .inl rfl⟩
  | out =>
    cases h : s.outq with
    | nil =>
      exact ⟨s.resq, [], s.resUnderflow, true, s.draws + 1, by simp [hostRead, outRead, h, anyRead], .inl rfl, .inl rfl,
        .inl rfl, .inr ⟨rfl, rfl⟩⟩
    | cons w o =>
      exact ⟨s.resq, o, s.resUnderflow, s.outUnderflow, s.draws, by simp [hostRead, outRead, h], .inl rfl,
        .inr ⟨rfl, w, rfl⟩, .inl rfl, .inl rfl⟩
  | status => refine plain _ ?_; simp only [hostRead, statusRead]; split <;> exact ⟨_, rfl⟩
  | brPos => exact plain _ (stable _)
  | brState => exact plain _ (stable _)
  | brReg => exact plain _ (stable _)
  | faultCode => exact plain _ (stable _)
  | faultCmd => exact plain _ (stable _)
  | faultInfo => exact plain _ (stable _)
  | faultPos => exact plain _ (stable _)
  | pred t => exact plain _ (stable _)
  | id | ctrl | irqEn | cmd | segAddr | segData | segLen | config | rstint | tblValid | reserved => exact plain _ id

/-- The register at offset 4 alone is CTRL. -/
theorem Reg.ofOffset_ctrl {off : Byte} (h : Reg.ofOffset off = .ctrl) : off = 0x04 := by
  revert off; decide

/-- A host access that does not discard the command stream takes nothing from CMDQ and no room from the output FIFOs, and
leaves FAULTED. -/
theorem hostAccess_keeps {a : HostAccess} {s t : State} (h : hostAccess a s = .next t) (hd : ¬Discards (.access a)) :
    t.faulted = s.faulted ∧ (∃ more, t.cmdq = s.cmdq ++ more) ∧ t.resq.length ≤ s.resq.length ∧
      t.outq.length ≤ s.outq.length := by
  have same : ∀ u : State, u.faulted = s.faulted → u.cmdq = s.cmdq → u.resq = s.resq → u.outq = s.outq →
      u.faulted = s.faulted ∧ (∃ more, u.cmdq = s.cmdq ++ more) ∧ u.resq.length ≤ s.resq.length ∧
        u.outq.length ≤ s.outq.length :=
    fun u h1 h2 h3 h4 => ⟨h1, ⟨[], by simp [h2]⟩, le_of_eq (by rw [h3]), le_of_eq (by rw [h4])⟩
  rcases hostAccess_cases h with ⟨-, rfl⟩ | ⟨off, rfl, hm, rfl⟩ | ⟨off, w, rfl, hm, rfl⟩
  · exact same _ rfl rfl rfl rfl
  · obtain ⟨q, o, ru, ou, d, e, hq, ho, -, -⟩ := hostRead_frame (Reg.ofOffset off) s
    rw [e]
    refine ⟨rfl, ⟨[], by simp⟩, ?_, ?_⟩
    · rcases hq with rfl | ⟨-, w, hw⟩
      · exact le_rfl
      · simp [hw]
    · rcases ho with rfl | ⟨-, w, hw⟩
      · exact le_rfl
      · simp [hw]
  · cases hr : Reg.ofOffset off with
    | ctrl =>
      obtain rfl := Reg.ofOffset_ctrl hr
      have : ¬(w.getLsbD 0 = true ∨ w.getLsbD 1 = true) := fun x => hd ⟨w, rfl, x⟩
      simp only [not_or, Bool.not_eq_true] at this
      simp only [hostWrite, ctrlWrite, this.1, this.2, Bool.false_eq_true, if_false]
      split
      · exact same _ rfl rfl rfl rfl
      · exact same _ rfl rfl rfl rfl
    | cmd =>
      simp only [hostWrite, cmdWrite]
      split
      · exact same _ rfl rfl rfl rfl
      · exact ⟨rfl, ⟨[w], rfl⟩, le_rfl, le_rfl⟩
    | segData => simp only [hostWrite, segDataWrite]; split <;> exact same _ rfl rfl rfl rfl
    | segLen | irqEn | segAddr => exact same _ rfl rfl rfl rfl
    | id | status | result | out | brPos | brState | brReg | faultCode | faultCmd | faultInfo | faultPos | config | rstint
    | tblValid | pred _ | reserved => exact same _ rfl rfl rfl rfl

/-- One move of an endless run that is neither a turn of the core nor a discard keeps a ready command ready, at the head of
CMDQ. -/
theorem IsRun.keeps_ready {moves : Schedule} {run : Nat → State} (h : IsRun moves run) (n : Nat) (hr : (run n).Ready)
    (hc : moves n ≠ .core) (hd : ¬Discards (moves n)) :
    (run (n + 1)).Ready ∧ ∃ more, (run (n + 1)).cmdq = (run n).cmdq ++ more := by
  obtain ⟨u, hu, hs⟩ := step_cases (h n)
  rcases hs with ⟨h0, -⟩ | ⟨ms, h0, -⟩ | ⟨a, ms, h0, ha⟩
  · simp at h0
  · simp only [List.cons.injEq] at h0; exact absurd h0.1 hc
  · simp only [List.cons.injEq] at h0
    obtain ⟨ha0, rfl⟩ := h0
    rw [ha0] at hd
    obtain ⟨k1, k2, k3, k4⟩ := hostAccess_keeps ha hd
    have settle : u.settle.faulted = u.faulted ∧ u.settle.cmdq = u.cmdq ∧ u.settle.resq = u.resq ∧ u.settle.outq = u.outq := by
      unfold State.settle; split <;> exact ⟨rfl, rfl, rfl, rfl⟩
    rw [hu]
    refine ⟨hr.mono (settle.1.trans k1) (by rw [settle.2.1]; exact k2) (by rw [settle.2.2.1]; exact k3)
      (by rw [settle.2.2.2]; exact k4), by rw [settle.2.1]; exact k2⟩

/-! ## Duties (20_memory.md R79) -/

/-- A step of the held machine is a step of the block in which no duty is broken. -/
theorem heldStep_next (h h' : Held) :
    heldStep h = .next h' ↔ h.dutyKept = true ∧ step h.core = .next h'.core ∧ h'.log = h.nextLog h'.core := by
  obtain ⟨c', l'⟩ := h'
  unfold heldStep
  cases h.dutyKept <;> cases step h.core <;> simp +contextual [eq_comm (b := c'), eq_comm (b := l')]

/-- A broken duty gives no move. -/
theorem heldStep_broken (h : Held) (hd : h.dutyKept = false) : heldStep h = .refused .hostDuty := by
  simp [heldStep, hd]

@[simp] theorem regDuty_cmd (h : HostLog) (w : Word) (s : State) : regDuty h .cmd (.write w) s = !s.cmdFull := rfl

@[simp] theorem regDuty_result (h : HostLog) (s : State) : regDuty h .result .read s = s.resAvail := rfl

@[simp] theorem regDuty_out (h : HostLog) (s : State) : regDuty h .out .read s = s.outAvail := rfl

@[simp] theorem regDuty_segData (h : HostLog) (w : Word) (s : State) : regDuty h .segData (.write w) s = !s.busy := rfl

@[simp] theorem regDuty_segLen (h : HostLog) (w : Word) (s : State) : regDuty h .segLen (.write w) s = !s.busy := rfl

/-- TBL_VALID lists every table and slot. -/
theorem Table.mem_all (x : Table) : x ∈ Table.all := by
  rcases x with ⟨c, t⟩ | t | t
  · cases c <;> revert t <;> decide
  all_goals revert t; decide

/-- A block decode pays no table by itself. -/
theorem HostLog.ranDecode_reload (h : HostLog) (i : Instr) (s t : State) : (h.ranDecode i s t).reload = h.reload := by
  unfold HostLog.ranDecode; split <;> rfl

theorem HostLog.ran_brSeek_reload (h : HostLog) (p : BitVec 24) (s t : State) :
    (h.ran (.brSeek p) s t).reload = h.reload.filter fun x => !x.valid t := by
  show (if t.faulted = true then _ else _ : HostLog).reload = _
  split <;> rfl

/-- What a command leaves owed of the tables: those owed before it that it has not loaded. -/
theorem HostLog.mem_reload_ran (h : HostLog) (i : Instr) (s t : State) (x : Table) :
    x ∈ (h.ran i s t).reload ↔ x ∈ h.reload ∧ x.valid t = false := by
  have e : (h.ran i s t).reload = h.reload.filter fun x => !x.valid t := by
    cases i with
    | brSeek p => exact HostLog.ran_brSeek_reload h p s t
    | decodeCoefs n | decodeBlock n d => exact HostLog.ranDecode_reload _ _ s t
    | _ => rfl
  rw [e, List.mem_filter, Bool.not_eq_true']

/-- What a write of CTRL leaves owed of the tables: those owed before it, and with SOFT_RESET those it empties. -/
theorem HostLog.mem_reload_ctrl (h : HostLog) (w : Word) (s : State) (x : Table) :
    x ∈ (h.ctrl w s).reload ↔ x ∈ h.reload ∨ w.getLsbD 0 = true ∧ x.valid s = true := by
  unfold HostLog.ctrl
  split
  case isTrue hw => simp only [List.mem_filter, Table.mem_all, Bool.or_eq_true, List.contains_iff_mem, hw, true_and, or_comm]
  case isFalse hw => split <;> simp only [hw, Bool.false_eq_true, false_and, or_false]

/-- When a PRED_RESET is owed, in terms of the markers of the segment. -/
theorem HostLog.predOwed_iff (h : HostLog) (g : Segment) :
    h.predOwed g = true ↔ h.decoded = true ∧ ∃ p, h.sought = some p ∧
      (2 ≤ p ∧ g.restartAt (p - 2) = true ∨
        ∃ e, h.decodedTo = some e ∧ ∃ q, e ≤ q ∧ q + 2 ≤ p ∧ g.restartAt q = true) := by
  unfold HostLog.predOwed
  cases h.sought with
  | none => simp
  | some p =>
    cases h.decodedTo with
    | none => simp
    | some e =>
      have : ∀ q, (e ≤ q ∧ q < e + (p - 1 - e)) ↔ (e ≤ q ∧ q + 2 ≤ p) := by omega
      simp [List.mem_range'_1, this, and_assoc]

/-- A segment with no restart marker asks for no restart sequence, whatever the registers hold (42_coefficient.md R216). -/
theorem HostLog.no_marker (h : HostLog) (g : Segment) (hm : ∀ q, g.restartAt q = false) :
    h.predOwed g = false ∧ h.insideRestart g = false := by
  constructor
  · rw [Bool.eq_false_iff, ne_eq, h.predOwed_iff]
    simp [hm]
  · unfold HostLog.insideRestart
    split <;> simp [hm]

/-- PRED_RESET pays what is owed. -/
theorem HostLog.predOwed_ran_predReset (h : HostLog) (s t : State) (g : Segment) :
    (h.ran .predReset s t).predOwed g = false := rfl

/-- BR_SEEK, where it does not fault, is remembered, and gives the reader known registers again. -/
theorem HostLog.ran_brSeek (h : HostLog) (p : BitVec 24) (s t : State) (ht : t.faulted = false) :
    (h.ran (.brSeek p) s t).sought = some p.toNat ∧ (h.ran (.brSeek p) s t).readerLost = false ∧
      (h.ran (.brSeek p) s t).decoded = h.decoded ∧ (h.ran (.brSeek p) s t).decodedTo = h.decodedTo := by
  have e : h.ran (.brSeek p) s t =
      { h with reload := h.reload.filter fun x => !x.valid t, sought := some p.toNat, readerLost := false } := by
    show (if t.faulted = true then _ else _ : HostLog) = _
    rw [ht]; rfl
  rw [e]; exact ⟨rfl, rfl, rfl, rfl⟩

/-- An execution fault of a block decode makes the reader lost. -/
theorem HostLog.ranDecode_lost (h : HostLog) (i : Instr) (s t : State) (ht : t.lostReader i = true) :
    (h.ranDecode i s t).readerLost = true := by
  simp [HostLog.ranDecode, ht]

/-- A command that decodes no block and uses no table that is owed breaks no duty. -/
theorem commandDuty_of_none (h : HostLog) (i : Instr) (s : State) (hs : decodeSlot i = none)
    (ht : ∀ x ∈ s.tablesFor i, x ∉ h.reload) : commandDuty h i s = true := by
  simp [commandDuty, hs]; exact ht

/-- With a lost reader and no restart marker in the segment, no block decode breaks a duty. -/
theorem commandDuty_of_lost (h : HostLog) (i : Instr) (s : State) (hl : h.readerLost = true)
    (hm : ∀ q, s.seg.restartAt q = false) (ht : ∀ x ∈ s.tablesFor i, x ∉ h.reload) : commandDuty h i s = true := by
  obtain ⟨h1, h2⟩ := h.no_marker s.seg hm
  simp [commandDuty, restartDuty, hl, h1, h2]; exact fun x hx => ht x hx

/-- From one state to the next no sticky bit is set and no segment write is put in flight. -/
structure Clean (s t : State) : Prop where
  overrun : t.cmdOverrun = true → s.cmdOverrun = true
  resUnder : t.resUnderflow = true → s.resUnderflow = true
  outUnder : t.outUnderflow = true → s.outUnderflow = true
  settled : s.Settled → t.Settled

theorem Clean.refl (s : State) : Clean s s := ⟨id, id, id, id⟩

theorem hostRead_duty (r : Reg) (s : State) (log : HostLog) (h : regDuty log r .read s = true) :
    Clean s (hostRead r s).2 := by
  obtain ⟨q, o, ru, ou, d, e, -, -, hru, hou⟩ := hostRead_frame r s
  rw [e]
  refine ⟨id, fun x => ?_, fun x => ?_, id⟩
  · rcases hru with rfl | ⟨rfl, hq⟩
    · exact x
    · simp [State.resAvail, hq] at h
  · rcases hou with rfl | ⟨rfl, hq⟩
    · exact x
    · simp [State.outAvail, hq] at h

theorem ctrlWrite_clean (w : Word) (s : State) : Clean s (ctrlWrite w s) := by
  have reset : Clean s s.softReset := ⟨by simp [State.softReset, State.reset], by simp [State.softReset, State.reset],
    by simp [State.softReset, State.reset], fun _ => ⟨rfl, rfl⟩⟩
  have clear : ∀ u, Clean s u → Clean s u.clearFault := fun u h => ⟨h.1, h.2, h.3, h.4⟩
  have sticky : ∀ u, Clean s u → Clean s u.clearSticky := fun u h =>
    ⟨by simp [State.clearSticky], by simp [State.clearSticky], by simp [State.clearSticky], h.4⟩
  show Clean s (let s2 := _; if w.getLsbD 2 = true then State.clearSticky s2 else s2)
  have c1 : Clean s (if w.getLsbD 0 = true then s.softReset else s) := by split; exacts [reset, Clean.refl s]
  generalize (if w.getLsbD 0 = true then s.softReset else s) = u at c1
  have c2 : Clean s (if w.getLsbD 1 = true then u.clearFault else u) := by split; exacts [clear u c1, c1]
  generalize (if w.getLsbD 1 = true then u.clearFault else u) = v at c2
  split
  · exact sticky v c2
  · exact c2

theorem hostWrite_duty (r : Reg) (w : Word) (s : State) (log : HostLog) (h : regDuty log r (.write w) s = true) :
    Clean s (hostWrite r w s) := by
  cases r with
  | ctrl => exact ctrlWrite_clean w s
  | cmd =>
    rw [regDuty_cmd, Bool.not_eq_true'] at h
    simp only [hostWrite, cmdWrite, h, Bool.false_eq_true, if_false]
    exact ⟨id, id, id, id⟩
  | segData =>
    rw [regDuty_segData, Bool.not_eq_true'] at h
    simp only [hostWrite, segDataWrite, h, Bool.false_eq_true, if_false]
    split <;> exact ⟨id, id, id, id⟩
  | segLen =>
    rw [regDuty_segLen, Bool.not_eq_true'] at h
    simp only [hostWrite, segLenWrite, h, Bool.false_eq_true, if_false]
    exact ⟨id, id, id, id⟩
  | irqEn | segAddr => exact ⟨id, id, id, id⟩
  | id | status | result | out | brPos | brState | brReg | faultCode | faultCmd | faultInfo | faultPos | config | rstint
  | tblValid | pred _ | reserved => exact Clean.refl s

/-- An access that keeps the duties sets no sticky bit and puts no segment write in flight (20_memory.md R66-R68, R72). -/
theorem hostAccess_duty {a : HostAccess} {s t : State} {log : HostLog} (h : hostAccess a s = .next t)
    (hd : ∀ r, a.reg = some r → regDuty log r a.dir s = true) : Clean s t := by
  have reg : ∀ off dir, off.toNat % 4 = 0 → HostAccess.reg ⟨busAddress off, 4, dir⟩ = some (Reg.ofOffset off) := by
    intro off dir hm
    simp [HostAccess.reg, windowOffset_busAddress, hm]
  rcases hostAccess_cases h with ⟨-, rfl⟩ | ⟨off, rfl, hm, rfl⟩ | ⟨off, w, rfl, hm, rfl⟩
  · exact Clean.refl _
  · have k := hostRead_duty _ s log (hd _ (reg off _ hm))
    exact ⟨k.1, k.2, k.3, k.4⟩
  · exact hostWrite_duty _ w s log (hd _ (reg off _ hm))

end Sys2Proof.Machine
end

