-- ==== Sys2Proof/Laws/Exact.lean ====
section
/-! SUPPORT. The exact arithmetic of the float IDCT near a half-integer: what its numbers stand for, and that its signs are
the signs of the real transform. -/

namespace Sys2Proof.Machine

/-- `z` is the sign of `x`: 1, 0 or -1. -/
def IsSign (z : Int) (x : ℝ) : Prop := (0 < x ∧ z = 1) ∨ (x = 0 ∧ z = 0) ∨ (x < 0 ∧ z = -1)

theorem IsSign.nonneg {z : Int} {x : ℝ} (h : IsSign z x) : 0 ≤ z ↔ 0 ≤ x := by
  rcases h with ⟨h, rfl⟩ | ⟨h, rfl⟩ | ⟨h, rfl⟩
  · simp [h.le]
  · simp [h]
  · simp [h]

theorem IsSign.nonpos {z : Int} {x : ℝ} (h : IsSign z x) : z ≤ 0 ↔ x ≤ 0 := by
  rcases h with ⟨h, rfl⟩ | ⟨h, rfl⟩ | ⟨h, rfl⟩
  · simp [h]
  · simp [h]
  · simp [h.le]

/-- A positive factor keeps the sign. -/
theorem IsSign.of_pos_mul {z : Int} {x c : ℝ} (hc : 0 < c) (h : IsSign z (c * x)) : IsSign z x := by
  rcases h with ⟨h, e⟩ | ⟨h, e⟩ | ⟨h, e⟩
  · exact .inl ⟨pos_of_mul_pos_right h hc.le, e⟩
  · exact .inr (.inl ⟨(mul_eq_zero.1 h).resolve_left hc.ne', e⟩)
  · exact .inr (.inr ⟨neg_of_mul_neg_right h hc.le, e⟩)

theorem isSign_int (a : Int) : IsSign a.sign (a : ℝ) := by
  rcases lt_trichotomy a 0 with h | h | h
  · exact .inr (.inr ⟨by exact_mod_cast h, Int.sign_eq_neg_one_of_neg h⟩)
  · exact .inr (.inl ⟨by exact_mod_cast h, by rw [h]; rfl⟩)
  · exact .inl ⟨by exact_mod_cast h, Int.sign_eq_one_of_pos h⟩

/-- The sign of u + v·r, with r a positive root of d. -/
theorem isSign_root {su sv sd : Int} {u v r d : ℝ} (hr : 0 < r) (hd : r * r = d) (hu : IsSign su u) (hv : IsSign sv v)
    (hs : IsSign sd (u * u - v * v * d)) : IsSign (rootSign su sv sd) (u + v * r) := by
  subst hd
  have e : u * u - v * v * (r * r) = (u - v * r) * (u + v * r) := by ring
  rw [e] at hs
  unfold rootSign
  rcases hv with ⟨v0, rfl⟩ | ⟨v0, rfl⟩ | ⟨v0, rfl⟩
  · have vr : 0 < v * r := mul_pos v0 hr
    rcases hu with ⟨u0, rfl⟩ | ⟨u0, rfl⟩ | ⟨u0, rfl⟩
    · exact .inl ⟨by linarith, by simp⟩
    · exact .inl ⟨by linarith, by simp⟩
    · rw [if_neg (by decide), if_neg (by decide)]
      have : IsSign (-1 * sd) (u + v * r) := by
        have := IsSign.of_pos_mul (z := -1 * sd) (x := u + v * r) (c := -(u - v * r)) (by linarith) (by
          rw [neg_mul]
          rcases hs with ⟨h, rfl⟩ | ⟨h, rfl⟩ | ⟨h, rfl⟩
          · exact .inr (.inr ⟨by linarith, rfl⟩)
          · exact .inr (.inl ⟨by linarith, rfl⟩)
          · exact .inl ⟨by linarith, rfl⟩)
        exact this
      exact this
  · rw [if_pos (.inr rfl), v0]; simpa using hu
  · have vr : v * r < 0 := mul_neg_of_neg_of_pos v0 hr
    rcases hu with ⟨u0, rfl⟩ | ⟨u0, rfl⟩ | ⟨u0, rfl⟩
    · rw [if_neg (by decide), if_neg (by decide), one_mul]
      exact IsSign.of_pos_mul (by linarith) hs
    · exact .inr (.inr ⟨by linarith, by simp⟩)
    · exact .inr (.inr ⟨by linarith, by simp⟩)

/-! ## The numbers -/

/-- 2·cos(k·π/16). -/
noncomputable def cos2 (k : ℕ) : ℝ := 2 * Real.cos (k * Real.pi / 16)

/-- Twice a product of cosines. -/
theorem cos2_mul (j k : ℕ) (h : k ≤ j) : cos2 j * cos2 k = cos2 (j + k) + cos2 (j - k) := by
  have e := Real.two_mul_cos_mul_cos (j * Real.pi / 16) (k * Real.pi / 16)
  simp only [cos2]
  rw [Nat.cast_sub h, Nat.cast_add, show ((j : ℝ) + k) * Real.pi / 16 = j * Real.pi / 16 + k * Real.pi / 16 by ring,
    show ((j : ℝ) - k) * Real.pi / 16 = j * Real.pi / 16 - k * Real.pi / 16 by ring]
  linarith

theorem cos2_zero : cos2 0 = 2 := by simp [cos2]

theorem cos2_eight : cos2 8 = 0 := by
  rw [cos2, show ((8 : ℕ) : ℝ) * Real.pi / 16 = Real.pi / 2 by push_cast; ring, Real.cos_pi_div_two, mul_zero]

theorem cos2_pos (k : ℕ) (h : k < 8) : 0 < cos2 k := by
  have p := Real.pi_pos
  have hk : (k : ℝ) + 1 ≤ 8 := by exact_mod_cast h
  have h0 : (0 : ℝ) ≤ k := Nat.cast_nonneg k
  have : 0 < Real.cos (k * Real.pi / 16) := Real.cos_pos_of_mem_Ioo ⟨by nlinarith, by nlinarith⟩
  simp only [cos2]; linarith

/-- The three roots: 2·cos(4π/16) = √2, 2·cos(2π/16) = √(2 + √2), 2·cos(π/16) = √(2 + √(2 + √2)). -/
theorem cos2_roots : cos2 4 * cos2 4 = 2 ∧ cos2 2 * cos2 2 = 2 + cos2 4 ∧ cos2 1 * cos2 1 = 2 + cos2 2 := by
  refine ⟨?_, ?_, ?_⟩
  · rw [cos2_mul 4 4 le_rfl, cos2_eight, cos2_zero]; norm_num
  · rw [cos2_mul 2 2 le_rfl, cos2_zero]; ring
  · rw [cos2_mul 1 1 le_rfl, cos2_zero]; ring

noncomputable def Root2.val (x : Root2) : ℝ := x.a + x.b * cos2 4

noncomputable def Root4.val (x : Root4) : ℝ := x.p.val + x.q.val * cos2 2

noncomputable def Root8.val (x : Root8) : ℝ := x.u.val + x.v.val * cos2 1

theorem Root2.mul_val (x y : Root2) : (x.mul y).val = x.val * y.val := by
  simp only [Root2.val, Root2.mul]; push_cast
  linear_combination (-(x.b : ℝ) * y.b) * cos2_roots.1

theorem Root2.sub_val (x y : Root2) : (x.sub y).val = x.val - y.val := by
  simp only [Root2.val, Root2.sub]; push_cast; ring

theorem Root4.sub_val (x y : Root4) : (x.sub y).val = x.val - y.val := by
  simp only [Root4.val, Root4.sub, Root2.sub_val]; ring

theorem Root4.sq_val (x : Root4) : x.sq.val = x.val * x.val := by
  have h1 : (Root2.mk 2 1).val = 2 + cos2 4 := by simp [Root2.val]
  have h2 : (Root2.mk 2 0).val = 2 := by simp [Root2.val]
  have add : ∀ y z : Root2, (Root2.mk (y.a + z.a) (y.b + z.b)).val = y.val + z.val := by
    intro y z; simp only [Root2.val]; push_cast; ring
  simp only [Root4.val, Root4.sq, add, Root2.mul_val, h1, h2]
  linear_combination (-(x.q.val * x.q.val)) * cos2_roots.2.1

theorem Root4.scale_val (x : Root4) : x.scale.val = x.val * (2 + cos2 2) := by
  have h1 : (Root2.mk 2 1).val = 2 + cos2 4 := by simp [Root2.val]
  have add : ∀ y z : Root2, (Root2.mk (2 * y.a + z.a) (2 * y.b + z.b)).val = 2 * y.val + z.val := by
    intro y z; simp only [Root2.val]; push_cast; ring
  have add' : ∀ y z : Root2, (Root2.mk (y.a + 2 * z.a) (y.b + 2 * z.b)).val = y.val + 2 * z.val := by
    intro y z; simp only [Root2.val]; push_cast; ring
  simp only [Root4.val, Root4.scale, add, add', Root2.mul_val, h1]
  linear_combination (-x.q.val) * cos2_roots.2.1

theorem Root2.isSign (x : Root2) : IsSign x.sign x.val := by
  refine isSign_root (cos2_pos 4 (by decide)) cos2_roots.1 (isSign_int _) (isSign_int _) ?_
  have := isSign_int (x.a * x.a - 2 * x.b * x.b)
  push_cast at this
  convert this using 1; ring

theorem Root4.isSign (x : Root4) : IsSign x.sign x.val := by
  refine isSign_root (cos2_pos 2 (by decide)) cos2_roots.2.1 x.p.isSign x.q.isSign ?_
  have := ((x.p.mul x.p).sub ((x.q.mul x.q).mul ⟨2, 1⟩)).isSign
  simp only [Root2.sub_val, Root2.mul_val] at this
  convert this using 1
  simp [Root2.val]

/-- The sign of a number is the sign of what it stands for. -/
theorem Root8.isSign (x : Root8) : IsSign x.sign x.val := by
  refine isSign_root (cos2_pos 1 (by decide)) cos2_roots.2.2 x.u.isSign x.v.isSign ?_
  have := (x.u.sq.sub x.v.sq.scale).isSign
  simp only [Root4.sub_val, Root4.sq_val, Root4.scale_val] at this
  exact this

/-- What `Root8.ofCosines` stands for. -/
theorem Root8.ofCosines_val (c : ℕ → Int) :
    (Root8.ofCosines c).val = c 0 + ∑ k ∈ Finset.Icc 1 7, (c k : ℝ) * cos2 k := by
  have h6 : cos2 6 = cos2 4 * cos2 2 - cos2 2 := by rw [cos2_mul 4 2 (by decide)]; ring
  have h3 : cos2 3 = cos2 2 * cos2 1 - cos2 1 := by rw [cos2_mul 2 1 (by decide)]; ring
  have h5 : cos2 5 = cos2 4 * cos2 1 - cos2 3 := by rw [cos2_mul 4 1 (by decide)]; ring
  have h7 : cos2 7 = cos2 6 * cos2 1 - cos2 5 := by rw [cos2_mul 6 1 (by decide)]; ring
  simp only [Root8.val, Root4.val, Root2.val, Root8.ofCosines]
  rw [show Finset.Icc 1 7 = {1, 2, 3, 4, 5, 6, 7} from rfl]
  simp only [Finset.sum_insert (by decide : (1 : ℕ) ∉ ({2, 3, 4, 5, 6, 7} : Finset ℕ)),
    Finset.sum_insert (by decide : (2 : ℕ) ∉ ({3, 4, 5, 6, 7} : Finset ℕ)),
    Finset.sum_insert (by decide : (3 : ℕ) ∉ ({4, 5, 6, 7} : Finset ℕ)),
    Finset.sum_insert (by decide : (4 : ℕ) ∉ ({5, 6, 7} : Finset ℕ)),
    Finset.sum_insert (by decide : (5 : ℕ) ∉ ({6, 7} : Finset ℕ)),
    Finset.sum_insert (by decide : (6 : ℕ) ∉ ({7} : Finset ℕ)), Finset.sum_singleton]
  rw [h7, h5, h6, h3]
  push_cast
  ring

/-! ## The transform -/

/-- Any cosine of a multiple of π/16 by the first eight. -/
theorem cos2_coef (m : ℕ) : cos2 m = ∑ k ∈ Finset.range 8, (cosCoef k m : ℝ) * cos2 k := by
  have per : cos2 m = cos2 (m % 32) := by
    have : (m : ℝ) * Real.pi / 16 = ((m % 32 : ℕ) : ℝ) * Real.pi / 16 + (m / 32 : ℕ) * (2 * Real.pi) := by
      have h : (m : ℝ) = 32 * (m / 32 : ℕ) + (m % 32 : ℕ) := by exact_mod_cast (Nat.div_add_mod m 32).symm
      rw [show (m : ℝ) * Real.pi / 16 = (32 * (m / 32 : ℕ) + (m % 32 : ℕ)) * Real.pi / 16 by rw [← h]]
      ring
    rw [cos2, this, Real.cos_add_nat_mul_two_pi]; rfl
  have up : ∀ n, n ≤ 16 → cos2 (32 - n) = cos2 n := by
    intro n hn
    rw [cos2, cos2, ← Real.cos_two_pi_sub, Nat.cast_sub (by omega)]; congr 2; push_cast; ring
  have flip : ∀ n, n ≤ 16 → cos2 (16 - n) = -cos2 n := by
    intro n hn
    rw [cos2, cos2, Nat.cast_sub hn, ← mul_neg, ← Real.cos_pi_sub]; congr 2; push_cast; ring
  have coef : ∀ k, cosCoef k m = cosCoef k (m % 32) := by intro k; simp [cosCoef]
  rw [per]
  simp only [coef]
  have hm : m % 32 < 32 := Nat.mod_lt _ (by decide)
  generalize m % 32 = n at hm
  have low : ∀ n, n ≤ 8 → cos2 n = ∑ k ∈ Finset.range 8, (cosCoef k n : ℝ) * cos2 k := by
    intro n hn
    interval_cases n <;> simp [cosCoef, Finset.sum_range_succ, cos2_eight]
  have mid : ∀ n, n ≤ 16 → cos2 n = ∑ k ∈ Finset.range 8, (cosCoef k n : ℝ) * cos2 k := by
    intro n hn
    by_cases h : n ≤ 8
    · exact low n h
    · have e := flip (16 - n) (by omega)
      rw [show 16 - (16 - n) = n by omega] at e
      rw [e, low _ (by omega), ← Finset.sum_neg_distrib]
      refine Finset.sum_congr rfl fun k hk => ?_
      have hk8 := Finset.mem_range.1 hk
      have : cosCoef k n = -cosCoef k (16 - n) := by interval_cases n <;> interval_cases k <;> rfl
      rw [this]; push_cast; ring
  by_cases h : n ≤ 16
  · exact mid n h
  · have e := up (32 - n) (by omega)
    rw [show 32 - (32 - n) = n by omega] at e
    rw [e, mid _ (by omega)]
    refine Finset.sum_congr rfl fun k hk => ?_
    have hk8 := Finset.mem_range.1 hk
    have : cosCoef k n = cosCoef k (32 - n) := by interval_cases n <;> interval_cases k <;> rfl
    rw [this]

/-- A factor of the transform, C(u)·cos((2x+1)·u·π/16), as one cosine (44_idct.md R261). -/
theorem factor_angle (u x : ℕ) :
    (if u = 0 then 1 / Real.sqrt 2 else 1) * Real.cos ((2 * x + 1) * u * Real.pi / 16) = cos2 (angle u x) / 2 := by
  unfold angle
  split
  · rename_i h
    subst h
    rw [cos2, show ((4 : ℕ) : ℝ) * Real.pi / 16 = Real.pi / 4 by push_cast; ring, Real.cos_pi_div_four]
    have h2 : Real.sqrt 2 * Real.sqrt 2 = 2 := Real.mul_self_sqrt (by norm_num)
    have h0 : Real.sqrt 2 ≠ 0 := by positivity
    simp; field_simp; linarith
  · simp only [cos2]; push_cast; ring

/-- The coefficients of `sampleCoef` give 16·r[y][x]. -/
theorem sampleCoef_sum (b : Blk) (y x : ℕ) :
    ∑ k ∈ Finset.range 8, (sampleCoef b y x k : ℝ) * cos2 k = 16 * realSample b y x := by
  have term : ∀ (F : ℤ) (A B : ℕ),
      ∑ k ∈ Finset.range 8, ((F * (cosCoef k (A + B) + cosCoef k ((A - B) + (B - A))) : ℤ) : ℝ) * cos2 k =
        F * (cos2 A * cos2 B) := by
    intro F A B
    have e : cos2 A * cos2 B = cos2 (A + B) + cos2 ((A - B) + (B - A)) := by
      rcases le_total B A with h | h
      · rw [cos2_mul A B h]; congr 2; omega
      · rw [mul_comm, cos2_mul B A h, Nat.add_comm B A]; congr 2; omega
    rw [e, cos2_coef (A + B), cos2_coef ((A - B) + (B - A)), ← Finset.sum_add_distrib, Finset.mul_sum]
    refine Finset.sum_congr rfl fun k _ => ?_
    push_cast; ring
  have ex : ∀ k, (sampleCoef b y x k : ℝ) * cos2 k = ∑ v : Fin 8, ∑ u : Fin 8,
      (((blkGet b (8 * v.val + u.val)).toInt *
        (cosCoef k (angle v.val y + angle u.val x) + cosCoef k ((angle v.val y - angle u.val x) + (angle u.val x - angle v.val y))) : ℤ) : ℝ) *
        cos2 k := by
    intro k
    rw [sampleCoef, sum8_eq, Int.cast_sum, Finset.sum_mul]
    refine Finset.sum_congr rfl fun v _ => ?_
    rw [sum8_eq, Int.cast_sum, Finset.sum_mul]
  simp only [ex]
  rw [Finset.sum_comm]
  simp only [realSample, factor_angle]
  rw [← mul_assoc, Finset.mul_sum]
  refine Finset.sum_congr rfl fun v _ => ?_
  rw [Finset.sum_comm, Finset.mul_sum]
  refine Finset.sum_congr rfl fun u _ => ?_
  rw [term]; ring

/-- `signPast` is the sign of r[y][x] - (n + 1/2) - e. -/
theorem signPast_isSign (b : Blk) (y x : ℕ) (n : Int) (e : ℚ) :
    IsSign (signPast b y x n e) (realSample b y x - (n + 1 / 2) - e) := by
  have h := (Root8.ofCosines fun k => e.den * tieCoef b y x n k - if k = 0 then 16 * e.num else 0).isSign
  rw [Root8.ofCosines_val] at h
  have hden : (0 : ℝ) < 16 * e.den := by have := e.den_pos; positivity
  refine IsSign.of_pos_mul hden ?_
  have hq : (e : ℝ) * e.den = e.num := by exact_mod_cast e.mul_den_eq_num
  have hs := sampleCoef_sum b y x
  rw [Finset.sum_range_succ', cos2_zero] at hs
  have hi : ∑ k ∈ Finset.Icc 1 7, (((e.den : ℤ) * tieCoef b y x n k - if k = 0 then 16 * e.num else 0 : ℤ) : ℝ) * cos2 k =
      e.den * ∑ k ∈ Finset.range 7, (sampleCoef b y x (k + 1) : ℝ) * cos2 (k + 1) := by
    have shift : ∀ f : ℕ → ℝ, ∑ k ∈ Finset.Icc 1 7, f k = ∑ k ∈ Finset.range 7, f (k + 1) := by
      intro f
      rw [Finset.range_eq_Ico, Finset.sum_Ico_add' f 0 7 1]
      exact Finset.sum_congr (by decide) fun _ _ => rfl
    rw [shift, Finset.mul_sum]
    refine Finset.sum_congr rfl fun k _ => ?_
    simp only [tieCoef, if_neg (Nat.succ_ne_zero k)]; push_cast; ring
  rw [hi] at h
  have e0 : tieCoef b y x n 0 = 2 * sampleCoef b y x 0 - 16 * n - 8 := by simp [tieCoef]
  have val : 16 * (e.den : ℝ) * (realSample b y x - (n + 1 / 2) - e) =
      ((e.den * tieCoef b y x n 0 - if 0 = 0 then 16 * e.num else 0 : ℤ) : ℝ) +
        e.den * ∑ k ∈ Finset.range 7, (sampleCoef b y x (k + 1) : ℝ) * cos2 (k + 1) := by
    rw [e0]
    simp only [if_true]
    push_cast
    linear_combination (-16 : ℝ) * hq - (e.den : ℝ) * hs
  rw [val]
  exact h

/-- The tie band of the model is that of 44_idct.md R262. -/
theorem inTieBand_iff (b : Blk) (y x : ℕ) (n : Int) :
    inTieBand b y x n = true ↔ |realSample b y x - (n + 1 / 2)| ≤ (Config.tieEps : ℝ) := by
  have h1 := (signPast_isSign b y x n Config.tieEps).nonpos
  have h2 := (signPast_isSign b y x n (-Config.tieEps)).nonneg
  rw [inTieBand, Bool.and_eq_true, decide_eq_true_iff, decide_eq_true_iff, h1, h2, abs_le]
  push_cast
  constructor
  · rintro ⟨a, b⟩; exact ⟨by linarith, by linarith⟩
  · rintro ⟨a, b⟩; exact ⟨by linarith, by linarith⟩

/-- Outside the band the model rounds up from the half-integer on. -/
theorem signPast_zero (b : Blk) (y x : ℕ) (n : Int) : 0 ≤ signPast b y x n 0 ↔ (n : ℝ) + 1 / 2 ≤ realSample b y x := by
  have h := (signPast_isSign b y x n 0).nonneg
  rw [h]; push_cast; constructor <;> intro k <;> linarith

end Sys2Proof.Machine
end

