-- ==== Sys2Proof/Laws/Flags.lean ====
section
/-! SUPPORT. The OPEN parameters' ranges, and the room and status tests in terms of the FIFO capacities. -/

namespace Sys2Proof.Machine

theorem segSize_range : 1 ≤ Config.segSize ∧ Config.segSize ≤ 2 ^ 24 := by
  unfold Config.segSize; omega

theorem cmdqDepth_min : 33 ≤ Config.cmdqDepth := by unfold Config.cmdqDepth; omega

theorem resqDepth_min : 1 ≤ Config.resqDepth := by unfold Config.resqDepth; omega

theorem outqDepth_min : 18 ≤ Config.outqDepth := by unfold Config.outqDepth; omega

theorem tieEps_range : 0 < Config.tieEps ∧ Config.tieEps ≤ 1 / 2 ^ 10 := by
  unfold Config.tieEps
  split
  · rename_i h; exact ⟨h.1, le_trans h.2 (by norm_num)⟩
  · norm_num

theorem cmdFull_iff (s : State) : s.cmdFull = true ↔ Config.cmdqDepth ≤ s.cmdq.length := by
  have := cmdqDepth_min
  simp only [State.cmdFull, Bool.and_eq_true, decide_eq_true_eq]
  omega

theorem resRoom_iff (s : State) : s.resRoom = true ↔ s.resq.length < Config.resqDepth := by
  have := resqDepth_min
  simp only [State.resRoom, Bool.or_eq_true, List.isEmpty_iff, decide_eq_true_eq, ← List.length_eq_zero_iff]
  omega

theorem outRoom_iff (s : State) : s.outRoom = true ↔ s.outq.length + 18 ≤ Config.outqDepth := by
  have := outqDepth_min
  simp only [State.outRoom, Bool.or_eq_true, List.isEmpty_iff, decide_eq_true_eq, ← List.length_eq_zero_iff]
  omega

theorem busy_iff (s : State) : s.busy = true ↔ s.faulted = false ∧ s.cmdq ≠ [] := by
  simp [State.busy]

end Sys2Proof.Machine
end

