-- ==== Sys2Proof/Laws/Memory.lean ====
section
/-! SUPPORT. Segment RAM: a read after a write, and that every operation keeps the canonical form. -/

namespace Sys2Proof.Machine

/-- A read of the byte written gives it; every other byte reads as before. -/
theorem Memory.read?_write (m : List Host.Cell) (a b : Nat) (v : Byte) :
    Memory.read? (Memory.write m a v) b = if b = a then some v else Memory.read? m b := by
  induction m with
  | nil => simp [Memory.write, Memory.read?]
  | cons x rest ih =>
    obtain ⟨c, w⟩ := x
    simp only [Memory.write]
    split
    · simp [Memory.read?]
    · split
      · rename_i h; subst h; simp only [Memory.read?]; split <;> simp_all
      · simp only [Memory.read?, ih]
        split
        · rename_i h1 h2 h3; subst h3; rw [if_neg (fun h => h2 h.symm)]
        · rfl

/-- The byte read after a write, through the free power-on values. -/
theorem Segment.byte_write (g : Segment) (a b : Nat) (v : Byte) :
    Segment.byte { g with cells := Memory.write g.cells a v } b = if b = a then v else g.byte b := by
  simp only [Segment.byte, Memory.read?_write]
  split <;> simp

/-- Reading depends on the listed bytes alone. -/
theorem Segment.byte_congr (g h : Segment) (e : g.cells = h.cells) (a : Nat) : g.byte a = h.byte a := by
  simp [Segment.byte, e]

/-- A canonical list with its head taken off is canonical. -/
theorem Memory.wf_tail (x : Host.Cell) (m : List Host.Cell) (h : Memory.wf (x :: m) = true) : Memory.wf m = true := by
  cases m with
  | nil => rfl
  | cons y rest => simp [Memory.wf] at h; exact h.2

/-- Every write keeps the canonical form. -/
theorem Memory.wf_write (m : List Host.Cell) (a : Nat) (v : Byte) (h : Memory.wf m = true) :
    Memory.wf (Memory.write m a v) = true := by
  induction m with
  | nil => rfl
  | cons x rest ih =>
    obtain ⟨b, w⟩ := x
    simp only [Memory.write]
    split
    · simp [Memory.wf, *]
    · split
      · rename_i _ e; subst e; cases rest with
        | nil => rfl
        | cons y r => simpa [Memory.wf] using h
      · have := ih (Memory.wf_tail _ _ h)
        cases rest with
        | nil => simp [Memory.write, Memory.wf]; omega
        | cons y r =>
          obtain ⟨c, u⟩ := y
          simp only [Memory.write] at this ⊢
          simp only [Memory.wf, Bool.and_eq_true, decide_eq_true_eq] at h
          split
          · simp_all [Memory.wf]; omega
          · split
            · simp_all [Memory.wf]
            · simp_all [Memory.wf]

/-- A write lists no address but its own beside those listed before. -/
theorem Memory.mem_write (m : List Host.Cell) (a : Nat) (v : Byte) (x : Host.Cell) (h : x ∈ Memory.write m a v) :
    x.1 = a ∨ x ∈ m := by
  induction m with
  | nil => simp [Memory.write] at h; simp [h]
  | cons y rest ih =>
    obtain ⟨b, w⟩ := y
    simp only [Memory.write] at h
    split at h
    · simp at h; rcases h with h | h | h <;> simp [h]
    · split at h
      · simp at h; rcases h with h | h <;> simp [h]
      · simp at h
        rcases h with h | h
        · simp [h]
        · rcases ih h with h | h <;> simp [h]

/-- Segment RAM is canonical after reset. -/
theorem Memory.wf_reset : Memory.wf State.reset.seg.cells = true := rfl

end Sys2Proof.Machine
end

