-- ==== Sys2Proof/Laws/PerInstr.lean ====
section
/-! SUPPORT. The per-instruction family `Encoding`: what the words of a well-formed command look like. -/

namespace Sys2Proof.Laws.Encoding

/-- The command word of a well-formed command carries its OP in bits 31:24 and no reserved bit, and as many data words
follow it as its OP takes (30_encoding.md R90-R94). -/
def Statement (i : Instr) : Prop :=
  i.wellFormed = true →
    field i.head 24 8 = i.op.code ∧ i.head &&& i.op.reserved = 0 ∧ i.data.length = i.op.dataWords

theorem nop : Statement .nop := by
  intro _
  refine ⟨?_, ?_, rfl⟩ <;>
    refine BitVec.eq_of_getLsbD_eq fun k hk => ?_ <;>
    simp only [field, Instr.head, Instr.op, Op.code, Op.reserved, BitVec.getLsbD_extractLsb', BitVec.getLsbD_and,
      BitVec.getLsbD_append] <;>
    interval_cases k <;> simp

theorem sync (tag : BitVec 16) : Statement (.sync tag) := by
  intro _
  refine ⟨?_, ?_, rfl⟩ <;>
    refine BitVec.eq_of_getLsbD_eq fun k hk => ?_ <;>
    simp only [field, Instr.head, Instr.op, Op.code, Op.reserved, BitVec.getLsbD_extractLsb', BitVec.getLsbD_and,
      BitVec.getLsbD_append] <;>
    interval_cases k <;> simp

theorem setConfig (hm : BitVec 1) (im : BitVec 2) (cm : BitVec 1) : Statement (.setConfig hm im cm) := by
  intro _
  refine ⟨?_, ?_, rfl⟩ <;>
    refine BitVec.eq_of_getLsbD_eq fun k hk => ?_ <;>
    simp only [field, Instr.head, Instr.op, Op.code, Op.reserved, BitVec.getLsbD_extractLsb', BitVec.getLsbD_and,
      BitVec.getLsbD_append] <;>
    interval_cases k <;> simp

theorem setRstint (ri : BitVec 16) : Statement (.setRstint ri) := by
  intro _
  refine ⟨?_, ?_, rfl⟩ <;>
    refine BitVec.eq_of_getLsbD_eq fun k hk => ?_ <;>
    simp only [field, Instr.head, Instr.op, Op.code, Op.reserved, BitVec.getLsbD_extractLsb', BitVec.getLsbD_and,
      BitVec.getLsbD_append] <;>
    interval_cases k <;> simp

theorem brSeek (p : BitVec 24) : Statement (.brSeek p) := by
  intro _
  refine ⟨?_, ?_, rfl⟩ <;>
    refine BitVec.eq_of_getLsbD_eq fun k hk => ?_ <;>
    simp only [field, Instr.head, Instr.op, Op.code, Op.reserved, BitVec.getLsbD_extractLsb', BitVec.getLsbD_and,
      BitVec.getLsbD_append] <;>
    interval_cases k <;> simp

theorem brNextbit : Statement .brNextbit := by
  intro _
  refine ⟨?_, ?_, rfl⟩ <;>
    refine BitVec.eq_of_getLsbD_eq fun k hk => ?_ <;>
    simp only [field, Instr.head, Instr.op, Op.code, Op.reserved, BitVec.getLsbD_extractLsb', BitVec.getLsbD_and,
      BitVec.getLsbD_append] <;>
    interval_cases k <;> simp

theorem brPeek (n : BitVec 5) : Statement (.brPeek n) := by
  intro _
  refine ⟨?_, ?_, rfl⟩ <;>
    refine BitVec.eq_of_getLsbD_eq fun k hk => ?_ <;>
    simp only [field, Instr.head, Instr.op, Op.code, Op.reserved, BitVec.getLsbD_extractLsb', BitVec.getLsbD_and,
      BitVec.getLsbD_append] <;>
    interval_cases k <;> simp

theorem brConsume (n : BitVec 5) : Statement (.brConsume n) := by
  intro _
  refine ⟨?_, ?_, rfl⟩ <;>
    refine BitVec.eq_of_getLsbD_eq fun k hk => ?_ <;>
    simp only [field, Instr.head, Instr.op, Op.code, Op.reserved, BitVec.getLsbD_extractLsb', BitVec.getLsbD_and,
      BitVec.getLsbD_append] <;>
    interval_cases k <;> simp

theorem brAlign : Statement .brAlign := by
  intro _
  refine ⟨?_, ?_, rfl⟩ <;>
    refine BitVec.eq_of_getLsbD_eq fun k hk => ?_ <;>
    simp only [field, Instr.head, Instr.op, Op.code, Op.reserved, BitVec.getLsbD_extractLsb', BitVec.getLsbD_and,
      BitVec.getLsbD_append] <;>
    interval_cases k <;> simp

theorem htInit (tc th : BitVec 4) (d0 d1 d2 d3 : Word) : Statement (.htInit tc th d0 d1 d2 d3) := by
  intro _
  refine ⟨?_, ?_, rfl⟩ <;>
    refine BitVec.eq_of_getLsbD_eq fun k hk => ?_ <;>
    simp only [field, Instr.head, Instr.op, Op.code, Op.reserved, BitVec.getLsbD_extractLsb', BitVec.getLsbD_and,
      BitVec.getLsbD_append] <;>
    interval_cases k <;> simp

theorem htInsert (tc th : BitVec 4) (l : BitVec 5) (v : Byte) : Statement (.htInsert tc th l v) := by
  intro _
  refine ⟨?_, ?_, rfl⟩ <;>
    refine BitVec.eq_of_getLsbD_eq fun k hk => ?_ <;>
    simp only [field, Instr.head, Instr.op, Op.code, Op.reserved, BitVec.getLsbD_extractLsb', BitVec.getLsbD_and,
      BitVec.getLsbD_append] <;>
    interval_cases k <;> simp

theorem htDecode (tc th : BitVec 4) : Statement (.htDecode tc th) := by
  intro _
  refine ⟨?_, ?_, rfl⟩ <;>
    refine BitVec.eq_of_getLsbD_eq fun k hk => ?_ <;>
    simp only [field, Instr.head, Instr.op, Op.code, Op.reserved, BitVec.getLsbD_extractLsb', BitVec.getLsbD_and,
      BitVec.getLsbD_append] <;>
    interval_cases k <;> simp

theorem qtLoad (pq tq : BitVec 4) (ds : List Word) : Statement (.qtLoad pq tq ds) := by
  intro h
  refine ⟨?_, ?_, by simpa [Instr.wellFormed, Instr.data, Instr.op, Op.dataWords] using h⟩ <;>
    refine BitVec.eq_of_getLsbD_eq fun k hk => ?_ <;>
    simp only [field, Instr.head, Instr.op, Op.code, Op.reserved, BitVec.getLsbD_extractLsb', BitVec.getLsbD_and,
      BitVec.getLsbD_append] <;>
    interval_cases k <;> simp

theorem predReset : Statement .predReset := by
  intro _
  refine ⟨?_, ?_, rfl⟩ <;>
    refine BitVec.eq_of_getLsbD_eq fun k hk => ?_ <;>
    simp only [field, Instr.head, Instr.op, Op.code, Op.reserved, BitVec.getLsbD_extractLsb', BitVec.getLsbD_and,
      BitVec.getLsbD_append] <;>
    interval_cases k <;> simp

theorem scanSetup (slot td ta tq : BitVec 4) (ci : Byte) : Statement (.scanSetup slot td ta tq ci) := by
  intro _
  refine ⟨?_, ?_, rfl⟩ <;>
    refine BitVec.eq_of_getLsbD_eq fun k hk => ?_ <;>
    simp only [field, Instr.head, Instr.op, Op.code, Op.reserved, BitVec.getLsbD_extractLsb', BitVec.getLsbD_and,
      BitVec.getLsbD_append] <;>
    interval_cases k <;> simp

theorem decodeCoefs (slot : BitVec 4) : Statement (.decodeCoefs slot) := by
  intro _
  refine ⟨?_, ?_, rfl⟩ <;>
    refine BitVec.eq_of_getLsbD_eq fun k hk => ?_ <;>
    simp only [field, Instr.head, Instr.op, Op.code, Op.reserved, BitVec.getLsbD_extractLsb', BitVec.getLsbD_and,
      BitVec.getLsbD_append] <;>
    interval_cases k <;> simp

theorem extend (t : BitVec 5) (v : BitVec 16) : Statement (.extend t v) := by
  intro _
  refine ⟨?_, ?_, rfl⟩ <;>
    refine BitVec.eq_of_getLsbD_eq fun k hk => ?_ <;>
    simp only [field, Instr.head, Instr.op, Op.code, Op.reserved, BitVec.getLsbD_extractLsb', BitVec.getLsbD_and,
      BitVec.getLsbD_append] <;>
    interval_cases k <;> simp

theorem dequant (tq : BitVec 4) : Statement (.dequant tq) := by
  intro _
  refine ⟨?_, ?_, rfl⟩ <;>
    refine BitVec.eq_of_getLsbD_eq fun k hk => ?_ <;>
    simp only [field, Instr.head, Instr.op, Op.code, Op.reserved, BitVec.getLsbD_extractLsb', BitVec.getLsbD_and,
      BitVec.getLsbD_append] <;>
    interval_cases k <;> simp

theorem reorder : Statement .reorder := by
  intro _
  refine ⟨?_, ?_, rfl⟩ <;>
    refine BitVec.eq_of_getLsbD_eq fun k hk => ?_ <;>
    simp only [field, Instr.head, Instr.op, Op.code, Op.reserved, BitVec.getLsbD_extractLsb', BitVec.getLsbD_and,
      BitVec.getLsbD_append] <;>
    interval_cases k <;> simp

theorem idct : Statement .idct := by
  intro _
  refine ⟨?_, ?_, rfl⟩ <;>
    refine BitVec.eq_of_getLsbD_eq fun k hk => ?_ <;>
    simp only [field, Instr.head, Instr.op, Op.code, Op.reserved, BitVec.getLsbD_extractLsb', BitVec.getLsbD_and,
      BitVec.getLsbD_append] <;>
    interval_cases k <;> simp

theorem levelShift : Statement .levelShift := by
  intro _
  refine ⟨?_, ?_, rfl⟩ <;>
    refine BitVec.eq_of_getLsbD_eq fun k hk => ?_ <;>
    simp only [field, Instr.head, Instr.op, Op.code, Op.reserved, BitVec.getLsbD_extractLsb', BitVec.getLsbD_and,
      BitVec.getLsbD_append] <;>
    interval_cases k <;> simp

theorem emit (slot : BitVec 4) (d : Word) : Statement (.emit slot d) := by
  intro _
  refine ⟨?_, ?_, rfl⟩ <;>
    refine BitVec.eq_of_getLsbD_eq fun k hk => ?_ <;>
    simp only [field, Instr.head, Instr.op, Op.code, Op.reserved, BitVec.getLsbD_extractLsb', BitVec.getLsbD_and,
      BitVec.getLsbD_append] <;>
    interval_cases k <;> simp

theorem decodeBlock (slot : BitVec 4) (d : Word) : Statement (.decodeBlock slot d) := by
  intro _
  refine ⟨?_, ?_, rfl⟩ <;>
    refine BitVec.eq_of_getLsbD_eq fun k hk => ?_ <;>
    simp only [field, Instr.head, Instr.op, Op.code, Op.reserved, BitVec.getLsbD_extractLsb', BitVec.getLsbD_and,
      BitVec.getLsbD_append] <;>
    interval_cases k <;> simp

theorem color (y cb cr : Byte) : Statement (.color y cb cr) := by
  intro _
  refine ⟨?_, ?_, rfl⟩ <;>
    refine BitVec.eq_of_getLsbD_eq fun k hk => ?_ <;>
    simp only [field, Instr.head, Instr.op, Op.code, Op.reserved, BitVec.getLsbD_extractLsb', BitVec.getLsbD_and,
      BitVec.getLsbD_append] <;>
    interval_cases k <;> simp

theorem blkWrite (k : BitVec 6) (d : Word) : Statement (.blkWrite k d) := by
  intro _
  refine ⟨?_, ?_, rfl⟩ <;>
    refine BitVec.eq_of_getLsbD_eq fun k hk => ?_ <;>
    simp only [field, Instr.head, Instr.op, Op.code, Op.reserved, BitVec.getLsbD_extractLsb', BitVec.getLsbD_and,
      BitVec.getLsbD_append] <;>
    interval_cases k <;> simp

theorem blkRead (k : BitVec 6) : Statement (.blkRead k) := by
  intro _
  refine ⟨?_, ?_, rfl⟩ <;>
    refine BitVec.eq_of_getLsbD_eq fun k hk => ?_ <;>
    simp only [field, Instr.head, Instr.op, Op.code, Op.reserved, BitVec.getLsbD_extractLsb', BitVec.getLsbD_and,
      BitVec.getLsbD_append] <;>
    interval_cases k <;> simp

end Sys2Proof.Laws.Encoding
end

