-- ==== Sys2Proof/Laws/Stops.lean ====
section
/-! SUPPORT. Decoding a block on a stream that goes wrong: where a Huffman decode, a magnitude and the body of DECODE_COEFS
stop, with the fault they raise. -/

namespace Sys2Proof.Machine

/-- A primitive or a decode raises a fault with this code, information and position. -/
def RaisesAt {α : Type} (r : ReadResult α) (code : Byte) (info : Word) (pos : BitVec 25) : Prop :=
  ∃ kind br d, r = .err ⟨kind, info, pos⟩ { br := br, draws := d } ∧ kind.code = code

/-- A fault raised by a part ends the whole. -/
theorem RaisesAt.next {α β : Type} {m : Reader α} (k : α → Reader β) {c : ReadCtx} {code : Byte} {info : Word}
    {pos : BitVec 25} (h : RaisesAt (m c) code info pos) : RaisesAt (Reader.next m k c) code info pos := by
  obtain ⟨kind, br, d, h1, h2⟩ := h
  exact ⟨kind, br, d, Reader.next_of_err _ h1, h2⟩

/-- POS after more bits, counted from a reader that has read some already. -/
theorem ReadsTo.posAfter_add {g : Segment} {b b' : BitReader} {n : Nat} (h : ReadsTo g b n b') (m : Nat) :
    posAfter g b' m = posAfter g b (n + m) := by
  have p := h.pos
  have c := h.cnt
  unfold posAfter at p ⊢
  by_cases hb : b.markerHit = true
  · rw [if_pos hb] at p ⊢
    rw [if_pos (h.hit hb).1, p]
  · rw [if_neg hb] at p ⊢
    rw [show (n + m - b.bitcnt + 7) / 8 = (n - b.bitcnt + 7) / 8 + (m - b'.bitcnt + 7) / 8 by omega,
      Segment.fetched_add, ← p]
    split
    · rename_i hm
      rcases h.stop hm with x | x
      · exact absurd x hb
      · rw [g.fetched_stuck _ x]
    · rfl

theorem ReadsTo.pos_eq {g : Segment} {b b' : BitReader} {n : Nat} (h : ReadsTo g b n b') :
    b'.pos = BitVec.ofNat 25 (posAfter g b n) := by rw [← h.pos]; simp

/-- A decode that fails, with weaker ends. -/
theorem DecodeFails.mono {array : Bool} {c : HuffClass} {t : BitVec 2} {tab : HuffTable} {l : List Bool}
    {e : Option (Nat × Word)} {pos : Nat → Nat} {A B : Byte → Word → BitVec 25 → Prop}
    (h : DecodeFails array c t tab l e pos A) (hab : ∀ code info at', A code info at' → B code info at') :
    DecodeFails array c t tab l e pos B := by
  intro m hm
  obtain ⟨h1, h2⟩ := h m hm
  refine ⟨fun ha => ⟨fun x => hab _ _ _ ((h1 ha).1 x), fun q i x y => hab _ _ _ ((h1 ha).2 q i x y)⟩, fun ha => ?_⟩
  obtain ⟨at', x | ⟨q, i, x, y, z⟩⟩ := h2 ha
  · exact ⟨at', .inl (hab _ _ _ x)⟩
  · exact ⟨at', .inr ⟨q, i, x, y, hab _ _ _ z⟩⟩

/-- The same bits with their pad bits hold the same values. -/
theorem HuffTable.NoValue.congr {t : HuffTable} {l l' : List Bool} {m : Nat} (h : ∀ j, padTo j l = padTo j l')
    (hn : t.NoValue l m) : t.NoValue l' m := by
  simpa only [HuffTable.NoValue, HuffTable.Matches, h] using hn

/-- A stream that serves a bit string and ends in pad bits has the same next bits. -/
theorem Serves.same {l w : List Bool} (h : Serves l none w) (j : Nat) : Machine.padTo j w = Machine.padTo j l := by
  obtain ⟨a, b, h1, -⟩ := h
  have pads : ∀ (n : Nat) (u : List Bool), Machine.padTo j (u ++ List.replicate n true) = Machine.padTo j u := by
    intro n u
    rw [padTo_append j (n + j) u (by omega), Machine.padTo, List.append_assoc, List.replicate_append_replicate]
  have e := congrArg (Machine.padTo j) h1
  rw [pads, pads] at e
  exact e.symm

/-- A decode that fails on what a stream serves fails on the stream. -/
theorem DecodeFails.of_serves {array : Bool} {c : HuffClass} {t : BitVec 2} {tab : HuffTable} {l w : List Bool}
    {e : Option (Nat × Word)} {pos : Nat → Nat} {A : Byte → Word → BitVec 25 → Prop}
    (h : DecodeFails array c t tab l e pos A) (hs : Serves l e w) (hw : e ≠ none → l = w) :
    DecodeFails array c t tab w e pos A := by
  cases e with
  | some x => rw [← hw (by simp)]; exact h
  | none =>
    intro m hm
    obtain ⟨h1, h2⟩ := h m (hm.congr hs.same)
    refine ⟨fun ha => ⟨fun _ => (h1 ha).1 (.inr rfl), fun q i x => by simp at x⟩, fun ha => ?_⟩
    obtain ⟨at', x | ⟨q, i, x, -⟩⟩ := h2 ha
    · exact ⟨at', .inl x⟩
    · simp at x

/-- The bits of the number that bits write are those bits. -/
theorem bitsMsb_bitsToNat (l : List Bool) : bitsMsb l.length (bitsToNat l) = l := by
  induction l using List.reverseRecOn with
  | nil => rfl
  | append_singleton l b ih =>
    rw [bitsToNat_append, List.length_append, List.length_singleton, bitsMsb_succ,
      show (2 * bitsToNat l + b.toNat) / 2 = bitsToNat l by cases b <;> simp; omega, ih]
    cases b <;> simp

/-- A stream that begins with no inserted code runs into a code that is not inserted, or into none in 16 bits. -/
theorem HuffTable.Ok.noValue {t : HuffTable} (h : t.Ok) (hv : t.valid = true) (l : List Bool)
    (hno : ∀ k, k < t.nins → padTo (t.size k) l ≠ t.codeBits k) : ∃ m, 1 ≤ m ∧ m ≤ 16 ∧ t.NoValue l m := by
  by_cases ex : ∃ m k, t.Matches l m k
  · classical
    obtain ⟨k, hk⟩ := Nat.find_spec ex
    have sr := h.size_range hv k hk.1
    have hs := hk.2.1
    refine ⟨Nat.find ex, by omega, by omega, fun j k' hj hm => Nat.find_min ex hj ⟨k', hm⟩, .inl ⟨k, ?_, by omega, hk⟩⟩
    by_contra hlt
    refine hno k (by omega) ?_
    rw [HuffTable.codeBits, hs, hk.2.2]
    have := bitsMsb_bitsToNat (padTo (Nat.find ex) l)
    rw [padTo_length] at this
    exact this.symm
  · simp only [not_exists] at ex
    exact ⟨16, by decide, le_rfl, fun j k _ => ex j k, .inr ⟨rfl, fun k => ex 16 k⟩⟩

/-- The information of a HuffmanDecodeError as a number. -/
theorem infoDecode_eq (c : HuffClass) (t : BitVec 2) : infoDecode c t = BitVec.ofNat 32 (c.code.toNat * 16 + t.toNat) := by
  cases c <;> revert t <;> decide

/-- A Huffman decode of a code that is not there (41_huffman.md R171, R172). -/
theorem huffDecode_fails (g : Segment) (h : g.Still) (array : Bool) (c : HuffClass) (t : BitVec 2) (tab : HuffTable)
    (hv : tab.valid = true) (ho : tab.Ok) (ctx : ReadCtx) (hb : ctx.br.Ok) (l : List Bool) (e : Option (Nat × Word))
    (ha : ahead g ctx.br = (l, e)) :
    DecodeFails array c t tab l e (posAfter g ctx.br) (RaisesAt (huffDecode g array c t tab ctx)) := by
  intro m hm
  obtain ⟨k1, k2⟩ := huffDecodeArray_fails g h c t tab hv ho m ctx hb l e ha hm
  have all : (m ≤ l.length ∨ e = none) ∨ ∃ q info, e = some (q, info) ∧ l.length < m := by
    rcases e with - | ⟨q, info⟩
    · exact .inl (.inr rfl)
    · by_cases hl : m ≤ l.length
      · exact .inl (.inl hl)
      · exact .inr ⟨q, info, rfl, by omega⟩
  refine ⟨fun har => ⟨fun x => ?_, fun q info x y => ?_⟩, fun har => ?_⟩
  · obtain ⟨br, h1, h2⟩ := k1 x
    rw [← h2.pos_eq, ← infoDecode_eq]
    exact ⟨.huffmanDecode, br, ctx.draws, by simp [huffDecode, h1, har], rfl⟩
  · obtain ⟨br, h1, -⟩ := k2 q info x y
    exact ⟨.bitstreamMarker, br, ctx.draws, by simp [huffDecode, h1, har], rfl⟩
  · have go : ∀ (e0 : Raise) (c0 : ReadCtx), huffDecodeArray g c t tab ctx = .err e0 c0 →
        (e0.kind = .huffmanDecode ∧ e0.info = infoDecode c t ∨
          ∃ q info, e = some (q, info) ∧ l.length ≤ m ∧ e0.kind = .bitstreamMarker ∧ e0.info = info) →
        (∀ e2 c2, nextBit g { c0 with draws := c0.draws + 2 } = .err e2 c2 →
          ∃ q info, e = some (q, info) ∧ l.length ≤ m ∧ e2.kind = .bitstreamMarker ∧ e2.info = info) →
        ∃ at', RaisesAt (huffDecode g array c t tab ctx) 2 (BitVec.ofNat 32 (c.code.toNat * 16 + t.toNat)) at' ∨
          ∃ q info, e = some (q, info) ∧ l.length ≤ m ∧ RaisesAt (huffDecode g array c t tab ctx) 1 info at' := by
      intro e0 c0 h0 h1 h2
      obtain ⟨⟨kind, info, at'⟩, d, f1, beyond, f2, f3⟩ := treeFail_err g c t e0 c0
      have hd : huffDecode g array c t tab ctx = .err ⟨kind, info, at'⟩ { c0 with draws := d } := by
        simp [huffDecode, h0, har, f1]
      have hr : ∀ code, kind.code = code → RaisesAt (huffDecode g array c t tab ctx) code info at' :=
        fun code hc => ⟨kind, _, _, hd, hc⟩
      simp only [treeFaults, List.mem_cons, Prod.mk.injEq] at f3
      refine ⟨at', ?_⟩
      rw [← infoDecode_eq]
      rcases f3 with ⟨a1, a2⟩ | ⟨a1, a2⟩ | f3
      · rcases h1 with ⟨b1, b2⟩ | ⟨q, i2, b0, bl, b1, b2⟩
        · left; rw [← b2, ← a2]; exact hr 2 (by rw [a1, b1]; rfl)
        · right; exact ⟨q, i2, b0, bl, by rw [← b2, ← a2]; exact hr 1 (by rw [a1, b1]; rfl)⟩
      · left; rw [← a2]; exact hr 2 (by rw [a1]; rfl)
      · cases hbd : beyond with
        | ok v cv => rw [hbd] at f3; simp at f3
        | err e2 c2 =>
          rw [hbd] at f3
          simp only [List.mem_singleton, Prod.mk.injEq] at f3
          obtain ⟨q, i2, b0, bl, b1, b2⟩ := h2 e2 c2 (f2.symm.trans hbd)
          right; exact ⟨q, i2, b0, bl, by rw [← b2, ← f3.2]; exact hr 1 (by rw [f3.1, b1]; rfl)⟩
    have bit : ∀ (br : BitReader) (d : Nat) (l' : List Bool), br.Ok → ahead g br = (l', e) →
        (1 ≤ l'.length ∨ l.length ≤ m) → ∀ e2 c2, nextBit g { br := br, draws := d } = .err e2 c2 →
          ∃ q info, e = some (q, info) ∧ l.length ≤ m ∧ e2.kind = .bitstreamMarker ∧ e2.info = info := by
      intro br d l' ob ab hl e2 c2 hn
      have k := take_ahead g h 1 (by decide) { br := br, draws := d } ob l' e ab
      rcases e with - | ⟨q, info⟩
      · obtain ⟨b2, p, r1, -⟩ := k.1 (.inr rfl)
        rw [nextBit, r1] at hn; simp at hn
      · by_cases h0 : 1 ≤ l'.length
        · obtain ⟨b2, p, r1, -⟩ := k.1 (.inl h0)
          rw [nextBit, r1] at hn; simp at hn
        · obtain ⟨c', r1, -⟩ := k.2 q info rfl (by omega)
          rw [nextBit, r1] at hn
          simp only [ReadResult.err.injEq] at hn
          obtain ⟨rfl, -⟩ := hn
          exact ⟨q, info, rfl, by omega, rfl, rfl⟩
    rcases all with x | ⟨q, info, x, y⟩
    · obtain ⟨br, h1, h2⟩ := k1 x
      obtain ⟨p, p1, p2, p3⟩ := h2.stream
      rw [ha] at p1 p2 p3
      exact go _ _ h1 (.inl ⟨rfl, rfl⟩) (bit br _ _ h2.ok p3 (by simp only [List.length_drop, List.length_append]; omega))
    · obtain ⟨br, h1, o1, a1⟩ := k2 q info x y
      exact go _ _ h1 (.inr ⟨q, info, x, by omega, rfl, rfl⟩) (bit br _ _ o1 a1 (.inr (by omega)))

/-- Magnitude bits that the stream ends within (40_bitreader.md R128, R129). -/
theorem receive_short (g : Segment) (h : g.Still) (n : Nat) (hn : n ≤ 16) (ctx : ReadCtx) (hb : ctx.br.Ok) (l : List Bool)
    (q : Nat) (info : Word) (ha : ahead g ctx.br = (l, some (q, info))) (hl : l.length < n) :
    RaisesAt (receive g n ctx) 1 info (BitVec.ofNat 25 q) := by
  obtain ⟨c', r1, -⟩ := (take_ahead g h n hn ctx hb l _ ha).2 q info rfl hl
  exact ⟨_, _, _, r1, rfl⟩

/-! ## The body of DECODE_COEFS -/

/-- It stops at its DC symbol (42_coefficient.md R212). -/
theorem decodeBody_dc (x : CoefTables) (h : x.seg.Still) (hvd : x.dc.valid = true) (hod : x.dc.Ok) (pred : Word)
    (ctx : ReadCtx) (hb : ctx.br.Ok) (l : List Bool) (e : Option (Nat × Word)) (ha : ahead x.seg ctx.br = (l, e)) :
    DecodeFails x.array .dc x.td x.dc l e (posAfter x.seg ctx.br) (RaisesAt (decodeBody x pred ctx)) ∧
    ∀ kd, kd < x.dc.nins → ∀ w, Serves l e (x.dc.codeBits kd ++ w) →
      let cat := (x.dc.value kd).toNat
      (11 < cat → RaisesAt (decodeBody x pred ctx) 11 (BitVec.ofNat 32 cat)
        (BitVec.ofNat 25 (posAfter x.seg ctx.br (x.dc.codeBits kd).length))) ∧
      (cat ≤ 11 → ∀ q info, e = some (q, info) → l = x.dc.codeBits kd ++ w → w.length < cat →
        RaisesAt (decodeBody x pred ctx) 1 info (BitVec.ofNat 25 q)) ∧
      (cat ≤ 11 → ∀ raw w', w = bitsMsb cat raw ++ w' → raw < 2 ^ cat →
        (pred.toInt + extendValue raw cat < -2147483648 ∨ 2147483647 < pred.toInt + extendValue raw cat) →
        RaisesAt (decodeBody x pred ctx) 12 (BitVec.ofNat 32 1)
          (BitVec.ofNat 25 (posAfter x.seg ctx.br (x.dc.codeBits kd ++ bitsMsb cat raw).length))) := by
  refine ⟨(huffDecode_fails x.seg h x.array .dc x.td x.dc hvd hod ctx hb l e ha).mono fun _ _ _ => RaisesAt.next _, ?_⟩
  intro kd hkd w hs cat
  obtain ⟨br1, l1, h1, o1, a1, s1, x1, t1⟩ := huffDecode_serves x.seg h x.array .dc x.td x.dc hvd hod kd hkd ctx hb l _ e ha hs
  have body : decodeBody x pred ctx = _ := Reader.next_of_ok _ h1
  rw [body]
  refine ⟨fun hc => ?_, fun hc q info he hl hw => ?_, fun hc raw w' hw hr hv => ?_⟩
  · rw [if_pos hc, ← t1.pos_eq]
    refine ⟨.dcCategory, br1, ctx.draws, ?_, rfl⟩
    simp only [Reader.raise, ReadResult.err.injEq, Raise.mk.injEq, true_and, and_true]
    simp only [cat]
    generalize x.dc.value kd = v
    revert v; decide
  · rw [if_neg (by omega)]
    rw [x1 hl, he] at a1
    exact (receive_short x.seg h _ (by omega) _ o1 w q info a1 hw).next _
  · subst hw
    rw [if_neg (by omega)]
    obtain ⟨br2, l2, h2, o2, a2, s2, x2, t2⟩ := receive_serves x.seg h _ raw (by omega) hr { ctx with br := br1 } o1 l1 _ e a1 s1
    rw [Reader.next_of_ok _ h2]
    have hfit : fits32 (pred.toInt + extendValue raw (x.dc.value kd).toNat) = false := by
      simp only [fits32, Bool.and_eq_false_iff, decide_eq_false_iff_not]; simp only [cat] at hv; omega
    have t := (t1.trans t2).pos_eq
    rw [← List.length_append] at t
    rw [← t]
    exact ⟨.range, br2, ctx.draws, by rw [hfit]; rfl, rfl⟩

/-- It stops at an AC symbol (42_coefficient.md R213, R214). -/
theorem decodeBody_ac (x : CoefTables) (h : x.seg.Still) (hvd : x.dc.valid = true) (hod : x.dc.Ok)
    (hva : x.ac.valid = true) (hoa : x.ac.Ok) (pred : Word) (kd raw : Nat) (hkd : kd < x.dc.nins)
    (hcat : (x.dc.value kd).toNat ≤ 11) (hraw : raw < 2 ^ (x.dc.value kd).toNat)
    (hlo : -2147483648 ≤ pred.toInt + extendValue raw (x.dc.value kd).toNat)
    (hhi : pred.toInt + extendValue raw (x.dc.value kd).toNat ≤ 2147483647)
    (items : List (Nat × Nat)) (k : Nat) (b : Blk) (hk : k ≤ 63)
    (hp : acPlace x.ac 1 items (dcBlock (BitVec.ofInt 32 (pred.toInt + extendValue raw (x.dc.value kd).toNat))) = some (k, b))
    (ctx : ReadCtx) (hb : ctx.br.Ok) (l w : List Bool) (e : Option (Nat × Word)) (ha : ahead x.seg ctx.br = (l, e))
    (hs : Serves l e (x.dc.codeBits kd ++ (bitsMsb (x.dc.value kd).toNat raw ++ (acBits x.ac items ++ w))))
    (hw : e ≠ none → l = x.dc.codeBits kd ++ (bitsMsb (x.dc.value kd).toNat raw ++ (acBits x.ac items ++ w))) :
    let used := x.dc.codeBits kd ++ bitsMsb (x.dc.value kd).toNat raw ++ acBits x.ac items
    DecodeFails x.array .ac x.ta x.ac w e (fun m => posAfter x.seg ctx.br (used.length + m))
        (RaisesAt (decodeBody x pred ctx)) ∧
    ∀ kx, kx < x.ac.nins → ∀ w', w = x.ac.codeBits kx ++ w' →
      let at' := BitVec.ofNat 25 (posAfter x.seg ctx.br (used ++ x.ac.codeBits kx).length)
      (x.ac.ssss kx = 0 → x.ac.rrrr kx ≠ 0 → x.ac.rrrr kx ≠ 15 →
        RaisesAt (decodeBody x pred ctx) 4 (BitVec.ofNat 32 ((x.ac.value kx).toNat + 256 * k)) at') ∧
      (x.ac.ssss kx ≠ 0 → 63 < k + x.ac.rrrr kx →
        RaisesAt (decodeBody x pred ctx) 10 (BitVec.ofNat 32 ((x.ac.value kx).toNat + 256 * (k + x.ac.rrrr kx))) at') ∧
      (x.ac.ssss kx ≠ 0 → k + x.ac.rrrr kx ≤ 63 → ∀ q info, e = some (q, info) → w'.length < x.ac.ssss kx →
        RaisesAt (decodeBody x pred ctx) 1 info (BitVec.ofNat 25 q)) := by
  intro used
  obtain ⟨br1, l1, fuel, h1, f1, o1, a1, s1, x1, t1⟩ := decodeBody_reaches x h hvd hod hva hoa pred kd raw hkd hcat hraw hlo
    hhi items k b hp ctx hb l _ e ha hs
  obtain ⟨fuel, rfl⟩ : ∃ f, fuel = f + 1 := ⟨fuel - 1, by omega⟩
  rw [h1, acLoop, if_neg (show ¬63 < k by omega)]
  constructor
  · have hf := huffDecode_fails x.seg h x.array .ac x.ta x.ac hva hoa { ctx with br := br1 } o1 l1 e a1
    have hpos : posAfter x.seg br1 = fun m => posAfter x.seg ctx.br (used.length + m) := funext t1.posAfter_add
    rw [hpos] at hf
    exact (hf.of_serves s1 fun he => x1 (hw he)).mono fun _ _ _ hr => (hr.next _).next _
  · intro kx hkx w' hw'
    subst hw'
    obtain ⟨br2, l2, h2, o2, a2, s2, x2, t2⟩ := huffDecode_serves x.seg h x.array .ac x.ta x.ac hva hoa kx hkx
      { ctx with br := br1 } o1 l1 w' e a1 s1
    have t := (t1.trans t2).pos_eq
    rw [← List.length_append] at t
    have ns := nibbles (x.ac.value kx)
    have er : (x.ac.value kx).toNat / 16 = x.ac.rrrr kx := rfl
    have es : (x.ac.value kx).toNat % 16 = x.ac.ssss kx := rfl
    have info : ∀ n, n < 128 → infoRun (x.ac.value kx) n = BitVec.ofNat 32 ((x.ac.value kx).toNat + 256 * n) := by
      intro n hn
      generalize x.ac.value kx = v
      apply BitVec.eq_of_toNat_eq
      have := v.isLt
      simp only [infoRun, BitVec.toNat_append, BitVec.toNat_ofNat]
      rw [← Nat.shiftLeft_add_eq_or_of_lt (by omega), ← Nat.shiftLeft_add_eq_or_of_lt (by omega)]
      simp [Nat.shiftLeft_eq]; omega
    have hr15 : x.ac.rrrr kx ≤ 15 := by have := (x.ac.value kx).isLt; simp only [HuffTable.rrrr]; omega
    intro at'
    have hat : br2.pos = at' := t
    refine ⟨fun z0 r0 r15 => ?_, fun z0 hr => ?_, fun z0 hr q i he hl => ?_⟩
    · refine RaisesAt.next _ ?_
      rw [Reader.next_of_ok _ h2]
      simp only [ns.1, ns.2, er, es]
      rw [if_pos z0, if_neg r0, if_neg r15, info k (by omega)]
      exact ⟨.unsupportedRunLength, br2, ctx.draws, by rw [← hat]; rfl, rfl⟩
    · refine RaisesAt.next _ ?_
      rw [Reader.next_of_ok _ h2]
      simp only [ns.1, ns.2, er, es]
      rw [if_neg z0, if_pos hr, info _ (by omega)]
      exact ⟨.acIndexOverflow, br2, ctx.draws, by rw [← hat]; rfl, rfl⟩
    · refine RaisesAt.next _ ?_
      rw [Reader.next_of_ok _ h2]
      simp only [ns.1, ns.2, er, es]
      rw [if_neg z0, if_neg (by omega)]
      refine RaisesAt.next _ (receive_short x.seg h _ (by simp only [HuffTable.ssss]; omega) _ o2 w' q i ?_ hl)
      rw [← he, ← x2 (x1 (hw (by simp [he])))]; exact a2

end Sys2Proof.Machine
end

