-- ==== Sys2Proof/Tests/Slice0.lean ====
section
/-! SUPPORT. Tests of the model against the vectors and examples of the spec, the WellFormed smoke tests, and for every
statement with hypotheses a concrete case that meets them. -/

namespace Sys2Proof.Tests

-- One theorem after another: the kernel checks below would else each hold a thread.
set_option Elab.async false

open Sys2Proof Sys2Proof.Machine

/-! ## Helpers -/

/-- One field of the next state of a result. -/
def after {α : Type} (r : Result) (f : State → α) : Option α :=
  match r with
  | .next s => some (f s)
  | .fault _ => none
  | .refused _ => none

/-- The fault a command leaves: FAULT_CODE, FAULT_CMD, FAULT_INFO. -/
def faultOf (s : State) : Bool × Byte × Word × Word := (s.faulted, s.faultCode, s.faultCmd, s.faultInfo)

/-- The bit reader as 95_test_vectors.md writes it: POS, BITCNT, BITREG. -/
def readerOf (s : State) : Nat × Nat × Nat := (s.br.pos.toNat, s.br.bitcnt, s.br.bitreg.toNat)

/-- A segment holding these bytes. -/
def segOf (bs : List Byte) : Segment :=
  { cells := (List.range bs.length).map fun k => (k, bs.getD k 0), len := BitVec.ofNat 25 bs.length, addr := 0,
    oldBytes := [], oldLens := [] }

/-- From reset, with a segment. -/
def withSeg (bs : List Byte) : State := { State.reset with seg := segOf bs }

/-- A block from a list of numbers. -/
def blkOf (l : List Int) : Blk := vecOfFn fun k => BitVec.ofInt 32 (l.getD k.val 0)

/-- The table T_DC of 95_test_vectors.md section 0, loaded. -/
def tDc : HuffTable :=
  (((((HuffTable.reset.build (countsOf 0x01010300 0 0 0) 0).insert 0).insert 1).insert 2).insert 3).insert 4

/-- The table T_AC of 95_test_vectors.md section 0, loaded. -/
def tAc : HuffTable :=
  (((((((((HuffTable.reset.build (countsOf 0x01020200 0x00000102 0 0) 0).insert 0x00).insert 0x01).insert 0x02).insert
    0x11).insert 0xF0).insert 0x03).insert 0x21).insert 0x10)

/-- The table T_D1 of 95_test_vectors.md section 2.4. -/
def tD1 : HuffTable := (HuffTable.reset.build (countsOf 0x00000001 0 0 0) 0).insert 0

/-- The table T_Z of 95_test_vectors.md section 2.4 with a third value. -/
def tZ (v : Byte) : HuffTable := (((HuffTable.reset.build (countsOf 0x00000300 0 0 0) 0).insert 0).insert 0xF0).insert v

/-- A quantization table of one value. -/
def qOf (v : BitVec 16) : QuantTable := { valid := true, prec := true, q := Vector.replicate 64 v }

/-- A state with a DC table, an AC table, slot 0 bound to both and to QT[0], and CONFIG.HM = 1. -/
def coded (dc ac : HuffTable) (bs : List Byte) : State :=
  { withSeg bs with
    htDc := Vector.replicate 4 dc, htAc := Vector.replicate 4 ac, config := 1
    slot := Vector.replicate 4 { valid := true, ci := 1, td := 0, ta := 0, tq := 0 } }

/-! ## WellFormed: the one check, refused -/

theorem test_wf_qtLoad : (Instr.qtLoad 0 0 (List.replicate 32 0)).wellFormed = true := by decide
theorem test_wf_qtLoad_short : (Instr.qtLoad 0 0 (List.replicate 31 0)).wellFormed = false := by decide
theorem test_wf_qtLoad_long : (Instr.qtLoad 0 0 (List.replicate 33 0)).wellFormed = false := by decide

/-! ## Decoding: the words of 95_test_vectors.md section 2.1, each OP once -/

theorem test_decode_system :
    decode [0x00000000] = .ok (.nop, []) ∧ decode [0x0100BEEF] = .ok (.sync 0xBEEF, []) ∧
    decode [0x0200000A] = .ok (.setConfig 0 1 1, []) ∧ decode [0x03000004] = .ok (.setRstint 4, []) ∧
    decode [0x6000003F, 0xFFFFFFFF] = .ok (.blkWrite 63 0xFFFFFFFF, []) ∧
    decode [0x61000005] = .ok (.blkRead 5, []) := by decide

theorem test_decode_reader :
    decode [0x10123456] = .ok (.brSeek 0x123456, []) ∧ decode [0x11000000] = .ok (.brNextbit, []) ∧
    decode [0x12000010] = .ok (.brPeek 16, []) ∧ decode [0x1300000B] = .ok (.brConsume 11, []) ∧
    decode [0x14000000] = .ok (.brAlign, []) := by decide

theorem test_decode_huffman :
    decode [0x20100000, 0x01020200, 0x00000102, 0, 0] = .ok (.htInit 1 0 0x01020200 0x00000102 0 0, []) ∧
    decode [0x210310FF] = .ok (.htInsert 0 3 16 0xFF, []) ∧ decode [0x22120000] = .ok (.htDecode 1 2, []) := by decide

theorem test_decode_qtLoad :
    decode (0x28130000 :: List.replicate 32 0x00010001) = .ok (.qtLoad 1 3 (List.replicate 32 0x00010001), []) := by
  decide

theorem test_decode_coefficient :
    decode [0x30000000] = .ok (.predReset, []) ∧ decode [0x312111C3] = .ok (.scanSetup 2 1 1 1 0xC3, []) ∧
    decode [0x32300000] = .ok (.decodeCoefs 3, []) ∧ decode [0x3310FFFF] = .ok (.extend 16 0xFFFF, []) := by decide

theorem test_decode_block :
    decode [0x40020000] = .ok (.dequant 2, []) ∧ decode [0x41000000] = .ok (.reorder, []) ∧
    decode [0x48000000] = .ok (.idct, []) ∧ decode [0x50000000] = .ok (.levelShift, []) ∧
    decode [0x51300000, 0x1234FFFF] = .ok (.emit 3 0x1234FFFF, []) ∧
    decode [0x52000000, 0x00020003] = .ok (.decodeBlock 0 0x00020003, []) ∧
    decode [0x584C55FF] = .ok (.color 76 85 255, []) := by decide

/-- Words of a longer queue stay behind; missing data words, undefined OPs and reserved bits are refused by name. -/
theorem test_decode_refused :
    decode [0x0100BEEF, 7] = .ok (.sync 0xBEEF, [7]) ∧ decode [] = .error .empty ∧
    decode [0x04000000] = .error .undefinedOp ∧ decode [0xFF000000] = .error .undefinedOp ∧
    decode [0x51300000] = .error .missingData ∧ decode [0x00000001] = .error .reservedBits ∧
    decode [0x48000100] = .error .reservedBits ∧ decode [0x21002100] = .error .reservedBits := by decide

/-- The encodings of 95_test_vectors.md section 2.1, written from the assembly. -/
theorem test_encode :
    encode (.setConfig 0 2 1) = [0x0200000C] ∧ encode (.htInsert 1 0 5 0x21) = [0x21100521] ∧
    encode (.scanSetup 2 1 1 1 0xC3) = [0x312111C3] ∧ encode (.decodeBlock 0 0x00020003) = [0x52000000, 0x00020003] := by
  decide

/-- The numbering of spec/opcode_table.json: the first word is the low 32 bits. -/
theorem test_decodeTableWord :
    decodeTableWord 64 (0xFFFFFFFF * 2 ^ 32 + 0x6000003F) = some (.blkWrite 63 0xFFFFFFFF) ∧
    decodeTableWord 32 0x28130000 = some (.qtLoad 1 3 (List.replicate 32 0)) ∧
    decodeTableWord 32 0x29000000 = none := by decide +kernel

/-! ## System commands (95_test_vectors.md section 2.9) -/

theorem test_nop : exec .nop State.reset = .next State.reset := rfl

theorem test_sync : after (exec (.sync 0xBEEF) State.reset) (fun s => s.resq) = some [0x0000BEEF] := by decide +kernel

theorem test_setConfig :
    after (exec (.setConfig 1 2 0) (coded tDc tAc [])) (fun s => (s.config, s.tblValid)) = some (5, 0xFFF0) ∧
    after (exec (.setConfig 0 1 1) (coded tDc tAc [])) (fun s => (s.config, s.tblValid)) = some (0xA, 0xF000) := by
  decide +kernel

theorem test_setConfig_illegal :
    after (exec (.setConfig 0 3 0) State.reset) faultOf = some (true, 8, 0x02000006, 2) := by decide +kernel

theorem test_setRstint : after (exec (.setRstint 4) State.reset) (fun s => s.rstint) = some 4 := by decide +kernel

theorem test_blkWrite : after (exec (.blkWrite 63 0xFFFFFFFF) State.reset) (fun s => (s.blkAt 63, s.blkAt 62)) =
    some (0xFFFFFFFF, 0) := by decide +kernel

theorem test_blkRead :
    after (exec (.blkRead 5) { State.reset with blk := blkOf [0, 0, 0, 0, 0, -1] }) (fun s => s.resq) =
      some [0xFFFFFFFF] := by decide +kernel

/-! ## Bit reader (95_test_vectors.md section 2.2 and program P1) -/

theorem test_brNextbit :
    after (exec .brNextbit (withSeg [0x80])) (fun s => (s.resq, readerOf s)) = some ([1], 1, 7, 0) := by decide +kernel

theorem test_brPeek :
    after (exec (.brPeek 16) (withSeg [0xFF, 0x00, 0xAB])) (fun s => (s.resq, readerOf s)) =
      some ([0xFFAB], 3, 16, 0xFFAB) ∧
    after (exec (.brPeek 16) (withSeg [0xA5, 0xFF, 0xD7]))
      (fun s => (s.resq, readerOf s, s.br.markerHit, s.br.marker, s.br.padcnt)) =
      some ([0xA5FF], (1, 16, 0xA5FF), true, 0xD7, 1) ∧
    after (exec (.brPeek 16) (withSeg [])) (fun s => (s.resq, readerOf s, s.br.padcnt)) =
      some ([0xFFFF], (0, 16, 0xFFFF), 2) := by decide +kernel

theorem test_brPeek_marker :
    after (exec (.brPeek 1) (withSeg [0xFF, 0xD9])) (fun s => (faultOf s, s.faultPos, s.resq)) =
      some ((true, 1, 0x12000001, 0x0D9), 0, []) ∧
    after (exec (.brPeek 16) (withSeg [0x12, 0xFF])) (fun s => (faultOf s, s.faultPos)) =
      some ((true, 1, 0x12000010, 0x1FF), 1) := by decide +kernel

theorem test_brConsume :
    after (exec (.brConsume 12) (withSeg [0xC3, 0xFF, 0xD3, 0x11])) (fun s => (readerOf s, s.br.marker, s.resq)) =
      some ((1, 4, 0xF), 0xD3, []) := by decide +kernel

theorem test_brConsume_range :
    after (exec (.brConsume 17) State.reset) faultOf = some (true, 13, 0x13000011, 1) := by decide +kernel

theorem test_brSeek :
    after (exec (.brSeek 4) (withSeg [1, 2, 3, 4])) readerOf = some (4, 0, 0) := by decide +kernel

theorem test_brSeek_range :
    after (exec (.brSeek 5) (withSeg [1, 2, 3, 4])) (fun s => (faultOf s, s.faultPos)) =
      some ((true, 13, 0x10000005, 2), 0) := by decide +kernel

/-- The bit reader of 40_bitreader.md R137's example: the four bits left of 0xFF are dropped. -/
def midByte : BitReader := { BitReader.reset with pos := 3, bitreg := 0xFAB, bitcnt := 12 }

theorem test_brAlign : after (exec .brAlign { State.reset with br := midByte }) readerOf = some (3, 8, 0xAB) := by
  decide +kernel

/-! ## Huffman (95_test_vectors.md sections 0 and 2.3, 41_huffman.md R163) -/

/-- The derived tables of T_AC in 41_huffman.md R163: sizes, codes, and the row of length 5. -/
theorem test_htInit :
    after (exec (.htInit 1 0 0x01020200 0x00000102 0 0) State.reset) (fun s =>
      let t := s.table .ac 0
      (t.valid, t.nval, t.nins, t.huffsize, t.huffcode.map BitVec.toNat)) =
      some (true, 8, 0, [2, 2, 3, 3, 4, 5, 5, 6], [0, 1, 4, 5, 12, 26, 27, 56]) ∧
    after (exec (.htInit 1 0 0x01020200 0x00000102 0 0) State.reset) (fun s =>
      let t := s.table .ac 0
      (t.rows[0].maxcode, t.rows[4].mincode, t.rows[4].maxcode, t.rows[4].valptr)) =
      some (none, 26, some 27, 5) := by decide +kernel

theorem test_htInit_sum :
    after (exec (.htInit 1 1 0 0 0x000002FF 0) State.reset) faultOf = some (true, 3, 0x20110000, 0x05000011) := by
  decide +kernel

theorem test_htInsert :
    after (exec (.htInsert 0 0 2 7) { State.reset with
        htDc := State.reset.htDc.set 0 (HuffTable.reset.build (countsOf 0x01010300 0 0 0) 0) })
      (fun s => ((s.table .dc 0).nins, (s.table .dc 0).huffval[0])) = some (1, 7) := by decide +kernel

theorem test_htInsert_full :
    after (exec (.htInsert 0 0 4 5) (coded tDc tAc [])) faultOf = some (true, 3, 0x21000405, 0x02000400) := by
  decide +kernel

theorem test_htDecode :
    after (exec (.htDecode 0 0) (coded tDc tAc [0xE3, 0x37])) (fun s => (s.resq, readerOf s)) =
      some ([4], 1, 4, 3) ∧
    after (exec (.htDecode 0 0) { coded tDc tAc [0xE3, 0x37] with config := 0 }) (fun s => (s.resq, readerOf s)) =
      some ([4], 1, 4, 3) := by decide +kernel

/-- A code that is assigned but not inserted. -/
theorem test_htDecode_missing :
    after (exec (.htDecode 0 0)
        (coded (((HuffTable.reset.build (countsOf 0x01010300 0 0 0) 0).insert 0).insert 1) tAc [0x80]))
      (fun s => (faultOf s, s.faultPos, s.resq)) = some ((true, 2, 0x22000000, 0), 1, []) := by decide +kernel

/-! ## Coefficients (95_test_vectors.md section 2.4 and program P3) -/

theorem test_predReset :
    after (exec .predReset { State.reset with pred := Vector.replicate 4 7 }) (fun s => s.pred.toList) =
      some [0, 0, 0, 0] := by decide +kernel

theorem test_scanSetup :
    after (exec (.scanSetup 2 1 1 1 0xC3) State.reset) (fun s => (s.slotAt 2, s.tblValid)) =
      some ({ valid := true, ci := 0xC3, td := 1, ta := 1, tq := 1 }, 0x4000) := by decide +kernel

theorem test_scanSetup_range :
    after (exec (.scanSetup 0 5 0 0 1) State.reset) faultOf = some (true, 5, 0x31050001, 0x54) := by decide +kernel

theorem test_decodeCoefs :
    after (exec (.decodeCoefs 0) (coded tDc tAc [0xD6, 0x1B, 0xE6, 0x91])) (fun s => (s.blk, s.predAt 0, readerOf s)) =
      some (blkOf ([5, -3, 0, 0, 1] ++ List.replicate 16 0 ++ [-5]), 5, 4, 1, 1) := by decide +kernel

theorem test_decodeCoefs_overflow :
    after (exec (.decodeCoefs 0) (coded tD1 (tZ 0xF1) [0x2B, 0x7F])) (fun s => (faultOf s, s.faultPos)) =
      some ((true, 10, 0x32000000, 0x40F1), 2) := by decide +kernel

theorem test_extend :
    after (exec (.extend 5 5) State.reset) (fun s => s.resq) = some [0xFFFFFFE6] ∧
    after (exec (.extend 11 2047) State.reset) (fun s => s.resq) = some [0x000007FF] ∧
    after (exec (.extend 16 0) State.reset) (fun s => s.resq) = some [0xFFFF0001] := by decide +kernel

theorem test_extend_range :
    after (exec (.extend 0 1) State.reset) faultOf = some (true, 13, 0x33000001, 5) := by decide +kernel

/-! ## Dequantizer and reorderer (95_test_vectors.md section 2.5) -/

theorem test_qtLoad :
    after (exec (.qtLoad 1 1 (0xFFFF0100 :: List.replicate 31 0xFFFFFFFF)) State.reset)
      (fun s => ((s.quant 1).prec, (s.quant 1).q[0], (s.quant 1).q[1], s.tblValid)) = some (true, 256, 65535, 2) := by
  decide +kernel

theorem test_qtLoad_wide :
    after (exec (.qtLoad 0 0 (0x00010001 :: 0x01000001 :: List.replicate 30 0x012C012C)) State.reset) faultOf =
      some (true, 5, 0x28000000, 0x03001007) := by decide +kernel

theorem test_dequant :
    after (exec (.dequant 1) { State.reset with
        blk := blkOf [3, -2]
        qt := State.reset.qt.set 1 { valid := true, prec := true, q := (Vector.replicate 64 65535).set 0 256 } })
      (fun s => (s.blkAt 0, s.blkAt 1, s.blkAt 2)) = some (0x00000300, 0xFFFE0002, 0) := by decide +kernel

theorem test_dequant_range :
    after (exec (.dequant 1) { State.reset with
        blk := blkOf [0, 0, 0, 0, 0, 40000]
        qt := State.reset.qt.set 1 { valid := true, prec := true, q := (Vector.replicate 64 1).set 5 65535 } }) faultOf =
      some (true, 12, 0x40010000, 0x0502) := by decide +kernel

/-- The source's example, 95_test_vectors.md section 1.2: the first two rows. -/
theorem test_reorder :
    after (exec .reorder { State.reset with
        blk := blkOf [-26, -3, 0, -3, -2, -6, 2, -4, 1, -3, 1, 1, 5, 1, 2, -1, 1, -1, 2, 0, 0, 0, 0, 0, -1, -1] })
      (fun s => s.blk.toList.take 16) =
      some ([-26, -3, -6, 2, 2, -1, 0, 0, 0, -2, -4, 1, 1, 0, 0, 0] : List Word) := by decide +kernel

/-! ## IDCT (95_test_vectors.md section 1.10, 44_idct.md R270) -/

/-- The dequantized natural-order block of the canonical example. -/
def canonical : Blk :=
  blkOf ([-416, -33, -60, 32, 48, -40, 0, 0] ++ [0, -24, -56, 19, 26, 0, 0, 0] ++ [-42, 13, 80, -24, -40, 0, 0, 0]
    ++ [-42, 17, 44, -29, 0, 0, 0, 0] ++ [18])

/-- Its spatial block. -/
def canonicalSpatial : Blk :=
  blkOf ([-66, -63, -71, -68, -56, -65, -68, -46] ++ [-71, -73, -72, -46, -20, -41, -66, -57]
    ++ [-70, -78, -68, -17, 20, -14, -61, -63] ++ [-63, -73, -62, -8, 27, -14, -60, -58]
    ++ [-58, -65, -61, -27, -6, -40, -68, -50] ++ [-57, -57, -64, -58, -48, -66, -72, -47]
    ++ [-53, -46, -61, -74, -65, -63, -62, -45] ++ [-47, -34, -53, -74, -60, -47, -47, -41])

theorem test_idct_chenWang :
    after (exec .idct { State.reset with config := 4, blk := canonical }) (fun s => s.blk) = some canonicalSpatial := by
  decide +kernel

theorem test_idct_float :
    after (exec .idct { State.reset with blk := canonical }) (fun s => s.blk) = some canonicalSpatial := by
  decide +kernel

/-- A DC value of 4 puts every sample exactly at 1/2: a tie, and within 2^-10 of it (44_idct.md R262, R268). -/
theorem test_idct_tie :
    signPast (blkOf [4]) 3 5 0 0 = 0 ∧ signPast (blkOf [4]) 3 5 0 (1 / 1024) = -1 ∧
      signPast (blkOf [4]) 3 5 0 (-1 / 1024) = 1 := by decide +kernel

/-! ## Level shift and output (95_test_vectors.md section 2.7) -/

theorem test_levelShift :
    after (exec .levelShift { State.reset with blk := blkOf [0x7FFFFF7F] }) (fun s => (s.blkAt 0, s.blkAt 1)) =
      some (0x7FFFFFFF, 128) := by decide +kernel

theorem test_levelShift_range :
    after (exec .levelShift { State.reset with blk := State.reset.blk.set 9 0x7FFFFF80 }) faultOf =
      some (true, 12, 0x50000000, 0x0903) := by decide +kernel

theorem test_emit :
    after (exec (.emit 0 0x00020003) { coded tDc tAc [] with
        blk := ((Vector.replicate 64 129).set 8 1).set 63 2 }) (fun s => s.outq) =
      some ([1, 0x00020003, 0x81818181, 0x81818181, 0x81818101] ++ List.replicate 12 0x81818181 ++ [0x02818181]) := by
  decide +kernel

theorem test_emit_range :
    after (exec (.emit 0 0) { coded tDc tAc [] with blk := (Vector.replicate 64 128).set 7 256 })
      (fun s => (faultOf s, s.outq, s.blkAt 7)) = some ((true, 12, 0x51000000, 0x0704), [], 256) := by decide +kernel

/-- A block of DC value 5 with a quantizer of 1s: every sample is floor(5/8 + 1/2) + 128 = 129 (44_idct.md R268). -/
theorem test_decodeBlock :
    after (exec (.decodeBlock 0 7) { coded tDc tAc [0xD4] with qt := Vector.replicate 4 (qOf 1) })
      (fun s => (s.outq, s.predAt 0, readerOf s)) =
      some ([1, 7] ++ List.replicate 16 0x81818181, 5, 1, 0, 0) := by decide +kernel

theorem test_decodeBlock_noTable :
    after (exec (.decodeBlock 0 0) (coded tDc tAc [0xD4])) (fun s => (faultOf s, s.faultPos)) =
      some ((true, 9, 0x52000000, 0x20), 0) := by decide +kernel

/-! ## Colour (95_test_vectors.md section 2.8) -/

theorem test_color_float :
    after (exec (.color 100 178 78) State.reset) (fun s => s.resq) = some [0xFFBD771E] ∧
    after (exec (.color 76 85 255) State.reset) (fun s => s.resq) = some [0xFF0000FE] := by decide +kernel

theorem test_color_integer :
    after (exec (.color 100 178 78) { State.reset with config := 8 }) (fun s => s.resq) = some [0xFFBD761E] ∧
    after (exec (.color 128 2 97) { State.reset with config := 8 }) (fun s => s.resq) = some [0xFF00C255] := by
  decide +kernel

/-! ## Steps (95_test_vectors.md section 2.10) -/

theorem test_step_runs :
    after (step (State.reset.withFetchWord 32 0x0100BEEF)) (fun s => (s.resq, s.cmdq)) = some ([0x0000BEEF], []) := by
  decide +kernel

theorem test_step_illegal :
    after (step (State.reset.withFetchWord 32 0x04000000)) faultOf = some (true, 8, 0x04000000, 0) ∧
    after (step (State.reset.withFetchWord 32 0x13000020)) faultOf = some (true, 8, 0x13000020, 1) := by decide +kernel

/-- STATUS and the interrupt line, section 2.10 steps 1, 2, 3 and 5; the count in bits 23:16 is that of 10_state.md R41. -/
theorem test_status :
    State.reset.status = 0 ∧ { State.reset with irqEn := 8 }.status = 0x80 ∧
    { State.reset with irqEn := 2, resq := [0xBEEF] }.status = 0x000100A0 ∧
    { State.reset with irqEn := 1, faulted := true }.status = 0x82 := by decide +kernel

/-! ## Witnesses: for each statement with hypotheses, a case that meets them, at the boundaries where clauses meet -/

/-- The command answers a next state. -/
def goesOn (r : Result) : Bool := (after r fun _ => ()).isSome

theorem goesOn_next {r : Result} (h : goesOn r = true) : ∃ t, r = .next t := by
  cases r <;> simp [goesOn, after] at h ⊢

/-- A command leaves a fault. -/
def faults (r : Result) : Bool := after r (fun s => s.faulted) == some true

theorem faults_next {r : Result} (h : faults r = true) : ∃ t, r = .next t ∧ t.faulted = true := by
  cases r <;> simp [faults, after] at h ⊢
  exact h

/-- The state after a next outcome has a property that can be tested. -/
theorem next_with {r : Result} {f : State → Bool} (h : after r f = some true) : ∃ t, r = .next t ∧ f t = true := by
  cases r <;> simp [after] at h ⊢
  exact h

theorem test_witness_decodeOfEncode : (Instr.qtLoad 0 0 (List.replicate 32 0)).wellFormed = true := test_wf_qtLoad

theorem test_witness_encodeOfDecode : decode [0x51300000, 7, 8] = .ok (.emit 3 7, [8]) := by decide

theorem test_witness_ready :
    (State.reset.withFetchWord 32 0x00000000).Ready ∧ (State.reset.withFetchWord 32 0x0100BEEF).Ready ∧
      (State.reset.withFetchWord 32 0x51000000).Ready :=
  ⟨⟨rfl, _, [], rfl, by decide +kernel, fun h => absurd h (by decide +kernel), fun h => absurd h (by decide +kernel)⟩,
    ⟨rfl, _, [], rfl, by decide +kernel, fun _ => resqDepth_min, fun h => absurd h (by decide +kernel)⟩,
    ⟨rfl, _, [0], rfl, by decide +kernel, fun h => absurd h (by decide +kernel), fun _ => outqDepth_min⟩⟩

/-- `CommandWordsTaken`: a ready command with its data word, and with a word left behind. -/
theorem test_witness_commandWordsTaken :
    { State.reset with cmdq := [0x51000000, 7, 8] }.Ready ∧ State.reset.idctVariant ≠ 3 ∧
      { State.reset with cmdq := [0x51000000, 7, 8] }.fetch ≠ .hold := by
  refine ⟨⟨rfl, _, _, rfl, by decide, fun h => absurd h (by decide), fun _ => outqDepth_min⟩, by decide, ?_⟩
  decide +kernel

theorem test_witness_undefinedOp : field 0x29000000 24 8 ∉ definedOps ∧ field 0x62000000 24 8 ∉ definedOps := by decide

/-- `ReservedBitFaults`: the lowest and the highest bit of w[23:0], and bits beside a field. -/
theorem test_witness_reservedBits :
    { State.reset with cmdq := [0x00000001] }.Ready ∧ ReservedBit .nop 0 ∧ ReservedBit .nop 23 ∧
      ReservedBit .brConsume 5 ∧ ¬ReservedBit .brConsume 4 ∧ ReservedBit .htInsert 13 ∧ ¬ReservedBit .brSeek 23 := by
  refine ⟨⟨rfl, _, _, rfl, by decide, fun h => absurd h (by decide), fun h => absurd h (by decide)⟩, ?_⟩
  simp [ReservedBit, fieldsOf]

theorem test_witness_stepRunsDecoded :
    ∃ s : State, s.Ready ∧ s.cmdq = encode (.sync 0xBEEF) ++ [] ∧ (Instr.sync 0xBEEF).wellFormed = true ∧
      s.bus = .core :: [] :=
  ⟨State.reset.withFetchWord 32 0x0100BEEF, test_witness_ready.2.1, by decide +kernel, rfl, rfl⟩

/-- `NotReadyHolds`: nothing queued, halted on a fault, a data word missing, and RESQ full. -/
theorem test_witness_notReady :
    ¬State.reset.Ready ∧ ¬{ State.reset with faulted := true, cmdq := [0] }.Ready ∧
      ¬{ State.reset with cmdq := [0x51000000] }.Ready ∧
      ¬{ State.reset with cmdq := [0x01000000], resq := List.replicate Config.resqDepth 0 }.Ready := by
  refine ⟨?_, ?_, ?_, ?_⟩
  · rintro ⟨-, w, rest, h, -⟩; simp [State.reset] at h
  · rintro ⟨h, -⟩; simp at h
  · rintro ⟨-, w, rest, h, h2, -⟩
    simp only [List.cons.injEq] at h
    obtain ⟨rfl, rfl⟩ := h
    revert h2; decide
  · rintro ⟨-, w, rest, h, -, h2, -⟩
    simp only [List.cons.injEq] at h
    obtain ⟨rfl, rfl⟩ := h
    have := h2 (by decide)
    simp at this

theorem test_witness_canBecomeReady :
    (Instr.qtLoad 0 0 (List.replicate 32 0)).wellFormed = true ∧ ∃ s t, exec (.sync 1) s = .next t :=
  ⟨test_wf_qtLoad, State.reset, goesOn_next (by decide +kernel)⟩

/-- `CommandsCanBecomeReady`: a fair endless run with a command ready at its start. -/
theorem test_witness_progress :
    ∃ (moves : Schedule) (run : Nat → State), IsRun moves run ∧ WeaklyFair moves run ∧ (run 0).Ready := by
  refine ⟨fun _ => .core, fun n => if n = 0 then { State.reset with cmdq := [0] } else State.reset, fun n => ?_,
    fun n _ => ⟨n, le_refl _, rfl⟩, ?_⟩
  · cases n <;> rfl
  · exact ⟨rfl, 0, [], rfl, by decide, fun h => absurd h (by decide), fun h => absurd h (by decide)⟩

/-- `CommandWriteSets`: a command that stores, one that pushes a result, one that pushes a record, and one that faults. -/
theorem test_witness_commandWriteSets :
    (∃ s t, exec (.blkWrite 63 1) s = .next t) ∧ (∃ s t, exec (.sync 1) s = .next t) ∧
      (∃ s t, exec (.emit 0 0) s = .next t ∧ (!t.outq.isEmpty) = true) ∧
      (∃ s t, exec (.extend 17 0) s = .next t ∧ t.faulted = true) :=
  ⟨⟨State.reset, goesOn_next (by decide +kernel)⟩, ⟨State.reset, goesOn_next (by decide +kernel)⟩,
    ⟨coded tDc tAc [], next_with (by decide +kernel)⟩, ⟨State.reset, faults_next (by decide +kernel)⟩⟩

theorem test_witness_faultLeavesNoResult :
    (∃ s t, s.faulted = false ∧ coreStep s = .next t ∧ t.faulted = true) ∧ ∃ s : State, s.faulted = true :=
  ⟨(fun h => ⟨{ State.reset with cmdq := [0x04000000] }, h.choose, rfl, h.choose_spec.1, h.choose_spec.2⟩)
      (faults_next (r := coreStep { State.reset with cmdq := [0x04000000] }) (by decide +kernel)),
    { State.reset with faulted := true }, rfl⟩

/-- `FaultEntryWriteSets`: a check fault, EMIT's RangeFault, and an execution fault of a block decode. -/
theorem test_witness_faultEntry :
    faults (exec (.brPeek 17) State.reset) = true ∧
      faults (exec (.emit 0 0) { coded tDc tAc [] with blk := Vector.replicate 64 256 }) = true ∧
      faults (exec (.decodeCoefs 0) (coded tD1 (tZ 0xF1) [0x2B, 0x7F])) = true ∧ idOf 0 = some 0 ∧ (1 : BitVec 2) ≠ 0 := by
  decide +kernel

/-- `InvKept`: a state that is not the reset state, with loaded tables, bits buffered and a command waiting. -/
theorem test_witness_invKept :
    ∃ s t : State, s.Inv ∧ s.cmdq ≠ [] ∧ step s = .next t := by
  have h : goesOn (step { coded tDc tAc [] with seg := State.reset.seg, br := { midByte with pos := 0 }, cmdq := [0] }) =
    true := by decide +kernel
  obtain ⟨t, ht⟩ := goesOn_next h
  refine ⟨_, t, ⟨by decide, Nat.zero_le _, by decide +kernel, by decide +kernel, by decide +kernel, by decide, by decide,
    ?_, ?_, fun _ => ⟨rfl, rfl⟩⟩, by simp, ht⟩
  · exact ⟨by simpa using le_trans (by decide) cmdqDepth_min, Nat.zero_le _, Nat.zero_le _⟩
  · exact ⟨rfl, by simp [State.reset], Nat.zero_le _, by simp [State.reset], by simp [State.reset]⟩

/-- `TablesWrittenOnlyBy`: HT_INIT, HT_INSERT, a SET_CONFIG that changes HM, and a soft reset each change a table. -/
theorem test_witness_tablesWritten :
    (∃ u, step (State.reset.withFetchWord 160 0x20000000) = .next u ∧
      ((u.table .dc 0).valid != (State.reset.table .dc 0).valid) = true) ∧
    (∃ u, step ({ State.reset with htDc := Vector.replicate 4 (HuffTable.reset.build (countsOf 1 0 0 0) 0) }.withFetchWord 32
        0x21000105) = .next u ∧ ((u.table .dc 0).nins != 0) = true) ∧
    (∃ u, step ((coded tDc tAc []).withFetchWord 32 0x02000000) = .next u ∧ ((u.table .dc 0).valid != tDc.valid) = true) ∧
    (∃ u, step { coded tDc tAc [] with bus := [.access ⟨busAddress 0x04, 4, .write 1⟩] } = .next u ∧
      ((u.table .dc 0).valid != tDc.valid) = true) := by
  refine ⟨next_with (by decide +kernel), next_with (by decide +kernel), next_with (by decide +kernel), next_with ?_⟩
  simp only [step, hostAccess, windowOffset_busAddress, windowAccess]
  decide +kernel

/-- `SegmentTailInvisible`: segments that differ in the byte at SEG_LEN. -/
theorem test_witness_segmentTail :
    (withSeg [0xAB]).Settled ∧
      (let g := { segOf [0xAB] with cells := [(0, 0xAB), (1, 7)] }
       g.oldBytes = [] ∧ g.oldLens = [] ∧ g.len = (withSeg [0xAB]).seg.len ∧
        ∀ a, a < (withSeg [0xAB]).seg.len.toNat → g.byte a = (withSeg [0xAB]).seg.byte a) := by
  decide +kernel

/-- A reader at an offset. -/
def readerAt (p : BitVec 25) : ReadCtx := { br := { BitReader.reset with pos := p }, draws := 0 }

/-- `NextByteCases`: one case of each clause. -/
theorem test_witness_nextByte :
    ((segOf []).len.toNat ≤ (readerAt 0).br.pos.toNat) ∧
    (0 < (segOf [0xFE]).len.toNat ∧ (segOf [0xFE]).byte 0 ≠ 0xFF) ∧
    (0 + 1 = (segOf [0xFF]).len.toNat ∧ (segOf [0xFF]).byte 0 = 0xFF) ∧
    (0 + 1 < (segOf [0xFF, 0]).len.toNat ∧ (segOf [0xFF, 0]).byte 1 = 0) ∧
    ((0xD0 ≤ ((segOf [0xFF, 0xD0]).byte 1).toNat ∧ ((segOf [0xFF, 0xD7]).byte 1).toNat ≤ 0xD7) ∧
      (segOf [0xFF, 0xDC]).byte 1 = 0xDC) ∧
    (∀ b ∈ [0x01#8, 0xCF, 0xD8, 0xDB, 0xDD, 0xFF], b ≠ 0 ∧ ¬(0xD0 ≤ b.toNat ∧ b.toNat ≤ 0xD7) ∧ b ≠ 0xDC) := by
  decide +kernel

/-- `FillKeepsBits` and `PeekProperties`: 16 bits with none buffered, and with enough buffered. -/
theorem test_witness_fill :
    (readerAt 0).br.Ok ∧ midByte.Ok ∧
      (match fill (segOf [1, 2]) 16 (readerAt 0) with | .ok _ c => c.br.bitcnt == 16 | .err _ _ => false) = true ∧
      (match peek (segOf [1, 2]) 16 (readerAt 0) with
        | .ok v c => v == 0x0102 && (match consume (segOf [1, 2]) 16 c with | .ok _ _ => true | .err _ _ => false)
        | .err _ _ => false) = true := by
  decide +kernel

/-- `BitCommandsReadStream`: enough data bits, pad bits after the end, a marker in the way, at once and after a byte. -/
theorem test_witness_bitCommands :
    (withSeg [0xAB, 0xCD]).Settled ∧ (withSeg [0xAB, 0xCD]).br.Ok ∧
      ((ahead (segOf [0xAB, 0xCD]) BitReader.reset).1.length = 16 ∧ (ahead (segOf [0xAB, 0xCD]) BitReader.reset).2 = none) ∧
      ahead (segOf []) BitReader.reset = ([], none) ∧
      ahead (segOf [0xFF, 0xD9]) BitReader.reset = ([], some (0, 0xD9)) ∧
      ((ahead (segOf [0x12, 0xFF]) BitReader.reset).1.length = 8 ∧
        (ahead (segOf [0x12, 0xFF]) BitReader.reset).2 = some (1, 0x1FF)) ∧
      16 < (17 : BitVec 5).toNat := by
  decide +kernel

theorem test_witness_seek :
    (withSeg [1, 2, 3, 4]).seg.oldLens = [] ∧ (4 : BitVec 24).toNat ≤ (withSeg [1, 2, 3, 4]).seg.len.toNat ∧
      (withSeg [1, 2, 3, 4]).seg.len.toNat < (5 : BitVec 24).toNat := by decide

theorem test_witness_align : midByte.Ok ∧ midByte.bitcnt % 8 = 4 := by decide

/-- `PositionOnlyGrows`: a read that moves POS, and one after a marker hit. -/
theorem test_witness_position :
    (∃ t, exec (.brPeek 8) (withSeg [1, 2]) = .next t ∧ (!t.faulted && t.br.pos == 1) = true) ∧
    (∃ t, exec (.brPeek 8) { withSeg [0xFF, 0xD0] with br := { BitReader.reset with markerHit := true, marker := 0xD0 } } =
      .next t ∧ (!t.faulted) = true) ∧ (withSeg [1, 2]).Settled ∧ (Instr.brPeek 8).op ≠ .brSeek := by
  refine ⟨next_with (by decide +kernel), next_with (by decide +kernel), by decide, by decide⟩

/-- `CanonicalCodes` and `DecodeTables`: 256 codes, the largest sum, with lengths that have codes and lengths that have
none. -/
theorem test_witness_codes :
    ((countsOf 0xFF000000 0x01000000 0 0).toList.map BitVec.toNat).sum = 256 ∧
      (countsOf 0xFF000000 0x01000000 0 0)[0].toNat = 0 ∧ (countsOf 0xFF000000 0x01000000 0 0)[3].toNat ≠ 0 ∧
      0 < (HuffTable.reset.build (countsOf 0xFF000000 0x01000000 0 0) 0).huffcode.length := by decide +kernel

/-- `HtInitBuilds`: each id out of range at its first value, and sums of 256 and 257. -/
theorem test_witness_htInit :
    1 < (2 : BitVec 4).toNat ∧ 3 < (4 : BitVec 4).toNat ∧ HuffClass.ac.code = 1 ∧ (3 : BitVec 2).setWidth 4 = (3 : BitVec 4) ∧
      ((countsOf 0xFF000000 0x01000000 0 0).toList.map BitVec.toNat).sum ≤ 256 ∧
      256 < ((countsOf 0xFF000000 0x02000000 0 0).toList.map BitVec.toNat).sum := by decide +kernel

/-- `HtInsertAppends`: a table not loaded, each refusal of a loaded one, and an accepted value. -/
theorem test_witness_htInsert :
    (State.reset.table .dc 0).valid = false ∧
    (let t := HuffTable.reset.build (countsOf 0x01010300 0 0 0) 0
     t.valid = true ∧ (16 < (17 : BitVec 5).toNat ∧ (0 : BitVec 5).toNat < 1) ∧ tDc.nins = tDc.nval ∧
      (t.nins ≠ t.nval ∧ (3 : BitVec 5).toNat ≠ t.size t.nins) ∧
      ((2 : BitVec 5).toNat = t.size t.nins ∧ t.nins < t.nval ∧ t.nval ≤ 256 ∧ (t.huffcode.getD t.nins 0).toNat < 2 ^ 2)) ∧
    (let t := ((HuffTable.reset.build (countsOf 3 0 0 0) 0).insert 7).insert 8
     t.nins ≠ t.nval ∧ (1 : BitVec 5).toNat = t.size t.nins ∧ 2 ^ 1 ≤ (t.huffcode.getD t.nins 0).toNat) := by
  decide +kernel

theorem test_witness_loading :
    let built := (State.reset.table .dc 0).build (countsOf 0x01010300 0 0 0) 0
    State.reset.faulted = false ∧ built.nval ≤ 256 ∧ [0x00#8, 1, 2, 3, 4].length = built.nval ∧
      ∀ k, k < built.nval → (built.huffcode.getD k 0).toNat < 2 ^ built.size k := by decide +kernel

/-- `HtDecodeFindsCode`: a code in the data bits, and the code `1` read from pad bits. -/
theorem test_witness_htDecode :
    (coded tDc tAc [0xE3, 0x37]).Settled ∧ BitReader.reset.Ok ∧ tDc.valid = true ∧ tDc.Ok ∧ 4 < tDc.nins ∧
      padTo (tDc.size 4) (ahead (segOf [0xE3, 0x37]) BitReader.reset).1 = tDc.codeBits 4 ∧
      tDc.size 4 ≤ (ahead (segOf [0xE3, 0x37]) BitReader.reset).1.length ∧
      (let t := (((HuffTable.reset.build (countsOf 2 0 0 0) 0).insert 5).insert 6)
       t.valid = true ∧ t.Ok ∧ 1 < t.nins ∧ padTo (t.size 1) (ahead (segOf []) BitReader.reset).1 = t.codeBits 1 ∧
        (ahead (segOf []) BitReader.reset).2 = none) := by
  decide +kernel

theorem test_witness_htDecode_faults :
    1 < (2 : BitVec 4).toNat ∧ 3 < (4 : BitVec 4).toNat ∧ (State.reset.table .ac 3).valid = false := by decide

theorem test_witness_htDecodeOnly :
    ∃ u, exec (.htDecode 0 0) (coded tDc tAc [0xE3, 0x37]) = .next u ∧ (!u.faulted) = true :=
  next_with (by decide +kernel)

/-- How a witness of `NoValue` is found: by trying every length and value number. -/
theorem noValue_of {t : HuffTable} {l : List Bool} {m : Nat}
    (h : ∀ j < m, ∀ k < t.nval, ¬(t.size k = j ∧ (t.huffcode.getD k 0).toNat = bitsToNat (padTo j l)))
    (h2 : (∃ k < t.nval, t.nins ≤ k ∧ 1 ≤ m ∧ t.size k = m ∧ (t.huffcode.getD k 0).toNat = bitsToNat (padTo m l)) ∨
      (m = 16 ∧ ∀ k < t.nval, ¬(t.size k = 16 ∧ (t.huffcode.getD k 0).toNat = bitsToNat (padTo 16 l)))) : t.NoValue l m := by
  refine ⟨fun j k hj hm => h j hj k hm.1 hm.2, ?_⟩
  rcases h2 with ⟨k, k1, k2, k3, k4⟩ | ⟨h16, hk⟩
  · exact .inl ⟨k, k2, k3, k1, k4⟩
  · exact .inr ⟨h16, fun k hm => hk k hm.1 hm.2⟩

/-- T_DC with two of its values inserted. -/
def tMiss : HuffTable := ((HuffTable.reset.build (countsOf 0x01010300 0 0 0) 0).insert 0).insert 1

/-- `HtDecodeOnlyInserted`: a code not inserted in the data bits, no code in 16 pad bits, and no code before a marker. -/
theorem test_witness_htDecodeFails :
    (tMiss.valid = true ∧ tMiss.Ok ∧ tMiss.NoValue (ahead (segOf [0x80]) BitReader.reset).1 2 ∧
      2 ≤ (ahead (segOf [0x80]) BitReader.reset).1.length) ∧
    (tDc.NoValue [] 16 ∧ ahead (segOf []) BitReader.reset = ([], none) ∧
      (∀ k, k < tDc.nins → padTo (tDc.size k) [] ≠ tDc.codeBits k)) ∧
    ahead (segOf [0xFF, 0xD9]) BitReader.reset = ([], some (0, 0xD9)) ∧
    ((coded tDc tAc []).arrayVariant = true ∧ { coded tDc tAc [] with config := 0 }.arrayVariant = false) := by
  refine ⟨⟨by decide, by decide +kernel, noValue_of (by decide +kernel) (.inl ⟨2, by decide +kernel⟩), by decide +kernel⟩,
    ⟨noValue_of (by decide +kernel) (.inr (by decide +kernel)), by decide +kernel, by decide +kernel⟩, by decide +kernel,
    by decide +kernel⟩

theorem test_witness_scanSetup : 3 < (4 : BitVec 4).toNat ∧ (3 : BitVec 4).toNat ≤ 3 := by decide

/-- `ExtendSigns`: each clause at a boundary. -/
theorem test_witness_extend :
    (0 : BitVec 16).toNat < 2 ^ (0 : BitVec 5).toNat ∧ (0x7FFF : BitVec 16).toNat < 2 ^ ((16 : BitVec 5).toNat - 1) ∧
      2 ^ ((16 : BitVec 5).toNat - 1) ≤ (0x8000 : BitVec 16).toNat ∧ (0xFFFF : BitVec 16).toNat < 2 ^ (16 : BitVec 5).toNat ∧
      16 < (17 : BitVec 5).toNat ∧ 2 ^ (15 : BitVec 5).toNat ≤ (0x8000 : BitVec 16).toNat := by decide

/-- Program P3's stream as symbols: DC category 3, then four AC symbols and an EOB at position 22. -/
theorem test_witness_decodeCoefs :
    let s := coded tDc tAc [0xD6, 0x1B, 0xE6, 0x91]
    let ac := s.table .ac 0
    s.Settled ∧ s.br.Ok ∧ (s.slotAt 0).valid = true ∧ ac.valid = true ∧ (tDc.value 3).toNat = 3 ∧
      (s.predAt 0).toInt + extendValue 5 3 = 5 ∧
      acPlace ac 1 [(2, 0), (6, 1), (4, 0), (5, 2)] (dcBlock (BitVec.ofInt 32 5)) =
        some (22, blkOf ([5, -3, 0, 0, 1] ++ List.replicate 16 0 ++ [-5])) ∧
      ac.value 0 = 0 ∧ (ahead s.seg s.br).2 = none ∧
      (ahead s.seg s.br).1 ++ List.replicate 0 true =
        tDc.codeBits 3 ++ bitsMsb 3 5 ++ acBits ac [(2, 0), (6, 1), (4, 0), (5, 2)] ++ ac.codeBits 0 ++ [true] := by
  decide +kernel

theorem test_witness_decodeCoefs_tables : tDc.Ok ∧ tAc.Ok ∧ (coded tDc tAc []).table .ac 0 = tAc :=
  ⟨by decide +kernel, by decide +kernel, rfl⟩

/-- `DecodeCoefsRebuilds` without an EOB and with a pad bit: the second vector with T_Z. -/
theorem test_witness_decodeCoefs_pad :
    let s := coded tD1 (tZ 0xF1) [0x2A]
    let ac := s.table .ac 0
    tD1.Ok ∧ ac.Ok ∧ (tD1.value 0).toNat = 0 ∧
      acPlace ac 1 [(1, 0), (1, 0), (1, 0), (1, 0)] (dcBlock (BitVec.ofInt 32 0)) = some (65, dcBlock (BitVec.ofInt 32 0)) ∧
      (ahead s.seg s.br).2 = none ∧
      (ahead s.seg s.br).1 ++ List.replicate 1 true =
        tD1.codeBits 0 ++ bitsMsb 0 0 ++ acBits ac [(1, 0), (1, 0), (1, 0), (1, 0)] ++ [] := by
  decide +kernel

/-- A DC table of the values 0 and 12, and an AC table of the values 0 and 0x50 (95_test_vectors.md section 2.4). -/
def tStop (v : Byte) : HuffTable := ((HuffTable.reset.build (countsOf 2 0 0 0) 0).insert 0).insert v

/-- `DecodeCoefsStops`: a DC category of 12. -/
theorem test_witness_decodeStops_category :
    (tStop 12).Ok ∧ 11 < ((tStop 12).value 1).toNat ∧
      (ahead (segOf [0x80]) BitReader.reset).1 = (tStop 12).codeBits 1 ++ List.replicate 7 false := by decide +kernel

/-- A DC value one past 32 bits. -/
theorem test_witness_decodeStops_range :
    (tStop 1).Ok ∧ 2147483647 < (2147483647 : Int) + extendValue 1 1 ∧
      (ahead (segOf [0xC0]) BitReader.reset).1 = (tStop 1).codeBits 1 ++ bitsMsb 1 1 ++ List.replicate 6 false := by
  decide +kernel

/-- A run of 5 with no coefficient. -/
theorem test_witness_decodeStops_run :
    (tStop 0x50).Ok ∧ (tStop 0x50).ssss 1 = 0 ∧ (tStop 0x50).rrrr 1 = 5 ∧
      acPlace (tStop 0x50) 1 [] (dcBlock 0) = some (1, dcBlock 0) ∧
      (ahead (segOf [0x40]) BitReader.reset).1 =
        tD1.codeBits 0 ++ bitsMsb 0 0 ++ acBits (tStop 0x50) [] ++ (tStop 0x50).codeBits 1 ++ List.replicate 6 false := by
  decide +kernel

/-- A run past position 63: k = 49 and a run of 15. -/
theorem test_witness_decodeStops_end :
    (tZ 0xF1).Ok ∧ (tZ 0xF1).ssss 2 ≠ 0 ∧ 63 < 49 + (tZ 0xF1).rrrr 2 ∧
      acPlace (tZ 0xF1) 1 [(1, 0), (1, 0), (1, 0)] (dcBlock 0) = some (49, dcBlock 0) ∧
      (ahead (segOf [0x2B, 0x7F]) BitReader.reset).1 =
        tD1.codeBits 0 ++ bitsMsb 0 0 ++ acBits (tZ 0xF1) [(1, 0), (1, 0), (1, 0)] ++ (tZ 0xF1).codeBits 2 ++
          List.replicate 7 true := by
  decide +kernel

/-- An AC symbol that is no code, in pad bits after the data bits. -/
theorem test_witness_decodeStops_noCode :
    (tZ 0xF1).NoValue (List.replicate 7 true) 16 ∧ acPlace (tZ 0xF1) 1 [] (dcBlock 0) = some (1, dcBlock 0) ∧
      ahead (segOf [0x7F]) BitReader.reset =
        (tD1.codeBits 0 ++ bitsMsb 0 0 ++ acBits (tZ 0xF1) [] ++ List.replicate 7 true, none) :=
  ⟨noValue_of (by decide +kernel) (.inr (by decide +kernel)), by decide +kernel, by decide +kernel⟩

/-- A DC magnitude of 11 bits with 7 before an unexpected marker, and an AC magnitude of 15 with 5. -/
theorem test_witness_decodeStops_cut :
    ((tStop 11).Ok ∧ ((tStop 11).value 1).toNat = 11 ∧
      ahead (segOf [0x80, 0xFF, 0xD9]) BitReader.reset =
        ((tStop 11).codeBits 1 ++ List.replicate 7 false, some (1, 0xD9))) ∧
    ((tZ 0x0F).Ok ∧ (tZ 0x0F).ssss 2 = 15 ∧ 1 + (tZ 0x0F).rrrr 2 ≤ 63 ∧
      ahead (segOf [0x40, 0xFF, 0xD9]) BitReader.reset =
        (tD1.codeBits 0 ++ bitsMsb 0 0 ++ acBits (tZ 0x0F) [] ++ (tZ 0x0F).codeBits 2 ++ List.replicate 5 false,
          some (1, 0xD9))) := by
  decide +kernel

/-- The check faults of `DecodeCoefsStops`, in their order. -/
theorem test_witness_decodeChecks :
    3 < (4 : BitVec 4).toNat ∧ (State.reset.slotAt 0).valid = false ∧
      (let s := { coded tDc tAc [] with htDc := State.reset.htDc }
       (s.slotAt 0).valid = true ∧ (s.table .dc 0).valid = false) ∧
      (let s := { coded tDc tAc [] with htAc := State.reset.htAc }
       (s.slotAt 0).valid = true ∧ (s.table .dc 0).valid = true ∧ (s.table .ac 0).valid = false) := by decide +kernel

/-- `QtLoadLoads`: each id out of range at its first value; an 8-bit table with 255 and one with 256 at index 3. -/
theorem test_witness_qtLoad :
    (List.replicate 32 (0x00FF00FF : Word)).length = 32 ∧ 1 < (2 : BitVec 4).toNat ∧ 3 < (4 : BitVec 4).toNat ∧
      (0x00FF00FF : Word).toNat / 2 ^ 16 % 2 ^ 16 ≤ 255 ∧ 255 < (0x01000001 : Word).toNat / 2 ^ (16 * (3 % 2)) % 2 ^ 16 := by
  decide

/-- `DequantMultiplies`: a table not loaded; the products -2^31 and, one step further, -2^31 - 2. -/
theorem test_witness_dequant :
    (State.reset.quant 0).valid = false ∧ (qOf 2).valid = true ∧
      (BitVec.ofInt 32 (-1073741824)).toInt * ((qOf 2).q[0]).toNat = -2147483648 ∧
      (BitVec.ofInt 32 (-1073741825)).toInt * ((qOf 2).q[0]).toNat < -2147483648 ∧ 3 < (4 : BitVec 4).toNat := by
  decide +kernel

theorem test_witness_dequantCommutes :
    (∀ p : Fin 64, (qOf 2).q[p] = (qOf 2).q.toList.getD (zzIndex.getD p.val 0) 0) ∧
      dequantBody (blkOf [1, 2, 3]) (qOf 2).q = .ok (blkOf [2, 4, 6]) ∧
      dequantBody (reorderBody (blkOf [1, 2, 3])) (qOf 2).q = .ok (reorderBody (blkOf [2, 4, 6])) := by decide +kernel

theorem test_witness_reorder : ∃ a, reorderBody a = blkOf [1] := ⟨blkOf [1], by decide +kernel⟩

theorem test_witness_idct :
    State.reset.idctVariant ≠ 3 ∧ (∀ k : Fin 64, State.reset.blk[k] = 0) ∧ (0 : BitVec 4).extractLsb' 1 2 = 0 ∧
      (2 : BitVec 4).extractLsb' 1 2 = 1 := by decide +kernel

/-- `IdctOfDcOnly`: the largest and the smallest c, one c = 4 mod 8, in each variant. -/
theorem test_witness_idctDc :
    (BitVec.ofInt 32 134217727).toInt < 2 ^ 27 ∧ -2 ^ 27 < (BitVec.ofInt 32 (-134217727)).toInt ∧
      (BitVec.ofInt 32 134217724).toInt % 8 = 4 ∧ (∀ k : Fin 64, k.val ≠ 0 → (blkOf [6])[k] = 0) ∧
      { State.reset with config := 4 }.idctVariant = 2 ∧ State.reset.idctVariant = 0 ∧
      { State.reset with config := 2 }.idctVariant = 1 := by decide +kernel

/-- `FloatIdctRoundsTransform`: a transform value of 0 is farther than the band from every half-integer, and one of 1/2
is in it. -/
theorem test_witness_floatIdct :
    (State.reset.idctVariant = 0 ∧ { State.reset with config := 2 }.idctVariant = 1) ∧
      (∀ n : ℤ, (Config.tieEps : ℝ) < |(0 : ℝ) - (n + 1 / 2)|) ∧
      |(1 / 2 : ℝ) - (((0 : ℤ) : ℝ) + 1 / 2)| ≤ (Config.tieEps : ℝ) := by
  refine ⟨by decide +kernel, ?_⟩
  have h : (Config.tieEps : ℝ) ≤ 1 / 2 ^ 10 := by
    have := (Rat.cast_le (K := ℝ)).2 tieEps_range.2
    push_cast at this; exact this
  have h0 : (0 : ℝ) < Config.tieEps := by exact_mod_cast tieEps_range.1
  refine ⟨fun n => ?_, by simpa using tieEps_range.1.le⟩
  have hn : (1 : ℝ) / 2 ≤ |(0 : ℝ) - (n + 1 / 2)| := by
    rcases le_or_gt 0 n with h | h
    · have : (0 : ℝ) ≤ n := by exact_mod_cast h
      rw [abs_sub_comm, abs_of_nonneg (by linarith)]; linarith
    · have : (n : ℝ) ≤ -1 := by exact_mod_cast (by omega : n ≤ -1)
      rw [abs_of_nonneg (by linarith)]; linarith
  refine lt_of_lt_of_le (lt_of_le_of_lt h ?_) hn
  norm_num

/-- `LevelShiftAdds`: the largest entry that fits, and the first that does not. -/
theorem test_witness_levelShift :
    (0x7FFFFF7F : Word).toInt ≤ 2147483647 - 128 ∧ 2147483647 - 128 < (0x7FFFFF80 : Word).toInt := by decide

/-- `EmitPushesRecord`: a slot not set up, a block of the bytes 0 and 255, entries -1 and 256, slot 4. -/
theorem test_witness_emit :
    (State.reset.slotAt 0).valid = false ∧ ((coded tDc tAc []).slotAt 0).valid = true ∧
      (∀ k : Fin 64, 0 ≤ ((blkOf [0, 255])[k]).toInt ∧ ((blkOf [0, 255])[k]).toInt ≤ 255) ∧
      ((blkOf [-1])[0]).toInt < 0 ∧ 255 < ((blkOf [0, 256])[1]).toInt ∧ 3 < (4 : BitVec 4).toNat := by decide +kernel

/-- `DecodeBlockRebuilds`: program P3's stream (`test_witness_decodeCoefs`) with a quantizer of 2s. -/
theorem test_witness_decodeBlock :
    (qOf 2).valid = true ∧ State.reset.idctVariant ≠ 3 ∧
      (match dequantBody (blkOf ([5, -3, 0, 0, 1] ++ List.replicate 16 0 ++ [-5])) (qOf 2).q with
        | .ok b => (idctBody 2 (reorderBody b)).isSome
        | .error _ => false) = true := by decide +kernel

/-- `DecodeBlockIsSequence`: a sequence that completes, and one that faults in DECODE_COEFS. -/
theorem test_witness_sequence :
    (let s := { coded tDc tAc [0xD4] with config := 5, qt := Vector.replicate 4 (qOf 1) }
     s.faulted = false ∧ s.idctVariant ≠ 3 ∧ (s.quant (s.slotAt 0).tq).valid = true ∧
      after (execSeq [.decodeCoefs 0, .dequant 0, .reorder, .idct, .levelShift, .emit 0 7] s) (fun t => t.faulted) =
        some false) ∧
    (let s := { coded tD1 (tZ 0xF1) [0x2B, 0x7F] with qt := Vector.replicate 4 (qOf 1) }
     (s.quant (s.slotAt 0).tq).valid = true ∧
      after (execSeq [.decodeCoefs 0, .dequant 0, .reorder, .idct, .levelShift, .emit 0 7] s) (fun t => t.faulted) =
        some true) := by decide +kernel

/-- The same with QT[0] not loaded, the slot and the other tables in place. -/
theorem test_witness_sequence_noTable :
    let s := coded tDc tAc [0xD4]
    (s.quant (s.slotAt 0).tq).valid = false ∧ (s.slotAt 0).valid = true ∧ (s.table .dc 0).valid = true ∧
      (s.table .ac 0).valid = true ∧ s.idctVariant ≠ 3 ∧
      after (execSeq [.decodeCoefs 0, .dequant 0, .reorder, .idct, .levelShift, .emit 0 7] s) faultOf =
        some (true, 9, 0x40000000, 0x20) := by decide +kernel

theorem test_witness_color : (0 : BitVec 4).getLsbD 3 = false ∧ (8 : BitVec 4).getLsbD 3 = true := by decide

theorem test_witness_setConfig :
    (2 : BitVec 2) ≠ 3 ∧ (1 : BitVec 1).toNat = (5 : BitVec 4).toNat % 2 ∧ (0 : BitVec 1).toNat ≠ (5 : BitVec 4).toNat % 2 := by
  decide

theorem test_witness_fifos :
    State.reset.resq = [] ∧ State.reset.outq = [] ∧ { State.reset with resq := [7] }.resq = 7 :: [] ∧
      { State.reset with outq := [7] }.outq = 7 :: [] := by decide

/-- `SegLenPort`: no command in flight, and a reader at the new length. -/
theorem test_witness_segLen :
    State.reset.busy = false ∧ State.reset.Settled ∧ State.reset.faulted = false ∧ State.reset.br.markerHit = false ∧
      (0 : Nat) ≤ State.reset.br.pos.toNat := by decide

/-- `CtrlPort`: a word of each of the five kinds. -/
theorem test_witness_ctrl :
    (7 : Word).getLsbD 0 = true ∧
      ((2 : Word).getLsbD 0 = false ∧ (2 : Word).getLsbD 1 = true ∧ (2 : Word).getLsbD 2 = false) ∧
      ((4 : Word).getLsbD 0 = false ∧ (4 : Word).getLsbD 1 = false ∧ (4 : Word).getLsbD 2 = true) ∧
      ((6 : Word).getLsbD 0 = false ∧ (6 : Word).getLsbD 1 = true ∧ (6 : Word).getLsbD 2 = true) ∧
      ((8 : Word).getLsbD 0 = false ∧ (8 : Word).getLsbD 1 = false ∧ (8 : Word).getLsbD 2 = false) := by decide

theorem test_witness_registers :
    State.reset.busy = false ∧ State.reset.br.Ok ∧ State.reset.cmdq.length ≤ Config.cmdqDepth :=
  ⟨by decide, by decide, Nat.zero_le _⟩

theorem test_witness_window :
    ((2 : Nat) ≠ 4 ∧ (0x02 : Byte).toNat % 4 ≠ 0) ∧ ((0x60 : Byte).toNat % 4 = 0 ∧ 0x60 ≤ (0x60 : Byte).toNat) ∧
      (0x14 : Byte) ∉ [0x04#8, 0x0C, 0x10, 0x1C, 0x20, 0x24] ∧ Config.coreBase + 256 ≤ Config.coreBase + 256 :=
  ⟨by decide, by decide, by decide, le_refl _⟩

/-- `SegmentRace`: SEG_ADDR 0 lies in the RAM, with a command waiting and with none; a read with a value in flight; and a
seek beyond a length of 0. -/
theorem test_witness_segmentRace :
    State.reset.seg.addr.toNat < Config.segSize ∧ { State.reset with cmdq := [0] }.busy = true ∧
      State.reset.busy = false ∧ State.reset.Settled ∧
      (∃ v c', readByte { segOf [1] with oldBytes := [(0, 2)] } 0 (readerAt 0) = .ok v c') ∧
      (∃ v c', readLen { segOf [1] with oldLens := [0] } (readerAt 0) = .ok v c') ∧
      (0 : BitVec 24).toNat ≤ (segOf []).len.toNat ∧ (segOf []).len.toNat < (1 : BitVec 24).toNat :=
  ⟨segSize_range.1, by decide, by decide, by decide, ⟨_, _, rfl⟩, ⟨_, _, rfl⟩, by decide, by decide⟩

/-- `FifosKeepOrder`: a step that pushes, one that faults, a read of each port, and a soft reset. -/
theorem test_witness_fifosKeepOrder :
    (∃ t, step (State.reset.withFetchWord 32 0x0100BEEF) = .next t ∧ (!t.faulted) = true) ∧
      (∃ t, step (State.reset.withFetchWord 32 0x04000000) = .next t ∧ t.faulted = true) ∧
      (∃ t, step { State.reset with outq := [7, 8], bus := [.access ⟨busAddress 0x18, 4, .read⟩] } = .next t ∧
        (t.outq == [8]) = true) ∧
      (∃ t, step { State.reset with resq := [7, 8], bus := [.access ⟨busAddress 0x14, 4, .read⟩] } = .next t ∧
        (t.resq == [8]) = true) ∧
      (∃ t, step { State.reset with resq := [7], bus := [.access ⟨busAddress 0x04, 4, .write 1⟩] } = .next t ∧
        t.resq.isEmpty = true) := by
  refine ⟨next_with (by decide +kernel), next_with (by decide +kernel), next_with ?_, next_with ?_, next_with ?_⟩ <;>
    simp only [step, hostAccess, windowOffset_busAddress, windowAccess] <;> decide +kernel

/-! ## The host's duties (20_memory.md R79) -/

/-- A read of RESULT with nothing in it is no move of a host that keeps its duties; a push to an empty CMDQ is one. -/
theorem test_heldStep :
    heldStep { Held.reset with core := { State.reset with bus := [.access ⟨busAddress 0x14, 4, .read⟩] } } =
        .refused .hostDuty ∧
      { Held.reset with core := { State.reset with bus := [.access ⟨busAddress 0x10, 4, .write 0⟩] } }.dutyKept = true := by
  refine ⟨heldStep_broken _ ?_, ?_⟩ <;> simp only [Held.dutyKept, HostAccess.reg, windowOffset_busAddress] <;> decide +kernel

/-- A soft reset after two words of a record is no move either, and after a whole record it is. -/
theorem test_duty_record :
    regDuty { HostLog.start with recordRead := 2 } .ctrl (.write 1) State.reset = false ∧
      regDuty HostLog.start .ctrl (.write 1) State.reset = true ∧
      regDuty HostLog.start .ctrl (.write 2) { State.reset with faulted := true } = false := by decide +kernel

/-- The segment 0F FF D0 B3 after its first block, 0000, with the interval's four pad bits left (42_coefficient.md R216):
a block decoded now is decoded at the marker, and four bits that do hold a block are not. A decode with a lost reader is at
no marker. -/
theorem test_duty_restart :
    let s := coded tDc tAc [0x0F, 0xFF, 0xD0, 0xB3]
    let pads := { s with br := { BitReader.reset with pos := 1, bitcnt := 4, bitreg := 0xF } }
    let block := { s with br := { BitReader.reset with pos := 1, bitcnt := 4 } }
    after (exec (.decodeCoefs 0) s) (fun t => (t.br, HostLog.start.ran (.decodeCoefs 0) s t)) =
        some (pads.br, { HostLog.start with decoded := true, decodedTo := some 1 }) ∧
      commandDuty HostLog.start (.decodeCoefs 0) pads = false ∧
      commandDuty { HostLog.start with readerLost := true } (.decodeCoefs 0) pads = true ∧
      commandDuty HostLog.start (.decodeCoefs 0) block = true := by decide +kernel

/-- After that decode BR_SEEK 3 or 4 goes past the marker: a decode waits for PRED_RESET, unless no block was decoded since
the last one. BR_SEEK 2 goes into the marker, where no block is decoded. -/
theorem test_duty_predReset :
    let s := coded tDc tAc [0x0F, 0xFF, 0xD0, 0xB3]
    let seek := fun (h : HostLog) (p : BitVec 24) => h.ran (.brSeek p) s s
    let log := { HostLog.start with decoded := true, decodedTo := some 1 }
    let t := { s with br := { BitReader.reset with pos := 3 } }
    commandDuty (seek log 3) (.decodeCoefs 0) t = false ∧ commandDuty (seek log 4) (.decodeCoefs 0) t = false ∧
      commandDuty ((seek log 3).ran .predReset t t) (.decodeCoefs 0) t = true ∧
      commandDuty (seek HostLog.start 3) (.decodeCoefs 0) t = true ∧
      commandDuty (seek HostLog.start 2) (.decodeCoefs 0) t = false ∧
      commandDuty (seek log 0) (.decodeCoefs 0) s = true := by decide +kernel

/-- Program P6 of 95_test_vectors.md after a block decode: the fault loses the reader, BR_SEEK 3 finds it again, and with no
restart marker in the segment nothing is owed, whatever MARKER_HIT, MARKER and POS were drawn. -/
theorem test_duty_fault :
    let s := coded tDc tAc [0x12, 0xFF, 0xD9, 0x34]
    let log := { HostLog.start with decoded := true, decodedTo := some 0 }
    let t := { s with br := { s.br with markerHit := true, marker := 0xD0 }, faulted := true, faultCode := 1 }
    let lost := log.ran (.brPeek 16) s t
    let found := lost.ran (.brSeek 3) { t with faulted := false } { s with br := { s.br with pos := 3 } }
    lost.readerLost = true ∧ found.readerLost = false ∧ commandDuty lost (.decodeCoefs 0) { t with faulted := false } = true ∧
      commandDuty found (.decodeCoefs 0) { s with br := { s.br with pos := 3 } } = true := by decide +kernel

/-- A table emptied by a soft reset is owed until it is loaded once: a table lost later by a change of CONFIG.HM is not, nor
one that was never loaded. No SET_CONFIG is owed (70_reset_and_hazards.md R404). -/
theorem test_duty_reload :
    let s := { State.reset with htDc := State.reset.htDc.set 0 tDc }
    let owing := HostLog.start.ctrl 1 s
    owing.reload = [.huff .dc 0] ∧ commandDuty owing (.htDecode 0 0) State.reset = false ∧
      commandDuty owing (.htDecode 0 1) State.reset = true ∧ commandDuty owing (.htInit 0 0 0 0 0 0) State.reset = true ∧
      commandDuty owing .idct State.reset = true ∧
      commandDuty (owing.ran (.htInit 0 0 0 0 0 0) State.reset s) (.htDecode 0 0) State.reset = true := by decide +kernel

end Sys2Proof.Tests
end

/-! ## Fill keeps every buffered bit (10_state.md R23, R24) -/

section
namespace Sys2Proof.Machine

/-- Fill reads nothing when enough bits are buffered. -/
theorem fillLoop_of_le (g : Segment) (n fuel : Nat) (c : ReadCtx) (h : n ≤ c.br.bitcnt) :
    fillLoop g n fuel c = .ok () c := by
  cases fuel with
  | zero => rfl
  | succ fuel => simp [fillLoop, Nat.not_lt.2 h]

/-- One turn of the fill loop puts one byte after the buffered bits. Fewer than `n ≤ 16` bits are buffered before it, so the
shift drops none of them from the 32-bit BITREG. -/
theorem fillLoop_succ_ok {g : Segment} {n fuel : Nat} {c c' : ReadCtx} (hn : n ≤ 16) (hlt : c.br.bitcnt < n)
    (hreg : c.br.bitreg.toNat < 2 ^ c.br.bitcnt) (hr : fillLoop g n (fuel + 1) c = .ok () c') :
    ∃ (b : Byte) (d : ReadCtx), d.br.bits = c.br.bits ++ bitsMsb 8 b.toNat ∧ d.br.bitcnt = c.br.bitcnt + 8 ∧
      d.br.bitreg.toNat < 2 ^ d.br.bitcnt ∧ fillLoop g n fuel d = .ok () c' := by
  simp only [fillLoop, if_pos hlt] at hr
  obtain ⟨b, d, hnext, hrest⟩ := Reader.next_ok.1 hr
  obtain ⟨-, hcnt, hkept, -⟩ := (nextByte_kept g c).1 _ _ hnext
  have happ : append b d = .ok () { d with br := appended d.br b } := rfl
  rw [Reader.next_of_ok _ happ] at hrest
  obtain ⟨hbits, hsmall⟩ := append_bits d.br b (by rw [hcnt, hkept]; exact hreg) (by omega)
  exact ⟨b, _, by rw [hbits, bits_congr _ _ hcnt hkept], by simp [hcnt], hsmall, hrest⟩

/-- The fill loop, with turns enough for `n` bits, buffers at least `n` bits, less than a byte more than it needs, by
appending one byte a turn. -/
theorem fillLoop_appends (g : Segment) (n : Nat) (hn : n ≤ 16) (fuel : Nat) (c c' : ReadCtx)
    (hreg : c.br.bitreg.toNat < 2 ^ c.br.bitcnt) (hf : n ≤ c.br.bitcnt + 8 * fuel)
    (hr : fillLoop g n fuel c = .ok () c') :
    n ≤ c'.br.bitcnt ∧ (c.br.bitcnt < n → c'.br.bitcnt ≤ n - 1 + 8) ∧
      ∃ bs : List Byte, bs.length ≤ fuel ∧ c'.br.bits = c.br.bits ++ bitsOf bs := by
  induction fuel generalizing c with
  | zero =>
    obtain rfl : c = c' := by simpa [fillLoop, Reader.ret] using hr
    exact ⟨by omega, by omega, [], le_refl _, by simp [bitsOf]⟩
  | succ fuel ih =>
    by_cases hle : n ≤ c.br.bitcnt
    · obtain rfl : c = c' := by simpa [fillLoop_of_le g n _ c hle] using hr
      exact ⟨hle, by omega, [], Nat.zero_le _, by simp [bitsOf]⟩
    · obtain ⟨b, d, hbits, hcnt, hsmall, hrest⟩ := fillLoop_succ_ok hn (by omega) hreg hr
      obtain ⟨hge, hover, bs, hlen, happ⟩ := ih d hsmall (by omega) hrest
      refine ⟨hge, fun _ => ?_, b :: bs, by simpa using hlen, by simp [happ, hbits, bitsOf]⟩
      by_cases hmore : d.br.bitcnt < n
      · exact hover hmore
      · obtain rfl : d = c' := by simpa [fillLoop_of_le g n fuel d (by omega)] using hrest
        omega

/-- Settles O19, by induction on the turns of the fill loop: each puts one byte after the buffered bits. -/
theorem fillKeepsBits : Obligations.FillKeepsBits := by
  intro g n c c' hn hok hr
  obtain ⟨hge, hover, bs, hlen, hbits⟩ := fillLoop_appends g n hn 2 c c' hok.2.1 (by omega) hr
  have hstop : n ≤ c.br.bitcnt → c' = c := fun hle => by
    simpa using hr.symm.trans (fillLoop_of_le g n 2 c hle)
  exact ⟨((fill_kept g n hn c).1 _ _ hr).2 hok, hge, hstop, hover, bs, hlen, hbits⟩

end Sys2Proof.Machine
end

/-! ## The FIFO ports and the segment port (20_memory.md R62, R66-R68) -/

section
namespace Sys2Proof.Machine

/-- A write of CMD asks for room in CMDQ only, not for FAULTED = 0 (20_memory.md R66). -/
theorem cmdWrite_eq (w : Word) (s : State) :
    cmdWrite w s = if s.cmdq.length < Config.cmdqDepth then { s with cmdq := s.cmdq ++ [w] }
      else { s with cmdOverrun := true } := by
  have hfull := cmdFull_iff s
  by_cases hroom : s.cmdq.length < Config.cmdqDepth
  · have hnot : s.cmdFull = false := Bool.eq_false_iff.2 fun h => absurd (hfull.1 h) (Nat.not_le.2 hroom)
    simp [cmdWrite, hnot, hroom]
  · simp [cmdWrite, hfull.2 (Nat.not_lt.1 hroom), hroom]

theorem resultRead_cons {s : State} {w : Word} {rest : List Word} (h : s.resq = w :: rest) :
    resultRead s = (w, { s with resq := rest }) := by
  simp [resultRead, h]

theorem resultRead_nil {s : State} (h : s.resq = []) : resultRead s = anyRead { s with resUnderflow := true } := by
  simp [resultRead, h]

theorem outRead_cons {s : State} {w : Word} {rest : List Word} (h : s.outq = w :: rest) :
    outRead s = (w, { s with outq := rest }) := by
  simp [outRead, h]

theorem outRead_nil {s : State} (h : s.outq = []) : outRead s = anyRead { s with outUnderflow := true } := by
  simp [outRead, h]

/-- A read of RESULT as a host access: the word and the state of `resultRead`. -/
theorem hostAccess_read_result (s : State) :
    hostAccess ⟨busAddress 0x14, 4, .read⟩ s = .next { (resultRead s).2 with busData := (resultRead s).1 } :=
  hostAccess_read 0x14 (by decide) s

/-- A read of OUT as a host access: the word and the state of `outRead`. -/
theorem hostAccess_read_out (s : State) :
    hostAccess ⟨busAddress 0x18, 4, .read⟩ s = .next { (outRead s).2 with busData := (outRead s).1 } :=
  hostAccess_read 0x18 (by decide) s

/-- Settles O52, port by port: CMD by the room in CMDQ, RESULT and OUT by whether there is a head word. -/
theorem fifoPorts : Obligations.FifoPorts := by
  intro s w
  refine ⟨?_, ?_, hostAccess_read 0x10 (by decide) s, ?_, ?_, ?_, ?_⟩
  · exact (hostAccess_write 0x10 (by decide) w s).trans (congrArg Host.Outcome.next (cmdWrite_eq w s))
  · exact ⟨s.clearFault, hostAccess_write 0x04 (by decide) 2 s, s.clearFault_cmdq⟩
  · intro rest h
    rw [hostAccess_read_result, resultRead_cons h]
  · intro h
    rw [hostAccess_read_result, resultRead_nil h]
    exact ⟨_, _, rfl⟩
  · intro rest h
    rw [hostAccess_read_out, outRead_cons h]
  · intro h
    rw [hostAccess_read_out, outRead_nil h]
    exact ⟨_, _, rfl⟩

/-- A write of SEG_DATA touches the segment alone (20_memory.md R62). -/
theorem segDataWrite_frame (w : Word) (s : State) : segDataWrite w s = { s with seg := (segDataWrite w s).seg } := by
  simp only [segDataWrite]
  split <;> rfl

@[simp] theorem segDataWrite_seg_addr (w : Word) (s : State) : (segDataWrite w s).seg.addr = s.seg.addr + 1 := by
  simp only [segDataWrite]
  split <;> rfl

@[simp] theorem segDataWrite_seg_len (w : Word) (s : State) : (segDataWrite w s).seg.len = s.seg.len := by
  simp only [segDataWrite]
  split <;> rfl

/-- Of the bytes a write of SEG_DATA changes at most the one at the old SEG_ADDR (20_memory.md R62). -/
theorem segDataWrite_seg_byte (w : Word) (s : State) (a : Nat) :
    (segDataWrite w s).seg.byte a =
      if a = s.seg.addr.toNat ∧ s.seg.addr.toNat < Config.segSize then field w 0 8 else s.seg.byte a := by
  by_cases hin : s.seg.addr.toNat < Config.segSize
  · have hcells : (segDataWrite w s).seg.cells = Memory.write s.seg.cells s.seg.addr.toNat (field w 0 8) := by
      simp [segDataWrite, hin]
    rw [Segment.byte_congr _ { s.seg with cells := Memory.write s.seg.cells s.seg.addr.toNat (field w 0 8) } hcells,
      Segment.byte_write]
    simp [hin]
  · have hcells : (segDataWrite w s).seg.cells = s.seg.cells := by simp [segDataWrite, hin]
    rw [Segment.byte_congr _ s.seg hcells]
    simp [hin]

/-- A read of SEG_DATA returns the byte at SEG_ADDR with zeros above it, or 0 at or above SEG_SIZE. -/
theorem segDataRead_eq (s : State) :
    segDataRead s = if s.seg.addr.toNat < Config.segSize then 0#24 ++ s.seg.byte s.seg.addr.toNat else 0 := by
  have hpad : ∀ b : Byte, b.setWidth 32 = (0#24 ++ b : Word) := fun b => BitVec.setWidth_eq_append (by decide)
  simp only [segDataRead, hpad]

/-- Settles O53: the write by what `segDataWrite` does to each item of the segment, the read by `segDataRead_eq`. -/
theorem segDataPort : Obligations.SegDataPort := by
  intro s w
  refine ⟨⟨(segDataWrite w s).seg, ?_, ?_, segDataWrite_seg_len w s, segDataWrite_seg_byte w s⟩, ?_⟩
  · exact (hostAccess_write 0x20 (by decide) w s).trans (congrArg Host.Outcome.next (segDataWrite_frame w s))
  · simp [BitVec.toNat_add]
  · rw [← segDataRead_eq s]
    exact hostAccess_read 0x20 (by decide) s

end Sys2Proof.Machine
end

/-! ## Taking a ready command from CMDQ (30_encoding.md R92, R93) -/

section
namespace Sys2Proof.Machine

/-! ### The operation codes and formats in the spec's numbers -/

/-- The counts of 30_encoding.md R93 are those the decoder uses. -/
theorem dataCount_code (o : Op) : dataCount o.code = o.dataWords := by cases o <;> rfl

/-- An undefined OP has no data words. -/
theorem dataCount_of_undefined {c : Byte} (h : Op.ofCode c = none) : dataCount c = 0 := by
  have hne : ∀ o : Op, c ≠ o.code := by
    rintro o rfl
    simp [Op.ofCode_code] at h
  have hone : c ∉ [0x51#8, 0x52#8, 0x60#8] := by
    simpa using ⟨hne .emit, hne .decodeBlock, hne .blkWrite⟩
  exact (if_neg (hne .htInit)).trans ((if_neg (hne .qtLoad)).trans (if_neg hone))

theorem Op.code_mem_resultOps (o : Op) : o.code ∈ resultOps ↔ Op.pushesResult o = true := by cases o <;> decide

theorem Op.code_mem_recordOps (o : Op) : o.code ∈ recordOps ↔ Op.pushesRecord o = true := by cases o <;> decide

/-- The bits of w[23:0] outside every field of a format are set in the mask the decoder tests. -/
theorem getLsbD_reserved_of_reservedBit {o : Op} {k : Nat} (h : ReservedBit o k) : o.reserved.getLsbD k = true := by
  have hmask : ∀ k < 24, (∀ f ∈ fieldsOf o, ¬(f.2 ≤ k ∧ k ≤ f.1)) → o.reserved.getLsbD k = true := by
    cases o <;> decide
  exact hmask k h.1 h.2

theorem and_reserved_ne_zero {w : Word} {o : Op} {k : Nat} (h : ReservedBit o k) (hk : w.getLsbD k = true) :
    w &&& o.reserved ≠ 0 := by
  intro hzero
  have hbit : (w &&& o.reserved).getLsbD k = true := by
    rw [BitVec.getLsbD_and, hk, getLsbD_reserved_of_reservedBit h]; rfl
  simp [hzero] at hbit

/-! ### The command that the decoder builds -/

/-- One data word, as the decoder picks it. -/
theorem dataWord_singleton {ds : List Word} (h : ds.length = 1) : [dataWord ds 0] = ds := by
  obtain ⟨d, rfl⟩ := List.length_eq_one_iff.1 h
  rfl

/-- Four data words, as the decoder picks them. -/
theorem dataWord_four {ds : List Word} (h : ds.length = 4) :
    [dataWord ds 0, dataWord ds 1, dataWord ds 2, dataWord ds 3] = ds := by
  match ds, h with
  | [_, _, _, _], _ => rfl

/-- A command built from as many data words as its OP takes carries exactly these. -/
theorem Op.build_data {o : Op} {w : Word} {ds : List Word} (h : ds.length = o.dataWords) :
    (o.build w ds).data = ds := by
  cases o with
  | htInit => exact dataWord_four h
  | emit | decodeBlock | blkWrite => exact dataWord_singleton h
  | qtLoad => rfl
  | _ => exact (List.eq_nil_of_length_eq_zero h).symm

theorem Op.build_wellFormed {o : Op} {w : Word} {ds : List Word} (h : ds.length = o.dataWords) :
    (o.build w ds).wellFormed = true := by
  cases o with
  | qtLoad => exact beq_iff_eq.2 h
  | _ => rfl

/-! ### What a turn of the core finds -/

/-- What readiness says of the words at the head of CMDQ (20_memory.md R70). -/
theorem State.Ready.head {s : State} {w : Word} {rest : List Word} (h : s.Ready) (hq : s.cmdq = w :: rest) :
    s.faulted = false ∧ dataCount (field w 24 8) ≤ rest.length ∧
      (field w 24 8 ∈ resultOps → s.resq.length < Config.resqDepth) ∧
      (field w 24 8 ∈ recordOps → s.outq.length + 18 ≤ Config.outqDepth) := by
  obtain ⟨hf, w', rest', hq', hwords, hres, hout⟩ := h
  obtain ⟨rfl, rfl⟩ := List.cons.inj (hq.symm.trans hq')
  exact ⟨hf, hwords, hres, hout⟩

theorem State.Ready.roomFor {s : State} {w : Word} {rest : List Word} {o : Op} (h : s.Ready) (hq : s.cmdq = w :: rest)
    (ho : field w 24 8 = o.code) : s.roomFor o = true := by
  obtain ⟨-, -, hres, hout⟩ := h.head hq
  rw [ho, Op.code_mem_resultOps, ← resRoom_iff] at hres
  rw [ho, Op.code_mem_recordOps, ← outRoom_iff] at hout
  simp only [State.roomFor, Bool.and_eq_true, Bool.or_eq_true, Bool.not_eq_true', ← Bool.not_eq_true, ← imp_iff_not_or]
  exact ⟨hres, hout⟩

/-- A defined OP with its data words behind it decodes, unless a reserved bit is set. -/
theorem decode_cons {w : Word} {rest : List Word} {o : Op} (ho : field w 24 8 = o.code)
    (hlen : o.dataWords ≤ rest.length) :
    decode (w :: rest) = if w &&& o.reserved = 0 then .ok (o.build w (rest.take o.dataWords), rest.drop o.dataWords)
      else .error .reservedBits := by
  simp [decode, ho, Op.ofCode_code, Nat.not_lt.2 hlen]

theorem fetch_of_undefined {s : State} {w : Word} {rest : List Word} (hf : s.faulted = false) (hq : s.cmdq = w :: rest)
    (ho : Op.ofCode (field w 24 8) = none) : s.fetch = .illegal w 0 rest := by
  simp [State.fetch, hf, hq, ho]

/-- A ready command of a defined OP runs with the data words R93 gives it, or has a reserved bit set; either way these
words are out of CMDQ (30_encoding.md R92, R93, R100). -/
theorem fetch_of_ready {s : State} {w : Word} {rest : List Word} {o : Op} (h : s.Ready) (hq : s.cmdq = w :: rest)
    (ho : field w 24 8 = o.code) :
    s.fetch = if w &&& o.reserved = 0 then .run (o.build w (rest.take o.dataWords)) (rest.drop o.dataWords)
      else .illegal w 1 (rest.drop o.dataWords) := by
  obtain ⟨hf, hlen, -, -⟩ := h.head hq
  rw [ho, dataCount_code] at hlen
  simp only [State.fetch, hf, hq, ho, Op.ofCode_code, h.roomFor hq ho, decode_cons ho hlen]
  by_cases hr : w &&& o.reserved = 0
  · simp only [if_pos hr]; rfl
  · simp only [if_neg hr]; rfl

theorem coreStep_of_illegal {s : State} {w : Word} {reason : Byte} {left : List Word}
    (h : s.fetch = .illegal w reason left) :
    coreStep s = .next ({ s with cmdq := left }.halt w 8 (infoReason reason) s.br.pos) := by
  simp only [coreStep, h]
  rfl

theorem coreStep_of_run {s : State} {i : Instr} {left : List Word} (h : s.fetch = .run i left) :
    coreStep s = exec i { s with cmdq := left } := by
  simp only [coreStep, h]

/-- Settles O6: the reserved bit is found by the mask, with the data words taken. -/
theorem reservedBitFaults : Obligations.ReservedBitFaults := by
  intro s w rest o k hready hq ho hbit hk
  have hfetch := fetch_of_ready hready hq ho
  rw [if_neg (and_reserved_ne_zero hbit hk)] at hfetch
  rw [dataCount_code, coreStep_of_illegal hfetch]
  rfl

/-! ### No command touches CMDQ -/

/-- A result is a next state whose CMDQ is `q`. -/
def LeavesQueue (q : List Word) (r : Result) : Prop := ∃ t, r = .next t ∧ t.cmdq = q

theorem raiseCheck_leavesQueue (i : Instr) (kind : FaultKind) (info : Word) (s : State) :
    LeavesQueue s.cmdq (raiseCheck i kind info s) := ⟨_, rfl, rfl⟩

theorem withHuffId_leavesQueue {i : Instr} {tc th : BitVec 4} {s : State} {k : HuffClass → BitVec 2 → Result}
    (h : ∀ c t, LeavesQueue s.cmdq (k c t)) : LeavesQueue s.cmdq (withHuffId i tc th s k) := by
  unfold withHuffId
  split
  · exact raiseCheck_leavesQueue ..
  · split
    · exact raiseCheck_leavesQueue ..
    · exact h _ _

theorem withSlot_leavesQueue {i : Instr} {slot : BitVec 4} {s : State} {k : BitVec 2 → Result}
    (h : ∀ t, LeavesQueue s.cmdq (k t)) : LeavesQueue s.cmdq (withSlot i slot s k) := by
  unfold withSlot
  split
  · exact raiseCheck_leavesQueue ..
  · split
    · exact h _
    · exact raiseCheck_leavesQueue ..

theorem withTable_leavesQueue {i : Instr} {c : HuffClass} {t : BitVec 2} {s : State} {k : HuffTable → Result}
    (h : ∀ tab, LeavesQueue s.cmdq (k tab)) : LeavesQueue s.cmdq (withTable i c t s k) := by
  unfold withTable
  split
  · exact h _
  · exact raiseCheck_leavesQueue ..

theorem withQuant_leavesQueue {i : Instr} {t : BitVec 2} {s : State} {k : QuantTable → Result}
    (h : ∀ q, LeavesQueue s.cmdq (k q)) : LeavesQueue s.cmdq (withQuant i t s k) := by
  unfold withQuant
  split
  · exact h _
  · exact raiseCheck_leavesQueue ..

theorem runReader_leavesQueue {α : Type} {i : Instr} {s : State} {m : Reader α} {k : α → State → State}
    (h : ∀ v u, (k v u).cmdq = u.cmdq) : LeavesQueue s.cmdq (runReader i s m k) := by
  unfold runReader
  split
  · exact ⟨_, rfl, h _ _⟩
  · exact ⟨_, rfl, rfl⟩

theorem execSetConfig_leavesQueue (hm : BitVec 1) (im : BitVec 2) (cm : BitVec 1) (s : State) :
    LeavesQueue s.cmdq (execSetConfig hm im cm s) := by
  unfold execSetConfig
  split
  · exact raiseCheck_leavesQueue ..
  · refine ⟨_, rfl, ?_⟩
    show (if hm ≠ s.config.extractLsb' 0 1 then s.invalidateTables else s).cmdq = s.cmdq
    split <;> rfl

theorem execBrSeek_leavesQueue (p : BitVec 24) (s : State) : LeavesQueue s.cmdq (execBrSeek p s) := by
  simp only [execBrSeek]
  split <;> exact ⟨_, rfl, rfl⟩

theorem execBrPeek_leavesQueue (n : BitVec 5) (s : State) : LeavesQueue s.cmdq (execBrPeek n s) := by
  unfold execBrPeek
  split
  · exact raiseCheck_leavesQueue ..
  · exact runReader_leavesQueue fun v u => u.pushResult_cmdq (BitVec.ofNat 32 v)

theorem execBrConsume_leavesQueue (n : BitVec 5) (s : State) : LeavesQueue s.cmdq (execBrConsume n s) := by
  unfold execBrConsume
  split
  · exact raiseCheck_leavesQueue ..
  · exact runReader_leavesQueue fun _ _ => rfl

theorem execHtInit_leavesQueue (tc th : BitVec 4) (d0 d1 d2 d3 : Word) (s : State) :
    LeavesQueue s.cmdq (execHtInit tc th d0 d1 d2 d3 s) := by
  refine withHuffId_leavesQueue fun c t => ?_
  split
  · exact raiseCheck_leavesQueue ..
  · exact ⟨_, rfl, State.setTable_cmdq ..⟩

theorem execHtInsert_leavesQueue (tc th : BitVec 4) (l : BitVec 5) (v : Byte) (s : State) :
    LeavesQueue s.cmdq (execHtInsert tc th l v s) := by
  refine withHuffId_leavesQueue fun c t => withTable_leavesQueue fun tab => ?_
  split
  · exact raiseCheck_leavesQueue ..
  · exact ⟨_, rfl, State.setTable_cmdq ..⟩

theorem execHtDecode_leavesQueue (tc th : BitVec 4) (s : State) : LeavesQueue s.cmdq (execHtDecode tc th s) :=
  withHuffId_leavesQueue fun _ _ => withTable_leavesQueue fun _ => runReader_leavesQueue fun _ _ => rfl

/-- QT_LOAD's stop (log 19) is that of a term no words decode to. -/
theorem execQtLoad_leavesQueue (pq tq : BitVec 4) {ds : List Word} (h : ds.length = 32) (s : State) :
    LeavesQueue s.cmdq (execQtLoad pq tq ds s) := by
  simp only [execQtLoad, h, ne_eq, not_true_eq_false, if_false]
  split
  · exact raiseCheck_leavesQueue ..
  · split
    · exact raiseCheck_leavesQueue ..
    · split
      · exact raiseCheck_leavesQueue ..
      · exact ⟨_, rfl, rfl⟩

theorem execScanSetup_leavesQueue (slot td ta tq : BitVec 4) (ci : Byte) (s : State) :
    LeavesQueue s.cmdq (execScanSetup slot td ta tq ci s) := by
  simp only [execScanSetup]
  split
  · exact raiseCheck_leavesQueue ..
  · split
    · exact raiseCheck_leavesQueue ..
    · split
      · exact raiseCheck_leavesQueue ..
      · split
        · exact raiseCheck_leavesQueue ..
        · exact ⟨_, rfl, rfl⟩

theorem execDecodeCoefs_leavesQueue (slot : BitVec 4) (s : State) : LeavesQueue s.cmdq (execDecodeCoefs slot s) := by
  refine withSlot_leavesQueue fun t => withTable_leavesQueue fun _ => withTable_leavesQueue fun _ => ?_
  split <;> exact ⟨_, rfl, rfl⟩

theorem execExtend_leavesQueue (t : BitVec 5) (v : BitVec 16) (s : State) : LeavesQueue s.cmdq (execExtend t v s) := by
  unfold execExtend
  split
  · exact raiseCheck_leavesQueue ..
  · split
    · exact raiseCheck_leavesQueue ..
    · exact ⟨_, rfl, rfl⟩

theorem execDequant_leavesQueue (tq : BitVec 4) (s : State) : LeavesQueue s.cmdq (execDequant tq s) := by
  simp only [execDequant]
  split
  · exact raiseCheck_leavesQueue ..
  · refine withQuant_leavesQueue fun q => ?_
    split <;> exact ⟨_, rfl, rfl⟩

theorem execLevelShift_leavesQueue (s : State) : LeavesQueue s.cmdq (execLevelShift s) := by
  unfold execLevelShift
  split <;> exact ⟨_, rfl, rfl⟩

theorem execEmit_leavesQueue (slot : BitVec 4) (d : Word) (s : State) : LeavesQueue s.cmdq (execEmit slot d s) := by
  refine withSlot_leavesQueue fun t => ?_
  split
  · exact raiseCheck_leavesQueue ..
  · exact ⟨_, rfl, rfl⟩

/-- Every variant but the reserved IM = 3 has a transform (10_state.md R31). -/
theorem idctBody_eq_some {im : BitVec 2} (h : im ≠ 3) (b : Blk) : ∃ b', idctBody im b = some b' := by
  unfold idctBody
  rw [if_neg h]
  split <;> exact ⟨_, rfl⟩

theorem execIdct_leavesQueue {s : State} (h : s.idctVariant ≠ 3) : LeavesQueue s.cmdq (execIdct s) := by
  obtain ⟨b, hb⟩ := idctBody_eq_some h s.blk
  exact ⟨{ s with blk := b }, by simp only [execIdct, hb], rfl⟩

theorem pipeline_eq_some {im : BitVec 2} (h : im ≠ 3) (q : Vector (BitVec 16) 64) (b : Blk) :
    ∃ r, pipeline im q b = some r := by
  unfold pipeline
  split
  · exact ⟨_, rfl⟩
  · rename_i b1 _
    obtain ⟨b2, hb⟩ := idctBody_eq_some h (reorderBody b1)
    rw [hb]
    dsimp only
    split <;> exact ⟨_, rfl⟩

theorem execDecodeBlock_leavesQueue (slot : BitVec 4) (d : Word) {s : State} (h : s.idctVariant ≠ 3) :
    LeavesQueue s.cmdq (execDecodeBlock slot d s) := by
  refine withSlot_leavesQueue fun t => withTable_leavesQueue fun _ => withTable_leavesQueue fun _ =>
    withQuant_leavesQueue fun q => ?_
  split
  · exact ⟨_, rfl, rfl⟩
  · rename_i b p c _
    obtain ⟨r, hr⟩ := pipeline_eq_some h q.q b
    rw [hr]
    match r with
    | .ok _ => exact ⟨_, rfl, rfl⟩
    | .error (_, _) => exact ⟨_, rfl, rfl⟩

/-- Every command completes or faults, and leaves CMDQ as it found it: its words are out before it runs. -/
theorem exec_leavesQueue {i : Instr} {s : State} (hw : i.wellFormed = true) (him : s.idctVariant ≠ 3) :
    LeavesQueue s.cmdq (exec i s) := by
  cases i with
  | setConfig hm im cm => exact execSetConfig_leavesQueue hm im cm s
  | brSeek p => exact execBrSeek_leavesQueue p s
  | brNextbit => exact runReader_leavesQueue fun v u => u.pushResult_cmdq (BitVec.ofNat 32 v)
  | brPeek n => exact execBrPeek_leavesQueue n s
  | brConsume n => exact execBrConsume_leavesQueue n s
  | htInit tc th d0 d1 d2 d3 => exact execHtInit_leavesQueue tc th d0 d1 d2 d3 s
  | htInsert tc th l v => exact execHtInsert_leavesQueue tc th l v s
  | htDecode tc th => exact execHtDecode_leavesQueue tc th s
  | qtLoad pq tq ds => exact execQtLoad_leavesQueue pq tq (beq_iff_eq.1 hw) s
  | scanSetup slot td ta tq ci => exact execScanSetup_leavesQueue slot td ta tq ci s
  | decodeCoefs slot => exact execDecodeCoefs_leavesQueue slot s
  | extend t v => exact execExtend_leavesQueue t v s
  | dequant tq => exact execDequant_leavesQueue tq s
  | idct => exact execIdct_leavesQueue him
  | levelShift => exact execLevelShift_leavesQueue s
  | emit slot d => exact execEmit_leavesQueue slot d s
  | decodeBlock slot d => exact execDecodeBlock_leavesQueue slot d him
  | nop | sync | setRstint | brAlign | predReset | reorder | color | blkWrite | blkRead => exact ⟨_, rfl, rfl⟩

/-- Settles O4, by what stands at the head of CMDQ: an undefined OP, a set reserved bit, or a command, which `exec` runs
without touching the words left behind. -/
theorem commandWordsTaken : Obligations.CommandWordsTaken := by
  intro s w rest hready hq him
  cases hop : Op.ofCode (field w 24 8) with
  | none =>
    have hfetch := fetch_of_undefined (hready.head hq).1 hq hop
    rw [dataCount_of_undefined hop]
    exact ⟨⟨_, coreStep_of_illegal hfetch, rfl⟩, fun i left hrun => by simp [hfetch] at hrun⟩
  | some o =>
    have ho := Op.ofCode_some hop
    obtain ⟨-, hlen, -, -⟩ := hready.head hq
    have hfetch := fetch_of_ready hready hq ho
    rw [ho, dataCount_code] at hlen ⊢
    have htake : (rest.take o.dataWords).length = o.dataWords := List.length_take_of_le hlen
    by_cases hr : w &&& o.reserved = 0
    · rw [if_pos hr] at hfetch
      refine ⟨?_, fun i left hrun => ?_⟩
      · rw [coreStep_of_run hfetch]
        exact exec_leavesQueue (Op.build_wellFormed htake) him
      · obtain ⟨rfl, rfl⟩ := Fetched.run.inj (hfetch.symm.trans hrun)
        exact ⟨Op.build_data htake, rfl⟩
    · rw [if_neg hr] at hfetch
      exact ⟨⟨_, coreStep_of_illegal hfetch, rfl⟩, fun i left hrun => by simp [hfetch] at hrun⟩

end Sys2Proof.Machine
end

/-! ## NextByte, case by case (40_bitreader.md R123, R125-R129) -/

section
namespace Sys2Proof.Machine

/-- PADCNT counts the pad byte and stops at 255 (40_bitreader.md R125). -/
theorem padByte_saturates (c : ReadCtx) :
    ∃ k : Byte, k.toNat = min 255 (c.br.padcnt.toNat + 1) ∧
      padByte c = .ok 0xFF { c with br := { c.br with padcnt := k } } := by
  refine ⟨_, ?_, rfl⟩
  show (if c.br.padcnt = 0xFF#8 then 0xFF#8 else c.br.padcnt + 1).toNat = _
  split
  · next hfull => simp [hfull]
  · next hroom =>
    have hne : c.br.padcnt.toNat ≠ 255 := fun h => hroom (BitVec.eq_of_toNat_eq h)
    rw [BitVec.toNat_add, show (1 : Byte).toNat = 1 from rfl]
    omega

/-- POS moves by `n` without wrapping where the end stays below 2^25. -/
theorem advance_moves (n : Nat) (b : Byte) (c : ReadCtx) (h : c.br.pos.toNat + n < 2 ^ 25) :
    ∃ q : BitVec 25, q.toNat = c.br.pos.toNat + n ∧ advance n b c = .ok b { c with br := { c.br with pos := q } } := by
  refine ⟨_, ?_, rfl⟩
  rw [BitVec.toNat_add, BitVec.toNat_ofNat]
  omega

theorem afterFF_stop {b : Byte} (h : (0xD0#8 ≤ b ∧ b ≤ 0xD7#8) ∨ b = 0xDC#8) : afterFF b = hitMarker b := by
  have hne : b ≠ 0x00#8 := by rintro rfl; revert h; decide
  rw [afterFF, if_neg hne, if_pos h]

theorem afterFF_unexpected {b : Byte} (hz : b ≠ 0x00#8) (hrst : ¬(0xD0#8 ≤ b ∧ b ≤ 0xD7#8)) (hdnl : b ≠ 0xDC#8) :
    afterFF b = Reader.raise .bitstreamMarker (b.setWidth 32) := by
  rw [afterFF, if_neg hz, if_neg (not_or.2 ⟨hrst, hdnl⟩), infoMarker_false]

/-! ### The branches of NextByte with no write in flight -/

theorem nextByte_of_noData {g : Segment} {c : ReadCtx} (hs : g.Still)
    (h : c.br.markerHit = true ∨ g.len.toNat ≤ c.br.pos.toNat) : nextByte g c = padByte c := by
  rw [nextByte_still g hs, if_pos h]

theorem nextByte_of_data {g : Segment} {c : ReadCtx} (hs : g.Still) (hm : c.br.markerHit = false)
    (hp : c.br.pos.toNat < g.len.toNat) (hb : g.byte c.br.pos.toNat ≠ 0xFF#8) :
    nextByte g c = advance 1 (g.byte c.br.pos.toNat) c := by
  rw [nextByte_still g hs, if_neg (by simp [hm, hp]), if_pos hb]

/-- A 0xFF that is the segment's last byte (40_bitreader.md R129). -/
theorem nextByte_of_truncated {g : Segment} {c : ReadCtx} (hs : g.Still) (hm : c.br.markerHit = false)
    (hp : c.br.pos.toNat + 1 = g.len.toNat) (hb : g.byte c.br.pos.toNat = 0xFF#8) :
    nextByte g c = Reader.raise .bitstreamMarker 0x1FF c := by
  rw [nextByte_still g hs, if_neg (by simp [hm]; omega), if_neg (not_not.2 hb), if_pos (le_of_eq hp.symm)]
  rfl

theorem nextByte_of_FF {g : Segment} {c : ReadCtx} (hs : g.Still) (hm : c.br.markerHit = false)
    (hp : c.br.pos.toNat + 1 < g.len.toNat) (hb : g.byte c.br.pos.toNat = 0xFF#8) :
    nextByte g c = afterFF (g.byte (c.br.pos.toNat + 1)) c := by
  rw [nextByte_still g hs, if_neg (by simp [hm]; omega), if_neg (not_not.2 hb), if_neg (Nat.not_le.2 hp)]

/-- Settles O18, branch by branch: what NextByte does there, then what that does to POS, PADCNT and the marker. -/
theorem nextByteCases : Obligations.NextByteCases := by
  intro g c hbytes hlens p len pads moves
  have hs : g.Still := ⟨hbytes, hlens⟩
  have hlen : len < 2 ^ 25 := g.len.isLt
  refine ⟨fun h => ?noData, fun hm hp hb => ?data, fun hm hp hb => ?truncated, fun hm hp hb hz => ?stuffed,
    fun hm hp hb hstop => ?marker, fun hm hp hb hz hrst hdnl => ?unexpected⟩
  case noData =>
    rw [nextByte_of_noData hs h]
    exact padByte_saturates c
  case data =>
    rw [nextByte_of_data hs hm hp hb]
    exact advance_moves 1 _ c (by omega)
  case truncated => exact nextByte_of_truncated hs hm hp hb
  case stuffed =>
    rw [nextByte_of_FF hs hm hp hb, hz]
    exact advance_moves 2 0xFF c (by omega)
  case marker =>
    rw [nextByte_of_FF hs hm hp hb, afterFF_stop hstop]
    exact padByte_saturates { c with br := { c.br with markerHit := true, marker := g.byte (p + 1) } }
  case unexpected =>
    rw [nextByte_of_FF hs hm hp hb, afterFF_unexpected hz hrst hdnl]
    rfl

end Sys2Proof.Machine
end

/-! ## Peek leaves its bits buffered (40_bitreader.md R130, R133) -/

section
namespace Sys2Proof.Machine

/-- The fill loop, with turns enough for `n` bits, ends with `n` bits buffered, also where a write is in flight and whatever
stands in BITREG. -/
theorem fillLoop_buffers (g : Segment) (n fuel : Nat) (c c' : ReadCtx) (hf : n ≤ c.br.bitcnt + 8 * fuel)
    (hr : fillLoop g n fuel c = .ok () c') : n ≤ c'.br.bitcnt := by
  induction fuel generalizing c with
  | zero =>
    obtain rfl : c = c' := by simpa [fillLoop, Reader.ret] using hr
    exact hf
  | succ fuel ih =>
    by_cases hle : n ≤ c.br.bitcnt
    · obtain rfl : c = c' := by simpa [fillLoop_of_le g n _ c hle] using hr
      exact hle
    · simp only [fillLoop, if_pos (Nat.not_le.1 hle)] at hr
      obtain ⟨b, d, hnext, hrest⟩ := Reader.next_ok.1 hr
      obtain ⟨-, hcnt, -, -⟩ := (nextByte_kept g c).1 _ _ hnext
      have happ : append b d = .ok () { d with br := appended d.br b } := rfl
      rw [Reader.next_of_ok _ happ] at hrest
      exact ih _ (by show n ≤ d.br.bitcnt + 8 + 8 * fuel; omega) hrest

/-- Peek of buffered bits reads no byte and changes nothing. -/
theorem peek_of_le (g : Segment) (n : Nat) (c : ReadCtx) (h : n ≤ c.br.bitcnt) : peek g n c = .ok (oldest c.br n) c := by
  unfold peek
  split
  · next hzero => simp [hzero, oldest, Nat.mod_one, Reader.ret]
  · rw [Reader.next_of_ok _ (show fill g n c = .ok () c from fillLoop_of_le g n 2 c h)]

/-- A Peek that succeeds leaves its bits buffered, and they are its value. -/
theorem peek_ok {g : Segment} {n v : Nat} {c c' : ReadCtx} (hn : n ≤ 16) (hr : peek g n c = .ok v c') :
    n ≤ c'.br.bitcnt ∧ v = oldest c'.br n := by
  unfold peek at hr
  split at hr
  · next hzero =>
    simp only [Reader.ret, ReadResult.ok.injEq] at hr
    simp [hzero, ← hr.1, oldest, Nat.mod_one]
  · obtain ⟨u, d, hfill, hval⟩ := Reader.next_ok.1 hr
    simp only [ReadResult.ok.injEq] at hval
    obtain ⟨rfl, rfl⟩ := hval
    exact ⟨fillLoop_buffers g n 2 c d (by omega) hfill, rfl⟩

/-- The `m` oldest bits are the top `m` of the `n` oldest. -/
theorem oldest_div (br : BitReader) {m n : Nat} (hm : m ≤ n) (hn : n ≤ br.bitcnt) :
    oldest br n / 2 ^ (n - m) = oldest br m := by
  have hwidth : 2 ^ n = 2 ^ (n - m) * 2 ^ m := by rw [← pow_add, Nat.sub_add_cancel hm]
  have hshift : 2 ^ (br.bitcnt - n) * 2 ^ (n - m) = 2 ^ (br.bitcnt - m) := by rw [← pow_add]; congr 1; omega
  calc oldest br n / 2 ^ (n - m)
      = br.bitreg.toNat / 2 ^ (br.bitcnt - n) % (2 ^ (n - m) * 2 ^ m) / 2 ^ (n - m) := by rw [oldest, hwidth]
    _ = br.bitreg.toNat / 2 ^ (br.bitcnt - n) / 2 ^ (n - m) % 2 ^ m := Nat.mod_mul_right_div_self ..
    _ = oldest br m := by rw [Nat.div_div_eq_div_mul, hshift, oldest]

theorem take_of_peek_consume {g : Segment} {n v : Nat} {c c1 c2 : ReadCtx} (hp : peek g n c = .ok v c1)
    (hc : consume g n c1 = .ok () c2) : take g n c = .ok v c2 := by
  rw [take, Reader.next_of_ok _ hp, Reader.next_of_ok _ hc, Reader.ret]

/-- Settles O20: after a Peek its bits are buffered, so a Peek of as many or fewer reads them where they stand. -/
theorem peekProperties : Obligations.PeekProperties := by
  intro g n v c c1 hn hpeek
  obtain ⟨hbuf, rfl⟩ := peek_ok hn hpeek
  refine ⟨peek_of_le g n c1 hbuf, fun c2 hconsume => take_of_peek_consume hpeek hconsume, fun m hm => ?_⟩
  rw [oldest_div c1.br hm hbuf]
  exact peek_of_le g m c1 (hm.trans hbuf)

end Sys2Proof.Machine
end

/-! ## Where the Huffman tables are written (41_huffman.md R174) -/

section
namespace Sys2Proof.Machine

/-- The eight Huffman tables are the same in both states. -/
def SameTables (s t : State) : Prop := t.htDc = s.htDc ∧ t.htAc = s.htAc

theorem SameTables.table_eq {s t : State} (h : SameTables s t) (c : HuffClass) (n : BitVec 2) :
    t.table c n = s.table c n := by
  obtain ⟨hdc, hac⟩ := h
  cases c
  · simp only [State.table, hdc]
  · simp only [State.table, hac]

theorem State.table_setTable_of_id_ne {n n' : BitVec 2} (h : n' ≠ n) (s : State) (c : HuffClass) (x : HuffTable) :
    (s.setTable c n' x).table c n = s.table c n := by
  have hidx : n'.toNat ≠ n.toNat := fun e => h (BitVec.eq_of_toNat_eq e)
  cases c <;> exact Vector.getElem_set_ne n'.isLt n.isLt hidx

theorem State.table_setTable_of_class_ne {c c' : HuffClass} (h : c' ≠ c) (s : State) (n n' : BitVec 2) (x : HuffTable) :
    (s.setTable c' n' x).table c n = s.table c n := by
  match c, c' with
  | .dc, .ac | .ac, .dc => rfl
  | .dc, .dc | .ac, .ac => exact absurd rfl h

/-- Where one table is written, a table that differs is that one. -/
theorem State.eq_of_table_setTable_ne {s : State} {c c' : HuffClass} {n n' : BitVec 2} {x : HuffTable}
    (h : (s.setTable c' n' x).table c n ≠ s.table c n) : c' = c ∧ n' = n := by
  obtain rfl : c' = c := by
    by_contra hc
    exact h (State.table_setTable_of_class_ne hc s n n' x)
  refine ⟨rfl, ?_⟩
  by_contra hn
  exact h (State.table_setTable_of_id_ne hn s c' x)

/-! ### The commands that write no table -/

/-- Whatever the result, the tables of a next state are those of `s`. -/
def KeepsTables (s : State) (r : Result) : Prop := ∀ u, r = .next u → SameTables s u

theorem keepsTables_next {s u : State} (h : SameTables s u) : KeepsTables s (.next u) := by
  rintro _ ⟨⟩
  exact h

theorem keepsTables_fault {s : State} {f : Fault} : KeepsTables s (.fault f) := by
  rintro _ ⟨⟩

theorem raiseCheck_keepsTables {i : Instr} {kind : FaultKind} {info : Word} {s : State} :
    KeepsTables s (raiseCheck i kind info s) := keepsTables_next ⟨rfl, rfl⟩

theorem withHuffId_keepsTables {i : Instr} {tc th : BitVec 4} {s : State} {k : HuffClass → BitVec 2 → Result}
    (h : ∀ c n, KeepsTables s (k c n)) : KeepsTables s (withHuffId i tc th s k) := by
  intro u hu
  obtain ⟨c, n, -, -, hk⟩ | ⟨info, rfl⟩ := withHuffId_cases hu
  · exact h c n u hk
  · exact ⟨rfl, rfl⟩

theorem withSlot_keepsTables {i : Instr} {slot : BitVec 4} {s : State} {k : BitVec 2 → Result}
    (h : ∀ n, KeepsTables s (k n)) : KeepsTables s (withSlot i slot s k) := by
  intro u hu
  obtain ⟨n, -, -, hk⟩ | ⟨info, rfl⟩ := withSlot_cases hu
  · exact h n u hk
  · exact ⟨rfl, rfl⟩

theorem withTable_keepsTables {i : Instr} {c : HuffClass} {n : BitVec 2} {s : State} {k : HuffTable → Result}
    (h : ∀ tab, KeepsTables s (k tab)) : KeepsTables s (withTable i c n s k) := by
  intro u hu
  obtain ⟨-, hk⟩ | ⟨info, rfl⟩ := withTable_cases hu
  · exact h _ u hk
  · exact ⟨rfl, rfl⟩

theorem withQuant_keepsTables {i : Instr} {n : BitVec 2} {s : State} {k : QuantTable → Result}
    (h : ∀ q, KeepsTables s (k q)) : KeepsTables s (withQuant i n s k) := by
  intro u hu
  obtain ⟨-, hk⟩ | ⟨info, rfl⟩ := withQuant_cases hu
  · exact h _ u hk
  · exact ⟨rfl, rfl⟩

/-- A primitive of the bit reader sees no table, so what it hands on is all that counts. -/
theorem runReader_keepsTables {α : Type} {i : Instr} {s : State} {m : Reader α} {k : α → State → State}
    (h : ∀ v t, SameTables t (k v t)) : KeepsTables s (runReader i s m k) := by
  intro u hu
  obtain ⟨v, c, -, rfl⟩ | ⟨e, c, -, rfl⟩ := runReader_cases hu
  · exact h v (s.withReadCtx c)
  · exact ⟨rfl, rfl⟩

theorem execBrSeek_keepsTables (p : BitVec 24) (s : State) : KeepsTables s (execBrSeek p s) := by
  simp only [execBrSeek]
  split <;> exact keepsTables_next ⟨rfl, rfl⟩

theorem execBrNextbit_keepsTables (s : State) : KeepsTables s (execBrNextbit s) :=
  runReader_keepsTables fun _ _ => ⟨rfl, rfl⟩

theorem execBrPeek_keepsTables (n : BitVec 5) (s : State) : KeepsTables s (execBrPeek n s) := by
  unfold execBrPeek
  split
  · exact raiseCheck_keepsTables
  · exact runReader_keepsTables fun _ _ => ⟨rfl, rfl⟩

theorem execBrConsume_keepsTables (n : BitVec 5) (s : State) : KeepsTables s (execBrConsume n s) := by
  unfold execBrConsume
  split
  · exact raiseCheck_keepsTables
  · exact runReader_keepsTables fun _ _ => ⟨rfl, rfl⟩

theorem execHtDecode_keepsTables (tc th : BitVec 4) (s : State) : KeepsTables s (execHtDecode tc th s) :=
  withHuffId_keepsTables fun _ _ => withTable_keepsTables fun _ => runReader_keepsTables fun _ _ => ⟨rfl, rfl⟩

theorem execQtLoad_keepsTables (pq tq : BitVec 4) (ds : List Word) (s : State) :
    KeepsTables s (execQtLoad pq tq ds s) := by
  simp only [execQtLoad]
  split
  · exact keepsTables_fault
  · repeat' split
    all_goals exact keepsTables_next ⟨rfl, rfl⟩

theorem execScanSetup_keepsTables (slot td ta tq : BitVec 4) (ci : Byte) (s : State) :
    KeepsTables s (execScanSetup slot td ta tq ci s) := by
  simp only [execScanSetup]
  repeat' split
  all_goals exact keepsTables_next ⟨rfl, rfl⟩

theorem execDecodeCoefs_keepsTables (slot : BitVec 4) (s : State) : KeepsTables s (execDecodeCoefs slot s) := by
  refine withSlot_keepsTables fun n => withTable_keepsTables fun _ => withTable_keepsTables fun _ => ?_
  split <;> exact keepsTables_next ⟨rfl, rfl⟩

theorem execExtend_keepsTables (t : BitVec 5) (v : BitVec 16) (s : State) : KeepsTables s (execExtend t v s) := by
  unfold execExtend
  repeat' split
  all_goals exact keepsTables_next ⟨rfl, rfl⟩

theorem execDequant_keepsTables (tq : BitVec 4) (s : State) : KeepsTables s (execDequant tq s) := by
  simp only [execDequant]
  split
  · exact raiseCheck_keepsTables
  · refine withQuant_keepsTables fun q => ?_
    split <;> exact keepsTables_next ⟨rfl, rfl⟩

theorem execIdct_keepsTables (s : State) : KeepsTables s (execIdct s) := by
  unfold execIdct
  split
  · exact keepsTables_next ⟨rfl, rfl⟩
  · exact keepsTables_fault

theorem execLevelShift_keepsTables (s : State) : KeepsTables s (execLevelShift s) := by
  unfold execLevelShift
  split <;> exact keepsTables_next ⟨rfl, rfl⟩

theorem execEmit_keepsTables (slot : BitVec 4) (d : Word) (s : State) : KeepsTables s (execEmit slot d s) := by
  refine withSlot_keepsTables fun n => ?_
  split <;> exact keepsTables_next ⟨rfl, rfl⟩

theorem execDecodeBlock_keepsTables (slot : BitVec 4) (d : Word) (s : State) :
    KeepsTables s (execDecodeBlock slot d s) := by
  refine withSlot_keepsTables fun n => withTable_keepsTables fun _ => withTable_keepsTables fun _ =>
    withQuant_keepsTables fun q => ?_
  split
  · exact keepsTables_next ⟨rfl, rfl⟩
  · split
    · exact keepsTables_fault
    · exact keepsTables_next ⟨rfl, rfl⟩
    · exact keepsTables_next ⟨rfl, rfl⟩

/-! ### The three commands that write one -/

/-- The command writes `HT[c][n]`: HT_INIT and HT_INSERT of that table, and a SET_CONFIG that changes HM. -/
def WritesTable (i : Instr) (s : State) (c : HuffClass) (n : BitVec 2) : Prop :=
  (∃ d0 d1 d2 d3, i = .htInit c.code (n.setWidth 4) d0 d1 d2 d3) ∨
    (∃ l v, i = .htInsert c.code (n.setWidth 4) l v) ∨
    (∃ hm im cm, i = .setConfig hm im cm ∧ hm ≠ s.config.extractLsb' 0 1)

/-- A Huffman command writes the table its fields name if what follows the id checks writes the table they gave. -/
theorem withHuffId_table_ne {i : Instr} {tc th : BitVec 4} {s u : State} {k : HuffClass → BitVec 2 → Result}
    {c : HuffClass} {n : BitVec 2} (hu : withHuffId i tc th s k = .next u) (hne : u.table c n ≠ s.table c n)
    (hk : ∀ c' n', k c' n' = .next u → c' = c ∧ n' = n) : tc = c.code ∧ th = n.setWidth 4 := by
  obtain ⟨c', n', rfl, rfl, hnext⟩ | ⟨info, rfl⟩ := withHuffId_cases hu
  · obtain ⟨rfl, rfl⟩ := hk c' n' hnext
    exact ⟨rfl, rfl⟩
  · exact absurd rfl hne

theorem execHtInit_table_ne {tc th : BitVec 4} {d0 d1 d2 d3 : Word} {s u : State} {c : HuffClass} {n : BitVec 2}
    (hu : execHtInit tc th d0 d1 d2 d3 s = .next u) (hne : u.table c n ≠ s.table c n) :
    tc = c.code ∧ th = n.setWidth 4 := by
  refine withHuffId_table_ne hu hne fun c' n' hk => ?_
  split at hk
  · exact absurd ((raiseCheck_keepsTables u hk).table_eq c n) hne
  · obtain rfl := Host.Outcome.next.inj hk
    exact State.eq_of_table_setTable_ne hne

theorem execHtInsert_table_ne {tc th : BitVec 4} {l : BitVec 5} {v : Byte} {s u : State} {c : HuffClass} {n : BitVec 2}
    (hu : execHtInsert tc th l v s = .next u) (hne : u.table c n ≠ s.table c n) :
    tc = c.code ∧ th = n.setWidth 4 := by
  refine withHuffId_table_ne hu hne fun c' n' hk => ?_
  obtain ⟨-, hk⟩ | ⟨info, rfl⟩ := withTable_cases hk
  · split at hk
    · exact absurd ((raiseCheck_keepsTables u hk).table_eq c n) hne
    · obtain rfl := Host.Outcome.next.inj hk
      exact State.eq_of_table_setTable_ne hne
  · exact absurd rfl hne

theorem execSetConfig_keepsTables {hm : BitVec 1} {s : State} (h : hm = s.config.extractLsb' 0 1) (im : BitVec 2)
    (cm : BitVec 1) : KeepsTables s (execSetConfig hm im cm s) := by
  unfold execSetConfig
  rw [if_neg (not_not.2 h)]
  split <;> exact keepsTables_next ⟨rfl, rfl⟩

/-- A command that leaves a table different is one that writes it. -/
theorem exec_writesTable {i : Instr} {s u : State} {c : HuffClass} {n : BitVec 2} (hu : exec i s = .next u)
    (hne : u.table c n ≠ s.table c n) : WritesTable i s c n := by
  have hno : ¬KeepsTables s (exec i s) := fun hk => hne ((hk u hu).table_eq c n)
  cases i with
  | htInit tc th d0 d1 d2 d3 =>
    obtain ⟨rfl, rfl⟩ := execHtInit_table_ne hu hne
    exact .inl ⟨d0, d1, d2, d3, rfl⟩
  | htInsert tc th l v =>
    obtain ⟨rfl, rfl⟩ := execHtInsert_table_ne hu hne
    exact .inr (.inl ⟨l, v, rfl⟩)
  | setConfig hm im cm =>
    exact .inr (.inr ⟨hm, im, cm, rfl, fun h => hno (execSetConfig_keepsTables h im cm)⟩)
  | brSeek p => exact absurd (execBrSeek_keepsTables p s) hno
  | brNextbit => exact absurd (execBrNextbit_keepsTables s) hno
  | brPeek k => exact absurd (execBrPeek_keepsTables k s) hno
  | brConsume k => exact absurd (execBrConsume_keepsTables k s) hno
  | htDecode tc th => exact absurd (execHtDecode_keepsTables tc th s) hno
  | qtLoad pq tq ds => exact absurd (execQtLoad_keepsTables pq tq ds s) hno
  | scanSetup slot td ta tq ci => exact absurd (execScanSetup_keepsTables slot td ta tq ci s) hno
  | decodeCoefs slot => exact absurd (execDecodeCoefs_keepsTables slot s) hno
  | extend t v => exact absurd (execExtend_keepsTables t v s) hno
  | dequant tq => exact absurd (execDequant_keepsTables tq s) hno
  | idct => exact absurd (execIdct_keepsTables s) hno
  | levelShift => exact absurd (execLevelShift_keepsTables s) hno
  | emit slot d => exact absurd (execEmit_keepsTables slot d s) hno
  | decodeBlock slot d => exact absurd (execDecodeBlock_keepsTables slot d s) hno
  | nop | sync | setRstint | brAlign | predReset | reorder | color | blkWrite | blkRead =>
    exact absurd (keepsTables_next ⟨rfl, rfl⟩) hno

/-! ### A turn of the core, and a host access -/

theorem coreStep_writesTable {s u : State} {c : HuffClass} {n : BitVec 2} (hu : coreStep s = .next u)
    (hne : u.table c n ≠ s.table c n) : ∃ i rest, s.fetch = .run i rest ∧ WritesTable i s c n := by
  obtain ⟨-, rfl⟩ | ⟨w, reason, rest, -, rfl⟩ | ⟨i, rest, hfetch, hexec⟩ := coreStep_cases hu
  · exact absurd rfl hne
  · exact absurd rfl hne
  · exact ⟨i, rest, hfetch, exec_writesTable (s := { s with cmdq := rest }) hexec hne⟩

theorem hostRead_sameTables (r : Reg) (s : State) : SameTables s (hostRead r s).2 := by
  obtain ⟨q, o, ru, ou, d, hframe, -⟩ := hostRead_frame r s
  rw [hframe]
  exact ⟨rfl, rfl⟩

theorem ctrlWrite_sameTables {w : Word} (h : w.getLsbD 0 = false) (s : State) : SameTables s (ctrlWrite w s) := by
  simp only [ctrlWrite, h, Bool.false_eq_true, if_false]
  repeat' split
  all_goals exact ⟨rfl, rfl⟩

/-- Of all register writes only a soft reset touches the tables. -/
theorem hostWrite_sameTables {r : Reg} {w : Word} (h : r = .ctrl → w.getLsbD 0 = false) (s : State) :
    SameTables s (hostWrite r w s) := by
  cases r with
  | ctrl => exact ctrlWrite_sameTables (h rfl) s
  | cmd => simp only [hostWrite, cmdWrite]; split <;> exact ⟨rfl, rfl⟩
  | segData => rw [hostWrite, segDataWrite_frame]; exact ⟨rfl, rfl⟩
  | _ => exact ⟨rfl, rfl⟩

theorem hostAccess_writesTable {a : HostAccess} {s u : State} {c : HuffClass} {n : BitVec 2}
    (hu : hostAccess a s = .next u) (hne : u.table c n ≠ s.table c n) :
    ∃ off w, a = ⟨busAddress off, 4, .write w⟩ ∧ off = 0x04 ∧ w.getLsbD 0 = true := by
  obtain ⟨-, rfl⟩ | ⟨off, rfl, -, rfl⟩ | ⟨off, w, rfl, -, rfl⟩ := hostAccess_cases hu
  · exact absurd rfl hne
  · exact absurd ((hostRead_sameTables (Reg.ofOffset off) s).table_eq c n) hne
  · by_contra hnot
    refine hne ((hostWrite_sameTables (fun hctrl => ?_) s).table_eq c n)
    exact Bool.eq_false_iff.2 fun hw => hnot ⟨off, w, rfl, Reg.ofOffset_ctrl hctrl, hw⟩

theorem settle_sameTables (s : State) : SameTables s s.settle := ⟨s.settle_htDc, s.settle_htAc⟩

/-- Settles O16, by whose move the step is: a turn of the core runs a command that writes the table, a host access is a
write of CTRL with SOFT_RESET. -/
theorem tablesWrittenOnlyBy : Obligations.TablesWrittenOnlyBy := by
  intro s t c n hstep hne
  obtain ⟨u, rfl, hmove⟩ := step_cases hstep
  rw [(settle_sameTables u).table_eq] at hne
  obtain ⟨hbus, hcore⟩ | ⟨moves, hbus, hcore⟩ | ⟨a, moves, hbus, haccess⟩ := hmove
  · exact .inl ⟨.inl hbus, coreStep_writesTable hcore hne⟩
  · exact .inl ⟨.inr ⟨moves, hbus⟩, coreStep_writesTable (s := { s with bus := moves }) hcore hne⟩
  · obtain ⟨off, w, rfl, hoff, hw⟩ := hostAccess_writesTable (s := { s with bus := moves }) haccess hne
    exact .inr ⟨off, w, moves, hbus, hoff, hw⟩

end Sys2Proof.Machine
end

/-! ## The decode tables that HT_INIT derives (41_huffman.md R162) -/

section
namespace Sys2Proof.Machine

theorem le_of_mem_genSizes {len x : Nat} {ns : List Nat} (h : x ∈ genSizes len ns) : len ≤ x := by
  induction ns generalizing len with
  | nil => simp [genSizes] at h
  | cons n rest ih =>
    obtain hhead | hrest := List.mem_append.1 h
    · exact (List.eq_of_mem_replicate hhead).ge
    · exact (Nat.le_succ len).trans (ih hrest)

/-- The codes shorter than the length at index `i` are those counted before it. -/
theorem genSizes_countP_lt (len : Nat) (ns : List Nat) (i : Nat) :
    (genSizes len ns).countP (fun x => decide (x < len + i)) = (ns.take i).sum := by
  induction ns generalizing len i with
  | nil => simp [genSizes]
  | cons n rest ih =>
    cases i with
    | zero =>
      refine List.countP_eq_zero.2 fun x hx => ?_
      simpa using le_of_mem_genSizes hx
    | succ i =>
      have hlen : len + (i + 1) = len + 1 + i := by omega
      have hshort : len < len + 1 + i := by omega
      rw [genSizes, List.countP_append, hlen, ih, List.countP_replicate, if_pos (decide_eq_true hshort), List.take_succ_cons,
        List.sum_cons]

theorem countList_getD (bits : Vector Byte 16) (len : Fin 16) :
    (countList bits).getD len.val 0 = (bits[len]).toNat := by
  simp [countList]

/-- The size of code number `j` of a length is that length. -/
theorem HuffTable.build_size (old : HuffTable) (bits : Vector Byte 16) (d : Nat) (len : Fin 16) {j : Nat}
    (hj : j < (bits[len]).toNat) :
    (old.build bits d).size (((countList bits).take len.val).sum + j) = len.val + 1 := by
  rw [← countList_getD] at hj
  have hsize := genSizes_getD 1 (countList bits) len.val j (by simp) hj
  rw [HuffTable.size, Nat.add_comm len.val]
  exact hsize

/-- Settles O26: the row as HT_INIT derives it, and where the codes of its length stand. -/
theorem decodeTables : Obligations.DecodeTables := by
  intro old bits d _ t len n row
  have hrow : row.Ok t.huffcode ((countList bits).take len.val).sum n := by
    have hok := genRows_ok bits t.huffcode d len
    rwa [countList_getD] at hok
  rw [LenRow.Ok] at hrow
  refine ⟨fun hn => by rwa [if_pos hn] at hrow, fun hn => ?_⟩
  rw [if_neg hn] at hrow
  rw [hrow]
  have hlast : ((countList bits).take len.val).sum + n - 1 = ((countList bits).take len.val).sum + (n - 1) := by omega
  refine ⟨?_, ?_, ?_, rfl, rfl⟩
  · rw [Nat.add_comm len.val]
    exact (genSizes_countP_lt 1 (countList bits) len.val).symm
  · exact old.build_size bits d len (j := 0) (by omega)
  · rw [hlast]
    exact old.build_size bits d len (by omega)

end Sys2Proof.Machine
end

/-! ## EXTEND (42_coefficient.md R203, R205) -/

section
namespace Sys2Proof.Machine

theorem toInt_toWord {x : Int} (hlo : -2 ^ 31 ≤ x) (hhi : x < 2 ^ 31) : (toWord x).toInt = x :=
  BitVec.toInt_ofInt_eq_self (by decide) hlo hhi

@[simp] theorem extendValue_zero (v : Nat) : extendValue v 0 = 0 := rfl

/-- Below half the range the value stands for a negative number (R203). -/
theorem extendValue_of_lt {v t : Nat} (ht : t ≠ 0) (hv : v < 2 ^ (t - 1)) : extendValue v t = (v : Int) - 2 ^ t + 1 := by
  rw [extendValue, if_neg ht, if_pos hv]

theorem extendValue_of_le {v t : Nat} (ht : t ≠ 0) (hv : 2 ^ (t - 1) ≤ v) : extendValue v t = v := by
  rw [extendValue, if_neg ht, if_neg (Nat.not_lt.2 hv)]

/-- The magnitude of the value is below 2^t, as is `v` itself (R203). -/
theorem extendValue_lt_two_pow {v t : Nat} (hv : v < 2 ^ t) :
    -(2 ^ t : Int) < extendValue v t ∧ extendValue v t < 2 ^ t := by
  have hvpow : (v : Int) < 2 ^ t := by exact_mod_cast hv
  obtain rfl | h0 := eq_or_ne t 0
  · simp
  · obtain hlow | hhigh := Nat.lt_or_ge v (2 ^ (t - 1))
    · rw [extendValue_of_lt h0 hlow]
      omega
    · rw [extendValue_of_le h0 hhigh]
      omega

/-- The result word holds the value of EXTEND: T is at most 16. -/
theorem toInt_toWord_extendValue {v t : Nat} (ht : t ≤ 16) (hv : v < 2 ^ t) :
    (toWord (extendValue v t)).toInt = extendValue v t := by
  have hpow : (2 : Int) ^ t ≤ 2 ^ 16 := pow_le_pow_right₀ (by decide) ht
  obtain ⟨hlo, hhi⟩ := extendValue_lt_two_pow hv
  exact toInt_toWord (by omega) (by omega)

theorem extend_failsCheck_of_gt {t : BitVec 5} (ht : 16 < t.toNat) (v : BitVec 16) (s : State) :
    FailsCheck (.extend t v) s 13 4 :=
  if_pos ht

theorem extend_failsCheck_of_le {t : BitVec 5} {v : BitVec 16} (ht : t.toNat ≤ 16) (hv : 2 ^ t.toNat ≤ v.toNat) (s : State) :
    FailsCheck (.extend t v) s 13 5 :=
  (if_neg (Nat.not_lt.2 ht)).trans (if_pos hv)

theorem exec_extend_of_lt {t : BitVec 5} {v : BitVec 16} (ht : t.toNat ≤ 16) (hv : v.toNat < 2 ^ t.toNat) (s : State) :
    exec (.extend t v) s = .next (s.pushResult (toWord (extendValue v.toNat t.toNat))) :=
  (if_neg (Nat.not_lt.2 ht)).trans (if_neg (Nat.not_le.2 hv))

/-- Settles O33: the two checks in order, then the value by its half of the range; the bounds hold because
2^T = 2 * 2^(T-1). -/
theorem extendSigns : Obligations.ExtendSigns := by
  intro s t v
  refine ⟨fun ht hv => ?_, fun ht => extend_failsCheck_of_gt ht v s, fun ht hv => extend_failsCheck_of_le ht hv s⟩
  refine ⟨_, exec_extend_of_lt ht hv s, ?_⟩
  rw [toInt_toWord_extendValue ht hv]
  have hvpow : (v.toNat : Int) < 2 ^ t.toNat := by exact_mod_cast hv
  refine ⟨fun h0 => by rw [h0, extendValue_zero], fun h0 hlow => ?_, fun h0 hhigh => ?_⟩
  · have hdouble := mul_pow_sub_one h0 (2 : Int)
    have hlow' : (v.toNat : Int) < 2 ^ (t.toNat - 1) := by exact_mod_cast hlow
    rw [extendValue_of_lt h0 hlow]
    omega
  · have hhigh' : (2 : Int) ^ (t.toNat - 1) ≤ v.toNat := by exact_mod_cast hhigh
    rw [extendValue_of_le h0 hhigh]
    omega

end Sys2Proof.Machine
end

/-! ## REORDER and DEQUANT (43_dequant_reorder.md R243, R246) -/

section
namespace Sys2Proof.Machine

/-! ### The zig-zag permutation (43_dequant_reorder.md R247) -/

/-- ZZINDEX as a permutation of the 64 positions, with NATURAL as its inverse. -/
def zigzagPerm : Equiv.Perm (Fin 64) where
  toFun p := Fin.ofNat 64 (zzIndex.getD p.val 0)
  invFun k := Fin.ofNat 64 (natural.getD k.val 0)
  left_inv := by decide
  right_inv := by decide

theorem zzIndex_getD (p : Fin 64) : zzIndex.getD p.val 0 = (zigzagPerm p).val := by revert p; decide

theorem getD_zzIndex {α : Type} (v : Vector α 64) (d : α) (p : Fin 64) :
    v.toList.getD (zzIndex.getD p.val 0) d = v[zigzagPerm p] := by
  rw [zzIndex_getD, vec_getD v _ d (zigzagPerm p).isLt, Fin.getElem_fin]

/-! ### REORDER permutes the entries -/

theorem reorderBody_getElem (b : Blk) (p : Fin 64) : (reorderBody b)[p] = b[zigzagPerm p] := by
  rw [Fin.getElem_fin, reorderBody, vecOfFn_getElem]
  exact getD_zzIndex b 0 p

/-- The zig-zag block of a natural-order block: zig-zag index k holds the entry at natural position NATURAL[k]. -/
def zigzagBlock (b : Blk) : Blk := vecOfFn fun k => b[zigzagPerm.symm k]

theorem zigzagBlock_getElem (b : Blk) (k : Fin 64) : (zigzagBlock b)[k] = b[zigzagPerm.symm k] := vecOfFn_getElem _ _ _

theorem vec_ext_fin {α : Type} {n : Nat} {v w : Vector α n} (h : ∀ k : Fin n, v[k] = w[k]) : v = w :=
  Vector.ext fun i hi => h ⟨i, hi⟩

theorem reorderBody_zigzagBlock (b : Blk) : reorderBody (zigzagBlock b) = b :=
  vec_ext_fin fun p => by simp only [reorderBody_getElem, zigzagBlock_getElem, Equiv.symm_apply_apply]

theorem zigzagBlock_reorderBody (b : Blk) : zigzagBlock (reorderBody b) = b :=
  vec_ext_fin fun k => by simp only [zigzagBlock_getElem, reorderBody_getElem, Equiv.apply_symm_apply]

/-- Settles O39: the zig-zag block is the one preimage, and the block that holds 1 at zig-zag index 15 alone moves it to
position 5 and then to position 2. -/
theorem reorderPermutes : Obligations.ReorderPermutes := by
  refine ⟨fun b => ⟨zigzagBlock b, reorderBody_zigzagBlock b, ?_⟩, fun b => ?_, fun b => ?_, ?_⟩
  · rintro a rfl
    exact (zigzagBlock_reorderBody a).symm
  · exact ⟨reorderBody_getElem b 0, reorderBody_getElem b 63⟩
  · exact ⟨reorderBody_getElem b 2, reorderBody_getElem b 5⟩
  · let b : Blk := (Vector.replicate 64 0).set 15 1
    refine ⟨b, fun hfix => ?_⟩
    have hmoved : (reorderBody (reorderBody b))[(2 : Fin 64)] = b[(15 : Fin 64)] :=
      (reorderBody_getElem _ 2).trans (reorderBody_getElem b 5)
    rw [hfix] at hmoved
    exact absurd hmoved (by decide)

/-! ### DEQUANT commutes with it -/

/-- DEQUANT completes exactly when every product fits in 32 bits, and then holds the products. -/
theorem dequantBody_eq_ok (b : Blk) (q : Vector (BitVec 16) 64) (b1 : Blk) :
    dequantBody b q = .ok b1 ↔
      (∀ k, fits32 (dequantProduct b q k) = true) ∧ ∀ k : Fin 64, b1[k] = toWord (dequantProduct b q k) := by
  have hfits : firstBad (fun v => !fits32 v) (vecOfFn (dequantProduct b q)) = none ↔
      ∀ k, fits32 (dequantProduct b q k) = true := by simp [firstBad_eq_none]
  have hprod (k : Fin 64) : (vecMap toWord (vecOfFn (dequantProduct b q)))[k] = toWord (dequantProduct b q k) := by simp
  rw [← hfits, dequantBody]
  split
  case h_1 _ hbad => simp [hbad]
  case h_2 _ hnone =>
    refine ⟨?_, fun ⟨_, hb1⟩ => congrArg _ (vec_ext_fin fun k => (hprod k).trans (hb1 k).symm)⟩
    intro hok
    cases hok
    exact ⟨hnone, hprod⟩

/-- The products of the reordered block by the reordered table are the products of the zig-zag block, reordered. -/
theorem dequantProduct_reorderBody (b : Blk) {q qn : Vector (BitVec 16) 64}
    (hqn : ∀ p : Fin 64, qn[p] = q[zigzagPerm p]) (p : Fin 64) :
    dequantProduct (reorderBody b) qn p = dequantProduct b q (zigzagPerm p) := by
  rw [dequantProduct, dequantProduct, reorderBody_getElem, hqn]

/-- Settles O40: the products are the same ones, each at the position ZZINDEX moves it to, so they all fit in one order
exactly when they do in the other. -/
theorem dequantCommutesWithReorder : Obligations.DequantCommutesWithReorder := by
  intro b q qn htable
  have hprod := dequantProduct_reorderBody b fun p => (htable p).trans (getD_zzIndex q 0 p)
  have hfits : (∀ p, fits32 (dequantProduct (reorderBody b) qn p) = true) ↔
      ∀ k, fits32 (dequantProduct b q k) = true := by
    simp only [hprod]
    exact (zigzagPerm.surjective.forall (p := fun k => fits32 (dequantProduct b q k) = true)).symm
  refine ⟨fun b1 h1 => ?_, fun b2 h2 => ?_⟩
  · obtain ⟨hfit, hb1⟩ := (dequantBody_eq_ok b q b1).1 h1
    refine (dequantBody_eq_ok _ _ _).2 ⟨hfits.2 hfit, fun p => ?_⟩
    rw [reorderBody_getElem, hb1, hprod]
  · obtain ⟨hfit, -⟩ := (dequantBody_eq_ok _ _ _).1 h2
    exact ⟨_, (dequantBody_eq_ok b q (vecOfFn fun k => toWord (dequantProduct b q k))).2
      ⟨hfits.1 hfit, fun k => vecOfFn_getElem _ _ _⟩⟩

end Sys2Proof.Machine
end

/-! ## DECODE_BLOCK is the sequence of its six stages (45_level_shift_output.md R297) -/

section
namespace Sys2Proof.Machine

/-! ### The IDCT's output is in -128..127 (44_idct.md R260), so LEVEL_SHIFT gives bytes -/

/-- A sample before the level shift: -128..127. -/
def IsSample (w : Word) : Prop := -128 ≤ w.toInt ∧ w.toInt ≤ 127

theorem clamp_mem_Icc (v : Int) {lo hi : Int} (h : lo ≤ hi) : clamp v lo hi ∈ Set.Icc lo hi := by
  rw [clamp, Set.mem_Icc]
  split_ifs <;> omega

theorem isSample_toWord_clamp (v : Int) : IsSample (toWord (clamp v (-128) 127)) := by
  obtain ⟨hlo, hhi⟩ := clamp_mem_Icc v (show (-128 : Int) ≤ 127 by decide)
  rw [IsSample, toInt_toWord (by omega) (by omega)]
  exact ⟨hlo, hhi⟩

theorem floatIdct_isSample (b : Blk) (k : Fin 64) : IsSample (floatIdct b)[k] := by
  rw [Fin.getElem_fin, floatIdct, vecOfFn_getElem]
  exact isSample_toWord_clamp _

/-- ColPass ends with a clamp on both of its paths (R267). -/
theorem colPass_isSample (col : Vector Word 8) {i : Nat} (hi : i < 8) : IsSample (colPass col)[i] := by
  simp only [colPass]
  split
  · rw [Vector.getElem_replicate]
    exact isSample_toWord_clamp _
  · rw [vecMap_getElem]
    exact isSample_toWord_clamp _

theorem groupGet_vecOfFn (f : Fin 8 → Vector Word 8) {i j : Nat} (hi : i < 8) (hj : j < 8) :
    groupGet (vecOfFn f) i j = (f ⟨i, hi⟩)[j] := by
  rw [groupGet, vec_getD _ _ _ hi, vecOfFn_getElem, vec_getD _ _ _ hj]

theorem chenWangIdct_isSample (b : Blk) (k : Fin 64) : IsSample (chenWangIdct b)[k] := by
  rw [Fin.getElem_fin, chenWangIdct, colPasses, vecOfFn_getElem, groupGet_vecOfFn _ (by omega) (by omega)]
  exact colPass_isSample _ _

theorem idctBody_isSample {im : BitVec 2} {b b' : Blk} (h : idctBody im b = some b') (k : Fin 64) : IsSample b'[k] := by
  unfold idctBody at h
  split at h
  · cases h
  · split at h <;> cases h
    · exact chenWangIdct_isSample b k
    · exact floatIdct_isSample b k

/-- On samples LEVEL_SHIFT completes, and EMIT finds no entry to refuse. -/
theorem levelShiftBody_of_isSample {b : Blk} (h : ∀ k : Fin 64, IsSample b[k]) :
    ∃ out, levelShiftBody b = .ok out ∧ firstNonByte out = none := by
  have hfits : firstBad (fun v => !fits32 v) (vecMap (fun w : Word => w.toInt + 128) b) = none := by
    refine (firstBad_eq_none _ _).2 fun k => ?_
    obtain ⟨hlo, hhi⟩ := h k
    rw [Fin.getElem_fin] at hlo hhi
    simp only [Fin.getElem_fin, vecMap_getElem, fits32, Bool.not_eq_false', Bool.and_eq_true, decide_eq_true_eq]
    omega
  refine ⟨vecMap toWord (vecMap (fun w : Word => w.toInt + 128) b), by simp only [levelShiftBody, hfits],
    (firstBad_eq_none _ _).2 fun k => ?_⟩
  obtain ⟨hlo, hhi⟩ := h k
  rw [Fin.getElem_fin] at hlo hhi
  simp only [Fin.getElem_fin, vecMap_getElem, Bool.or_eq_false_iff, decide_eq_false_iff_not]
  rw [toInt_toWord (by omega) (by omega)]
  omega

/-- The stages after the decode can stop only in DEQUANT (R296). -/
theorem pipeline_cases {im : BitVec 2} (him : im ≠ 3) (q : Vector (BitVec 16) 64) (b : Blk) :
    (∃ k, dequantBody b q = .error k ∧ pipeline im q b = some (.error (2, k))) ∨
      ∃ b1 b2 out, dequantBody b q = .ok b1 ∧ idctBody im (reorderBody b1) = some b2 ∧ levelShiftBody b2 = .ok out ∧
        firstNonByte out = none ∧ pipeline im q b = some (.ok out) := by
  cases hdeq : dequantBody b q with
  | error k => exact .inl ⟨k, rfl, by simp only [pipeline, hdeq]⟩
  | ok b1 =>
    obtain ⟨b2, hidct⟩ := idctBody_eq_some him (reorderBody b1)
    obtain ⟨out, hshift, hbytes⟩ := levelShiftBody_of_isSample (idctBody_isSample hidct)
    exact .inr ⟨b1, b2, out, rfl, hidct, hshift, hbytes, by simp only [pipeline, hdeq, hidct, hshift]⟩

/-! ### Operand checks on fields in range -/

theorem withSlot_of_valid {s : State} {n : BitVec 2} (h : (s.slotAt n).valid = true) (i : Instr)
    (k : BitVec 2 → Result) : withSlot i (n.setWidth 4) s k = k n := by
  simp only [withSlot, idOf_setWidth, if_pos h]

theorem withSlot_of_not_valid {s : State} {n : BitVec 2} (h : ¬(s.slotAt n).valid = true) (i : Instr)
    (k : BitVec 2 → Result) : withSlot i (n.setWidth 4) s k = raiseCheck i .argument (infoReason 7) s := by
  simp only [withSlot, idOf_setWidth, if_neg h]

theorem withSlot_of_gt {slot : BitVec 4} (h : 3 < slot.toNat) (i : Instr) (s : State) (k : BitVec 2 → Result) :
    withSlot i slot s k = raiseCheck i .argument (infoReason 3) s := by
  simp only [withSlot, (idOf_eq_none slot).2 h]

theorem withTable_of_valid {s : State} {c : HuffClass} {t : BitVec 2} (h : (s.table c t).valid = true) (i : Instr)
    (k : HuffTable → Result) : withTable i c t s k = k (s.table c t) := if_pos h

theorem withTable_of_not_valid {s : State} {c : HuffClass} {t : BitVec 2} (h : ¬(s.table c t).valid = true) (i : Instr)
    (k : HuffTable → Result) : withTable i c t s k = raiseCheck i .tableNotLoaded (infoTable c.code t) s := if_neg h

theorem withQuant_of_valid {s : State} {t : BitVec 2} (h : (s.quant t).valid = true) (i : Instr)
    (k : QuantTable → Result) : withQuant i t s k = k (s.quant t) := if_pos h

theorem withQuant_of_not_valid {s : State} {t : BitVec 2} (h : ¬(s.quant t).valid = true) (i : Instr)
    (k : QuantTable → Result) : withQuant i t s k = raiseCheck i .tableNotLoaded (infoTable 2 t) s := if_neg h

/-! ### What DECODE_COEFS and DECODE_BLOCK answer -/

/-- Slot `n` is set up and its two Huffman tables are loaded: what DECODE_COEFS and DECODE_BLOCK check first. -/
structure State.DecodeReady (s : State) (n : BitVec 2) : Prop where
  slot : (s.slotAt n).valid = true
  dc : (s.table .dc (s.slotAt n).td).valid = true
  ac : (s.table .ac (s.slotAt n).ta).valid = true

/-- The body of DECODE_COEFS for slot `n`, as both commands run it. -/
abbrev State.runDecode (s : State) (n : BitVec 2) : ReadResult (Blk × Word) :=
  decodeBody (s.coefTables (s.slotAt n)) (s.predAt n) s.readCtx

/-- The state DECODE_COEFS leaves where it completes. -/
def State.decoded (s : State) (n : BitVec 2) (b : Blk) (p : Word) (c : ReadCtx) : State :=
  ({ s with blk := b }.setPred n p).withReadCtx c

section
variable {s : State} {n : BitVec 2} {d : Word}

/-- Where the slot or a Huffman table is missing, the two commands fail the same check. -/
theorem exec_decode_of_not_ready (h : ¬s.DecodeReady n) (d : Word) :
    ∃ kind info, exec (.decodeCoefs (n.setWidth 4)) s = raiseCheck (.decodeCoefs (n.setWidth 4)) kind info s ∧
      exec (.decodeBlock (n.setWidth 4) d) s = raiseCheck (.decodeBlock (n.setWidth 4) d) kind info s := by
  simp only [exec, execDecodeCoefs, execDecodeBlock]
  by_cases hslot : (s.slotAt n).valid = true
  · by_cases hdc : (s.table .dc (s.slotAt n).td).valid = true
    · have hac : ¬(s.table .ac (s.slotAt n).ta).valid = true := fun hac => h ⟨hslot, hdc, hac⟩
      simp only [withSlot_of_valid hslot, withTable_of_valid hdc, withTable_of_not_valid hac]
      exact ⟨_, _, rfl, rfl⟩
    · simp only [withSlot_of_valid hslot, withTable_of_not_valid hdc]
      exact ⟨_, _, rfl, rfl⟩
  · simp only [withSlot_of_not_valid hslot]
    exact ⟨_, _, rfl, rfl⟩

section
variable (h : s.DecodeReady n)
include h

/-- A ready slot passes the three checks that both commands open with. -/
theorem State.DecodeReady.passes (i : Instr) (k : BitVec 2 → Result) :
    (withSlot i (n.setWidth 4) s fun t => withTable i .dc (s.slotAt t).td s fun _ =>
      withTable i .ac (s.slotAt t).ta s fun _ => k t) = k n := by
  simp only [withSlot_of_valid h.slot, withTable_of_valid h.dc, withTable_of_valid h.ac]

theorem exec_decodeCoefs_of_err {e : Raise} {c : ReadCtx} (hrun : s.runDecode n = .err e c) :
    exec (.decodeCoefs (n.setWidth 4)) s =
      .next (({ s with draws := c.draws }.havocDecode n).enterFault (Instr.decodeCoefs (n.setWidth 4)).head e.kind e.info
        e.pos) := by
  simp only [exec, execDecodeCoefs, h.passes, hrun]

theorem exec_decodeCoefs_of_ok {b : Blk} {p : Word} {c : ReadCtx} (hrun : s.runDecode n = .ok (b, p) c) :
    exec (.decodeCoefs (n.setWidth 4)) s = .next (s.decoded n b p c) := by
  simp only [exec, execDecodeCoefs, h.passes, hrun, State.decoded]

theorem exec_decodeBlock_of_not_loaded (hq : ¬(s.quant (s.slotAt n).tq).valid = true) :
    exec (.decodeBlock (n.setWidth 4) d) s =
      raiseCheck (.decodeBlock (n.setWidth 4) d) .tableNotLoaded (infoTable 2 (s.slotAt n).tq) s := by
  simp only [exec, execDecodeBlock, h.passes, withQuant_of_not_valid hq]

variable (hq : (s.quant (s.slotAt n).tq).valid = true)
include hq

theorem exec_decodeBlock_of_err {e : Raise} {c : ReadCtx} (hrun : s.runDecode n = .err e c) :
    exec (.decodeBlock (n.setWidth 4) d) s =
      .next (({ s with draws := c.draws }.havocDecode n).enterFault (Instr.decodeBlock (n.setWidth 4) d).head e.kind
        e.info e.pos) := by
  simp only [exec, execDecodeBlock, h.passes, withQuant_of_valid hq, hrun]

variable {b : Blk} {p : Word} {c : ReadCtx} (hrun : s.runDecode n = .ok (b, p) c)
include hrun

theorem exec_decodeBlock_of_error {stage : Byte} {k : BitVec 6}
    (hpipe : pipeline s.idctVariant (s.quant (s.slotAt n).tq).q b = some (.error (stage, k))) :
    exec (.decodeBlock (n.setWidth 4) d) s =
      .next (({ s with draws := c.draws }.havocDecode n).enterFault (Instr.decodeBlock (n.setWidth 4) d).head .range
        (infoRangeFault stage k) c.br.pos) := by
  simp only [exec, execDecodeBlock, h.passes, withQuant_of_valid hq, hrun, hpipe]

theorem exec_decodeBlock_of_ok {out : Blk}
    (hpipe : pipeline s.idctVariant (s.quant (s.slotAt n).tq).q b = some (.ok out)) :
    exec (.decodeBlock (n.setWidth 4) d) s =
      .next ((s.decoded n out p c).pushOut (record (s.slotAt n).ci (n.setWidth 4) d out)) := by
  simp only [exec, execDecodeBlock, h.passes, withQuant_of_valid hq, hrun, hpipe, State.decoded]

end
end

/-! ### What the other stages answer -/

theorem exec_dequant_of_not_loaded {s : State} {t : BitVec 2} (h : ¬(s.quant t).valid = true) :
    exec (.dequant (t.setWidth 4)) s = raiseCheck (.dequant (t.setWidth 4)) .tableNotLoaded (infoTable 2 t) s := by
  simp only [exec, execDequant, idOf_setWidth, withQuant_of_not_valid h]

theorem exec_dequant_of_ok {s : State} {t : BitVec 2} {b : Blk} (h : (s.quant t).valid = true)
    (hdeq : dequantBody s.blk (s.quant t).q = .ok b) : exec (.dequant (t.setWidth 4)) s = .next { s with blk := b } := by
  simp only [exec, execDequant, idOf_setWidth, withQuant_of_valid h, hdeq]

theorem exec_dequant_of_error {s : State} {t : BitVec 2} {k : BitVec 6} (h : (s.quant t).valid = true)
    (hdeq : dequantBody s.blk (s.quant t).q = .error k) :
    exec (.dequant (t.setWidth 4)) s =
      .next (s.havocBlk.enterFault (Instr.dequant (t.setWidth 4)).head .range (infoRangeFault 2 k) s.br.pos) := by
  simp only [exec, execDequant, idOf_setWidth, withQuant_of_valid h, hdeq]

theorem exec_reorder (s : State) : exec .reorder s = .next { s with blk := reorderBody s.blk } := rfl

theorem exec_idct_of_some {s : State} {b : Blk} (h : idctBody s.idctVariant s.blk = some b) :
    exec .idct s = .next { s with blk := b } := by
  simp only [exec, execIdct, h]

theorem exec_levelShift_of_ok {s : State} {b : Blk} (h : levelShiftBody s.blk = .ok b) :
    exec .levelShift s = .next { s with blk := b } := by
  simp only [exec, execLevelShift, h]

theorem exec_emit_of_bytes {s : State} {n : BitVec 2} (hslot : (s.slotAt n).valid = true)
    (h : firstNonByte s.blk = none) (d : Word) :
    exec (.emit (n.setWidth 4) d) s = .next (s.pushOut (record (s.slotAt n).ci (n.setWidth 4) d s.blk)) := by
  simp only [exec, execEmit, withSlot_of_valid hslot, h]

/-! ### The sequence -/

theorem execSeq_cons_of_running {i : Instr} {s t : State} (h : exec i s = .next t) (ht : t.faulted = false)
    (rest : List Instr) : execSeq (i :: rest) s = execSeq rest t := by
  simp only [execSeq, h, ht, Bool.false_eq_true, if_false]

theorem execSeq_cons_of_halted {i : Instr} {s t : State} (h : exec i s = .next t) (ht : t.faulted = true)
    (rest : List Instr) : execSeq (i :: rest) s = .next t := by
  simp only [execSeq, h, ht, if_true]

/-- The stages after DECODE_COEFS. -/
def laterStages (tq n : BitVec 2) (d : Word) : List Instr :=
  [.dequant (tq.setWidth 4), .reorder, .idct, .levelShift, .emit (n.setWidth 4) d]

/-- Where DEQUANT's products fit, the later stages end with the record of their last block. -/
theorem execSeq_laterStages_of_ok {s : State} {n tq : BitVec 2} {b1 b2 out : Blk} (hf : s.faulted = false)
    (hslot : (s.slotAt n).valid = true) (hq : (s.quant tq).valid = true)
    (hdeq : dequantBody s.blk (s.quant tq).q = .ok b1) (hidct : idctBody s.idctVariant (reorderBody b1) = some b2)
    (hshift : levelShiftBody b2 = .ok out) (hbytes : firstNonByte out = none) (d : Word) :
    execSeq (laterStages tq n d) s =
      .next ({ s with blk := out }.pushOut (record (s.slotAt n).ci (n.setWidth 4) d out)) :=
  calc execSeq (laterStages tq n d) s
      = execSeq [.reorder, .idct, .levelShift, .emit (n.setWidth 4) d] { s with blk := b1 } :=
        execSeq_cons_of_running (exec_dequant_of_ok hq hdeq) hf _
    _ = execSeq [.idct, .levelShift, .emit (n.setWidth 4) d] { s with blk := reorderBody b1 } :=
        execSeq_cons_of_running (exec_reorder { s with blk := b1 }) hf _
    _ = execSeq [.levelShift, .emit (n.setWidth 4) d] { s with blk := b2 } :=
        execSeq_cons_of_running (exec_idct_of_some (s := { s with blk := reorderBody b1 }) hidct) hf _
    _ = execSeq [.emit (n.setWidth 4) d] { s with blk := out } :=
        execSeq_cons_of_running (exec_levelShift_of_ok (s := { s with blk := b2 }) hshift) hf _
    _ = execSeq [] ({ s with blk := out }.pushOut (record (s.slotAt n).ci (n.setWidth 4) d out)) :=
        execSeq_cons_of_running (exec_emit_of_bytes (s := { s with blk := out }) hslot hbytes d) hf _
    _ = .next ({ s with blk := out }.pushOut (record (s.slotAt n).ci (n.setWidth 4) d out)) := rfl

/-- `one` fuses `seq`: both complete in the same state, or both halt on the same fault with the same words in RESQ and
OUTQ, and `one` records `cmd` as the faulting command (R297). -/
inductive Fuses (cmd : Word) : Result → Result → Prop where
  | completes {t : State} (ht : t.faulted = false) : Fuses cmd (.next t) (.next t)
  | faults {x y : State} (hresq : y.resq = x.resq) (houtq : y.outq = x.outq) (stage : Word) (kind : FaultKind)
      (info : Word) (pos : BitVec 25) :
      Fuses cmd (.next (x.enterFault stage kind info pos)) (.next (y.enterFault cmd kind info pos))

theorem Fuses.of_next {cmd : Word} {seq one : Result} {t : State} (h : Fuses cmd seq one) (ht : seq = .next t) :
    (t.faulted = false → one = .next t) ∧
      (t.faulted = true → ∃ u, one = .next u ∧ u.faulted = true ∧ u.faultCode = t.faultCode ∧
        u.faultInfo = t.faultInfo ∧ u.faultPos = t.faultPos ∧ u.faultCmd = cmd ∧ u.resq = t.resq ∧
        u.outq = t.outq) := by
  cases h with
  | completes hrun =>
    cases ht
    exact ⟨fun _ => rfl, fun hhalt => absurd (hrun.symm.trans hhalt) (by decide)⟩
  | faults hresq houtq =>
    cases ht
    exact ⟨fun hrun => absurd hrun (by simp), fun _ => ⟨_, rfl, rfl, rfl, rfl, rfl, rfl, hresq, houtq⟩⟩

theorem decodeBlock_fuses {s : State} {n : BitVec 2} (hf : s.faulted = false) (him : s.idctVariant ≠ 3)
    (hq : (s.quant (s.slotAt n).tq).valid = true) (d : Word) :
    Fuses (Instr.decodeBlock (n.setWidth 4) d).head
      (execSeq (.decodeCoefs (n.setWidth 4) :: laterStages (s.slotAt n).tq n d) s)
      (exec (.decodeBlock (n.setWidth 4) d) s) := by
  by_cases hready : s.DecodeReady n
  case neg =>
    obtain ⟨kind, info, hcoefs, hone⟩ := exec_decode_of_not_ready hready d
    rw [execSeq_cons_of_halted hcoefs rfl, hone]
    exact .faults rfl rfl ..
  cases hrun : s.runDecode n with
  | err e c =>
    rw [execSeq_cons_of_halted (exec_decodeCoefs_of_err hready hrun) rfl, exec_decodeBlock_of_err hready hq hrun]
    exact .faults rfl rfl ..
  | ok v c =>
    obtain ⟨b, p⟩ := v
    rw [execSeq_cons_of_running (exec_decodeCoefs_of_ok hready hrun) hf]
    obtain ⟨k, hdeq, hpipe⟩ | ⟨b1, b2, out, hdeq, hidct, hshift, hbytes, hpipe⟩ := pipeline_cases him _ b
    · rw [laterStages, execSeq_cons_of_halted (exec_dequant_of_error (s := s.decoded n b p c) hq hdeq) rfl,
        exec_decodeBlock_of_error hready hq hrun hpipe]
      exact .faults (by rfl) (by rfl) ..
    · rw [execSeq_laterStages_of_ok (s := s.decoded n b p c) hf hready.slot hq hdeq hidct hshift hbytes d,
        exec_decodeBlock_of_ok hready hq hrun hpipe]
      exact .completes hf

/-- With the quantization table missing the sequence halts, in DECODE_COEFS or on DEQUANT's check. -/
theorem execSeq_of_not_loaded {s t : State} {n : BitVec 2} (hf : s.faulted = false)
    (hq : ¬(s.quant (s.slotAt n).tq).valid = true) {d : Word}
    (ht : execSeq (.decodeCoefs (n.setWidth 4) :: laterStages (s.slotAt n).tq n d) s = .next t) :
    t.faulted = true ∧ (t.faultCmd = (Instr.decodeCoefs (n.setWidth 4)).head ∨
      t.faultCmd = (Instr.dequant ((s.slotAt n).tq.setWidth 4)).head ∧ t.faultCode = 9) := by
  by_cases hready : s.DecodeReady n
  case neg =>
    obtain ⟨kind, info, hcoefs, -⟩ := exec_decode_of_not_ready hready d
    rw [execSeq_cons_of_halted hcoefs rfl] at ht
    cases ht
    exact ⟨rfl, .inl rfl⟩
  cases hrun : s.runDecode n with
  | err e c =>
    rw [execSeq_cons_of_halted (exec_decodeCoefs_of_err hready hrun) rfl] at ht
    cases ht
    exact ⟨rfl, .inl rfl⟩
  | ok v c =>
    obtain ⟨b, p⟩ := v
    rw [execSeq_cons_of_running (exec_decodeCoefs_of_ok hready hrun) hf, laterStages,
      execSeq_cons_of_halted (exec_dequant_of_not_loaded (s := s.decoded n b p c) hq) rfl] at ht
    cases ht
    exact ⟨rfl, .inr ⟨rfl, rfl⟩⟩

theorem infoTable_quant (t : BitVec 2) : infoTable 2 t = BitVec.ofNat 32 (2 * 16 + t.toNat) := by revert t; decide

/-- Settles O47: both sides run the same checks and the same decode; after it DEQUANT alone can stop, because the IDCT's
clamp leaves samples that LEVEL_SHIFT turns into bytes, so EMIT refuses nothing. -/
theorem decodeBlockIsSequence : Obligations.DecodeBlockIsSequence := by
  refine ⟨fun s t n d => ?_, fun s n d => ?_, fun s n d hn => withSlot_of_gt hn _ s _⟩
  · intro q one coefs deq hf him ht
    refine ⟨fun hq => ((decodeBlock_fuses hf him hq d).of_next ht).1,
      fun hq => ((decodeBlock_fuses hf him hq d).of_next ht).2, fun hq => ?_⟩
    exact execSeq_of_not_loaded hf (Bool.not_eq_true _ ▸ hq) ht
  · intro sl hslot hdc hac hq
    rw [FailsCheck, exec_decodeBlock_of_not_loaded ⟨hslot, hdc, hac⟩ (by simpa using hq), infoTable_quant]
    rfl

end Sys2Proof.Machine
end

/-! ## The two colour paths against each other (46_color.md R314) -/

section
namespace Sys2Proof.Machine

/-! ### Clamping to a channel -/

theorem channel_toNat (v : Int) : ((channel v).toNat : Int) = clamp v 0 255 := by
  obtain ⟨hlo, hhi⟩ := clamp_mem_Icc v (show (0 : Int) ≤ 255 by decide)
  rw [channel, BitVec.toNat_ofInt, Int.toNat_of_nonneg (Int.emod_nonneg _ (by decide))]
  exact Int.emod_eq_of_lt hlo (Int.lt_add_one_of_le hhi)

theorem clamp_sub_clamp_le_one {v w lo hi : Int} (hle : lo ≤ hi) (h : v - w ≤ 1) :
    clamp v lo hi - clamp w lo hi ≤ 1 := by
  rw [clamp, clamp]
  split_ifs <;> omega

/-- Clamping moves two values no further apart. -/
theorem channel_close {v w : Int} (h : |v - w| ≤ 1) :
    ((channel v).toNat : Int) - (channel w).toNat ≤ 1 ∧ ((channel w).toNat : Int) - (channel v).toNat ≤ 1 := by
  obtain ⟨hvw, hwv⟩ := abs_sub_le_iff.1 h
  rw [channel_toNat, channel_toNat]
  exact ⟨clamp_sub_clamp_le_one (by decide) hvw, clamp_sub_clamp_le_one (by decide) hwv⟩

/-! ### The values before the clamp, for chroma differences in -128..127 -/

/-- The chroma differences: a chroma byte less 128. -/
def IsChroma (c : Int) : Prop := -128 ≤ c ∧ c ≤ 127

theorem isChroma_sub (c : Byte) : IsChroma ((c.toNat : Int) - 128) := by
  have hc := c.isLt
  rw [IsChroma]
  omega

/-- `1402 * c / 1000` is never an exact half: the nearest such `c` are -250 and 250. -/
theorem red_no_tie {c : Int} (hc : IsChroma c) : (701 * c + 250) % 500 ≠ 0 := by
  obtain ⟨hlo, hhi⟩ := hc
  omega

/-- Off a tie `1402 * c / 1000` is at least 1/500 away from one, and the two constants differ by less over a chroma byte. -/
theorem red_eq (y : Int) {c : Int} (hc : IsChroma c) :
    roundHalfUp (1000 * y + 1402 * c) 1000 = y + (91881 * c + 32768) / 65536 := by
  have hfloat : roundHalfUp (1000 * y + 1402 * c) 1000 = y + (701 * c + 250) / 500 := by
    rw [roundHalfUp]
    omega
  have hfloor : (701 * c + 250) / 500 = (91881 * c + 32768) / 65536 := by
    have htie := red_no_tie hc
    obtain ⟨hlo, hhi⟩ := hc
    omega
  rw [hfloat, hfloor]

/-- The exact values differ by less than 1, so their floors by at most 1. -/
theorem green_close (y : Int) {b c : Int} (hb : IsChroma b) (hc : IsChroma c) :
    |roundHalfUp (100000 * y - 34414 * b - 71414 * c) 100000 - (y + (-22554 * b - 46802 * c + 32768) / 65536)| ≤ 1 := by
  obtain ⟨hblo, hbhi⟩ := hb
  obtain ⟨hclo, hchi⟩ := hc
  rw [roundHalfUp, abs_sub_le_iff]
  omega

theorem blue_close (y : Int) {b : Int} (hb : IsChroma b) :
    |roundHalfUp (1000 * y + 1772 * b) 1000 - (y + (116130 * b + 32768) / 65536)| ≤ 1 := by
  obtain ⟨hlo, hhi⟩ := hb
  rw [roundHalfUp, abs_sub_le_iff]
  omega

/-! ### The paths -/

/-- Settles O49: before the clamp R agrees, because it has no tie to round, and G and B are within 1; the clamp keeps that.
The vectors of R314 show a difference both ways. -/
theorem colorPathsAgree : Obligations.ColorPathsAgree := by
  refine ⟨fun y cb cr => ?_, by decide⟩
  have hcb := isChroma_sub cb
  have hcr := isChroma_sub cr
  exact ⟨congrArg channel (red_eq _ hcr), channel_close (green_close _ hcb hcr), channel_close (blue_close _ hcb)⟩

end Sys2Proof.Machine
end

/-! ## A fault leaves no result (60_exceptions.md R365) -/

section
namespace Sys2Proof.Machine

/-! ### A result that takes a fault has pushed nothing -/

/-- From `s` to `t` no fault was taken, or both output FIFOs stand as before. -/
def SilentOnFault (s t : State) : Prop := t.faulted = s.faulted ∨ t.resq = s.resq ∧ t.outq = s.outq

/-- Whatever the result, a next state that took a fault has both output FIFOs of `s`. -/
def FaultsSilently (s : State) (r : Result) : Prop := ∀ t, r = .next t → SilentOnFault s t

theorem faultsSilently_next {s t : State} (h : SilentOnFault s t) : FaultsSilently s (.next t) := by
  rintro _ ⟨⟩
  exact h

/-- A result that takes no fault may push. -/
theorem faultsSilently_of_running {s t : State} (h : t.faulted = s.faulted) : FaultsSilently s (.next t) :=
  faultsSilently_next (.inl h)

/-- A result that pushes nothing may take a fault. -/
theorem faultsSilently_of_outputs {s t : State} (hres : t.resq = s.resq) (hout : t.outq = s.outq) :
    FaultsSilently s (.next t) := faultsSilently_next (.inr ⟨hres, hout⟩)

theorem faultsSilently_fault {s : State} {f : Fault} : FaultsSilently s (.fault f) := by
  rintro _ ⟨⟩

theorem raiseCheck_faultsSilently {i : Instr} {kind : FaultKind} {info : Word} {s : State} :
    FaultsSilently s (raiseCheck i kind info s) := faultsSilently_of_outputs rfl rfl

theorem withHuffId_faultsSilently {i : Instr} {tc th : BitVec 4} {s : State} {k : HuffClass → BitVec 2 → Result}
    (h : ∀ c n, FaultsSilently s (k c n)) : FaultsSilently s (withHuffId i tc th s k) := by
  intro t ht
  obtain ⟨c, n, -, -, hk⟩ | ⟨info, rfl⟩ := withHuffId_cases ht
  · exact h c n t hk
  · exact .inr ⟨rfl, rfl⟩

theorem withSlot_faultsSilently {i : Instr} {slot : BitVec 4} {s : State} {k : BitVec 2 → Result}
    (h : ∀ n, FaultsSilently s (k n)) : FaultsSilently s (withSlot i slot s k) := by
  intro t ht
  obtain ⟨n, -, -, hk⟩ | ⟨info, rfl⟩ := withSlot_cases ht
  · exact h n t hk
  · exact .inr ⟨rfl, rfl⟩

theorem withTable_faultsSilently {i : Instr} {c : HuffClass} {n : BitVec 2} {s : State} {k : HuffTable → Result}
    (h : ∀ tab, FaultsSilently s (k tab)) : FaultsSilently s (withTable i c n s k) := by
  intro t ht
  obtain ⟨-, hk⟩ | ⟨info, rfl⟩ := withTable_cases ht
  · exact h _ t hk
  · exact .inr ⟨rfl, rfl⟩

theorem withQuant_faultsSilently {i : Instr} {n : BitVec 2} {s : State} {k : QuantTable → Result}
    (h : ∀ q, FaultsSilently s (k q)) : FaultsSilently s (withQuant i n s k) := by
  intro t ht
  obtain ⟨-, hk⟩ | ⟨info, rfl⟩ := withQuant_cases ht
  · exact h _ t hk
  · exact .inr ⟨rfl, rfl⟩

/-- A bit-reader command pushes after its primitive, so a raise comes before anything is pushed. -/
theorem runReader_faultsSilently {α : Type} {i : Instr} {s : State} {m : Reader α} {k : α → State → State}
    (h : ∀ v t, (k v t).faulted = t.faulted) : FaultsSilently s (runReader i s m k) := by
  intro t ht
  obtain ⟨v, c, -, rfl⟩ | ⟨e, c, -, rfl⟩ := runReader_cases ht
  · exact .inl (h v (s.withReadCtx c))
  · exact .inr ⟨rfl, rfl⟩

/-! ### The commands that can fault -/

theorem execSetConfig_faultsSilently (hm : BitVec 1) (im : BitVec 2) (cm : BitVec 1) (s : State) :
    FaultsSilently s (execSetConfig hm im cm s) := by
  unfold execSetConfig
  split
  · exact raiseCheck_faultsSilently
  · dsimp only
    split <;> exact faultsSilently_of_running rfl

theorem execBrSeek_faultsSilently (p : BitVec 24) (s : State) : FaultsSilently s (execBrSeek p s) := by
  simp only [execBrSeek]
  split <;> exact faultsSilently_of_outputs rfl rfl

theorem execBrPeek_faultsSilently (n : BitVec 5) (s : State) : FaultsSilently s (execBrPeek n s) := by
  unfold execBrPeek
  split
  · exact raiseCheck_faultsSilently
  · exact runReader_faultsSilently fun v t => t.pushResult_faulted (BitVec.ofNat 32 v)

theorem execBrConsume_faultsSilently (n : BitVec 5) (s : State) : FaultsSilently s (execBrConsume n s) := by
  unfold execBrConsume
  split
  · exact raiseCheck_faultsSilently
  · exact runReader_faultsSilently fun _ _ => rfl

theorem execHtInit_faultsSilently (tc th : BitVec 4) (d0 d1 d2 d3 : Word) (s : State) :
    FaultsSilently s (execHtInit tc th d0 d1 d2 d3 s) := by
  refine withHuffId_faultsSilently fun c n => ?_
  split
  · exact raiseCheck_faultsSilently
  · exact faultsSilently_of_running (State.setTable_faulted ..)

theorem execHtInsert_faultsSilently (tc th : BitVec 4) (l : BitVec 5) (v : Byte) (s : State) :
    FaultsSilently s (execHtInsert tc th l v s) := by
  refine withHuffId_faultsSilently fun c n => withTable_faultsSilently fun tab => ?_
  split
  · exact raiseCheck_faultsSilently
  · exact faultsSilently_of_running (State.setTable_faulted ..)

theorem execHtDecode_faultsSilently (tc th : BitVec 4) (s : State) : FaultsSilently s (execHtDecode tc th s) :=
  withHuffId_faultsSilently fun _ _ => withTable_faultsSilently fun _ =>
    runReader_faultsSilently fun v t => t.pushResult_faulted (v.setWidth 32)

theorem execQtLoad_faultsSilently (pq tq : BitVec 4) (ds : List Word) (s : State) :
    FaultsSilently s (execQtLoad pq tq ds s) := by
  simp only [execQtLoad]
  split
  · exact faultsSilently_fault
  · repeat' split
    all_goals exact faultsSilently_of_outputs rfl rfl

theorem execScanSetup_faultsSilently (slot td ta tq : BitVec 4) (ci : Byte) (s : State) :
    FaultsSilently s (execScanSetup slot td ta tq ci s) := by
  simp only [execScanSetup]
  repeat' split
  all_goals exact faultsSilently_of_outputs rfl rfl

theorem execDecodeCoefs_faultsSilently (slot : BitVec 4) (s : State) : FaultsSilently s (execDecodeCoefs slot s) := by
  refine withSlot_faultsSilently fun n => withTable_faultsSilently fun _ => withTable_faultsSilently fun _ => ?_
  split <;> exact faultsSilently_of_outputs rfl rfl

theorem execExtend_faultsSilently (t : BitVec 5) (v : BitVec 16) (s : State) :
    FaultsSilently s (execExtend t v s) := by
  unfold execExtend
  split
  · exact raiseCheck_faultsSilently
  · split
    · exact raiseCheck_faultsSilently
    · exact faultsSilently_of_running (State.pushResult_faulted ..)

theorem execDequant_faultsSilently (tq : BitVec 4) (s : State) : FaultsSilently s (execDequant tq s) := by
  simp only [execDequant]
  split
  · exact raiseCheck_faultsSilently
  · refine withQuant_faultsSilently fun q => ?_
    split <;> exact faultsSilently_of_outputs rfl rfl

theorem execIdct_faultsSilently (s : State) : FaultsSilently s (execIdct s) := by
  unfold execIdct
  split
  · exact faultsSilently_of_running rfl
  · exact faultsSilently_fault

theorem execLevelShift_faultsSilently (s : State) : FaultsSilently s (execLevelShift s) := by
  unfold execLevelShift
  split <;> exact faultsSilently_of_outputs rfl rfl

theorem execEmit_faultsSilently (slot : BitVec 4) (d : Word) (s : State) : FaultsSilently s (execEmit slot d s) := by
  refine withSlot_faultsSilently fun n => ?_
  split
  · exact raiseCheck_faultsSilently
  · exact faultsSilently_of_running (State.pushOut_faulted ..)

/-- The record is pushed after the last stage that can stop. -/
theorem execDecodeBlock_faultsSilently (slot : BitVec 4) (d : Word) (s : State) :
    FaultsSilently s (execDecodeBlock slot d s) := by
  refine withSlot_faultsSilently fun n => withTable_faultsSilently fun _ => withTable_faultsSilently fun _ =>
    withQuant_faultsSilently fun q => ?_
  split
  · exact faultsSilently_of_outputs rfl rfl
  · split
    · exact faultsSilently_fault
    · exact faultsSilently_of_outputs rfl rfl
    · exact faultsSilently_of_running rfl

/-! ### Every command, and a turn of the core -/

theorem exec_faultsSilently (i : Instr) (s : State) : FaultsSilently s (exec i s) := by
  cases i with
  | setConfig hm im cm => exact execSetConfig_faultsSilently hm im cm s
  | brSeek p => exact execBrSeek_faultsSilently p s
  | brNextbit => exact runReader_faultsSilently fun v t => t.pushResult_faulted (BitVec.ofNat 32 v)
  | brPeek n => exact execBrPeek_faultsSilently n s
  | brConsume n => exact execBrConsume_faultsSilently n s
  | htInit tc th d0 d1 d2 d3 => exact execHtInit_faultsSilently tc th d0 d1 d2 d3 s
  | htInsert tc th l v => exact execHtInsert_faultsSilently tc th l v s
  | htDecode tc th => exact execHtDecode_faultsSilently tc th s
  | qtLoad pq tq ds => exact execQtLoad_faultsSilently pq tq ds s
  | scanSetup slot td ta tq ci => exact execScanSetup_faultsSilently slot td ta tq ci s
  | decodeCoefs slot => exact execDecodeCoefs_faultsSilently slot s
  | extend t v => exact execExtend_faultsSilently t v s
  | dequant tq => exact execDequant_faultsSilently tq s
  | idct => exact execIdct_faultsSilently s
  | levelShift => exact execLevelShift_faultsSilently s
  | emit slot d => exact execEmit_faultsSilently slot d s
  | decodeBlock slot d => exact execDecodeBlock_faultsSilently slot d s
  | nop | sync | setRstint | brAlign | predReset | reorder | color | blkWrite | blkRead =>
    exact faultsSilently_of_running rfl

theorem coreStep_faultsSilently (s : State) : FaultsSilently s (coreStep s) := by
  intro t ht
  obtain ⟨-, rfl⟩ | ⟨w, reason, rest, -, rfl⟩ | ⟨i, rest, -, hexec⟩ := coreStep_cases ht
  · exact .inl rfl
  · exact .inr ⟨rfl, rfl⟩
  · exact exec_faultsSilently i { s with cmdq := rest } t hexec

theorem fetch_of_faulted {s : State} (h : s.faulted = true) : s.fetch = .hold := if_pos h

/-- While FAULTED is set the core holds (60_exceptions.md R365). -/
theorem coreStep_of_faulted {s : State} (h : s.faulted = true) : coreStep s = .next s := by
  simp only [coreStep, fetch_of_faulted h]

/-- Settles O11: every command faults before it pushes anything, an illegal command word pushes nothing, and a halted
core holds. -/
theorem faultLeavesNoResult : Obligations.FaultLeavesNoResult := by
  refine ⟨fun s t hrun hstep hfault => ?_, fun s => coreStep_of_faulted⟩
  refine (coreStep_faultsSilently s t hstep).resolve_left fun hsame => ?_
  simp [hsame, hrun] at hfault

end Sys2Proof.Machine
end

/-! ## The state after power-on reset (70_reset_and_hazards.md R400, R402) -/

section
namespace Sys2Proof.Machine

/-! ### What each item holds -/

@[simp] theorem State.table_reset (c : HuffClass) (t : BitVec 2) : State.reset.table c t = HuffTable.reset := by
  cases c <;> exact Vector.getElem_replicate _

@[simp] theorem State.quant_reset (t : BitVec 2) : State.reset.quant t = QuantTable.reset := Vector.getElem_replicate _

@[simp] theorem State.slotAt_reset (t : BitVec 2) : State.reset.slotAt t = Slot.reset := Vector.getElem_replicate _

@[simp] theorem State.predAt_reset (t : BitVec 2) : State.reset.predAt t = 0 := Vector.getElem_replicate _

@[simp] theorem State.blkAt_reset (k : BitVec 6) : State.reset.blkAt k = 0 := Vector.getElem_replicate _

/-- No byte of SEG is listed, so each is the free power-on value. -/
@[simp] theorem Segment.byte_reset (a : Nat) : State.reset.seg.byte a = Config.segPowerOn a := rfl

/-- With no interrupt enabled, both output FIFOs empty and CMDQ not full, STATUS has no bit set. -/
theorem State.status_reset : State.reset.status = 0 := by decide

/-! ### The idle block -/

theorem fetch_of_empty {s : State} (h : s.cmdq = []) : s.fetch = .hold := by
  unfold State.fetch
  split
  · rfl
  · simp [h]

theorem State.settle_of_settled {s : State} (h : s.Settled) : s.settle = s := by
  obtain ⟨hbytes, hlens⟩ := h
  unfold State.settle
  split
  · rfl
  · rw [← hbytes, ← hlens]

/-- With no command queued, no access pending and no segment write in flight, a step changes nothing
(70_reset_and_hazards.md R402). -/
theorem step_of_idle {s : State} (hq : s.cmdq = []) (hbus : s.bus = []) (hs : s.Settled) : step s = .next s := by
  have hcore : coreStep s = .next s := by simp only [coreStep, fetch_of_empty hq]
  simp only [step, hbus, hcore, settleResult, State.settle_of_settled hs]

/-- Settles O15: the items one by one, ID through the register window, and the step because the block is idle. -/
theorem resetValues : Obligations.ResetValues := by
  have tables (c : HuffClass) (t : BitVec 2) : (State.reset.table c t).valid = false := by
    rw [State.table_reset, HuffTable.reset]
  have quants (t : BitVec 2) : (State.reset.quant t).valid = false ∧ (State.reset.quant t).prec = false := by
    simp [QuantTable.reset]
  have id := hostAccess_read 0x00 (by decide) State.reset
  have idle := step_of_idle (s := State.reset) rfl rfl ⟨rfl, rfl⟩
  exact ⟨⟨rfl, rfl, rfl, rfl, rfl, rfl⟩, tables, quants, State.slotAt_reset, State.predAt_reset, State.blkAt_reset,
    ⟨rfl, rfl, rfl⟩, ⟨rfl, rfl, rfl, rfl, rfl⟩, ⟨rfl, rfl, rfl⟩, ⟨rfl, rfl, rfl⟩, ⟨rfl, rfl, Segment.byte_reset⟩,
    ⟨State.status_reset, rfl, rfl⟩, id, idle⟩

end Sys2Proof.Machine
end

/-! ## Encoding and decoding agree (30_encoding.md R90-R95) -/

section
namespace Sys2Proof.Machine

/-! ### The command word of a command -/

/-- The head of a command, case by case: its OP, no reserved bit, and the data words its OP takes. -/
theorem encoding_statement (i : Instr) : Laws.Encoding.Statement i := by
  cases i with
  | nop => exact Laws.Encoding.nop
  | sync tag => exact Laws.Encoding.sync tag
  | setConfig hm im cm => exact Laws.Encoding.setConfig hm im cm
  | setRstint ri => exact Laws.Encoding.setRstint ri
  | brSeek p => exact Laws.Encoding.brSeek p
  | brNextbit => exact Laws.Encoding.brNextbit
  | brPeek n => exact Laws.Encoding.brPeek n
  | brConsume n => exact Laws.Encoding.brConsume n
  | brAlign => exact Laws.Encoding.brAlign
  | htInit tc th d0 d1 d2 d3 => exact Laws.Encoding.htInit tc th d0 d1 d2 d3
  | htInsert tc th l v => exact Laws.Encoding.htInsert tc th l v
  | htDecode tc th => exact Laws.Encoding.htDecode tc th
  | qtLoad pq tq ds => exact Laws.Encoding.qtLoad pq tq ds
  | predReset => exact Laws.Encoding.predReset
  | scanSetup slot td ta tq ci => exact Laws.Encoding.scanSetup slot td ta tq ci
  | decodeCoefs slot => exact Laws.Encoding.decodeCoefs slot
  | extend t v => exact Laws.Encoding.extend t v
  | dequant tq => exact Laws.Encoding.dequant tq
  | reorder => exact Laws.Encoding.reorder
  | idct => exact Laws.Encoding.idct
  | levelShift => exact Laws.Encoding.levelShift
  | emit slot d => exact Laws.Encoding.emit slot d
  | decodeBlock slot d => exact Laws.Encoding.decodeBlock slot d
  | color y cb cr => exact Laws.Encoding.color y cb cr
  | blkWrite k d => exact Laws.Encoding.blkWrite k d
  | blkRead k => exact Laws.Encoding.blkRead k

/-- A field is found by its bits. -/
theorem field_eq_of_getLsbD {w : Word} {lo len : Nat} {v : BitVec len}
    (h : ∀ k, k < len → w.getLsbD (lo + k) = v.getLsbD k) : field w lo len = v := by
  refine BitVec.eq_of_getLsbD_eq fun k hk => ?_
  rw [field, BitVec.getLsbD_extractLsb', h k hk]
  simp [hk]

/-- The decoder reads every operand field back from the bits where the encoder puts it (30_encoding.md R91). -/
theorem Op.build_head (i : Instr) : i.op.build i.head i.data = i := by
  cases i <;> simp only [Instr.op, Op.build, Instr.head, Instr.data] <;> congr 1 <;>
    refine field_eq_of_getLsbD fun k hk => ?_ <;> simp only [BitVec.getLsbD_append] <;> interval_cases k <;> simp

/-- Settles O1: the OP selects the format, no reserved bit is set, and the fields read back are those written. -/
theorem decodeOfEncode : Obligations.DecodeOfEncode := by
  intro i rest hw
  obtain ⟨hop, hres, hlen⟩ := encoding_statement i hw
  have hdec := decode_cons (rest := i.data ++ rest) hop (by simp [hlen])
  rw [if_pos hres, ← hlen, List.take_left, List.drop_left, Op.build_head] at hdec
  exact hdec

/-! ### The words a command was decoded from -/

@[simp] theorem Op.build_op (o : Op) (w : Word) (ds : List Word) : (o.build w ds).op = o := by cases o <;> rfl

/-- Commands of one OP that are equal were built from words with the same fields. -/
theorem Op.fields_eq_of_build_eq {o : Op} {w w' : Word} {ds ds' : List Word} (h : o.build w ds = o.build w' ds') :
    ∀ f ∈ fieldsOf o, field w f.2 (f.1 - f.2 + 1) = field w' f.2 (f.1 - f.2 + 1) := by
  cases o <;> simp_all [Op.build, fieldsOf]

/-- Every bit of w[23:0] is reserved or lies in a field of the format (30_encoding.md R91). -/
theorem Op.reserved_or_field (o : Op) :
    ∀ k < 24, o.reserved.getLsbD k = true ∨ ∃ f ∈ fieldsOf o, f.2 ≤ k ∧ k ≤ f.1 := by
  cases o <;> decide

theorem getLsbD_field (w : Word) (lo len k : Nat) :
    (field w lo len).getLsbD k = (decide (k < len) && w.getLsbD (lo + k)) := by
  rw [field, BitVec.getLsbD_extractLsb']

/-- A command word is determined by its OP and its fields, when no reserved bit is set. -/
theorem word_ext {o : Op} {w w' : Word} (hop : field w 24 8 = field w' 24 8) (hw : w &&& o.reserved = 0)
    (hw' : w' &&& o.reserved = 0)
    (hf : ∀ f ∈ fieldsOf o, field w f.2 (f.1 - f.2 + 1) = field w' f.2 (f.1 - f.2 + 1)) : w = w' := by
  have bit {lo len k : Nat} (h : field w lo len = field w' lo len) (hlo : lo ≤ k) (hk : k < lo + len) :
      w.getLsbD k = w'.getLsbD k := by
    have hbit := congrArg (fun x => x.getLsbD (k - lo)) h
    have hlt : k - lo < len := by omega
    simpa only [getLsbD_field, hlt, Nat.add_sub_cancel' hlo, decide_true, Bool.true_and] using hbit
  have clear {x : Word} (hx : x &&& o.reserved = 0) {k : Nat} (hk : o.reserved.getLsbD k = true) :
      x.getLsbD k = false := by
    have hbit := congrArg (fun y => y.getLsbD k) hx
    simpa [hk] using hbit
  refine BitVec.eq_of_getLsbD_eq fun k hk => ?_
  by_cases htop : 24 ≤ k
  · exact bit hop htop (by omega)
  · rcases Op.reserved_or_field o k (by omega) with hres | ⟨f, hmem, hlo, hhi⟩
    · rw [clear hw hres, clear hw' hres]
    · exact bit (hf f hmem) hlo (by omega)

/-- Settles O2: the command decoded encodes to a word with the same OP, no reserved bit and the same fields, and to the
same data words. -/
theorem encodeOfDecode : Obligations.EncodeOfDecode := by
  intro ws i rest h
  obtain ⟨w, tl, o, rfl, ho, hlen, hres, rfl, rfl⟩ := decode_ok h
  have htake : (tl.take o.dataWords).length = o.dataWords := List.length_take_of_le hlen
  have hwf := Op.build_wellFormed (w := w) htake
  obtain ⟨hop, hres', -⟩ := encoding_statement _ hwf
  rw [Op.build_op] at hop hres'
  have hback := Op.build_head (o.build w (tl.take o.dataWords))
  rw [Op.build_op] at hback
  have hhead := word_ext (hop.trans ho.symm) hres' hres (Op.fields_eq_of_build_eq hback)
  exact ⟨hwf, by rw [encode, Op.build_data htake, hhead, List.cons_append, List.take_append_drop]⟩

/-- Settles O3: the decoder run on each word list. -/
theorem specWordsDecode : Obligations.SpecWordsDecode := by
  unfold Obligations.SpecWordsDecode
  and_intros <;> rfl

/-! ### Which command a turn of the core takes -/

theorem Op.code_mem_definedOps (o : Op) : o.code ∈ definedOps := by cases o <;> decide

/-- Settles O5: an OP outside the list selects no command, so the fetch finds an illegal word with its OP alone. -/
theorem undefinedOpFaults : Obligations.UndefinedOpFaults := by
  intro s w rest hf hq hop
  have hnone : Op.ofCode (field w 24 8) = none :=
    Option.eq_none_iff_forall_ne_some.2 fun o ho => hop (Op.ofCode_some ho ▸ Op.code_mem_definedOps o)
  exact coreStep_of_illegal (fetch_of_undefined hf hq hnone)

/-- A ready command whose words stand at the head of CMDQ is the one that the fetch takes. -/
theorem fetch_of_encode {s : State} {i : Instr} {rest : List Word} (h : s.Ready) (hq : s.cmdq = encode i ++ rest)
    (hw : i.wellFormed = true) : s.fetch = .run i rest := by
  obtain ⟨hop, hres, hlen⟩ := encoding_statement i hw
  have hfetch := fetch_of_ready (rest := i.data ++ rest) h hq hop
  rw [if_pos hres, ← hlen, List.take_left, List.drop_left, Op.build_head] at hfetch
  exact hfetch

/-- Settles O7: the fetch takes the command, and the step is the turn of the core that runs it. -/
theorem stepRunsDecoded : Obligations.StepRunsDecoded := by
  intro s i rest moves hready hq hw hbus
  have hrun : coreStep { s with bus := moves } = exec i { s with cmdq := rest, bus := moves } :=
    coreStep_of_run (fetch_of_encode (s := { s with bus := moves }) hready hq hw)
  rcases hbus with hbus | ⟨hbus, rfl⟩
  · simp only [step, hbus, hrun]
  · have hsame : ({ s with bus := [] } : State) = s := by rw [← hbus]
    rw [hsame] at hrun
    simp only [step, hbus, hrun]

/-- A fetch that finds something found a ready command. -/
theorem ready_of_fetch_ne_hold {s : State} (h : s.fetch ≠ .hold) : s.Ready := by
  unfold State.fetch at h
  split at h
  · exact absurd rfl h
  next hf =>
    split at h
    · exact absurd rfl h
    next w rest hq =>
      refine ⟨by simpa using hf, w, rest, hq, ?_⟩
      split at h
      next hop =>
        have hne (o : Op) : field w 24 8 ≠ o.code := fun ho => by simp [ho, Op.ofCode_code] at hop
        rw [dataCount_of_undefined hop]
        refine ⟨Nat.zero_le _, fun hmem => ?_, fun hmem => ?_⟩
        · exact absurd hmem (by
            simpa [resultOps] using ⟨hne .sync, hne .brNextbit, hne .brPeek, hne .htDecode, hne .extend, hne .color,
              hne .blkRead⟩)
        · exact absurd hmem (by simpa [recordOps] using ⟨hne .emit, hne .decodeBlock⟩)
      next o hop =>
        have ho := Op.ofCode_some hop
        split at h
        next hroom =>
          rw [State.roomFor, Bool.and_eq_true, Bool.or_eq_true, Bool.or_eq_true, resRoom_iff, outRoom_iff] at hroom
          rw [ho, dataCount_code, Op.code_mem_resultOps, Op.code_mem_recordOps]
          refine ⟨Nat.not_lt.1 fun hlt => ?_, fun hp => by simpa [hp] using hroom.1, fun hp => by
            simpa [hp] using hroom.2⟩
          simp [decode, hop, hlt] at h
        · exact absurd rfl h

/-- Settles O8: a turn that changes anything has fetched a ready command. -/
theorem notReadyHolds : Obligations.NotReadyHolds := by
  intro s h
  have hhold : s.fetch = .hold := by
    by_contra hne
    exact h (ready_of_fetch_ne_hold hne)
  simp only [coreStep, hhold]

end Sys2Proof.Machine
end

/-! ## What a command can do to the state, said once -/

section
namespace Sys2Proof.Machine

/-! ### The shapes of a command's next state -/

/-- The kinds of a check fault, other than EMIT's RangeFault (60_exceptions.md R364). -/
def checkKinds : List FaultKind := [.precisionRange, .argument, .tableNotLoaded, .illegalCommand, .huffmanInsert]

/-- The commands that read bits. -/
def bitOps : List Op := [.brNextbit, .brPeek, .brConsume, .htDecode, .decodeCoefs, .decodeBlock]

/-- A block decode of slot `n`. -/
def DecodesSlot (i : Instr) (n : BitVec 2) : Prop :=
  i = .decodeCoefs (n.setWidth 4) ∨ ∃ d, i = .decodeBlock (n.setWidth 4) d

/-- BLK after a fault: as before, but for the commands that write it. -/
def BlkLost (s : State) (i : Instr) (b : Blk) : Prop :=
  b = s.blk ∨ i.op ∈ [Op.decodeCoefs, .decodeBlock, .dequant, .levelShift]

/-- The bit reader after a fault: as before, or any values of its types, for the commands that read bits
(60_exceptions.md R364). -/
def ReaderLost (s : State) (i : Instr) (br : BitReader) : Prop :=
  br = s.br ∨ i.op ∈ bitOps ∧ br.Ok ∧ br.pos.toNat ≤ max s.br.pos.toNat s.seg.maxLen

/-- The predictors after a fault: as before, but for the slot of a block decode. -/
def PredLost (s : State) (i : Instr) (pred : Vector Word 4) : Prop :=
  pred = s.pred ∨ ∃ n p, DecodesSlot i n ∧ pred = s.pred.set n.toNat p n.isLt

/-- The tables after SET_CONFIG: each as before, or without VALID. -/
def Invalidates (before after : Vector HuffTable 4) : Prop :=
  ∀ t : Fin 4, after[t] = before[t] ∨ after[t].valid = false

/-- Tables that were well formed still are. -/
def KeepsOk (before after : Vector HuffTable 4) : Prop := ∀ t : Fin 4, (before[t]).Ok → (after[t]).Ok

/-- How a command that answers a next state changes the state: a check fault, an execution fault, or one of the ways to
complete, each with the items it writes. -/
inductive Effect (s : State) : Instr → State → Prop
  | check {i : Instr} (kind : FaultKind) (info : Word) (d : Nat) (h : kind ∈ checkKinds ∨ i.op = .emit) :
      Effect s i ({ s with draws := d }.halt i.head kind.code info s.br.pos)
  | fault {i : Instr} {br : BitReader} {blk : Blk} {pred : Vector Word 4} (d : Nat) (kind : FaultKind) (info : Word)
      (pos : BitVec 25) (hkind : kind ∈ decodeKinds) (hop : i.op ≠ .emit) (hbr : ReaderLost s i br)
      (hblk : BlkLost s i blk) (hpred : PredLost s i pred) :
      Effect s i ({ s with br := br, blk := blk, pred := pred, draws := d }.halt i.head kind.code info pos)
  | nop : Effect s .nop s
  | rstint (ri : BitVec 16) : Effect s (.setRstint ri) { s with rstint := ri }
  | config {hm cm : BitVec 1} {im : BitVec 2} {dc ac : Vector HuffTable 4} (him : im ≠ 3) (hdc : Invalidates s.htDc dc)
      (hac : Invalidates s.htAc ac) :
      Effect s (.setConfig hm im cm) { s with htDc := dc, htAc := ac, config := cm ++ im ++ hm }
  | push {i : Instr} (w : Word) (h : Op.pushesResult i.op = true) : Effect s i { s with resq := s.resq ++ [w] }
  | seek {p : BitVec 24} (d : Nat) (h : p.toNat ≤ s.seg.maxLen) :
      Effect s (.brSeek p) { s with br := { BitReader.reset with pos := p.setWidth 25 }, draws := d }
  | read {i : Instr} {c : ReadCtx} (hop : i.op ∈ [Op.brConsume, .brAlign]) (h : ReadKept s.seg.maxLen s.readCtx c) :
      Effect s i { s with br := c.br, draws := c.draws }
  | readPush {i : Instr} {c : ReadCtx} (w : Word) (hop : i.op ∈ [Op.brNextbit, .brPeek, .htDecode])
      (h : ReadKept s.seg.maxLen s.readCtx c) :
      Effect s i { s with br := c.br, draws := c.draws, resq := s.resq ++ [w] }
  | table {i : Instr} {dc ac : Vector HuffTable 4} (d : Nat) (hop : i.op ∈ [Op.htInit, .htInsert])
      (hdc : KeepsOk s.htDc dc) (hac : KeepsOk s.htAc ac) : Effect s i { s with draws := d, htDc := dc, htAc := ac }
  | quant {pq tq : BitVec 4} {ds : List Word} {n : BitVec 2} {q : QuantTable} (h : q.Ok) :
      Effect s (.qtLoad pq tq ds) { s with qt := s.qt.set n.toNat q n.isLt }
  | slot {slot td ta tq : BitVec 4} {ci : Byte} {n : BitVec 2} (x : Slot) :
      Effect s (.scanSetup slot td ta tq ci) { s with slot := s.slot.set n.toNat x n.isLt }
  | pred : Effect s .predReset { s with pred := Vector.replicate 4 0 }
  | blk {i : Instr} (b : Blk) (hop : i.op ∈ [Op.dequant, .reorder, .idct, .levelShift, .blkWrite]) :
      Effect s i { s with blk := b }
  | emit {slot : BitVec 4} {d : Word} (r : List Word) (h : r.length = 18) :
      Effect s (.emit slot d) { s with outq := s.outq ++ r }
  | decodeCoefs {n : BitVec 2} {c : ReadCtx} (b : Blk) (p : Word) (h : ReadKept s.seg.maxLen s.readCtx c) :
      Effect s (.decodeCoefs (n.setWidth 4))
        { s with br := c.br, draws := c.draws, blk := b, pred := s.pred.set n.toNat p n.isLt }
  | decodeBlock {n : BitVec 2} {d : Word} {c : ReadCtx} (b : Blk) (p : Word) (r : List Word)
      (h : ReadKept s.seg.maxLen s.readCtx c) (hr : r.length = 18) :
      Effect s (.decodeBlock (n.setWidth 4) d)
        { s with br := c.br, draws := c.draws, blk := b, pred := s.pred.set n.toNat p n.isLt, outq := s.outq ++ r }

/-! ### Faults -/

theorem Effect.of_enterFault {s : State} {i : Instr} {kind : FaultKind} {info : Word} (h : kind ∈ checkKinds) :
    Effect s i (s.enterFault i.head kind info s.br.pos) :=
  .check kind info s.draws (.inl h)

theorem Effect.of_raiseCheck {s t : State} {i : Instr} {kind : FaultKind} {info : Word}
    (h : raiseCheck i kind info s = .next t) (hk : kind ∈ checkKinds) : Effect s i t := by
  rw [raiseCheck_next] at h
  exact h ▸ .of_enterFault hk

/-- The bit reader left by an execution fault. -/
theorem readerLost_anyReader {s : State} {i : Instr} (h : i.op ∈ bitOps) (d : Nat) :
    ReaderLost s i (anyReader s.posBound d) :=
  .inr ⟨h, anyReader_ok _ _, s.posBound_eq ▸ anyReader_pos _ _⟩

theorem Effect.of_havocReader {s : State} {i : Instr} {e : Raise} (hop : i.op ∈ bitOps) (hk : e.kind ∈ decodeKinds)
    (d : Nat) : Effect s i ({ s with draws := d }.havocReader.enterFault i.head e.kind e.info e.pos) :=
  .fault _ e.kind e.info e.pos hk (fun h => by simp [h, bitOps] at hop) (readerLost_anyReader hop d) (.inl rfl) (.inl rfl)

theorem Effect.of_havocBlk {s : State} {i : Instr} (hop : i.op ∈ [Op.dequant, .levelShift]) (info : Word) :
    Effect s i (s.havocBlk.enterFault i.head .range info s.br.pos) :=
  .fault (br := s.br) (pred := s.pred) _ .range info s.br.pos (by decide) (fun h => by simp [h] at hop) (.inl rfl)
    (.inr (List.mem_cons_of_mem _ (List.mem_cons_of_mem _ hop))) (.inl rfl)

theorem DecodesSlot.op_mem {i : Instr} {n : BitVec 2} (h : DecodesSlot i n) :
    i.op ∈ [Op.decodeCoefs, .decodeBlock] := by
  rcases h with rfl | ⟨_, rfl⟩ <;> simp [Instr.op]

theorem Effect.of_havocDecode {s : State} {i : Instr} {n : BitVec 2} {kind : FaultKind} (h : DecodesSlot i n)
    (hk : kind ∈ decodeKinds) (d : Nat) (info : Word) (pos : BitVec 25) :
    Effect s i ((({ s with draws := d } : State).havocDecode n).enterFault i.head kind info pos) := by
  have hop : i.op = .decodeCoefs ∨ i.op = .decodeBlock := by simpa using h.op_mem
  exact .fault _ kind info pos hk (by rcases hop with h | h <;> simp [h])
    (readerLost_anyReader (by rcases hop with h | h <;> simp [h, bitOps]) d)
    (.inr (by rcases hop with h | h <;> simp [h])) (.inr ⟨n, _, h, rfl⟩)

/-- A new table in place of one it keeps the form of. -/
theorem KeepsOk.set {v : Vector HuffTable 4} {n : BitVec 2} {tab : HuffTable} (h : (v[n.toNat]'n.isLt).Ok → tab.Ok) :
    KeepsOk v (v.set n.toNat tab n.isLt) := by
  intro t ht
  by_cases hn : n.toNat = t.val
  · have hat : (v.set n.toNat tab n.isLt)[t] = tab := by simp [← hn]
    have hold : v[n.toNat]'n.isLt = v[t] := by simp [hn]
    rw [hat]
    exact h (hold ▸ ht)
  · have hat : (v.set n.toNat tab n.isLt)[t] = v[t] := Vector.getElem_set_ne _ _ hn
    rw [hat]
    exact ht

theorem Effect.of_setTable {s : State} {i : Instr} {c : HuffClass} {n : BitVec 2} {tab : HuffTable} (d : Nat)
    (hop : i.op ∈ [Op.htInit, .htInsert]) (h : (s.table c n).Ok → tab.Ok) :
    Effect s i ({ s with draws := d }.setTable c n tab) := by
  cases c with
  | dc => exact .table d hop (.set h) fun _ => id
  | ac => exact .table d hop (fun _ => id) (.set h)

/-! ### The commands with checks -/

theorem Effect.of_runReader {α : Type} {s t : State} {i : Instr} {m : Reader α} {k : α → State → State}
    (h : runReader i s m k = .next t) (hop : i.op ∈ bitOps) (hkept : Reader.Keeps (ReadKept s.seg.maxLen) m)
    (hraise : Reader.RaisesIn decodeKinds m)
    (hdone : ∀ v c, ReadKept s.seg.maxLen s.readCtx c → Effect s i (k v (s.withReadCtx c))) : Effect s i t := by
  rcases runReader_cases h with ⟨v, c, hrun, rfl⟩ | ⟨e, c, hrun, rfl⟩
  · exact hdone v c ((hkept _).1 _ _ hrun)
  · exact .of_havocReader hop (hraise _ _ _ hrun) _

theorem execSetConfig_effect {hm : BitVec 1} {im : BitVec 2} {cm : BitVec 1} {s t : State}
    (h : execSetConfig hm im cm s = .next t) : Effect s (.setConfig hm im cm) t := by
  unfold execSetConfig at h
  split at h
  · exact .of_raiseCheck h (by decide)
  next him =>
    obtain rfl := Host.Outcome.next.inj h
    by_cases hhm : hm ≠ s.config.extractLsb' 0 1
    · simp only [if_pos hhm]
      exact .config him (fun t => .inr (by simp)) (fun t => .inr (by simp))
    · simp only [if_neg hhm]
      exact .config him (fun t => .inl rfl) (fun t => .inl rfl)

theorem execBrSeek_effect {p : BitVec 24} {s t : State} (h : execBrSeek p s = .next t) : Effect s (.brSeek p) t := by
  unfold execBrSeek at h
  simp only at h
  split at h
  · rw [raiseCheck_next] at h
    exact h ▸ .check .argument _ _ (.inl (by decide))
  next hp =>
    obtain rfl := Host.Outcome.next.inj h
    exact .seek _ (le_trans (Nat.not_lt.1 hp) (choose_len_le _ _))

theorem execBrNextbit_effect {s t : State} (h : execBrNextbit s = .next t) : Effect s .brNextbit t :=
  .of_runReader h (by decide) (take_kept _ 1 (by decide)) ((take_raises _ _).mono (by decide)) fun _ _ hc =>
    .readPush _ (by decide) hc

theorem execBrPeek_effect {n : BitVec 5} {s t : State} (h : execBrPeek n s = .next t) : Effect s (.brPeek n) t := by
  unfold execBrPeek at h
  split at h
  · exact .of_raiseCheck h (by decide)
  next hn =>
    exact .of_runReader h (by simp [Instr.op, bitOps]) (peek_kept _ _ (Nat.not_lt.1 hn)) ((peek_raises _ _).mono (by decide))
      fun _ _ hc => .readPush _ (by simp [Instr.op]) hc

theorem execBrConsume_effect {n : BitVec 5} {s t : State} (h : execBrConsume n s = .next t) :
    Effect s (.brConsume n) t := by
  unfold execBrConsume at h
  split at h
  · exact .of_raiseCheck h (by decide)
  next hn =>
    exact .of_runReader h (by simp [Instr.op, bitOps]) (consume_kept _ _ (Nat.not_lt.1 hn)) ((consume_raises _ _).mono (by decide))
      fun _ _ hc => .read (by simp [Instr.op]) hc

theorem execBrAlign_effect {s t : State} (h : execBrAlign s = .next t) : Effect s .brAlign t := by
  obtain rfl := Host.Outcome.next.inj h
  exact .read (c := ⟨keepNewest s.br (s.br.bitcnt - s.br.bitcnt % 8), s.draws⟩) (by decide)
    ⟨⟨le_refl _, le_max_left _ _, fun h => ⟨h, rfl, rfl⟩⟩, keepNewest_ok _ _ (Nat.sub_le _ _)⟩

theorem execHtInit_effect {tc th : BitVec 4} {d0 d1 d2 d3 : Word} {s t : State}
    (h : execHtInit tc th d0 d1 d2 d3 s = .next t) : Effect s (.htInit tc th d0 d1 d2 d3) t := by
  rcases withHuffId_cases h with ⟨c, n, -, -, h⟩ | ⟨info, rfl⟩
  · split at h
    · exact .of_raiseCheck h (by decide)
    next hsum =>
      obtain rfl := Host.Outcome.next.inj h
      exact .of_setTable _ (by simp [Instr.op]) fun _ => HuffTable.build_ok _ _ _ (Nat.not_lt.1 hsum)
  · exact .of_enterFault (by decide)

/-- A value that HT_INSERT accepts leaves the table well formed: NINS was below NVAL and the code fits its length. -/
theorem HuffTable.Ok.insert {t : HuffTable} (h : t.Ok) {l : Nat} (hr : t.insertReason l = none) (v : Byte) :
    (t.insert v).Ok := by
  intro hv
  obtain ⟨hsum, hle, hnins, hsize, hcode, hrows, hfit⟩ := h hv
  unfold HuffTable.insertReason at hr
  split at hr <;> [cases hr; skip]
  split at hr <;> [cases hr; skip]
  next hfull =>
    split at hr <;> [cases hr; skip]
    next hlen =>
      split at hr <;> [cases hr; skip]
      next hcap =>
        refine ⟨hsum, hle, Nat.succ_le_of_lt (lt_of_le_of_ne hnins hfull), hsize, hcode, hrows, fun k hk => ?_⟩
        rcases Nat.lt_succ_iff_lt_or_eq.1 hk with hlt | rfl
        · exact hfit k hlt
        · rw [not_not] at hlen
          exact hlen ▸ Nat.not_le.1 hcap

theorem execHtInsert_effect {tc th : BitVec 4} {l : BitVec 5} {v : Byte} {s t : State}
    (h : execHtInsert tc th l v s = .next t) : Effect s (.htInsert tc th l v) t := by
  rcases withHuffId_cases h with ⟨c, n, -, -, h⟩ | ⟨info, rfl⟩
  · rcases withTable_cases h with ⟨-, h⟩ | ⟨info, rfl⟩
    · split at h
      · exact .of_raiseCheck h (by decide)
      next hr =>
        obtain rfl := Host.Outcome.next.inj h
        exact .of_setTable s.draws (by simp [Instr.op]) fun hok => hok.insert hr v
    · exact .of_enterFault (by decide)
  · exact .of_enterFault (by decide)

theorem execHtDecode_effect {tc th : BitVec 4} {s t : State} (h : execHtDecode tc th s = .next t) :
    Effect s (.htDecode tc th) t := by
  rcases withHuffId_cases h with ⟨c, n, -, -, h⟩ | ⟨info, rfl⟩
  · rcases withTable_cases h with ⟨-, h⟩ | ⟨info, rfl⟩
    · exact .of_runReader h (by simp [Instr.op, bitOps]) (huffDecode_kept _ _ _ _ _)
        ((huffDecode_raises _ _ _ _ _).mono (by decide)) fun _ _ hc => .readPush _ (by simp [Instr.op]) hc
    · exact .of_enterFault (by decide)
  · exact .of_enterFault (by decide)

theorem execQtLoad_effect {pq tq : BitVec 4} {ds : List Word} {s t : State} (h : execQtLoad pq tq ds s = .next t) :
    Effect s (.qtLoad pq tq ds) t := by
  unfold execQtLoad at h
  dsimp only at h
  split at h
  · cases h
  split at h
  · exact .of_raiseCheck h (by decide)
  split at h
  · exact .of_raiseCheck h (by decide)
  next hpq _ n _ =>
    by_cases hzero : pq = 0
    · rw [if_pos hzero] at h
      split at h
      · exact .of_raiseCheck h (by decide)
      next hbad =>
        obtain rfl := Host.Outcome.next.inj h
        rw [firstWide, firstBad_eq_none] at hbad
        exact .quant (n := n) fun _ _ k => by simpa using hbad k
    · rw [if_neg hzero] at h
      obtain rfl := Host.Outcome.next.inj h
      have hone : ∀ x : BitVec 4, ¬1 < x.toNat → x ≠ 0 → x = 1 := by decide
      exact .quant (n := n) fun _ hprec => by simp [hone pq hpq hzero] at hprec

theorem execScanSetup_effect {slot td ta tq : BitVec 4} {ci : Byte} {s t : State}
    (h : execScanSetup slot td ta tq ci s = .next t) : Effect s (.scanSetup slot td ta tq ci) t := by
  unfold execScanSetup at h
  split at h
  · exact .of_raiseCheck h (by decide)
  split at h
  · exact .of_raiseCheck h (by decide)
  split at h
  · exact .of_raiseCheck h (by decide)
  split at h
  · exact .of_raiseCheck h (by decide)
  · obtain rfl := Host.Outcome.next.inj h
    exact .slot _

theorem execDecodeCoefs_effect {slot : BitVec 4} {s t : State} (h : execDecodeCoefs slot s = .next t) :
    Effect s (.decodeCoefs slot) t := by
  rcases withSlot_cases h with ⟨n, rfl, -, h⟩ | ⟨info, rfl⟩ <;> [skip; exact .of_enterFault (by decide)]
  rcases withTable_cases h with ⟨-, h⟩ | ⟨info, rfl⟩ <;> [skip; exact .of_enterFault (by decide)]
  rcases withTable_cases h with ⟨-, h⟩ | ⟨info, rfl⟩ <;> [skip; exact .of_enterFault (by decide)]
  split at h
  next hrun =>
    obtain rfl := Host.Outcome.next.inj h
    exact .decodeCoefs _ _ ((decodeBody_kept _ _ _).1 _ _ hrun)
  next hrun =>
    obtain rfl := Host.Outcome.next.inj h
    exact .of_havocDecode (.inl rfl) (decodeBody_raises _ _ _ _ _ hrun) _ _ _

theorem execExtend_effect {n : BitVec 5} {v : BitVec 16} {s t : State} (h : execExtend n v s = .next t) :
    Effect s (.extend n v) t := by
  unfold execExtend at h
  split at h
  · exact .of_raiseCheck h (by decide)
  split at h
  · exact .of_raiseCheck h (by decide)
  · obtain rfl := Host.Outcome.next.inj h
    exact .push _ rfl

theorem execDequant_effect {tq : BitVec 4} {s t : State} (h : execDequant tq s = .next t) :
    Effect s (.dequant tq) t := by
  unfold execDequant at h
  split at h
  · exact .of_raiseCheck h (by decide)
  · rcases withQuant_cases h with ⟨-, h⟩ | ⟨info, rfl⟩
    · split at h
      · obtain rfl := Host.Outcome.next.inj h
        exact .blk _ (by simp [Instr.op])
      · obtain rfl := Host.Outcome.next.inj h
        exact .of_havocBlk (by simp [Instr.op]) _
    · exact .of_enterFault (by decide)

theorem execIdct_effect {s t : State} (h : execIdct s = .next t) : Effect s .idct t := by
  unfold execIdct at h
  split at h
  · obtain rfl := Host.Outcome.next.inj h
    exact .blk _ (by decide)
  · cases h

theorem execLevelShift_effect {s t : State} (h : execLevelShift s = .next t) : Effect s .levelShift t := by
  unfold execLevelShift at h
  split at h
  · obtain rfl := Host.Outcome.next.inj h
    exact .blk _ (by decide)
  · obtain rfl := Host.Outcome.next.inj h
    exact .of_havocBlk (by decide) _

@[simp] theorem record_length (ci : Byte) (slot : BitVec 4) (d : Word) (b : Blk) : (record ci slot d b).length = 18 := by
  simp [record]

theorem execEmit_effect {slot : BitVec 4} {d : Word} {s t : State} (h : execEmit slot d s = .next t) :
    Effect s (.emit slot d) t := by
  rcases withSlot_cases h with ⟨n, rfl, -, h⟩ | ⟨info, rfl⟩
  · split at h
    · rw [raiseCheck_next] at h
      exact h ▸ .check .range _ s.draws (.inr rfl)
    · obtain rfl := Host.Outcome.next.inj h
      exact .emit _ (record_length ..)
  · exact .of_enterFault (by decide)

theorem execDecodeBlock_effect {slot : BitVec 4} {d : Word} {s t : State} (h : execDecodeBlock slot d s = .next t) :
    Effect s (.decodeBlock slot d) t := by
  rcases withSlot_cases h with ⟨n, rfl, -, h⟩ | ⟨info, rfl⟩ <;> [skip; exact .of_enterFault (by decide)]
  rcases withTable_cases h with ⟨-, h⟩ | ⟨info, rfl⟩ <;> [skip; exact .of_enterFault (by decide)]
  rcases withTable_cases h with ⟨-, h⟩ | ⟨info, rfl⟩ <;> [skip; exact .of_enterFault (by decide)]
  rcases withQuant_cases h with ⟨-, h⟩ | ⟨info, rfl⟩ <;> [skip; exact .of_enterFault (by decide)]
  split at h
  next hrun =>
    obtain rfl := Host.Outcome.next.inj h
    exact .of_havocDecode (.inr ⟨d, rfl⟩) (decodeBody_raises _ _ _ _ _ hrun) _ _ _
  next hrun =>
    split at h
    · cases h
    · obtain rfl := Host.Outcome.next.inj h
      exact .of_havocDecode (.inr ⟨d, rfl⟩) (by decide) _ _ _
    · obtain rfl := Host.Outcome.next.inj h
      exact .decodeBlock _ _ _ ((decodeBody_kept _ _ _).1 _ _ hrun) (record_length ..)

/-! ### Every command -/

/-- Every command that answers a next state has one of the effects listed. -/
theorem exec_effect {i : Instr} {s t : State} (h : exec i s = .next t) : Effect s i t := by
  cases i with
  | setConfig hm im cm => exact execSetConfig_effect h
  | brSeek p => exact execBrSeek_effect h
  | brNextbit => exact execBrNextbit_effect h
  | brPeek n => exact execBrPeek_effect h
  | brConsume n => exact execBrConsume_effect h
  | brAlign => exact execBrAlign_effect h
  | htInit tc th d0 d1 d2 d3 => exact execHtInit_effect h
  | htInsert tc th l v => exact execHtInsert_effect h
  | htDecode tc th => exact execHtDecode_effect h
  | qtLoad pq tq ds => exact execQtLoad_effect h
  | scanSetup slot td ta tq ci => exact execScanSetup_effect h
  | decodeCoefs slot => exact execDecodeCoefs_effect h
  | extend t v => exact execExtend_effect h
  | dequant tq => exact execDequant_effect h
  | idct => exact execIdct_effect h
  | levelShift => exact execLevelShift_effect h
  | emit slot d => exact execEmit_effect h
  | decodeBlock slot d => exact execDecodeBlock_effect h
  | nop => exact Host.Outcome.next.inj h ▸ .nop
  | setRstint ri => exact Host.Outcome.next.inj h ▸ .rstint ri
  | predReset => exact Host.Outcome.next.inj h ▸ .pred
  | reorder | blkWrite => exact Host.Outcome.next.inj h ▸ .blk _ (by simp [Instr.op])
  | sync | color | blkRead => exact Host.Outcome.next.inj h ▸ .push _ rfl

end Sys2Proof.Machine
end

/-! ## Frames, faults and POS of every command (10_state.md R22, 60_exceptions.md R361-R364) -/

section
namespace Sys2Proof.Machine

/-! ### What a command leaves unchanged -/

section
variable {s t : State} {i : Instr} (h : Effect s i t)
include h

theorem Effect.seg_eq : t.seg = s.seg := by cases h <;> rfl

/-- No command touches the host's side: the interrupt enables, the sticky bits, CMDQ and the pending moves. -/
theorem Effect.host_eq : t.irqEn = s.irqEn ∧ t.cmdOverrun = s.cmdOverrun ∧ t.resUnderflow = s.resUnderflow ∧
    t.outUnderflow = s.outUnderflow ∧ t.cmdq = s.cmdq ∧ t.bus = s.bus ∧ t.busData = s.busData := by
  cases h <;> exact ⟨rfl, rfl, rfl, rfl, rfl, rfl, rfl⟩

theorem Effect.rstint_eq (hop : i.op ≠ .setRstint) : t.rstint = s.rstint := by
  cases h with
  | rstint => exact absurd rfl hop
  | _ => rfl

theorem Effect.config_eq (hop : i.op ≠ .setConfig) : t.config = s.config := by
  cases h with
  | config => exact absurd rfl hop
  | _ => rfl

theorem Effect.slot_eq (hop : i.op ≠ .scanSetup) : t.slot = s.slot := by
  cases h with
  | slot => exact absurd rfl hop
  | _ => rfl

theorem Effect.qt_eq (hop : i.op ≠ .qtLoad) : t.qt = s.qt := by
  cases h with
  | quant => exact absurd rfl hop
  | _ => rfl

theorem Effect.tables_eq (hop : i.op ∉ [Op.setConfig, .htInit, .htInsert]) : t.htDc = s.htDc ∧ t.htAc = s.htAc := by
  cases h with
  | config => simp [Instr.op] at hop
  | table _ hmem => exact absurd (List.mem_cons_of_mem _ hmem) hop
  | _ => exact ⟨rfl, rfl⟩

theorem Effect.pred_eq (hop : i.op ∉ [Op.predReset, .decodeCoefs, .decodeBlock]) : t.pred = s.pred := by
  cases h with
  | pred | decodeCoefs | decodeBlock => simp [Instr.op] at hop
  | fault _ _ _ _ _ _ _ _ hpred =>
    exact hpred.resolve_right fun ⟨_, _, hdec, _⟩ => hop (List.mem_cons_of_mem _ hdec.op_mem)
  | _ => rfl

theorem Effect.blk_eq
    (hop : i.op ∉ [Op.decodeCoefs, .dequant, .reorder, .idct, .levelShift, .decodeBlock, .blkWrite]) :
    t.blk = s.blk := by
  cases h with
  | fault _ _ _ _ _ _ _ hblk => exact hblk.resolve_right fun hmem => hop (by revert hmem; simp; tauto)
  | blk _ hmem => exact absurd (by revert hmem; simp; tauto) hop
  | decodeCoefs | decodeBlock => simp [Instr.op] at hop
  | _ => rfl

theorem Effect.br_eq
    (hop : i.op ∉ [Op.brSeek, .brNextbit, .brPeek, .brConsume, .brAlign, .htDecode, .decodeCoefs, .decodeBlock]) :
    t.br = s.br := by
  cases h with
  | fault _ _ _ _ _ _ hbr => exact hbr.resolve_right fun hmem => hop (by have := hmem.1; revert this; simp [bitOps]; tauto)
  | read hmem | readPush _ hmem => exact absurd (by revert hmem; simp; tauto) hop
  | seek | decodeCoefs | decodeBlock => simp [Instr.op] at hop
  | _ => rfl

/-- RESQ gains at most one word, and only by a command that pushes one. -/
theorem Effect.resq_cases : t.resq = s.resq ∨ i.op.code ∈ resultOps ∧ ∃ w, t.resq = s.resq ++ [w] := by
  cases h with
  | push w hop => exact .inr ⟨(Op.code_mem_resultOps _).2 hop, w, rfl⟩
  | readPush w hop =>
    have hpush : ∀ o ∈ [Op.brNextbit, .brPeek, .htDecode], o.code ∈ resultOps := by decide
    exact .inr ⟨hpush _ hop, w, rfl⟩
  | _ => exact .inl rfl

/-- OUTQ gains at most one record, and only by a command that pushes one. -/
theorem Effect.outq_cases :
    t.outq = s.outq ∨ i.op.code ∈ recordOps ∧ ∃ r : List Word, r.length = 18 ∧ t.outq = s.outq ++ r := by
  cases h with
  | emit r hr => exact .inr ⟨by simp [Instr.op, Op.code, recordOps], r, hr, rfl⟩
  | decodeBlock _ _ r _ hr => exact .inr ⟨by simp [Instr.op, Op.code, recordOps], r, hr, rfl⟩
  | _ => exact .inl rfl

/-- The fault registers are written by a fault alone. -/
theorem Effect.faultRegs_eq (hf : t.faulted = false) : t.faulted = s.faulted ∧
    t.faultCode = s.faultCode ∧ t.faultCmd = s.faultCmd ∧ t.faultInfo = s.faultInfo ∧ t.faultPos = s.faultPos := by
  cases h with
  | check | fault => cases hf
  | _ => exact ⟨rfl, rfl, rfl, rfl, rfl⟩

end

/-- Settles O10: the frame of each item, from the effects a command can have. -/
theorem commandWriteSets : Obligations.CommandWriteSets := by
  intro i s t hexec
  have h := exec_effect hexec
  exact ⟨⟨h.seg_eq, fun a => by rw [h.seg_eq]⟩, h.host_eq, h.rstint_eq, h.config_eq, h.slot_eq, h.qt_eq, h.tables_eq,
    h.pred_eq, h.blk_eq, h.br_eq, h.resq_cases, h.outq_cases, fun _ hf => (h.faultRegs_eq hf).2⟩

/-! ### Fault entry -/

/-- What a command that faults has changed: the fault registers, and for an execution fault its write set. -/
theorem Effect.fault_cases {s t : State} {i : Instr} (h : Effect s i t) (hs : s.faulted = false)
    (ht : t.faulted = true) :
    (∃ kind info d, t = ({ s with draws := d } : State).halt i.head (FaultKind.code kind) info s.br.pos) ∨
      ∃ br blk pred d kind info pos, kind ∈ decodeKinds ∧ i.op ≠ .emit ∧ ReaderLost s i br ∧ BlkLost s i blk ∧
        PredLost s i pred ∧ t = ({ s with br := br, blk := blk, pred := pred, draws := d } : State).halt i.head
          (FaultKind.code kind) info pos := by
  cases h with
  | check kind info d => exact .inl ⟨kind, info, d, rfl⟩
  | fault d kind info pos hk hop hbr hblk hpred =>
    exact .inr ⟨_, _, _, d, kind, info, pos, hk, hop, hbr, hblk, hpred, rfl⟩
  | _ => exact absurd (hs.symm.trans ht) Bool.false_ne_true

/-- An execution fault's code is none of the check faults' (60_exceptions.md R364). -/
theorem decodeKinds_code_notMem {kind : FaultKind} (h : kind ∈ decodeKinds) : kind.code ∉ [(3 : Byte), 5, 8, 9, 13] := by
  revert h; cases kind <;> decide

/-- A block decode of one slot leaves the predictors of the others. -/
theorem PredLost.predAt_eq {s : State} {i : Instr} {pred : Vector Word 4} (h : PredLost s i pred) {slot : BitVec 4}
    {n m : BitVec 2} (hi : i = .decodeCoefs slot ∨ ∃ d, i = .decodeBlock slot d) (hn : idOf slot = some n) (hm : m ≠ n) :
    pred[m.toNat]'m.isLt = s.predAt m := by
  rcases h with rfl | ⟨n', p, hdec, rfl⟩
  · rfl
  · have hslot : slot = n'.setWidth 4 := by
      rcases hi with rfl | ⟨d, rfl⟩ <;> rcases hdec with hdec | ⟨d', hdec⟩ <;> cases hdec <;> rfl
    obtain rfl : n' = n := by simpa [hslot] using hn
    exact Vector.getElem_set_ne _ _ fun heq => hm (BitVec.eq_of_toNat_eq heq.symm)

/-- Settles O12: a check fault writes the fault registers alone, an execution fault its write set besides. -/
theorem faultEntryWriteSets : Obligations.FaultEntryWriteSets := by
  intro i s t hs hexec ht
  rcases (exec_effect hexec).fault_cases hs ht with
    ⟨kind, info, d, rfl⟩ | ⟨br, blk, pred, d, kind, info, pos, hk, hop, hbr, hblk, hpred, rfl⟩
  · exact ⟨rfl, kind.code_mem, fun _ => rfl, rfl, fun _ => rfl, fun _ => rfl, fun _ => rfl, fun _ _ _ _ _ _ => rfl⟩
  · exact ⟨rfl, kind.code_mem, fun hcheck => (hcheck.elim (decodeKinds_code_notMem hk) hop).elim, rfl,
      fun hread => hbr.resolve_right fun hmem => hread hmem.1, hblk.resolve_right,
      fun hdec => hpred.resolve_right fun ⟨_, _, hslot, _⟩ => hdec hslot.op_mem,
      fun _ _ hi hn _ hm => hpred.predAt_eq hi hn hm⟩

/-! ### POS and the marker -/

/-- Without a fault and but for BR_SEEK, POS and the marker move as the reads of the command move them. -/
theorem Effect.posKept {s t : State} {i : Instr} (h : Effect s i t) (hop : i.op ≠ .brSeek) (ht : t.faulted = false) :
    PosKept s.seg.maxLen s.readCtx t.readCtx := by
  cases h with
  | check | fault => cases ht
  | seek => exact absurd rfl hop
  | read _ hkept | readPush _ _ hkept | decodeCoefs _ _ hkept | decodeBlock _ _ _ hkept => exact hkept.1
  | _ => exact PosKept.refl _ _

/-- Settles O24: the reads of a command move POS forward, within SEG_LEN, and keep a marker hit. -/
theorem positionOnlyGrows : Obligations.PositionOnlyGrows := by
  intro i s t hop _ hexec ht
  obtain ⟨hle, hmax, hhit⟩ := (exec_effect hexec).posKept hop ht
  exact ⟨hle, fun hs => s.seg.maxLen_settled hs.2 ▸ hmax, hhit⟩

end Sys2Proof.Machine
end

/-! ## Readiness and progress (70_reset_and_hazards.md R412, R421) -/

section
namespace Sys2Proof.Machine

theorem Op.dataWords_le (o : Op) : o.dataWords ≤ 32 := by cases o <;> decide

/-- No command is longer than QT_LOAD (30_encoding.md R93). -/
theorem encode_length_le {i : Instr} (hw : i.wellFormed = true) : (encode i).length ≤ 33 := by
  obtain ⟨-, -, hlen⟩ := encoding_statement i hw
  have hmax := Op.dataWords_le i.op
  simp only [encode, List.length_cons, hlen]
  omega

theorem exec_outputs_le {i : Instr} {s t : State} (h : exec i s = .next t) :
    t.resq.length ≤ s.resq.length + 1 ∧ t.outq.length ≤ s.outq.length + 18 := by
  constructor
  · rcases (exec_effect h).resq_cases with hr | ⟨-, w, hr⟩ <;> simp [hr]
  · rcases (exec_effect h).outq_cases with hr | ⟨-, r, hlen, hr⟩
    · simp [hr]
    · simp [hr, hlen]

/-- With its words in CMDQ and both output FIFOs empty a command is ready. -/
theorem ready_of_drained {i : Instr} (hw : i.wellFormed = true) (s : State) (rest : List Word) :
    ({ s with faulted := false, cmdq := encode i ++ rest, resq := [], outq := [] } : State).Ready := by
  obtain ⟨hop, -, hlen⟩ := encoding_statement i hw
  refine ⟨rfl, i.head, i.data ++ rest, rfl, ?_, fun _ => resqDepth_min, fun _ => ?_⟩
  · simp [hop, dataCount_code, hlen]
  · simpa using outqDepth_min

/-- A ready command that is neither discarded nor given a turn stays ready, its words at the head of CMDQ. -/
theorem ready_persists {moves : Schedule} {run : Nat → State} (h : IsRun moves run) {n : Nat} (hr : (run n).Ready)
    (hwait : ∀ m, n ≤ m → ¬Discards (moves m) ∧
      (moves m = .core → (run m).Ready → ¬∃ more, (run m).cmdq = (run n).cmdq ++ more)) (j : Nat) :
    (run (n + j)).Ready ∧ ∃ more, (run (n + j)).cmdq = (run n).cmdq ++ more := by
  induction j with
  | zero => exact ⟨hr, [], by simp⟩
  | succ j ih =>
    obtain ⟨hready, more, hmore⟩ := ih
    obtain ⟨hd, hturn⟩ := hwait (n + j) (Nat.le_add_right n j)
    have hcore : moves (n + j) ≠ .core := fun hc => hturn hc hready ⟨more, hmore⟩
    obtain ⟨hready', more', hmore'⟩ := h.keeps_ready (n + j) hready hcore hd
    exact ⟨hready', more ++ more', by rw [← Nat.add_assoc, hmore', hmore, List.append_assoc]⟩

/-- Under weak fairness a ready command gets its turn, or is discarded (70_reset_and_hazards.md R421). -/
theorem progress_of_fair {moves : Schedule} {run : Nat → State} (h : IsRun moves run) (hfair : WeaklyFair moves run) :
    Progress moves run := by
  intro n hr
  by_contra hnever
  have hwait : ∀ m, n ≤ m → ¬Discards (moves m) ∧
      (moves m = .core → (run m).Ready → ¬∃ more, (run m).cmdq = (run n).cmdq ++ more) := fun m hm =>
    ⟨fun hd => hnever ⟨m, hm, .inl hd⟩, fun hc hready hmore => hnever ⟨m, hm, .inr ⟨hc, hready, hmore⟩⟩⟩
  have hstays := ready_persists h hr hwait
  have hready : ∀ m, n ≤ m → (run m).Ready := fun m hm => Nat.add_sub_cancel' hm ▸ (hstays (m - n)).1
  obtain ⟨m, hm, hcore⟩ := hfair n hready
  exact (hwait m hm).2 hcore (hready m hm) (Nat.add_sub_cancel' hm ▸ (hstays (m - n)).2)

/-- Settles O9: lengths and room by the tables of the encoding and the frame, progress by weak fairness. -/
theorem commandsCanBecomeReady : Obligations.CommandsCanBecomeReady :=
  ⟨fun _ hw => ⟨encode_length_le hw, cmdqDepth_min, fun _ _ => exec_outputs_le, ready_of_drained hw⟩,
    fun _ _ => progress_of_fair⟩

end Sys2Proof.Machine
end

/-! ## The output FIFOs keep order (20_memory.md R73, 45_level_shift_output.md R295) -/

section
namespace Sys2Proof.Machine

@[simp] theorem State.softReset_faulted (s : State) : s.softReset.faulted = false := rfl
@[simp] theorem State.softReset_resq (s : State) : s.softReset.resq = [] := rfl
@[simp] theorem State.softReset_outq (s : State) : s.softReset.outq = [] := rfl

theorem coreStep_outq {s t : State} (h : coreStep s = .next t) :
    t.outq = s.outq ∨ ∃ r : List Word, r.length = 18 ∧ t.outq = s.outq ++ r := by
  rcases coreStep_cases h with ⟨-, rfl⟩ | ⟨_, _, _, -, rfl⟩ | ⟨i, rest, -, hexec⟩
  · exact .inl rfl
  · exact .inl rfl
  · exact (exec_effect hexec).outq_cases.imp_right And.right

theorem coreStep_resq {s t : State} (h : coreStep s = .next t) :
    t.resq = s.resq ∨ ∃ w, t.resq = s.resq ++ [w] := by
  rcases coreStep_cases h with ⟨-, rfl⟩ | ⟨_, _, _, -, rfl⟩ | ⟨i, rest, -, hexec⟩
  · exact .inl rfl
  · exact .inl rfl
  · exact (exec_effect hexec).resq_cases.imp_right And.right

theorem Reg.ofOffset_result {off : Byte} (h : Reg.ofOffset off = .result) : off = 0x14 := by
  revert h; revert off; decide

theorem Reg.ofOffset_out {off : Byte} (h : Reg.ofOffset off = .out) : off = 0x18 := by
  revert h; revert off; decide

/-- A write of CTRL leaves both output FIFOs, or with bit 0 set empties them. -/
theorem ctrlWrite_outputs (w : Word) (s : State) :
    (ctrlWrite w s).resq = (if w.getLsbD 0 then [] else s.resq) ∧
      (ctrlWrite w s).outq = if w.getLsbD 0 then [] else s.outq := by
  unfold ctrlWrite
  constructor <;> split_ifs <;> simp

theorem ctrlWrite_faulted (w : Word) {s : State} (h : s.faulted = false) : (ctrlWrite w s).faulted = false := by
  unfold ctrlWrite
  split_ifs <;> simp [h]

/-- A write of a register other than CTRL leaves both output FIFOs and FAULTED. -/
theorem hostWrite_outputs {r : Reg} (hr : r ≠ .ctrl) (w : Word) (s : State) :
    (hostWrite r w s).resq = s.resq ∧ (hostWrite r w s).outq = s.outq ∧ (hostWrite r w s).faulted = s.faulted := by
  cases r with
  | ctrl => exact absurd rfl hr
  | cmd =>
    simp only [hostWrite, cmdWrite]
    split <;> exact ⟨rfl, rfl, rfl⟩
  | segData =>
    simp only [hostWrite, segDataWrite]
    split <;> exact ⟨rfl, rfl, rfl⟩
  | _ => exact ⟨rfl, rfl, rfl⟩

/-- What a host access does to the output FIFOs: each stays, or loses its head word to a read of its port, or is emptied by
a soft reset; and no access sets FAULTED. -/
theorem hostAccess_outputs {a : HostAccess} {s t : State} (h : hostAccess a s = .next t) :
    let reset := ∃ w, a = ⟨busAddress 0x04, 4, .write w⟩ ∧ w.getLsbD 0 = true
    (t.outq = s.outq ∨ (a = ⟨busAddress 0x18, 4, .read⟩ ∧ ∃ w, s.outq = w :: t.outq) ∨ (reset ∧ t.outq = [])) ∧
      (t.resq = s.resq ∨ (a = ⟨busAddress 0x14, 4, .read⟩ ∧ ∃ w, s.resq = w :: t.resq) ∨ (reset ∧ t.resq = [])) ∧
      (s.faulted = false → t.faulted = false) := by
  rcases hostAccess_cases h with ⟨-, rfl⟩ | ⟨off, rfl, -, rfl⟩ | ⟨off, w, rfl, -, rfl⟩
  · exact ⟨.inl rfl, .inl rfl, id⟩
  · obtain ⟨q, o, ru, ou, d, hread, hq, ho, -, -⟩ := hostRead_frame (Reg.ofOffset off) s
    rw [hread]
    refine ⟨ho.imp_right fun ⟨hr, hw⟩ => .inl ⟨?_, hw⟩, hq.imp_right fun ⟨hr, hw⟩ => .inl ⟨?_, hw⟩, id⟩
    · rw [Reg.ofOffset_out hr]
    · rw [Reg.ofOffset_result hr]
  · by_cases hr : Reg.ofOffset off = .ctrl
    · obtain rfl := Reg.ofOffset_ctrl hr
      obtain ⟨hres, hout⟩ := ctrlWrite_outputs w s
      rw [hr, hostWrite, hres, hout]
      refine ⟨?_, ?_, ctrlWrite_faulted w⟩ <;> cases hbit : w.getLsbD 0 <;> simp [hbit]
    · obtain ⟨hres, hout, hf⟩ := hostWrite_outputs hr w s
      exact ⟨.inl hout, .inl hres, fun hs => hf.trans hs⟩

/-- Settles O60: by whose move the step is. A turn of the core appends, and not when it faults; a host access reads a head
word or resets. -/
theorem fifosKeepOrder : Obligations.FifosKeepOrder := by
  intro s t h coreTurn hostReads softReset
  obtain ⟨u, rfl, hmove⟩ := step_cases h
  rw [u.settle_outq, u.settle_resq, u.settle_faulted]
  have ofCore (moves : List HostMove) (hturn : coreTurn) (hu : coreStep { s with bus := moves } = .next u) :
      (u.outq = s.outq ∨ (coreTurn ∧ ∃ r : List Word, r.length = 18 ∧ u.outq = s.outq ++ r) ∨
        (hostReads 0x18 ∧ ∃ w, s.outq = w :: u.outq) ∨ (softReset ∧ u.outq = [])) ∧
      (u.resq = s.resq ∨ (coreTurn ∧ ∃ w, u.resq = s.resq ++ [w]) ∨ (hostReads 0x14 ∧ ∃ w, s.resq = w :: u.resq) ∨
        (softReset ∧ u.resq = [])) ∧
      (s.faulted = false → u.faulted = true → u.outq = s.outq ∧ u.resq = s.resq) := by
    refine ⟨(coreStep_outq hu).imp_right fun hr => .inl ⟨hturn, hr⟩,
      (coreStep_resq hu).imp_right fun hr => .inl ⟨hturn, hr⟩, fun hs hf => ?_⟩
    obtain ⟨hres, hout⟩ := faultLeavesNoResult.1 { s with bus := moves } u hs hu hf
    exact ⟨hout, hres⟩
  rcases hmove with ⟨hbus, hu⟩ | ⟨moves, hbus, hu⟩ | ⟨a, moves, hbus, ha⟩
  · exact ofCore s.bus (.inl hbus) hu
  · exact ofCore moves (.inr ⟨moves, hbus⟩) hu
  · obtain ⟨hout, hres, hf⟩ := hostAccess_outputs ha
    have reads (off : Byte) (hread : a = ⟨busAddress off, 4, .read⟩) : hostReads off := ⟨moves, hread ▸ hbus⟩
    have resets (hreset : ∃ w, a = ⟨busAddress 0x04, 4, .write w⟩ ∧ w.getLsbD 0 = true) : softReset := by
      obtain ⟨w, hwrite, hbit⟩ := hreset
      exact ⟨w, moves, hwrite ▸ hbus, hbit⟩
    exact ⟨hout.imp_right fun ho => .inr (ho.imp (And.imp_left (reads 0x18)) (And.imp_left resets)),
      hres.imp_right fun ho => .inr (ho.imp (And.imp_left (reads 0x14)) (And.imp_left resets)),
      fun hs ht => absurd ((hf hs).symm.trans ht) Bool.false_ne_true⟩

end Sys2Proof.Machine
end

/-! ## The invariant of the machine (10_state.md R22-R25, R31, R34, R37, R38) -/

section
namespace Sys2Proof.Machine

/-- The invariant but for the segment writes in flight, which settle at the end of a step. -/
structure State.InvCore (s : State) : Prop where
  reader : s.br.Ok
  pos : s.br.pos.toNat ≤ Config.segSize
  dc : ∀ t : Fin 4, (s.htDc[t]).Ok
  ac : ∀ t : Fin 4, (s.htAc[t]).Ok
  quant : ∀ t : Fin 4, (s.qt[t]).Ok
  config : s.idctVariant ≠ 3
  fault : s.FaultOk
  queues : s.QueuesOk
  seg : s.seg.Ok

theorem State.Inv.core {s : State} (h : s.Inv) : s.InvCore :=
  ⟨h.reader, h.pos, h.dc, h.ac, h.quant, h.config, h.fault, h.queues, h.seg⟩

/-- Once its segment writes have settled the state keeps the whole invariant. -/
theorem State.InvCore.settle {s : State} (h : s.InvCore) : s.settle.Inv := by
  by_cases hb : s.busy = true
  · have hsame : s.settle = s := if_pos hb
    rw [hsame]
    exact ⟨h.reader, h.pos, h.dc, h.ac, h.quant, h.config, h.fault, h.queues, h.seg, fun hfree => by simp [hb] at hfree⟩
  · have hdone : s.settle = { s with seg := { s.seg with oldBytes := [], oldLens := [] } } := if_neg hb
    rw [hdone]
    obtain ⟨hwf, hcells, hlen, -, -⟩ := h.seg
    exact ⟨h.reader, h.pos, h.dc, h.ac, h.quant, h.config, h.fault, h.queues, ⟨hwf, hcells, hlen, by simp, by simp⟩,
      fun _ => ⟨rfl, rfl⟩⟩

/-! ### A command keeps it -/

theorem BitReader.reset_ok (p : BitVec 25) : BitReader.Ok { BitReader.reset with pos := p } :=
  ⟨Nat.zero_le _, Nat.one_pos, fun _ => rfl, nofun⟩

theorem State.InvCore.maxLen_le {s : State} (hs : s.InvCore) : s.seg.maxLen ≤ Config.segSize := by
  obtain ⟨-, -, hlen, -, hold⟩ := hs.seg
  exact (foldl_max_le _ _ _).2 ⟨hlen, by simpa using hold⟩

theorem Effect.reader_ok {s t : State} {i : Instr} (h : Effect s i t) (hs : s.InvCore) :
    t.br.Ok ∧ t.br.pos.toNat ≤ Config.segSize := by
  have bound {x : Nat} (hx : x ≤ max s.br.pos.toNat s.seg.maxLen) : x ≤ Config.segSize :=
    le_trans hx (max_le hs.pos hs.maxLen_le)
  cases h with
  | fault _ _ _ _ _ _ hbr =>
    rcases hbr with rfl | ⟨-, hok, hpos⟩
    · exact ⟨hs.reader, hs.pos⟩
    · exact ⟨hok, bound hpos⟩
  | @seek p _ hp =>
    have hwide : (p.setWidth 25).toNat = p.toNat := by simp; omega
    exact ⟨BitReader.reset_ok _, hwide ▸ bound (le_trans hp (le_max_right _ _))⟩
  | read _ hc | readPush _ _ hc | decodeCoefs _ _ hc | decodeBlock _ _ _ hc => exact ⟨hc.2 hs.reader, bound hc.1.2.1⟩
  | _ => exact ⟨hs.reader, hs.pos⟩

theorem Invalidates.keepsOk {before after : Vector HuffTable 4} (h : Invalidates before after) :
    KeepsOk before after := by
  intro t ht
  rcases h t with heq | hinv
  · exact heq ▸ ht
  · exact fun hv => absurd (hinv.symm.trans hv) Bool.false_ne_true

theorem Effect.tables_keepOk {s t : State} {i : Instr} (h : Effect s i t) :
    KeepsOk s.htDc t.htDc ∧ KeepsOk s.htAc t.htAc := by
  cases h with
  | config _ hdc hac => exact ⟨hdc.keepsOk, hac.keepsOk⟩
  | table _ _ hdc hac => exact ⟨hdc, hac⟩
  | _ => exact ⟨fun _ => id, fun _ => id⟩

theorem Effect.quant_ok {s t : State} {i : Instr} (h : Effect s i t) (hs : ∀ k : Fin 4, (s.qt[k]).Ok) (k : Fin 4) :
    (t.qt[k]).Ok := by
  cases h with
  | @quant _ _ _ n q hq =>
    by_cases hn : n.toNat = k.val
    · have hat : (s.qt.set n.toNat q n.isLt)[k] = q := by simp [← hn]
      simpa only [hat] using hq
    · have hat : (s.qt.set n.toNat q n.isLt)[k] = s.qt[k] := Vector.getElem_set_ne _ _ hn
      simpa only [hat] using hs k
  | _ => exact hs k

theorem Effect.idctVariant_ne {s t : State} {i : Instr} (h : Effect s i t) (hs : s.idctVariant ≠ 3) :
    t.idctVariant ≠ 3 := by
  cases h with
  | @config hm cm im _ _ him =>
    have hfield : ∀ (hm cm : BitVec 1) (im : BitVec 2), (cm ++ im ++ hm : BitVec 4).extractLsb' 1 2 = im := by decide
    exact fun h3 => him ((hfield hm cm im).symm.trans h3)
  | _ => exact hs

theorem Effect.faultOk {s t : State} {i : Instr} (h : Effect s i t) (hs : s.FaultOk) : t.FaultOk := by
  cases h with
  | check kind => exact ⟨nofun, fun _ => kind.code_mem⟩
  | fault _ kind => exact ⟨nofun, fun _ => kind.code_mem⟩
  | _ => exact hs

theorem Effect.queuesOk {s t : State} {i : Instr} (h : Effect s i t) (hroom : s.roomFor i.op = true)
    (hs : s.QueuesOk) : t.QueuesOk := by
  obtain ⟨hcmd, hres, hout⟩ := hs
  rw [State.roomFor, Bool.and_eq_true, Bool.or_eq_true, Bool.or_eq_true, resRoom_iff, outRoom_iff] at hroom
  obtain ⟨-, -, -, -, hq, -⟩ := h.host_eq
  refine ⟨hq ▸ hcmd, ?_, ?_⟩
  · rcases h.resq_cases with hr | ⟨hop, w, hr⟩
    · exact hr ▸ hres
    · have hpush := (Op.code_mem_resultOps _).1 hop
      have hlt := hroom.1.resolve_left (by simp [hpush])
      simp only [hr, List.length_append, List.length_singleton]
      omega
  · rcases h.outq_cases with hr | ⟨hop, r, hlen, hr⟩
    · exact hr ▸ hout
    · have hpush := (Op.code_mem_recordOps _).1 hop
      have hle := hroom.2.resolve_left (by simp [hpush])
      simp only [hr, List.length_append]
      omega

theorem Effect.invCore {s t : State} {i : Instr} (h : Effect s i t) (hroom : s.roomFor i.op = true) (hs : s.InvCore) :
    t.InvCore :=
  { reader := (h.reader_ok hs).1
    pos := (h.reader_ok hs).2
    dc := fun k => h.tables_keepOk.1 k (hs.dc k)
    ac := fun k => h.tables_keepOk.2 k (hs.ac k)
    quant := h.quant_ok hs.quant
    config := h.idctVariant_ne hs.config
    fault := h.faultOk hs.fault
    queues := h.queuesOk hroom hs.queues
    seg := h.seg_eq ▸ hs.seg }

/-! ### A turn of the core keeps it -/

/-- Words taken from CMDQ leave the invariant. -/
theorem State.InvCore.takeWords {s : State} (h : s.InvCore) {rest : List Word} (hr : rest.length ≤ s.cmdq.length) :
    ({ s with cmdq := rest } : State).InvCore :=
  { h with queues := ⟨le_trans hr h.queues.1, h.queues.2⟩ }

/-- The words behind the command that the fetch takes, for which there is room. -/
theorem fetch_run_room {s : State} {i : Instr} {rest : List Word} (h : s.fetch = .run i rest) :
    rest.length ≤ s.cmdq.length ∧ s.roomFor i.op = true := by
  obtain ⟨-, hdec, w, tl, o, hq, ho, hroom⟩ := fetch_run h
  obtain ⟨w', tl', o', hq', ho', -, -, rfl, rfl⟩ := decode_ok hdec
  obtain ⟨rfl, rfl⟩ := List.cons.inj (hq.symm.trans hq')
  rw [ho', Op.ofCode_code] at ho
  obtain rfl := Option.some.inj ho
  refine ⟨?_, by rw [Op.build_op]; exact hroom⟩
  simp only [hq, List.length_drop, List.length_cons]
  omega

theorem coreStep_invCore {s t : State} (h : coreStep s = .next t) (hs : s.InvCore) : t.InvCore := by
  rcases coreStep_cases h with ⟨-, rfl⟩ | ⟨w, reason, rest, hfetch, rfl⟩ | ⟨i, rest, hfetch, hexec⟩
  · exact hs
  · obtain ⟨-, tl, hq, n, rfl⟩ := fetch_illegal hfetch
    have hlen : (tl.drop n).length ≤ s.cmdq.length := by simp [hq]; omega
    exact { hs.takeWords hlen with fault := ⟨nofun, fun _ => FaultKind.code_mem .illegalCommand⟩ }
  · obtain ⟨hlen, hroom⟩ := fetch_run_room hfetch
    exact (exec_effect hexec).invCore hroom (hs.takeWords hlen)

/-! ### A host access keeps it -/

theorem hostRead_invCore (r : Reg) {s : State} (hs : s.InvCore) (w : Word) :
    ({ (hostRead r s).2 with busData := w } : State).InvCore := by
  obtain ⟨q, o, ru, ou, d, hread, hq, ho, -, -⟩ := hostRead_frame r s
  obtain ⟨hcmd, hres, hout⟩ := hs.queues
  rw [hread]
  refine { hs with queues := ⟨hcmd, ?_, ?_⟩ }
  · rcases hq with rfl | ⟨-, w, hw⟩
    · exact hres
    · rw [hw, List.length_cons] at hres; exact Nat.le_of_succ_le hres
  · rcases ho with rfl | ⟨-, w, hw⟩
    · exact hout
    · rw [hw, List.length_cons] at hout; exact Nat.le_of_succ_le hout

/-- After a soft reset the invariant holds: every item has its reset value, and SEG its bytes. -/
theorem softReset_invCore {s : State} (hs : s.InvCore) : s.softReset.InvCore :=
  { reader := BitReader.reset_ok 0
    pos := Nat.zero_le _
    dc := fun k hv => by simp [State.softReset, State.reset, HuffTable.reset] at hv
    ac := fun k hv => by simp [State.softReset, State.reset, HuffTable.reset] at hv
    quant := fun k hv => by simp [State.softReset, State.reset, QuantTable.reset] at hv
    config := show State.reset.idctVariant ≠ 3 by decide
    fault := ⟨fun _ => ⟨rfl, rfl, rfl, rfl⟩, nofun⟩
    queues := ⟨Nat.zero_le _, Nat.zero_le _, Nat.zero_le _⟩
    seg := ⟨hs.seg.1, hs.seg.2.1, Nat.zero_le _, nofun, nofun⟩ }

theorem clearFault_invCore {s : State} (hs : s.InvCore) : s.clearFault.InvCore :=
  { hs with fault := ⟨fun _ => ⟨rfl, rfl, rfl, rfl⟩, nofun⟩, queues := ⟨Nat.zero_le _, hs.queues.2⟩ }

theorem ctrlWrite_invCore (w : Word) {s : State} (hs : s.InvCore) : (ctrlWrite w s).InvCore := by
  have apply {u : State} (b : Bool) {f : State → State} (hf : ∀ u, State.InvCore u → (f u).InvCore) (hu : u.InvCore) :
      (if b then f u else u).InvCore := by
    cases b
    · exact hu
    · exact hf u hu
  exact apply (f := State.clearSticky) _ (fun _ hu => { hu with }) (apply (f := State.clearFault) _
    (fun _ hu => clearFault_invCore hu) (apply (f := State.softReset) _ (fun _ hu => softReset_invCore hu) hs))

theorem cmdWrite_invCore (w : Word) {s : State} (hs : s.InvCore) : (cmdWrite w s).InvCore := by
  rw [cmdWrite_eq]
  split
  next hroom => exact { hs with queues := ⟨by simpa using hroom, hs.queues.2⟩ }
  · exact { hs with }

theorem segDataWrite_invCore (w : Word) {s : State} (hs : s.InvCore) : (segDataWrite w s).InvCore := by
  obtain ⟨hwf, hcells, hlen, hbytes, hlens⟩ := hs.seg
  unfold segDataWrite
  dsimp only
  split
  next ha =>
    refine { hs with seg := ⟨Memory.wf_write _ _ _ hwf, fun x hx => ?_, hlen, ?_, hlens⟩ }
    · rcases Memory.mem_write _ _ _ _ hx with hat | hmem
      · exact hat ▸ ha
      · exact hcells x hmem
    · split
      · exact List.forall_mem_cons.2 ⟨ha, hbytes⟩
      · exact hbytes
  · exact { hs with seg := ⟨hwf, hcells, hlen, hbytes, hlens⟩ }

theorem segLenWrite_invCore (w : Word) {s : State} (hs : s.InvCore) : (segLenWrite w s).InvCore := by
  obtain ⟨hwf, hcells, hlen, hbytes, hlens⟩ := hs.seg
  refine { hs with seg := ⟨hwf, hcells, ?_, hbytes, ?_⟩ }
  · simp only [segLenWrite, BitVec.toNat_ofNat]
    exact le_trans (Nat.mod_le _ _) (min_le_right _ _)
  · simp only [segLenWrite]
    split
    · exact List.forall_mem_cons.2 ⟨hlen, hlens⟩
    · exact hlens

theorem hostWrite_invCore (r : Reg) (w : Word) {s : State} (hs : s.InvCore) : (hostWrite r w s).InvCore := by
  cases r with
  | ctrl => exact ctrlWrite_invCore w hs
  | cmd => exact cmdWrite_invCore w hs
  | segData => exact segDataWrite_invCore w hs
  | segLen => exact segLenWrite_invCore w hs
  | irqEn => exact { hs with }
  | segAddr => exact { hs with seg := hs.seg }
  | _ => exact hs

theorem hostAccess_invCore {a : HostAccess} {s t : State} (h : hostAccess a s = .next t) (hs : s.InvCore) :
    t.InvCore := by
  rcases hostAccess_cases h with ⟨-, rfl⟩ | ⟨off, rfl, -, rfl⟩ | ⟨off, w, rfl, -, rfl⟩
  · exact hs
  · exact hostRead_invCore _ hs _
  · exact hostWrite_invCore _ w hs

/-- Settles O13: a turn of the core and a host access keep all but the writes in flight, and these settle. -/
theorem invKept : Obligations.InvKept := by
  intro s t hs h
  obtain ⟨u, rfl, hmove⟩ := step_cases h
  have hbus (moves : List HostMove) : ({ s with bus := moves } : State).InvCore := { hs.core with }
  rcases hmove with ⟨-, hu⟩ | ⟨moves, -, hu⟩ | ⟨a, moves, -, hu⟩
  · exact (coreStep_invCore hu hs.core).settle
  · exact (coreStep_invCore hu (hbus moves)).settle
  · exact (hostAccess_invCore hu (hbus moves)).settle

/-- Settles O14: after reset no table is valid, every FIFO is empty and no write is in flight. -/
theorem invAtReset : Obligations.InvAtReset :=
  { reader := BitReader.reset_ok 0
    pos := Nat.zero_le _
    dc := fun k hv => by simp [State.reset, HuffTable.reset] at hv
    ac := fun k hv => by simp [State.reset, HuffTable.reset] at hv
    quant := fun k hv => by simp [State.reset, QuantTable.reset] at hv
    config := by decide
    fault := ⟨fun _ => ⟨rfl, rfl, rfl, rfl⟩, nofun⟩
    queues := ⟨Nat.zero_le _, Nat.zero_le _, Nat.zero_le _⟩
    seg := ⟨rfl, nofun, Nat.zero_le _, nofun, nofun⟩
    settled := fun _ => ⟨rfl, rfl⟩ }

end Sys2Proof.Machine
end

/-! ## No command sees SEG at or beyond SEG_LEN (40_bitreader.md R120) -/

section
namespace Sys2Proof.Machine

/-! ### Reads of two segments that agree below SEG_LEN -/

/-- Two segments with no write in flight that have one length and agree below it. -/
structure SameBelow (g g' : Segment) : Prop where
  still : g.Still
  still' : g'.Still
  len : g'.len = g.len
  byte : ∀ a, a < g.len.toNat → g'.byte a = g.byte a

section
variable {g g' : Segment} (h : SameBelow g g')
include h

/-- NextByte reads only bytes below SEG_LEN. -/
theorem SameBelow.nextByte : nextByte g' = nextByte g := by
  funext c
  rw [nextByte_still g h.still, nextByte_still g' h.still', h.len]
  split
  · rfl
  next hdata =>
    have hpos : c.br.pos.toNat < g.len.toNat := Nat.not_le.1 fun hle => hdata (.inr hle)
    rw [h.byte _ hpos]
    split
    · rfl
    split
    · rfl
    next hpair => rw [h.byte _ (Nat.not_le.1 hpair)]

theorem SameBelow.fillLoop (n fuel : Nat) : fillLoop g' n fuel = fillLoop g n fuel := by
  induction fuel with
  | zero => rfl
  | succ fuel ih => simp only [Machine.fillLoop, h.nextByte, ih]

theorem SameBelow.peek (n : Nat) : peek g' n = peek g n := by
  simp only [Machine.peek, fill, h.fillLoop]

theorem SameBelow.consume (n : Nat) : consume g' n = consume g n := by
  simp only [Machine.consume, fill, h.fillLoop]

theorem SameBelow.take (n : Nat) : take g' n = take g n := by
  simp only [Machine.take, h.peek, h.consume]

theorem SameBelow.nextBit : nextBit g' = nextBit g := h.take 1

theorem SameBelow.decodeLoop (c : HuffClass) (t : BitVec 2) (tab : HuffTable) (left i code : Nat) :
    decodeLoop g' c t tab left i code = decodeLoop g c t tab left i code := by
  induction left generalizing i code with
  | zero => rfl
  | succ left ih => simp only [Machine.decodeLoop, h.nextBit, ih]

theorem SameBelow.huffDecode (array : Bool) (c : HuffClass) (t : BitVec 2) (tab : HuffTable) :
    huffDecode g' array c t tab = huffDecode g array c t tab := by
  funext ctx
  simp only [Machine.huffDecode, huffDecodeArray, h.decodeLoop, treeFail, h.nextBit]

theorem SameBelow.acLoop (x : CoefTables) (hx : x.seg = g) (fuel k : Nat) (b : Blk) :
    acLoop { x with seg := g' } fuel k b = acLoop x fuel k b := by
  subst hx
  induction fuel generalizing k b with
  | zero => rfl
  | succ fuel ih => simp only [Machine.acLoop, h.huffDecode, receive, h.take, ih]

theorem SameBelow.decodeBody (x : CoefTables) (hx : x.seg = g) (pred : Word) :
    decodeBody { x with seg := g' } pred = decodeBody x pred := by
  have hloop := h.acLoop x hx
  subst hx
  simp only [Machine.decodeBody, h.huffDecode, receive, h.take, hloop]

end

/-! ### What a command answers on the other segment -/

/-- The state with another segment. -/
abbrev State.onSeg (g : Segment) (s : State) : State := { s with seg := g }

section
variable {s : State} {g : Segment}

theorem withHuffId_onSeg {i : Instr} {tc th : BitVec 4} {k k' : HuffClass → BitVec 2 → Result}
    (h : ∀ c t, k' c t = mapNext (State.onSeg g) (k c t)) :
    withHuffId i tc th (s.onSeg g) k' = mapNext (State.onSeg g) (withHuffId i tc th s k) := by
  unfold withHuffId
  split
  · rfl
  split
  · rfl
  · exact h _ _

theorem withSlot_onSeg {i : Instr} {slot : BitVec 4} {k k' : BitVec 2 → Result}
    (h : ∀ t, k' t = mapNext (State.onSeg g) (k t)) :
    withSlot i slot (s.onSeg g) k' = mapNext (State.onSeg g) (withSlot i slot s k) := by
  unfold withSlot
  split
  · rfl
  next t _ =>
    have hslot : (s.onSeg g).slotAt t = s.slotAt t := rfl
    rw [hslot]
    split
    · exact h _
    · rfl

theorem withTable_onSeg {i : Instr} {c : HuffClass} {t : BitVec 2} {k k' : HuffTable → Result}
    (h : ∀ tab, k' tab = mapNext (State.onSeg g) (k tab)) :
    withTable i c t (s.onSeg g) k' = mapNext (State.onSeg g) (withTable i c t s k) := by
  have htab : (s.onSeg g).table c t = s.table c t := rfl
  unfold withTable
  rw [htab]
  split
  · exact h _
  · rfl

theorem withQuant_onSeg {i : Instr} {t : BitVec 2} {k k' : QuantTable → Result}
    (h : ∀ q, k' q = mapNext (State.onSeg g) (k q)) :
    withQuant i t (s.onSeg g) k' = mapNext (State.onSeg g) (withQuant i t s k) := by
  have hq : (s.onSeg g).quant t = s.quant t := rfl
  unfold withQuant
  rw [hq]
  split
  · exact h _
  · rfl

theorem setTable_onSeg (c : HuffClass) (t : BitVec 2) (tab : HuffTable) :
    (s.onSeg g).setTable c t tab = (s.setTable c t tab).onSeg g := by
  cases c <;> rfl

end

section
variable {s : State} {g : Segment} (h : SameBelow s.seg g)
include h

/-- The draws after a fault are bounded by SEG_LEN, not by what stands in SEG. -/
theorem SameBelow.havocReader (d : Nat) :
    ({ s.onSeg g with draws := d } : State).havocReader = ({ s with draws := d } : State).havocReader.onSeg g := by
  have hbound : ({ s.onSeg g with draws := d } : State).posBound = ({ s with draws := d } : State).posBound := by
    simp only [State.posBound, h.len, h.still.2, h.still'.2]
  simp only [State.havocReader, hbound]

theorem SameBelow.runReader {α : Type} {i : Instr} {m m' : Reader α} {k k' : α → State → State} (hm : m' = m)
    (hk : ∀ v u, k' v (u.onSeg g) = (k v u).onSeg g) :
    runReader i (s.onSeg g) m' k' = mapNext (State.onSeg g) (runReader i s m k) := by
  subst hm
  have hctx : (s.onSeg g).readCtx = s.readCtx := rfl
  unfold Machine.runReader
  rw [hctx]
  split
  next v c _ => exact congrArg Host.Outcome.next (hk v (s.withReadCtx c))
  next c _ => exact congrArg (fun u : State => Host.Outcome.next (u.enterFault _ _ _ _)) (h.havocReader c.draws)

theorem SameBelow.havocDecode (d : Nat) (n : BitVec 2) :
    ({ s.onSeg g with draws := d } : State).havocDecode n = (({ s with draws := d } : State).havocDecode n).onSeg g := by
  rw [State.havocDecode, h.havocReader]
  rfl

theorem SameBelow.runDecode (n : BitVec 2) : (s.onSeg g).runDecode n = s.runDecode n := by
  have hbody := h.decodeBody (s.coefTables (s.slotAt n)) rfl (s.predAt n)
  exact congrFun hbody s.readCtx

theorem SameBelow.execDecodeCoefs (slot : BitVec 4) :
    execDecodeCoefs slot (s.onSeg g) = mapNext (State.onSeg g) (execDecodeCoefs slot s) := by
  refine withSlot_onSeg fun n => withTable_onSeg fun _ => withTable_onSeg fun _ => ?_
  have hrun := h.runDecode n
  unfold State.runDecode at hrun
  rw [hrun]
  split
  · rfl
  next c _ => exact congrArg (fun u : State => Host.Outcome.next (u.enterFault _ _ _ _)) (h.havocDecode c.draws n)

theorem SameBelow.execDecodeBlock (slot : BitVec 4) (d : Word) :
    execDecodeBlock slot d (s.onSeg g) = mapNext (State.onSeg g) (execDecodeBlock slot d s) := by
  refine withSlot_onSeg fun n => withTable_onSeg fun _ => withTable_onSeg fun _ => withQuant_onSeg fun q => ?_
  have hrun := h.runDecode n
  have him : (s.onSeg g).idctVariant = s.idctVariant := rfl
  unfold State.runDecode at hrun
  rw [hrun, him]
  split
  next c _ => exact congrArg (fun u : State => Host.Outcome.next (u.enterFault _ _ _ _)) (h.havocDecode c.draws n)
  next c _ =>
    split
    · rfl
    · exact congrArg (fun u : State => Host.Outcome.next (u.enterFault _ _ _ _)) (h.havocDecode c.draws n)
    · rfl

/-- Every command answers the same on the other segment, but for the segment itself. -/
theorem SameBelow.exec (i : Instr) : exec i (s.onSeg g) = mapNext (State.onSeg g) (exec i s) := by
  cases i with
  | setConfig hm im cm =>
    simp only [Machine.exec, execSetConfig]
    split
    · rfl
    · split <;> rfl
  | brSeek p =>
    simp only [Machine.exec, execBrSeek, h.len, h.still.2, h.still'.2, choose_nil]
    split <;> rfl
  | brNextbit =>
    simp only [Machine.exec, execBrNextbit]
    exact h.runReader h.nextBit fun _ _ => rfl
  | brPeek n =>
    simp only [Machine.exec, execBrPeek]
    split
    · rfl
    · exact h.runReader (h.peek _) fun _ _ => rfl
  | brConsume n =>
    simp only [Machine.exec, execBrConsume]
    split
    · rfl
    · exact h.runReader (h.consume _) fun _ _ => rfl
  | htInit tc th d0 d1 d2 d3 =>
    refine withHuffId_onSeg fun c t => ?_
    dsimp only
    split
    · rfl
    · exact congrArg Host.Outcome.next (setTable_onSeg (s := { s with draws := s.draws + 32 }) c t _)
  | htInsert tc th l v =>
    refine withHuffId_onSeg fun c t => withTable_onSeg fun tab => ?_
    split
    · rfl
    · exact congrArg Host.Outcome.next (setTable_onSeg c t _)
  | htDecode tc th =>
    exact withHuffId_onSeg fun c t => withTable_onSeg fun tab => h.runReader (h.huffDecode _ _ _ _) fun _ _ => rfl
  | qtLoad pq tq ds =>
    simp only [Machine.exec, execQtLoad]
    split
    · rfl
    split
    · rfl
    split
    · rfl
    split <;> rfl
  | scanSetup slot td ta tq ci =>
    simp only [Machine.exec, execScanSetup]
    split
    · rfl
    split
    · rfl
    split
    · rfl
    split <;> rfl
  | decodeCoefs slot => exact h.execDecodeCoefs slot
  | extend t v =>
    simp only [Machine.exec, execExtend]
    split
    · rfl
    split <;> rfl
  | dequant tq =>
    simp only [Machine.exec, execDequant]
    split
    · rfl
    · refine withQuant_onSeg fun q => ?_
      split <;> rfl
  | idct =>
    simp only [Machine.exec, execIdct, State.idctVariant]
    split <;> rfl
  | levelShift =>
    simp only [Machine.exec, execLevelShift]
    split <;> rfl
  | emit slot d =>
    refine withSlot_onSeg fun n => ?_
    dsimp only
    split <;> rfl
  | decodeBlock slot d => exact h.execDecodeBlock slot d
  | nop | sync | setRstint | brAlign | predReset | reorder | color | blkWrite | blkRead => rfl

end

/-- Settles O17: the reads of the two runs see the same bytes, so every command answers the same. -/
theorem segmentTailInvisible : Obligations.SegmentTailInvisible :=
  fun i _ _ hs hbytes hlens hlen hsame => SameBelow.exec ⟨hs, ⟨hbytes, hlens⟩, hlen, hsame⟩ i

end Sys2Proof.Machine
end

/-! ## The bit-reader commands on the stream (40_bitreader.md R131-R140) -/

section
namespace Sys2Proof.Machine

/-! ### Running a primitive as a command -/

theorem runReader_of_ok {α : Type} {s : State} {m : Reader α} {v : α} {br : BitReader}
    (h : m s.readCtx = .ok v { br := br, draws := s.draws }) (i : Instr) (k : α → State → State) :
    runReader i s m k = .next (k v { s with br := br }) := by
  simp only [runReader, h]
  rfl

/-- A raise inside a command whose write set is the bit reader (60_exceptions.md R364). -/
theorem stopsReading_of_raisesAt {α : Type} {s : State} {i : Instr} {m : Reader α} {k : α → State → State}
    (hexec : exec i s = runReader i s m k) {code : Byte} {info : Word} {pos : BitVec 25}
    (h : RaisesAt (m s.readCtx) code info pos) : StopsReading i s code info pos := by
  obtain ⟨kind, br, d, hrun, rfl⟩ := h
  refine ⟨anyReader ({ s with draws := d } : State).posBound d, d + 6, anyReader_ok _ _, ?_⟩
  rw [hexec]
  simp only [runReader, hrun]
  rfl

theorem exec_brNextbit (s : State) : exec .brNextbit s =
    runReader .brNextbit s (take s.seg 1) fun v t => t.pushResult (BitVec.ofNat 32 v) := rfl

theorem exec_brPeek_of_le {n : BitVec 5} (h : n.toNat ≤ 16) (s : State) : exec (.brPeek n) s =
    runReader (.brPeek n) s (peek s.seg n.toNat) fun v t => t.pushResult (BitVec.ofNat 32 v) :=
  if_neg (Nat.not_lt.2 h)

theorem exec_brConsume_of_le {n : BitVec 5} (h : n.toNat ≤ 16) (s : State) : exec (.brConsume n) s =
    runReader (.brConsume n) s (consume s.seg n.toNat) fun _ t => t :=
  if_neg (Nat.not_lt.2 h)

theorem brPeek_failsCheck {n : BitVec 5} (h : 16 < n.toNat) (s : State) : FailsCheck (.brPeek n) s 13 1 := if_pos h

theorem brConsume_failsCheck {n : BitVec 5} (h : 16 < n.toNat) (s : State) : FailsCheck (.brConsume n) s 13 1 := if_pos h

/-- Settles O21: what Peek, Consume and Take deliver of the stream ahead, and where they raise. -/
theorem bitCommandsReadStream : Obligations.BitCommandsReadStream := by
  intro s n l e hs hok ha
  refine ⟨fun hn hfit => ⟨?_, ?_⟩, fun hfit => ?_, fun q info he => ⟨fun hn hshort => ⟨?_, ?_⟩, fun hnil => ?_⟩,
    fun hn => ⟨brPeek_failsCheck hn s, brConsume_failsCheck hn s⟩⟩
  · obtain ⟨br, p, hrun, hahead, hp, -, -⟩ := (peek_ahead s.seg hs n.toNat hn s.readCtx hok l e ha).1 hfit
    exact ⟨br, p, by rw [exec_brPeek_of_le hn, runReader_of_ok hrun]; rfl, hahead, hp⟩
  · obtain ⟨br, p, hrun, hle, hahead, hp, -⟩ := (consume_ahead s.seg hs n.toNat hn s.readCtx hok l e ha).1 hfit
    exact ⟨br, p, by rw [exec_brConsume_of_le hn, runReader_of_ok hrun], hle, hahead, hp⟩
  · obtain ⟨br, p, hrun, hle, hahead, hp, -⟩ := (take_ahead s.seg hs 1 (by decide) s.readCtx hok l e ha).1 hfit
    exact ⟨br, p, by rw [exec_brNextbit, runReader_of_ok hrun]; rfl, hle, hahead, hp⟩
  · obtain ⟨c, hrun, -⟩ := (peek_ahead s.seg hs n.toNat hn s.readCtx hok l e ha).2 q info he hshort
    exact stopsReading_of_raisesAt (exec_brPeek_of_le hn s) ⟨_, c.br, c.draws, hrun, rfl⟩
  · obtain ⟨c, hrun, -⟩ := (consume_ahead s.seg hs n.toNat hn s.readCtx hok l e ha).2 q info he hshort
    exact stopsReading_of_raisesAt (exec_brConsume_of_le hn s) ⟨_, c.br, c.draws, hrun, rfl⟩
  · obtain ⟨c, hrun, -⟩ := (take_ahead s.seg hs 1 (by decide) s.readCtx hok l e ha).2 q info he (by simp [hnil])
    exact stopsReading_of_raisesAt (exec_brNextbit s) ⟨_, c.br, c.draws, hrun, rfl⟩

/-! ### BR_SEEK and BR_ALIGN -/

/-- BR_SEEK checks its operand against one read of SEG_LEN (40_bitreader.md R140). -/
theorem exec_brSeek (p : BitVec 24) (s : State) : exec (.brSeek p) s =
    let n := (choose s.seg.len s.seg.oldLens s.draws).1
    let d := (choose s.seg.len s.seg.oldLens s.draws).2
    if n.toNat < p.toNat then .next ({ s with draws := d }.halt (Instr.brSeek p).head 13 2 s.br.pos)
    else .next { s with draws := d, br := { BitReader.reset with pos := BitVec.ofNat 25 p.toNat } } := by
  have hpos : p.setWidth 25 = BitVec.ofNat 25 p.toNat := BitVec.eq_of_toNat_eq (by simp)
  simp only [exec, execBrSeek, hpos]
  rfl

/-- Settles O22: with no SEG_LEN write in flight the length read is SEG_LEN. -/
theorem seekSetsPosition : Obligations.SeekSetsPosition := by
  intro s p hlens
  have hexec := exec_brSeek p s
  rw [hlens, choose_nil] at hexec
  exact ⟨fun hle => hexec.trans (if_neg (Nat.not_lt.2 hle)), fun hlt => hexec.trans (if_pos hlt)⟩

/-- Settles O23: keeping the newest whole bytes drops the BITCNT mod 8 oldest bits. -/
theorem alignDropsPartialByte : Obligations.AlignDropsPartialByte := by
  intro s hok
  have hle : s.br.bitcnt - s.br.bitcnt % 8 ≤ s.br.bitcnt := Nat.sub_le _ _
  have hcnt : s.br.bitcnt ≤ 23 := hok.1
  obtain ⟨hbits, hreg⟩ := keepNewest_bits s.br _ hle (by omega)
  have hdrop : s.br.bitcnt - (s.br.bitcnt - s.br.bitcnt % 8) = s.br.bitcnt % 8 := by omega
  rw [hdrop] at hbits
  exact ⟨_, _, rfl, by omega, hdrop, hle, hreg, hbits⟩

end Sys2Proof.Machine
end

/-! ## The canonical codes that HT_INIT generates (41_huffman.md R161) -/

section
namespace Sys2Proof.Machine

/-! ### Lengths -/

theorem genSizes_pairwise (len : Nat) (ns : List Nat) : (genSizes len ns).Pairwise (· ≤ ·) := by
  induction ns generalizing len with
  | nil => exact List.Pairwise.nil
  | cons n rest ih =>
    refine List.pairwise_append.2 ⟨List.pairwise_replicate.2 (.inr le_rfl), ih _, fun a ha b hb => ?_⟩
    rw [List.eq_of_mem_replicate ha]
    exact (Nat.le_succ len).trans (le_of_mem_genSizes hb)

/-- A length is listed once for each code it has. -/
theorem genSizes_count (len : Nat) (ns : List Nat) (i : Nat) : (genSizes len ns).count (len + i) = ns.getD i 0 := by
  induction ns generalizing len i with
  | nil => simp [genSizes]
  | cons n rest ih =>
    rw [genSizes, List.count_append, List.count_replicate]
    cases i with
    | zero =>
      have hlater : (genSizes (len + 1) rest).count len = 0 :=
        List.count_eq_zero_of_not_mem fun hmem => Nat.not_succ_le_self len (le_of_mem_genSizes hmem)
      simp [hlater]
    | succ i =>
      have hnext : len + (i + 1) = len + 1 + i := by omega
      simp only [hnext, ih]
      simp
      omega

/-! ### Codes -/

theorem sum_take_succ (ns : List Nat) (i : Nat) : (ns.take (i + 1)).sum = (ns.take i).sum + ns.getD i 0 := by
  rw [List.take_add_one, List.sum_append]
  cases h : ns[i]? <;> simp [h]

theorem sum_take_mono (ns : List Nat) {i j : Nat} (h : i ≤ j) : (ns.take i).sum ≤ (ns.take j).sum := by
  have hcut : ns.take i = (ns.take j).take i := by rw [List.take_take, min_eq_left h]
  exact hcut ▸ sum_take_le _ _

/-- Over lengths that have no code the counter only doubles. -/
theorem codeCounter_of_no_codes (code : Nat) (ns : List Nat) (i d : Nat)
    (h : (ns.take (i + d)).sum = (ns.take i).sum) : codeCounter code ns (i + d) = codeCounter code ns i * 2 ^ d := by
  induction d with
  | zero => simp
  | succ d ih =>
    have hup := sum_take_succ ns (i + d)
    have hlow := sum_take_mono ns (Nat.le_add_right i d)
    rw [← Nat.add_assoc] at h
    rw [← Nat.add_assoc, codeCounter_succ, ih (by omega), Nat.pow_succ]
    have hnone : ns.getD (i + d) 0 = 0 := by omega
    rw [hnone]
    ring

/-- The next code number has the next place: in the same length, or first in the next length that has a code. -/
theorem next_place {ns : List Nat} {i j i' j' : Nat} (hj : j < ns.getD i 0) (hj' : j' < ns.getD i' 0)
    (h : (ns.take i).sum + j + 1 = (ns.take i').sum + j') :
    (i' = i ∧ j' = j + 1) ∨
      (i < i' ∧ j' = 0 ∧ j + 1 = ns.getD i 0 ∧ (ns.take i').sum = (ns.take (i + 1)).sum) := by
  have hi := sum_take_succ ns i
  have hi' := sum_take_succ ns i'
  rcases lt_trichotomy i i' with hlt | rfl | hgt
  · have hmono := sum_take_mono ns (show i + 1 ≤ i' from hlt)
    exact .inr ⟨hlt, by omega, by omega, by omega⟩
  · exact .inl ⟨rfl, by omega⟩
  · have hmono := sum_take_mono ns (show i' + 1 ≤ i from hgt)
    omega

/-- One code and the next, by their places: one more, shifted left by the increase in length. -/
theorem codeCounter_next {ns : List Nat} {i j i' j' : Nat} (hj : j < ns.getD i 0) (hj' : j' < ns.getD i' 0)
    (h : (ns.take i).sum + j + 1 = (ns.take i').sum + j') :
    codeCounter 0 ns i' + j' = (codeCounter 0 ns i + j + 1) * 2 ^ (i' + 1 - (i + 1)) := by
  rcases next_place hj hj' h with ⟨rfl, rfl⟩ | ⟨hlt, rfl, hlast, hnone⟩
  · simp [Nat.add_assoc]
  · obtain ⟨d, rfl⟩ := Nat.exists_eq_add_of_le (Nat.succ_le_of_lt hlt)
    have hexp : i.succ + d + 1 - (i + 1) = d + 1 := by omega
    rw [codeCounter_of_no_codes 0 ns (i + 1) d hnone, codeCounter_succ, hexp, ← hlast, Nat.pow_succ]
    ring

/-- Settles O25: each code number has a place, a length and a number within it, and the codes follow the places. -/
theorem canonicalCodes : Obligations.CanonicalCodes := by
  intro old bits d hsum t
  have hok : t.Ok := HuffTable.build_ok old bits d hsum
  have hsizes : t.huffsize.length = t.nval := genSizes_length _ _
  have hcodes : t.huffcode.length = t.nval := genCodes_length _ _
  refine ⟨hsizes, hcodes.trans hsizes.symm, genSizes_pairwise _ _, fun len => ?_, fun k hk => ?_, fun hpos => ?_,
    fun k hk => ?_⟩
  · rw [← countList_getD, Nat.add_comm]
    exact genSizes_count 1 (countList bits) len.val
  · exact hok.size_range rfl k (hsizes ▸ hk)
  · obtain ⟨i, j, -, -, hplace, -, hcode⟩ := hok.place rfl 0 (hcodes ▸ hpos)
    have hle := codeCounter_le (countList bits) i
    have hzero : ((countList bits).take i).sum = 0 := by
      change 0 = ((countList bits).take i).sum + j at hplace
      omega
    rw [hzero] at hle
    change 0 = ((countList bits).take i).sum + j at hplace
    rw [hcode]
    change codeCounter 0 (countList bits) i + j = 0
    omega
  · obtain ⟨i, j, -, hj, hplace, hsize, hcode⟩ := hok.place rfl k (by omega)
    obtain ⟨i', j', -, hj', hplace', hsize', hcode'⟩ := hok.place rfl (k + 1) (by omega)
    rw [hcode, hcode', hsize, hsize']
    exact codeCounter_next hj hj' (by omega)

end Sys2Proof.Machine
end

/-! ## HT_INIT and HT_INSERT (41_huffman.md R160, R164, R165) -/

section
namespace Sys2Proof.Machine

/-! ### FAULT_INFO in the spec's numbers (60_exceptions.md R362) -/

theorem toNat_append_add {n m : Nat} (x : BitVec n) (y : BitVec m) : (x ++ y).toNat = x.toNat * 2 ^ m + y.toNat := by
  rw [BitVec.toNat_append, ← Nat.shiftLeft_add_eq_or_of_lt y.isLt, Nat.shiftLeft_eq]

theorem infoPrecision_field (fld v : BitVec 4) :
    infoPrecision fld (v.setWidth 16) 0 = BitVec.ofNat 32 (v.toNat * 16 + fld.toNat) := by
  refine BitVec.eq_of_toNat_eq ?_
  simp only [infoPrecision, toNat_append_add, BitVec.toNat_setWidth, BitVec.toNat_ofNat, BitVec.reduceToNat]
  omega

theorem infoInsert_eq (reason : Byte) (l : BitVec 5) (tc th : BitVec 4) : infoInsert reason l tc th =
    BitVec.ofNat 32 (reason.toNat * 2 ^ 24 + l.toNat * 2 ^ 8 + tc.toNat * 16 + th.toNat) := by
  refine BitVec.eq_of_toNat_eq ?_
  simp only [infoInsert, toNat_append_add, BitVec.toNat_ofNat]
  omega

theorem infoTable_huff (c : HuffClass) (t : BitVec 2) :
    infoTable c.code t = BitVec.ofNat 32 (c.code.toNat * 16 + (t.setWidth 4 : BitVec 4).toNat) := by
  revert t; cases c <;> decide

/-! ### The operand checks -/

theorem withHuffId_of_class {tc : BitVec 4} (h : 1 < tc.toNat) (i : Instr) (th : BitVec 4) (s : State)
    (k : HuffClass → BitVec 2 → Result) :
    withHuffId i tc th s k =
      .next (s.halt i.head 5 (BitVec.ofNat 32 (tc.toNat * 16 + 1)) s.br.pos) := by
  have hinfo := infoPrecision_field 1 tc
  simp only [withHuffId, (classOf_eq_none tc).2 h, hinfo]
  rfl

theorem withHuffId_of_id {tc th : BitVec 4} (hc : tc.toNat ≤ 1) (h : 3 < th.toNat) (i : Instr) (s : State)
    (k : HuffClass → BitVec 2 → Result) :
    withHuffId i tc th s k =
      .next (s.halt i.head 5 (BitVec.ofNat 32 (th.toNat * 16 + 2)) s.br.pos) := by
  obtain ⟨c, hclass⟩ : ∃ c, classOf tc = some c :=
    Option.ne_none_iff_exists'.1 fun hnone => Nat.not_lt.2 hc ((classOf_eq_none tc).1 hnone)
  have hinfo := infoPrecision_field 2 th
  simp only [withHuffId, hclass, (idOf_eq_none th).2 h, hinfo]
  rfl

@[simp] theorem withHuffId_code (i : Instr) (c : HuffClass) (t : BitVec 2) (s : State)
    (k : HuffClass → BitVec 2 → Result) : withHuffId i c.code (t.setWidth 4) s k = k c t := by
  simp only [withHuffId, classOf_code, idOf_setWidth]

/-- Ids in range name a table. -/
theorem exists_huffId {tc th : BitVec 4} (hc : tc.toNat ≤ 1) (ht : th.toNat ≤ 3) :
    ∃ (c : HuffClass) (t : BitVec 2), tc = c.code ∧ th = t.setWidth 4 := by
  obtain ⟨c, hclass⟩ : ∃ c, classOf tc = some c :=
    Option.ne_none_iff_exists'.1 fun hnone => Nat.not_lt.2 hc ((classOf_eq_none tc).1 hnone)
  obtain ⟨t, hid⟩ : ∃ t, idOf th = some t :=
    Option.ne_none_iff_exists'.1 fun hnone => Nat.not_lt.2 ht ((idOf_eq_none th).1 hnone)
  exact ⟨c, t, (classOf_eq_some tc c).1 hclass, (idOf_eq_some th t).1 hid⟩

/-! ### HT_INIT -/

/-- HT_INIT on a table in range: refused for too many values, or the table built. -/
theorem exec_htInit (c : HuffClass) (t : BitVec 2) (d0 d1 d2 d3 : Word) (s : State) :
    exec (.htInit c.code (t.setWidth 4) d0 d1 d2 d3) s =
      if 256 < (countList (countsOf d0 d1 d2 d3)).sum then
        raiseCheck (.htInit c.code (t.setWidth 4) d0 d1 d2 d3) .huffmanInsert (infoInsert 5 0 c.code (t.setWidth 4)) s
      else .next (({ s with draws := s.draws + 32 } : State).setTable c t
        ((s.table c t).build (countsOf d0 d1 d2 d3) s.draws)) :=
  withHuffId_code ..

/-- The four data words carry the counts little-endian (30_encoding.md R96). -/
theorem countsOf_getElem (d0 d1 d2 d3 : Word) (j : Fin 4) :
    (countsOf d0 d1 d2 d3)[j.val]'(by omega) = field d0 (8 * j.val) 8 ∧
      (countsOf d0 d1 d2 d3)[4 + j.val]'(by omega) = field d1 (8 * j.val) 8 ∧
      (countsOf d0 d1 d2 d3)[8 + j.val]'(by omega) = field d2 (8 * j.val) 8 ∧
      (countsOf d0 d1 d2 d3)[12 + j.val]'(by omega) = field d3 (8 * j.val) 8 := by
  simp only [countsOf, vecOfFn_getElem]
  fin_cases j <;> exact ⟨rfl, rfl, rfl, rfl⟩

/-- Settles O27: the class, the id and the sum are checked in this order, and the table built is `HuffTable.build`. -/
theorem htInitBuilds : Obligations.HtInitBuilds := by
  intro s tc th d0 d1 d2 d3 i
  refine ⟨fun hc => withHuffId_of_class hc .., fun hc ht => withHuffId_of_id hc ht .., countsOf d0 d1 d2 d3,
    countsOf_getElem d0 d1 d2 d3, fun hc ht hsum => ?_, ?_⟩
  · obtain ⟨c, t, rfl, rfl⟩ := exists_huffId hc ht
    have hinfo := infoInsert_eq 5 0 c.code (t.setWidth 4)
    refine (exec_htInit c t d0 d1 d2 d3 s).trans ((if_pos hsum).trans ?_)
    rw [raiseCheck, hinfo]
    rfl
  · rintro c t rfl rfl hsum
    exact ⟨⟨_, (exec_htInit c t d0 d1 d2 d3 s).trans (if_neg (Nat.not_lt.2 hsum))⟩, rfl, rfl, rfl, rfl⟩

/-! ### HT_INSERT -/

section
variable {s : State} {c : HuffClass} {t : BitVec 2} (hv : (s.table c t).valid = true) (l : BitVec 5) (v : Byte)
include hv

theorem htInsert_failsCheck {reason : Byte} (h : (s.table c t).insertReason l.toNat = some reason) :
    FailsCheck (.htInsert c.code (t.setWidth 4) l v) s 3
      (reason.toNat * 2 ^ 24 + l.toNat * 2 ^ 8 + c.code.toNat * 16 + (t.setWidth 4 : BitVec 4).toNat) := by
  rw [FailsCheck, ← infoInsert_eq]
  refine (withHuffId_code ..).trans ((withTable_of_valid hv _ _).trans ?_)
  simp only [h]
  rfl

theorem exec_htInsert_of_accepted (h : (s.table c t).insertReason l.toNat = none) :
    exec (.htInsert c.code (t.setWidth 4) l v) s = .next (s.setTable c t ((s.table c t).insert v)) := by
  refine (withHuffId_code ..).trans ((withTable_of_valid hv _ _).trans ?_)
  simp only [h]

end

/-- The value inserted stands at NINS, all others where they stood. -/
theorem HuffTable.insert_getElem (t : HuffTable) (v : Byte) (k : Fin 256) :
    (t.insert v).huffval[k] = if k.val = t.nins then v else t.huffval[k] := by
  simp only [HuffTable.insert, Fin.getElem_fin, Vector.getElem_setIfInBounds, eq_comm]

/-- Settles O28: the checks one after another, then the value at NINS. -/
theorem htInsertAppends : Obligations.HtInsertAppends := by
  intro s tc th l v i
  refine ⟨fun hc => withHuffId_of_class hc .., fun hc ht => withHuffId_of_id hc ht .., ?_⟩
  rintro c t rfl rfl tab why next
  have range (h1 : 1 ≤ l.toNat) (h16 : l.toNat ≤ 16) : ¬(l.toNat < 1 ∨ 16 < l.toNat) := by omega
  refine ⟨fun hv => ?_, fun hv hlen => ?_, fun hv h1 h16 hfull => ?_, fun hv h1 h16 hmore hlen => ?_,
    fun hv h1 h16 hmore hlen hcap => ?_, fun hv h1 h16 hmore _ hlen hcap => ?_⟩
  · have hinfo := infoTable_huff c t
    rw [FailsCheck, ← hinfo]
    exact (withHuffId_code ..).trans (withTable_of_not_valid (by simp [tab] at hv; simp [hv]) _ _)
  · exact htInsert_failsCheck (reason := 1) hv l v (if_pos hlen)
  · exact htInsert_failsCheck (reason := 2) hv l v ((if_neg (range h1 h16)).trans (if_pos hfull))
  · exact htInsert_failsCheck (reason := 3) hv l v
      ((if_neg (range h1 h16)).trans ((if_neg hmore).trans (if_pos hlen)))
  · exact htInsert_failsCheck (reason := 4) hv l v
      ((if_neg (range h1 h16)).trans ((if_neg hmore).trans ((if_neg (not_not.2 hlen)).trans (if_pos hcap))))
  · exact ⟨_, exec_htInsert_of_accepted hv l v ((if_neg (range h1 h16)).trans ((if_neg hmore.ne).trans
      ((if_neg (not_not.2 hlen)).trans (if_neg (Nat.not_le.2 hcap))))), tab.insert_getElem v⟩

/-! ### Loading a table -/

theorem State.table_setTable (s : State) (c : HuffClass) (t : BitVec 2) (x : HuffTable) :
    (s.setTable c t x).table c t = x := by
  cases c <;> exact Vector.getElem_set_self _

theorem State.setTable_setTable (s : State) (c : HuffClass) (t : BitVec 2) (x y : HuffTable) :
    (s.setTable c t x).setTable c t y = s.setTable c t y := by
  cases c <;> simp [State.setTable]

/-- A table with its first `m` values loaded. -/
def HuffTable.loaded (built : HuffTable) (vals : Vector Byte 256) (m : Nat) : HuffTable :=
  { built with huffval := vals, nins := m }

/-- The HT_INSERT that loads value number `k`, with its length from BITS (41_huffman.md R165). -/
def loadInstr (c : HuffClass) (t : BitVec 2) (built : HuffTable) (vs : List Byte) (k : Nat) : Instr :=
  .htInsert c.code (t.setWidth 4) (BitVec.ofNat 5 (built.size k)) (vs.getD k 0)

section
variable {built : HuffTable} (hv : built.valid = true) (hok : built.Ok)
  (hfit : ∀ k, k < built.nval → (built.huffcode.getD k 0).toNat < 2 ^ built.size k)
include hv hok hfit

/-- The next value is accepted: its length is that of BITS, and its code fits. -/
theorem HuffTable.loaded_insertReason (vals : Vector Byte 256) {m : Nat} (hm : m < built.nval) :
    (built.loaded vals m).insertReason (BitVec.ofNat 5 (built.size m)).toNat = none := by
  obtain ⟨hlow, hhigh⟩ := hok.size_range hv m hm
  have hlen : (BitVec.ofNat 5 (built.size m)).toNat = built.size m := by
    rw [BitVec.toNat_ofNat]; omega
  rw [hlen]
  exact (if_neg (by omega)).trans ((if_neg hm.ne).trans ((if_neg (not_not.2 rfl)).trans
    (if_neg (Nat.not_le.2 (hfit m hm)))))

/-- From `m` values on, the remaining `r` are inserted one after another. -/
theorem execSeq_load {s : State} (hs : s.faulted = false) (c : HuffClass) (t : BitVec 2) (vs : List Byte) (r m : Nat)
    (hr : m + r = built.nval) (vals : Vector Byte 256) (hvals : ∀ k, k < m → vals.toList.getD k 0 = vs.getD k 0) :
    ∃ vals', execSeq ((List.range' m r).map (loadInstr c t built vs)) (s.setTable c t (built.loaded vals m)) =
        .next (s.setTable c t (built.loaded vals' built.nval)) ∧
      ∀ k, k < built.nval → vals'.toList.getD k 0 = vs.getD k 0 := by
  have hbound : built.nval ≤ 256 := (hok hv).2.1
  induction r generalizing m vals with
  | zero =>
    obtain rfl : m = built.nval := hr
    exact ⟨vals, rfl, hvals⟩
  | succ r ih =>
    have htab := s.table_setTable c t (built.loaded vals m)
    have hexec : exec (loadInstr c t built vs m) (s.setTable c t (built.loaded vals m)) =
        .next (s.setTable c t (built.loaded (vals.setIfInBounds m (vs.getD m 0)) (m + 1))) := by
      have hvalid : ((s.setTable c t (built.loaded vals m)).table c t).valid = true := by
        rw [htab]; exact hv
      have haccept := HuffTable.loaded_insertReason hv hok hfit vals (by omega : m < built.nval)
      rw [loadInstr, exec_htInsert_of_accepted hvalid _ _ (by rw [htab]; exact haccept), htab, State.setTable_setTable]
      rfl
    rw [List.range'_succ, List.map_cons, execSeq_cons_of_running hexec (by simpa using hs)]
    refine ih (m + 1) (by omega) _ fun k hk => ?_
    rw [vec_getD _ _ _ (by omega), Vector.getElem_setIfInBounds]
    by_cases hkm : m = k
    · rw [if_pos hkm, hkm]
    · rw [if_neg hkm, ← hvals k (by omega), vec_getD]

end

/-- Settles O29: HT_INIT builds the table with no value inserted, and each HT_INSERT adds the next one. -/
theorem loadingFillsTable : Obligations.LoadingFillsTable := by
  intro s c t d0 d1 d2 d3 vs built hs hle hlen hfit
  have hinit : exec (.htInit c.code (t.setWidth 4) d0 d1 d2 d3) s =
      .next (({ s with draws := s.draws + 32 } : State).setTable c t (built.loaded built.huffval 0)) :=
    (exec_htInit c t d0 d1 d2 d3 s).trans (if_neg (Nat.not_lt.2 hle))
  obtain ⟨vals, hload, hvals⟩ := execSeq_load (built := built) (s := { s with draws := s.draws + 32 }) rfl
    (HuffTable.build_ok _ _ _ hle) hfit hs c t vs built.nval 0 (Nat.zero_add _) built.huffval nofun
  refine ⟨vals, s.draws + 32, ?_, fun k hk => hvals k (hlen ▸ hk)⟩
  rw [execSeq_cons_of_running hinit (by simpa using hs), hlen, List.range_eq_range']
  exact hload

end Sys2Proof.Machine
end

/-! ## HT_DECODE on the stream (41_huffman.md R171-R175) -/

section
namespace Sys2Proof.Machine

section
variable {s : State} {c : HuffClass} {t : BitVec 2}

theorem exec_htDecode_of_valid (hv : (s.table c t).valid = true) :
    exec (.htDecode c.code (t.setWidth 4)) s =
      runReader (.htDecode c.code (t.setWidth 4)) s (huffDecode s.seg s.arrayVariant c t (s.table c t))
        fun v u => u.pushResult (v.setWidth 32) :=
  (withHuffId_code ..).trans (withTable_of_valid hv _ _)

theorem htDecode_failsCheck_of_not_loaded (hv : (s.table c t).valid = false) :
    FailsCheck (.htDecode c.code (t.setWidth 4)) s 9 (c.code.toNat * 16 + (t.setWidth 4 : BitVec 4).toNat) := by
  rw [FailsCheck, ← infoTable_huff]
  exact (withHuffId_code ..).trans (withTable_of_not_valid (by simp [hv]) _ _)

end

/-- A decode that finds a value is the array decode's, in both variants (41_huffman.md R172). -/
theorem huffDecode_of_array_ok {g : Segment} {c : HuffClass} {t : BitVec 2} {tab : HuffTable} {ctx ctx' : ReadCtx}
    {v : Byte} (h : huffDecodeArray g c t tab ctx = .ok v ctx') (array : Bool) :
    huffDecode g array c t tab ctx = .ok v ctx' := by
  simp only [huffDecode, h]

theorem array_ok_of_huffDecode {g : Segment} {array : Bool} {c : HuffClass} {t : BitVec 2} {tab : HuffTable}
    {ctx ctx' : ReadCtx} {v : Byte} (h : huffDecode g array c t tab ctx = .ok v ctx') :
    huffDecodeArray g c t tab ctx = .ok v ctx' := by
  unfold huffDecode at h
  split at h
  next hrun => rw [hrun, h]
  next e ctx1 _ =>
    split at h
    · cases h
    · obtain ⟨e', d, hfail, -⟩ := treeFail_err g c t e ctx1
      simp [hfail] at h

/-- Settles O30: the array decode finds the code, and both variants take what it finds. -/
theorem htDecodeFindsCode : Obligations.HtDecodeFindsCode := by
  refine ⟨?_, fun s tc th => ⟨fun hc => ?_, fun hc ht => ?_, ?_⟩⟩
  · intro s c t k l e tab hs hok hv htab hk ha hcode hfit
    obtain ⟨br, p, hrun, hle, hahead, hp, -, -⟩ :=
      huffDecodeArray_finds s.seg hs c t tab hv htab k hk s.readCtx hok l e ha hcode hfit
    exact ⟨br, p, by rw [exec_htDecode_of_valid hv, runReader_of_ok (huffDecode_of_array_ok hrun _)]; rfl, hle, hahead, hp⟩
  · exact withHuffId_of_class hc ..
  · exact withHuffId_of_id hc ht ..
  · rintro c t rfl rfl hv
    exact htDecode_failsCheck_of_not_loaded hv

/-- A completed HT_DECODE pushed the value that its decode found. -/
theorem htDecode_completes {s u : State} {c : HuffClass} {t : BitVec 2} (hv : (s.table c t).valid = true)
    (h : exec (.htDecode c.code (t.setWidth 4)) s = .next u) (hu : u.faulted = false) :
    ∃ v ctx, huffDecodeArray s.seg c t (s.table c t) s.readCtx = .ok v ctx ∧ u.br = ctx.br ∧
      u.resq = s.resq ++ [v.setWidth 32] := by
  rw [exec_htDecode_of_valid hv] at h
  rcases runReader_cases h with ⟨v, ctx, hrun, rfl⟩ | ⟨e, ctx, -, rfl⟩
  · exact ⟨v, ctx, array_ok_of_huffDecode hrun, rfl, rfl⟩
  · cases hu

/-- Settles O31: soundness of the bit loop, and where it fails in each variant. -/
theorem htDecodeOnlyInserted : Obligations.HtDecodeOnlyInserted := by
  constructor
  · intro s u c t l e tab hok hv htab _ ha h hu
    obtain ⟨v, ctx, hrun, hbr, hres⟩ := htDecode_completes hv h hu
    obtain ⟨k, hk, rfl, -, hsize, -, hread⟩ :=
      decodeLoop_sound s.seg c t tab hv htab 16 0 0 rfl (Nat.le_of_eq (codeCounter_zero _ _)) s.readCtx ctx v hrun
    refine ⟨k, hk, hsize, hres, fun hs => ?_⟩
    obtain ⟨hcode, p, hahead, -⟩ := hread hs hok l e ha
    exact ⟨hcode, p, by rw [hbr]; exact hahead⟩
  · intro s c t l e tab hs hok hv htab ha
    exact ⟨htab.noValue hv l, (huffDecode_fails s.seg hs _ c t tab hv htab s.readCtx hok l e ha).mono fun _ _ _ =>
      stopsReading_of_raisesAt (exec_htDecode_of_valid hv)⟩

end Sys2Proof.Machine
end

/-! ## DECODE_COEFS on the stream (42_coefficient.md R210-R214) -/

section
namespace Sys2Proof.Machine

/-! ### The block a stream encodes -/

/-- Settles O34: the body of the decode rebuilds the block, and the command stores it. -/
theorem decodeCoefsRebuilds : Obligations.DecodeCoefsRebuilds := by
  intro s n kd raw items k b ke l rest e p sl dc ac cat v hs hok hsl hvd hod hva hoa hkd hcat hraw hlo hhi hplace he ha hp
    hstream
  have hserves := Serves.of_eq l _ e p hstream hp
  simp only [List.append_assoc] at hserves
  obtain ⟨br, l', hrun, -, hahead, hrest, hreads⟩ := decodeBody_rebuilds (s.coefTables sl) hs hvd hod hva hoa (s.predAt n) kd
    raw hkd hcat hraw hlo hhi items k b hplace ke he s.readCtx hok l rest e ha hserves
  have hready : s.DecodeReady n := ⟨hsl, hvd, hva⟩
  refine ⟨br, exec_decodeCoefs_of_ok hready hrun, fun hp0 => ?_, hreads⟩
  simp only [hp0, List.replicate_zero, List.append_nil, List.append_assoc] at hstream
  rw [← hrest hstream]
  exact hahead

/-! ### Where it stops -/

/-- A raise inside the decode of a block (60_exceptions.md R364). -/
theorem stopsDecoding_of_raisesAt {s : State} {n : BitVec 2} (h : s.DecodeReady n) {code : Byte} {info : Word}
    {pos : BitVec 25} (hr : RaisesAt (s.runDecode n) code info pos) :
    StopsDecoding (.decodeCoefs (n.setWidth 4)) s n code info pos := by
  obtain ⟨kind, br, d, hrun, rfl⟩ := hr
  exact ⟨_, _, _, _, anyReader_ok _ _, exec_decodeCoefs_of_err h hrun⟩

theorem decodeCoefs_checks (s : State) (n : BitVec 2) :
    let sl := s.slotAt n
    let i := Instr.decodeCoefs (n.setWidth 4)
    (sl.valid = false → FailsCheck i s 13 7) ∧
    (sl.valid = true → (s.table .dc sl.td).valid = false → FailsCheck i s 9 sl.td.toNat) ∧
    (sl.valid = true → (s.table .dc sl.td).valid = true → (s.table .ac sl.ta).valid = false →
      FailsCheck i s 9 (16 + sl.ta.toNat)) := by
  intro sl i
  have hdc : ∀ t : BitVec 2, infoTable HuffClass.dc.code t = BitVec.ofNat 32 t.toNat := by decide
  have hac : ∀ t : BitVec 2, infoTable HuffClass.ac.code t = BitVec.ofNat 32 (16 + t.toNat) := by decide
  refine ⟨fun h => withSlot_of_not_valid (Bool.eq_false_iff.1 h) _ _, fun hsl h => ?_, fun hsl hvd h => ?_⟩
  · rw [FailsCheck, ← hdc]
    exact (withSlot_of_valid hsl _ _).trans (withTable_of_not_valid (Bool.eq_false_iff.1 h) _ _)
  · rw [FailsCheck, ← hac]
    exact (withSlot_of_valid hsl _ _).trans ((withTable_of_valid hvd _ _).trans
      (withTable_of_not_valid (Bool.eq_false_iff.1 h) _ _))

/-- Settles O35: each stop of the body, as the end of the command. -/
theorem decodeCoefsStops : Obligations.DecodeCoefsStops := by
  refine ⟨?_, fun s n hn => withSlot_of_gt hn .., decodeCoefs_checks⟩
  intro s n kd raw items k b kx l rest e p sl dc ac cat v i stops stream dcBits hs hok hsl hvd hod hva hoa ha hp
  have ends {code : Byte} {info : Word} {pos : BitVec 25} :=
    stopsDecoding_of_raisesAt (s := s) (n := n) ⟨hsl, hvd, hva⟩ (code := code) (info := info) (pos := pos)
  obtain ⟨hfail, hsym⟩ := decodeBody_dc (s.coefTables sl) hs hvd hod (s.predAt n) s.readCtx hok l e ha
  have serves {w : List Bool} (hw : stream = w) : Serves l e w := Serves.of_eq l w e p hw hp
  have whole {w : List Bool} (hw : stream = w) (he : e ≠ none) : l = w := by
    simpa [stream, hp.resolve_right he] using hw
  refine ⟨hfail.mono fun _ _ _ => ends, fun hkd => ⟨fun hcat hst => ?_, fun q info hcat he hl hshort => ?_,
    fun hcat hraw hv hst => ?_, fun hcat hraw hlo hhi hplace hk => ?_⟩⟩
  · exact ends ((hsym kd hkd rest (serves hst)).1 hcat)
  · exact ends ((hsym kd hkd rest (Serves.of_eq l _ e 0 ((List.append_nil l).trans hl) (.inl rfl))).2.1 hcat q info he hl hshort)
  · simp only [dcBits, List.append_assoc] at hst
    exact ends ((hsym kd hkd _ (serves hst)).2.2 hcat raw rest rfl hraw hv)
  · have body (w : List Bool) (hst : stream = dcBits ++ acBits ac items ++ w) := by
      simp only [dcBits, List.append_assoc] at hst
      exact decodeBody_ac (s.coefTables sl) hs hvd hod hva hoa (s.predAt n) kd raw hkd hcat hraw hlo hhi items k b hk
        hplace s.readCtx hok l w e ha (serves hst) (whole hst)
    refine ⟨fun hst => (body rest hst).1.mono fun _ _ _ => ends, fun hkx hst => ?_⟩
    rw [List.append_assoc _ (ac.codeBits kx)] at hst
    obtain ⟨hrun, hover, hshort⟩ := (body _ hst).2 kx hkx rest rfl
    exact ⟨fun hs0 hr0 hr15 => ends (hrun hs0 hr0 hr15), fun hs0 hk63 => ends (hover hs0 hk63),
      fun q info hs0 hk63 he hlt => ends (hshort hs0 hk63 q info he hlt)⟩

end Sys2Proof.Machine
end

/-! ## The float IDCT rounds the real transform (44_idct.md R261, R262) -/

section
namespace Sys2Proof.Machine

/-! ### What one sample may be -/

/-- An integer rounds a real number by R262: the nearest integer away from every half-integer by more than the tie band,
and within the band of one of them either neighbour. -/
def RoundsTo (r : ℝ) (z : Int) : Prop :=
  ((∀ n : ℤ, (Config.tieEps : ℝ) < |r - (n + 1 / 2)|) → z = ⌊r + 1 / 2⌋) ∧
    ∀ n : ℤ, |r - (n + 1 / 2)| ≤ (Config.tieEps : ℝ) → z = n ∨ z = n + 1

theorem tieEps_real : 0 < (Config.tieEps : ℝ) ∧ (Config.tieEps : ℝ) ≤ 1 / 2 ^ 10 := by
  obtain ⟨hpos, hle⟩ := tieEps_range
  constructor
  · exact_mod_cast hpos
  · have hcast : (Config.tieEps : ℝ) ≤ ((1 / 2 ^ 10 : ℚ) : ℝ) := by exact_mod_cast hle
    simpa using hcast

/-- Half-integers are 1 apart, so a number near one of them is near no other. -/
theorem half_unique {r δ : ℝ} {f n : ℤ} (hf : |r - (f + 1 / 2)| ≤ δ) (hn : |r - (n + 1 / 2)| ≤ 1 / 4) (hδ : δ ≤ 1 / 4) :
    n = f := by
  rw [abs_le] at hf hn
  have hlt : (n : ℝ) < f + 1 := by linarith [hf.2, hn.1]
  have hgt : (f : ℝ) < n + 1 := by linarith [hf.1, hn.2]
  have hlt' : n < f + 1 := by exact_mod_cast hlt
  have hgt' : f < n + 1 := by exact_mod_cast hgt
  omega

/-- A number farther from every half-integer than another number is from it rounds like that other one. -/
theorem floor_half_eq {x r δ : ℝ} (hxr : |x - r| ≤ δ) (hx : ∀ n : ℤ, δ < |x - (n + 1 / 2)|) :
    ⌊r + 1 / 2⌋ = ⌊x + 1 / 2⌋ := by
  have hlow := Int.floor_le (x + 1 / 2)
  have hhigh := Int.lt_floor_add_one (x + 1 / 2)
  have hbelow := hx (⌊x + 1 / 2⌋ - 1)
  have habove := hx ⌊x + 1 / 2⌋
  push_cast at hbelow
  rw [lt_abs] at hbelow habove
  rw [abs_le] at hxr
  refine Int.floor_eq_iff.2 ⟨?_, ?_⟩
  · rcases hbelow with h | h <;> linarith [hxr.2]
  · rcases habove with h | h <;> linarith [hxr.1]

/-! ### The two ways the model rounds -/

section
variable {K : Type*} [Field K] [LinearOrder K] [IsStrictOrderedRing K] [FloorRing K]

theorem floor_intCast_div (a : ℤ) {d : ℤ} (hd : 0 < d) : ⌊(a : K) / (d : K)⌋ = a / d := by
  rw [Int.floor_div_cast_of_nonneg hd.le, Int.floor_intCast]

/-- `roundHalfUp` is rhu of 00_scope.md R11. -/
theorem roundHalfUp_eq (n : ℤ) {d : ℤ} (hd : 0 < d) : roundHalfUp n d = ⌊(n : K) / (d : K) + 1 / 2⌋ := by
  have hpos : (0 : K) < (d : K) := by exact_mod_cast hd
  have hsum : (n : K) / (d : K) + 1 / 2 = ((2 * n + d : ℤ) : K) / ((2 * d : ℤ) : K) := by
    push_cast
    field_simp
  rw [hsum, roundHalfUp, floor_intCast_div _ (by omega)]

end

theorem sampleScale_pos : 0 < sampleScale := by decide

/-- `roundScaled` rounds half up the number that a scaled integer stands for. -/
theorem roundScaled_eq (n : ℤ) : roundScaled n = ⌊(n : ℝ) / (sampleScale : ℝ) + 1 / 2⌋ := roundHalfUp_eq n sampleScale_pos

/-- `tieDistance` measures the distance to the half-integer above the floor, in units of 1/(2·`sampleScale`). -/
theorem tieDistance_eq (n : ℤ) :
    (tieDistance n : ℝ) = 2 * sampleScale * |(n : ℝ) / (sampleScale : ℝ) - ((n / sampleScale : ℤ) + 1 / 2)| := by
  have hpos : (0 : ℝ) < (sampleScale : ℝ) := by exact_mod_cast sampleScale_pos
  rw [tieDistance, Nat.cast_natAbs, Int.cast_id, Int.cast_abs,
    ← abs_of_pos (show (0 : ℝ) < 2 * sampleScale by linarith), ← abs_mul]
  push_cast
  congr 1
  field_simp

/-- Every half-integer but the one between floor and floor + 1 is at least 1/2 away. -/
theorem far_of_far_floor {x δ : ℝ} (hδ : δ < 1 / 2) (h : δ < |x - (⌊x⌋ + 1 / 2)|) (m : ℤ) : δ < |x - (m + 1 / 2)| := by
  have hlow := Int.floor_le x
  have hhigh := Int.lt_floor_add_one x
  rcases lt_trichotomy m ⌊x⌋ with hlt | rfl | hgt
  · have hlt' : (m : ℝ) + 1 ≤ ⌊x⌋ := by exact_mod_cast hlt
    exact lt_abs.2 (.inl (by linarith))
  · exact h
  · have hgt' : (⌊x⌋ : ℝ) + 1 ≤ m := by exact_mod_cast hgt
    exact lt_abs.2 (.inr (by linarith))

/-! ### The model's sample rounds the real transform -/

/-- Far from every half-integer the scaled cosines round as the real transform does, which is in no tie band. -/
theorem roundsTo_of_far {x r : ℝ} (hxr : |x - r| ≤ 1 / 2 ^ 91) (hfar : ∀ m : ℤ, 1 / 2 ^ 9 < |x - (m + 1 / 2)|) :
    RoundsTo r ⌊x + 1 / 2⌋ := by
  have hround := floor_half_eq hxr fun m => lt_trans (by norm_num) (hfar m)
  refine ⟨fun _ => hround.symm, fun m hm => absurd (hfar m) (not_lt.2 ?_)⟩
  calc |x - (m + 1 / 2)| ≤ |x - r| + |r - (m + 1 / 2)| := abs_sub_le ..
    _ ≤ 1 / 2 ^ 91 + 1 / 2 ^ 10 := add_le_add hxr (hm.trans tieEps_real.2)
    _ ≤ 1 / 2 ^ 9 := by norm_num

/-- Within the tie band of a half-integer either neighbour will do. -/
theorem roundsTo_of_band {r : ℝ} {f : ℤ} (h : |r - (f + 1 / 2)| ≤ (Config.tieEps : ℝ)) (up : Bool) :
    RoundsTo r (f + if up then 1 else 0) := by
  refine ⟨fun hout => absurd (hout f) (not_lt.2 h), fun m hm => ?_⟩
  have heps : (Config.tieEps : ℝ) ≤ 1 / 4 := tieEps_real.2.trans (by norm_num)
  obtain rfl := half_unique h (hm.trans heps) heps
  cases up
  · exact .inl (add_zero _)
  · exact .inr rfl

/-- Near a half-integer but outside its band the side decides. -/
theorem roundsTo_of_near {r : ℝ} {f : ℤ} (h : |r - (f + 1 / 2)| ≤ 1 / 4) (hout : (Config.tieEps : ℝ) < |r - (f + 1 / 2)|) :
    RoundsTo r (if (f : ℝ) + 1 / 2 ≤ r then f + 1 else f) := by
  have heps : (Config.tieEps : ℝ) ≤ 1 / 4 := tieEps_real.2.trans (by norm_num)
  refine ⟨fun _ => ?_, fun m hm => ?_⟩
  · rw [abs_le] at h
    split_ifs with hside
    · refine (Int.floor_eq_iff.2 ⟨?_, ?_⟩).symm <;> push_cast <;> linarith [h.2]
    · refine (Int.floor_eq_iff.2 ⟨?_, ?_⟩).symm <;> linarith [h.1]
  · obtain rfl := half_unique h (hm.trans heps) le_rfl
    exact absurd hout (not_lt.2 hm)

/-- R262 for one sample before its clamp, in the order of `floatRound`'s branches. -/
theorem floatRound_roundsTo (b : Blk) (y x : Fin 8) :
    RoundsTo (realSample b y x) (floatRound b y x (scaledSample (rowSums b) y x)) := by
  have hclose := scaledSample_close b y x
  set n := scaledSample (rowSums b) y x
  have hpos : (0 : ℝ) < sampleScale := by exact_mod_cast sampleScale_pos
  have hdist := tieDistance_eq n
  have hfloor := floor_intCast_div (K := ℝ) n sampleScale_pos
  have hcut : 2 * sampleScale < tieDistance n * 2 ^ 9 ↔
      1 / 2 ^ 9 < |(n : ℝ) / (sampleScale : ℝ) - ((n / sampleScale : ℤ) + 1 / 2)| := by
    rw [← Int.cast_lt (R := ℝ), div_lt_iff₀ (by norm_num)]
    push_cast [hdist]
    constructor <;> intro h <;> nlinarith
  by_cases hfar : 2 * sampleScale < tieDistance n * 2 ^ 9
  · rw [floatRound, if_pos hfar, roundScaled_eq]
    exact roundsTo_of_far hclose (far_of_far_floor (by norm_num) (hfloor ▸ hcut.1 hfar))
  · have hnear : |realSample b y x - ((n / sampleScale : ℤ) + 1 / 2)| ≤ 1 / 4 := by
      calc _ ≤ |realSample b y x - n / sampleScale| + |(n : ℝ) / sampleScale - ((n / sampleScale : ℤ) + 1 / 2)| :=
            abs_sub_le ..
        _ ≤ 1 / 2 ^ 91 + 1 / 2 ^ 9 := add_le_add ((abs_sub_comm _ _).trans_le hclose) (not_lt.1 (mt hcut.2 hfar))
        _ ≤ 1 / 4 := by norm_num
    rw [floatRound, if_neg hfar]
    by_cases hband : inTieBand b y x (n / sampleScale) = true
    · rw [if_pos hband]
      exact roundsTo_of_band ((inTieBand_iff ..).1 hband) _
    · simp only [if_neg hband, signPast_zero]
      exact roundsTo_of_near hnear (not_le.1 (mt (inTieBand_iff ..).2 hband))

/-! ### The whole block -/

theorem clamp_eq_max_min (v : Int) {lo hi : Int} (h : lo ≤ hi) : clamp v lo hi = max lo (min hi v) := by
  unfold clamp
  split_ifs <;> omega

theorem toInt_toWord_clamp (v : Int) : (toWord (clamp v (-128) 127)).toInt = max (-128) (min 127 v) := by
  obtain ⟨hlo, hhi⟩ := clamp_mem_Icc v (show (-128 : Int) ≤ 127 by decide)
  rw [toInt_toWord (by omega) (by omega), clamp_eq_max_min v (by decide)]

/-- Every entry of the float transform is a rounded real sample, clamped. -/
theorem floatIdct_rounds (b : Blk) (y x : Fin 8) :
    ∃ z, RoundsTo (realSample b y x) z ∧ (blkGet (floatIdct b) (8 * y + x)).toInt = max (-128) (min 127 z) := by
  refine ⟨_, floatRound_roundsTo b y x, ?_⟩
  have hk : 8 * y.val + x.val < 64 := by omega
  have hrow : (8 * y.val + x.val) / 8 = y.val := by omega
  have hcol : (8 * y.val + x.val) % 8 = x.val := by omega
  rw [blkGet, vec_getD _ _ _ hk, floatIdct, vecOfFn_getElem, toInt_toWord_clamp, hrow, hcol]

theorem exec_idct_of_float {s : State} (h : s.idctVariant = 0 ∨ s.idctVariant = 1) :
    exec .idct s = .next { s with blk := floatIdct s.blk } := by
  apply exec_idct_of_some
  rcases h with h | h <;> rw [h] <;> rfl

/-- Settles O43: each sample is the scaled sample rounded, which is within 2^-91 of the real one (`scaledSample_close`). -/
theorem floatIdctRoundsTransform : Obligations.FloatIdctRoundsTransform := by
  intro s hvariant
  obtain ⟨hpos, hle⟩ := tieEps_range
  refine ⟨floatIdct s.blk, exec_idct_of_float hvariant, hpos, hle, fun y x => ?_⟩
  intro cof r eps cut sample
  obtain ⟨z, ⟨hout, hband⟩, hsample⟩ := floatIdct_rounds s.blk y x
  have hr : r = realSample s.blk y x := by
    simp only [r, cof, realSample]
    congr 1
    refine Finset.sum_congr rfl fun v _ => Finset.sum_congr rfl fun u _ => ?_
    ring
  rw [hr]
  refine ⟨fun hfar => hsample.trans (congrArg cut (hout hfar)), fun n hn => ?_⟩
  exact (hband n hn).imp (fun h => hsample.trans (congrArg cut h)) fun h => hsample.trans (congrArg cut h)

end Sys2Proof.Machine
end

/-! ## The IDCT of a block with its DC entry alone (44_idct.md R260, R268) -/

section
namespace Sys2Proof.Machine

/-! ### The float transform -/

theorem blkGet_zero (b : Blk) : blkGet b 0 = b[0] := vec_getD _ _ _ _

theorem blkGet_eq_zero {b : Blk} (h : ∀ k : Fin 64, k.val ≠ 0 → b[k] = 0) {k : Nat} (hk : k < 64) (hne : k ≠ 0) :
    blkGet b k = 0 := (vec_getD _ _ _ hk).trans (h ⟨k, hk⟩ hne)

theorem realSample_of_dcOnly {b : Blk} (h : ∀ k : Fin 64, k.val ≠ 0 → b[k] = 0) (y x : ℕ) :
    realSample b y x = ((b[0]).toInt : ℝ) / 8 := by
  have hsqrt : Real.sqrt 2 * Real.sqrt 2 = 2 := Real.mul_self_sqrt (by norm_num)
  rw [realSample, Finset.sum_eq_single 0, Finset.sum_eq_single 0]
  · simp only [Fin.val_zero, if_true, CharP.cast_eq_zero, mul_zero, zero_mul, zero_div, Real.cos_zero, mul_one,
      add_zero, blkGet_zero]
    rw [div_mul_div_comm, hsqrt]
    ring
  · intro u _ hu
    rw [blkGet_eq_zero h (by omega) (by have := Fin.val_ne_of_ne hu; simp at this ⊢; omega)]
    simp
  · simp
  · intro v _ hv
    refine Finset.sum_eq_zero fun u _ => ?_
    rw [blkGet_eq_zero h (by omega) (by have := Fin.val_ne_of_ne hv; simp at this ⊢; omega)]
    simp
  · simp

/-- Eighths off the half-integers are far from the tie band. -/
theorem roundsTo_eighth {c z : ℤ} (h : RoundsTo ((c : ℝ) / 8) z) (hc : c % 8 ≠ 4) : z = (c + 4) / 8 := by
  have hfloor : ⌊(c : ℝ) / 8 + 1 / 2⌋ = (c + 4) / 8 := by
    rw [← floor_intCast_div (K := ℝ) (c + 4) (by decide : (0 : ℤ) < 8)]
    congr 1
    push_cast
    ring
  refine (h.1 fun n => tieEps_real.2.trans_lt ?_).trans hfloor
  have hne : c - 8 * n - 4 ≠ 0 := by omega
  have hone : (1 : ℝ) ≤ |((c - 8 * n - 4 : ℤ) : ℝ)| := by exact_mod_cast Int.one_le_abs hne
  have hdist : |(c : ℝ) / 8 - (n + 1 / 2)| = |((c - 8 * n - 4 : ℤ) : ℝ)| / 8 := by
    rw [← abs_of_pos (show (0 : ℝ) < 8 by norm_num), ← abs_div, abs_of_pos (show (0 : ℝ) < 8 by norm_num)]
    push_cast
    congr 1
    ring
  rw [hdist]
  linarith

/-- A half-integer rounds to one of its neighbours. -/
theorem roundsTo_half {c z : ℤ} (h : RoundsTo ((c : ℝ) / 8) z) (hc : c % 8 = 4) :
    z = (c + 4) / 8 ∨ z = (c + 4) / 8 - 1 := by
  obtain ⟨q, rfl⟩ : ∃ q, c = 8 * q + 4 := ⟨(c - 4) / 8, by omega⟩
  have hhalf : ((8 * q + 4 : ℤ) : ℝ) / 8 - (q + 1 / 2) = 0 := by
    push_cast
    ring
  rcases h.2 q (by rw [hhalf, abs_zero]; exact tieEps_real.1.le) with hz | hz <;> omega

theorem blkGet_row_col (b : Blk) (k : Fin 64) : blkGet b (8 * (k.val / 8) + k.val % 8) = b[k] := by
  rw [Nat.div_add_mod]
  exact vec_getD _ _ _ k.isLt

/-- The entries of the float transform, by `floatIdct_rounds` at each row and column. -/
theorem floatIdct_dcOnly {b : Blk} (h : ∀ k : Fin 64, k.val ≠ 0 → b[k] = 0) (k : Fin 64) :
    ∃ z, RoundsTo (((b[0]).toInt : ℝ) / 8) z ∧ ((floatIdct b)[k]).toInt = max (-128) (min 127 z) := by
  obtain ⟨z, hz, hsample⟩ := floatIdct_rounds b ⟨k.val / 8, by omega⟩ ⟨k.val % 8, by omega⟩
  rw [realSample_of_dcOnly h] at hz
  exact ⟨z, hz, (congrArg BitVec.toInt (blkGet_row_col _ k)).symm.trans hsample⟩

/-! ### Chen-Wang: both passes take their short path -/

theorem rowPass_of_rest_zero {r : Vector Word 8} (h : ∀ (i : Nat) (hi : i < 8), i ≠ 0 → r[i] = 0) :
    rowPass r = Vector.replicate 8 (r[0] <<< 3) := by
  simp [rowPass, h]

theorem colPass_of_rest_zero {r : Vector Word 8} (h : ∀ (i : Nat) (hi : i < 8), i ≠ 0 → r[i] = 0) :
    colPass r = Vector.replicate 8 (clampSample (asr (r[0] + 32) 6)) := by
  simp [colPass, h]

/-- The row passes spread the DC entry along row 0. -/
theorem rowPasses_dcOnly {b : Blk} (h : ∀ k : Fin 64, k.val ≠ 0 → b[k] = 0) {i j : Nat} (hi : i < 8) (hj : j < 8) :
    blkGet (rowPasses b) (8 * i + j) = if i = 0 then b[0] <<< 3 else 0 := by
  have hrest : ∀ (u : Nat) (hu : u < 8), u ≠ 0 → (rowOf b i)[u] = 0 := fun u hu hne => by
    rw [rowOf, vecOfFn_getElem]
    exact blkGet_eq_zero h (by omega) (by simp only; omega)
  have hrow : (8 * i + j) / 8 = i := by omega
  have hcol : (8 * i + j) % 8 = j := by omega
  rw [blkGet, vec_getD _ _ _ (by omega), rowPasses, vecOfFn_getElem]
  simp only [hrow, hcol]
  rw [groupGet_vecOfFn _ hi hj, rowPass_of_rest_zero hrest, Vector.getElem_replicate, rowOf, vecOfFn_getElem]
  split_ifs with hi0
  · subst hi0
    exact congrArg (fun w : Word => w <<< 3) (blkGet_zero b)
  · rw [show 8 * i + (⟨0, by decide⟩ : Fin 8).val = 8 * i from rfl, blkGet_eq_zero h (by omega) (by omega)]
    rfl

/-- The column passes then round it in every column (R267). -/
theorem chenWangIdct_dcOnly {b : Blk} (h : ∀ k : Fin 64, k.val ≠ 0 → b[k] = 0) (k : Fin 64) :
    (chenWangIdct b)[k] = clampSample (asr (b[0] <<< 3 + 32) 6) := by
  have hcolumn : ∀ (u : Nat) (hu : u < 8), (colOf (rowPasses b) (k.val % 8))[u] = if u = 0 then b[0] <<< 3 else 0 := by
    intro u hu
    rw [colOf, vecOfFn_getElem]
    exact rowPasses_dcOnly h hu (by omega)
  rw [Fin.getElem_fin, chenWangIdct, colPasses, vecOfFn_getElem, groupGet_vecOfFn _ (by omega) (by omega),
    colPass_of_rest_zero fun u hu hne => (hcolumn u hu).trans (if_neg hne), Vector.getElem_replicate, hcolumn 0 (by decide),
    if_pos rfl]

/-- Below 2^27 the shifts of the short paths lose nothing. -/
theorem toInt_asr_shiftLeft {w : Word} (hlo : -2 ^ 27 < w.toInt) (hhi : w.toInt < 2 ^ 27) :
    (asr (w <<< 3 + 32) 6).toInt = (w.toInt + 4) / 8 := by
  have hsum : (w <<< 3 + 32).toInt = 8 * w.toInt + 32 := by
    rw [BitVec.toInt_eq_toNat_cond] at hlo hhi ⊢
    rw [BitVec.toInt_eq_toNat_cond, BitVec.toNat_add, BitVec.toNat_shiftLeft]
    simp only [BitVec.reduceToNat, Nat.shiftLeft_eq]
    split_ifs at * <;> omega
  rw [asr, BitVec.toInt_sshiftRight, hsum, Int.shiftRight_eq_div_pow]
  omega

theorem exec_idct_of_chenWang {s : State} (h : s.idctVariant = 2) :
    exec .idct s = .next { s with blk := chenWangIdct s.blk } := by
  apply exec_idct_of_some
  rw [h]
  rfl

/-- Settles O42: the real transform is c/8 everywhere, and Chen-Wang's two short paths compute it with one rounding. -/
theorem idctOfDcOnly : Obligations.IdctOfDcOnly := by
  intro s c hlo hhi hc hzero
  subst hc
  intro cut
  refine ⟨fun hvariant => ⟨_, exec_idct_of_chenWang hvariant, fun k => ?_⟩,
    fun hvariant => ⟨_, exec_idct_of_float hvariant, fun hoff k => ?_, fun hhalf k => ?_⟩⟩
  · rw [chenWangIdct_dcOnly hzero, clampSample, toInt_toWord_clamp]
    exact congrArg cut (toInt_asr_shiftLeft hlo hhi)
  · obtain ⟨z, hz, hsample⟩ := floatIdct_dcOnly hzero k
    exact hsample.trans (congrArg cut (roundsTo_eighth hz hoff))
  · obtain ⟨z, hz, hsample⟩ := floatIdct_dcOnly hzero k
    exact (roundsTo_half hz hhalf).imp (fun h => hsample.trans (congrArg cut h)) fun h => hsample.trans (congrArg cut h)

/-! ### The zero block -/

theorem idctBody_zero {im : BitVec 2} {b b' : Blk} (h : idctBody im b = some b') (hzero : ∀ k : Fin 64, b[k] = 0)
    (k : Fin 64) : b'[k] = 0 := by
  have hdc : b[0] = 0 := hzero 0
  have hrest : ∀ k : Fin 64, k.val ≠ 0 → b[k] = 0 := fun k _ => hzero k
  rw [idctBody] at h
  split_ifs at h <;> cases h
  · rw [chenWangIdct_dcOnly hrest, hdc]
    decide
  · obtain ⟨z, hz, hsample⟩ := floatIdct_dcOnly hrest k
    rw [hdc] at hz
    obtain rfl : z = 0 := roundsTo_eighth hz (by decide)
    exact BitVec.toInt_inj.1 hsample

/-- Settles O41: the samples are clamped (`idctBody_isSample`), and IM = 0 and IM = 1 select one function. -/
theorem idctSamplesInRange : Obligations.IdctSamplesInRange := by
  refine ⟨fun s hvariant => ?_, fun s c0 c1 h0 h1 => ?_⟩
  · obtain ⟨b, hb⟩ := idctBody_eq_some hvariant s.blk
    exact ⟨b, exec_idct_of_some hb, idctBody_isSample hb, idctBody_zero hb⟩
  · exact ⟨floatIdct s.blk, exec_idct_of_float (s := { s with config := c0 }) (.inl h0),
      exec_idct_of_float (s := { s with config := c1 }) (.inr h1)⟩

end Sys2Proof.Machine
end

/-! ## The arithmetic stages: DEQUANT, REORDER, LEVEL_SHIFT and DECODE_BLOCK (43_dequant_reorder.md R242, R247,
45_level_shift_output.md R290, R296) -/

section
namespace Sys2Proof.Machine

/-! ### Narrowing 64 exact values to words -/

/-- What DEQUANT and LEVEL_SHIFT do with their exact values: the words, or the first index whose value leaves 32 bits. -/
def narrow (p : Vector Int 64) : Except (BitVec 6) Blk :=
  match firstBad (fun v => !fits32 v) p with
  | some k => .error k
  | none => .ok (vecMap toWord p)

theorem dequantBody_eq_narrow (b : Blk) (q : Vector (BitVec 16) 64) :
    dequantBody b q = narrow (vecOfFn (dequantProduct b q)) := rfl

theorem levelShiftBody_eq_narrow (b : Blk) : levelShiftBody b = narrow (vecMap (fun w => w.toInt + 128) b) := rfl

theorem fits32_iff (v : Int) : fits32 v = true ↔ -2147483648 ≤ v ∧ v ≤ 2147483647 := by
  rw [fits32, Bool.and_eq_true, decide_eq_true_iff, decide_eq_true_iff]

/-- `firstBad` reports index `k` when it is the first bad one. -/
theorem firstBad_of_first {α : Type} {bad : α → Bool} {v : Vector α 64} {k : Fin 64} (hk : bad v[k] = true)
    (hfirst : ∀ j : Fin 64, j < k → bad v[j] = false) : firstBad bad v = some (BitVec.ofNat 6 k) := by
  have hval : (BitVec.ofNat 6 k.val).toNat = k.val := Nat.mod_eq_of_lt k.isLt
  refine (firstBad_eq_some ..).2 ⟨?_, fun j hj => hfirst j (by omega)⟩
  simp only [hval]
  exact hk

section
variable {p : Vector Int 64} {f : Fin 64 → Int} (hp : ∀ k : Fin 64, p[k] = f k)
include hp

theorem narrow_of_fits (h : ∀ k, -2147483648 ≤ f k ∧ f k ≤ 2147483647) :
    ∃ b, narrow p = .ok b ∧ ∀ k : Fin 64, (b[k]).toInt = f k := by
  have hnone : firstBad (fun v => !fits32 v) p = none :=
    (firstBad_eq_none ..).2 fun k => by rw [hp, (fits32_iff _).2 (h k), Bool.not_true]
  refine ⟨vecMap toWord p, by rw [narrow, hnone], fun k => ?_⟩
  have hk := h k
  rw [← hp, Fin.getElem_fin] at hk ⊢
  rw [vecMap_getElem, toInt_toWord (by omega) (by omega)]
  rfl

theorem narrow_of_first_wide {k : Fin 64} (hk : f k < -2147483648 ∨ 2147483647 < f k)
    (hfirst : ∀ j : Fin 64, j < k → -2147483648 ≤ f j ∧ f j ≤ 2147483647) :
    narrow p = .error (BitVec.ofNat 6 k) := by
  have hbad : (!fits32 p[k]) = true := by
    rw [hp, Bool.not_eq_true', ← Bool.not_eq_true, fits32_iff]
    omega
  have hsome := firstBad_of_first (bad := fun v => !fits32 v) hbad fun j hj => by
    rw [hp, (fits32_iff _).2 (hfirst j hj), Bool.not_true]
  rw [narrow, hsome]

end

theorem infoRangeFault_eq (stage : Byte) (k : Fin 64) :
    infoRangeFault stage (BitVec.ofNat 6 k) = BitVec.ofNat 32 (stage.toNat + 256 * k.val) := by
  refine BitVec.eq_of_toNat_eq ?_
  simp only [infoRangeFault, toNat_append_add, BitVec.toNat_ofNat]
  omega

/-- A RangeFault of a stage that works on BLK (60_exceptions.md R364). -/
theorem stopsBlock_of_range {i : Instr} {s : State} {stage : Byte} {k : Fin 64}
    (h : exec i s = .next (s.havocBlk.enterFault i.head .range (infoRangeFault stage (BitVec.ofNat 6 k)) s.br.pos)) :
    StopsBlock i s (stage.toNat + 256 * k.val) := by
  rw [infoRangeFault_eq] at h
  exact ⟨_, _, h⟩

/-! ### DEQUANT -/

/-- Settles O37: the products, narrowed. -/
theorem dequantMultiplies : Obligations.DequantMultiplies := by
  refine ⟨fun s t => ?_, fun s tq htq => ?_⟩
  · intro q prod i
    have hprod (k : Fin 64) : (vecOfFn (dequantProduct s.blk q))[k] = prod k := vecOfFn_getElem _ _ _
    refine ⟨fun hq => ?_, fun hq hfits => ?_, fun k hq hwide hfirst => ?_⟩
    · rw [FailsCheck, exec_dequant_of_not_loaded (Bool.eq_false_iff.1 hq), infoTable_quant]
      rfl
    · obtain ⟨b, hb, hval⟩ := narrow_of_fits hprod hfits
      exact ⟨b, exec_dequant_of_ok hq hb, hval⟩
    · exact stopsBlock_of_range (exec_dequant_of_error hq (narrow_of_first_wide hprod hwide hfirst))
  · have hinfo := infoPrecision_field 3 tq
    simp only [FailsCheck, exec, execDequant, (idOf_eq_none tq).2 htq, hinfo]
    rfl

/-! ### REORDER -/

theorem zigzagWalk_getD (k : Fin 64) : zigzagWalk.getD k.val 0 = (zigzagPerm.symm k).val := by revert k; decide

/-- Settles O38: the walk is the inverse of ZZINDEX (`zigzagPerm`), so it meets every cell once. -/
theorem reorderWalksDiagonals : Obligations.ReorderWalksDiagonals := by
  refine fun s => ⟨reorderBody s.blk, exec_reorder s, fun k => ⟨?_, fun j hj => ?_⟩⟩
  · rw [zigzagWalk_getD, vec_getD _ _ _ (zigzagPerm.symm k).isLt, ← Fin.getElem_fin, reorderBody_getElem]
    simp only [Equiv.apply_symm_apply]
  · rw [zigzagWalk_getD, zigzagWalk_getD] at hj
    exact zigzagPerm.symm.injective (Fin.val_injective hj)

/-! ### LEVEL_SHIFT -/

theorem exec_levelShift_of_error {s : State} {k : BitVec 6} (h : levelShiftBody s.blk = .error k) :
    exec .levelShift s =
      .next (s.havocBlk.enterFault Instr.levelShift.head .range (infoRangeFault 3 k) s.br.pos) := by
  simp only [exec, execLevelShift, h]

theorem levelShift_getElem (b : Blk) (k : Fin 64) :
    (vecMap (fun w : Word => w.toInt + 128) b)[k] = (b[k]).toInt + 128 := vecMap_getElem ..

/-- Settles O44: a word plus 128 leaves 32 bits only upwards. -/
theorem levelShiftAdds : Obligations.LevelShiftAdds := by
  refine fun s => ⟨fun hfits => ?_, fun k hwide hfirst => ?_⟩
  · obtain ⟨b, hb, hval⟩ := narrow_of_fits (levelShift_getElem s.blk) fun k => by
      have := hfits k
      have := BitVec.le_toInt (s.blk[k])
      omega
    exact ⟨b, exec_levelShift_of_ok hb, hval⟩
  · refine stopsBlock_of_range (exec_levelShift_of_error (narrow_of_first_wide (levelShift_getElem s.blk) ?_ fun j hj => ?_))
    · omega
    · have := hfirst j hj
      have := BitVec.le_toInt (s.blk[j])
      omega

/-! ### DECODE_BLOCK -/

/-- On samples LEVEL_SHIFT gives the bytes 128 above them. -/
theorem levelShiftBody_bytes {b out : Blk} (h : ∀ k : Fin 64, IsSample b[k]) (hout : levelShiftBody b = .ok out)
    (k : Fin 64) : (out[k]).toInt = (b[k]).toInt + 128 ∧ 0 ≤ (out[k]).toInt ∧ (out[k]).toInt ≤ 255 := by
  obtain ⟨b', hb', hval⟩ := narrow_of_fits (levelShift_getElem b) fun k => by
    obtain ⟨hlo, hhi⟩ := h k
    omega
  rw [levelShiftBody_eq_narrow, hb'] at hout
  cases hout
  obtain ⟨hlo, hhi⟩ := h k
  exact ⟨hval k, by rw [hval]; omega, by rw [hval]; omega⟩

/-- Settles O46: the decode rebuilds the block (as in O34), and the stages after it cannot stop. -/
theorem decodeBlockRebuilds : Obligations.DecodeBlockRebuilds := by
  intro s n d kd raw items k b b1 b2 ke l rest e p sl dc ac cat v hs hok hsl hvd hod hva hoa hq him hkd hcat hraw hlo hhi
    hplace he ha hp hstream hdeq hidct
  have hserves := Serves.of_eq l _ e p hstream hp
  simp only [List.append_assoc] at hserves
  obtain ⟨br, l', hrun, -, hahead, hrest, hreads⟩ := decodeBody_rebuilds (s.coefTables sl) hs hvd hod hva hoa (s.predAt n) kd
    raw hkd hcat hraw hlo hhi items k b hplace ke he s.readCtx hok l rest e ha hserves
  obtain ⟨i, herr, -⟩ | ⟨b1', b2', out, hdeq', hidct', hshift, -, hpipe⟩ := pipeline_cases him (s.quant sl.tq).q b
  · cases hdeq.symm.trans herr
  cases hdeq.symm.trans hdeq'
  cases hidct.symm.trans hidct'
  refine ⟨br, out, exec_decodeBlock_of_ok ⟨hsl, hvd, hva⟩ hq hrun hpipe,
    levelShiftBody_bytes (idctBody_isSample hidct) hshift, fun hp0 => ?_, hreads⟩
  simp only [hp0, List.replicate_zero, List.append_nil, List.append_assoc] at hstream
  rw [← hrest hstream]
  exact hahead

end Sys2Proof.Machine
end

/-! ## Slots, predictors and quantization tables (42_coefficient.md R200, R201, 43_dequant_reorder.md R240) -/

section
namespace Sys2Proof.Machine

/-! ### TBL_VALID and the four-entry files -/

theorem pack4_getLsbD (f : Fin 4 → Bool) (t : Fin 4) : (pack4 f).getLsbD t = f t := by
  simp only [pack4, BitVec.getLsbD_append]
  fin_cases t <;> simp

/-- TBL_VALID: one bit per table and slot (10_state.md R40). -/
theorem tblValid_getLsbD (s : State) (t : Fin 4) :
    s.tblValid.getLsbD t = s.qt[t].valid ∧ s.tblValid.getLsbD (4 + t) = s.htDc[t].valid ∧
      s.tblValid.getLsbD (8 + t) = s.htAc[t].valid ∧ s.tblValid.getLsbD (12 + t) = s.slot[t].valid := by
  have hlt := t.isLt
  simp only [State.tblValid, BitVec.getLsbD_append]
  refine ⟨?_, ?_, ?_, ?_⟩
  · rw [if_pos hlt, pack4_getLsbD]
  · rw [if_neg (by omega), if_pos (by omega), Nat.add_sub_cancel_left, pack4_getLsbD]
  · rw [if_neg (by omega), if_neg (by omega), if_pos (by omega), show 8 + t.val - 4 - 4 = t.val by omega, pack4_getLsbD]
  · rw [if_neg (by omega), if_neg (by omega), if_neg (by omega), if_pos (by omega),
      show 12 + t.val - 4 - 4 - 4 = t.val by omega, pack4_getLsbD]

theorem getElem_set_id {α : Type} (v : Vector α 4) (n : BitVec 2) (x : α) (t : Fin 4) :
    (v.set n.toNat x n.isLt)[t] = if t.val = n.toNat then x else v[t] := by
  rw [Fin.getElem_fin, Vector.getElem_set]
  exact if_congr eq_comm rfl rfl

theorem exists_id {v : BitVec 4} (h : v.toNat ≤ 3) : ∃ t : BitVec 2, v = t.setWidth 4 := by
  obtain ⟨t, ht⟩ := Option.ne_none_iff_exists'.1 fun hnone => Nat.not_lt.2 h ((idOf_eq_none v).1 hnone)
  exact ⟨t, (idOf_eq_some v t).1 ht⟩

/-! ### SCAN_SETUP -/

theorem exec_scanSetup (s : State) (n d a q : BitVec 2) (ci : Byte) :
    exec (.scanSetup (n.setWidth 4) (d.setWidth 4) (a.setWidth 4) (q.setWidth 4) ci) s =
      .next (s.setSlot n { valid := true, ci := ci, td := d, ta := a, tq := q }) := by
  simp only [exec, execScanSetup, idOf_setWidth]

/-- The range checks of SCAN_SETUP, in the order of its text. -/
theorem scanSetup_checks (s : State) (n td ta tq : BitVec 4) (ci : Byte) :
    let i := Instr.scanSetup n td ta tq ci
    (3 < n.toNat → FailsCheck i s 13 3) ∧
    (n.toNat ≤ 3 → 3 < td.toNat → FailsCheck i s 5 (td.toNat * 16 + 4)) ∧
    (n.toNat ≤ 3 → td.toNat ≤ 3 → 3 < ta.toNat → FailsCheck i s 5 (ta.toNat * 16 + 5)) ∧
    (n.toNat ≤ 3 → td.toNat ≤ 3 → ta.toNat ≤ 3 → 3 < tq.toNat → FailsCheck i s 5 (tq.toNat * 16 + 3)) := by
  have htd := infoPrecision_field 4 td
  have hta := infoPrecision_field 5 ta
  have htq := infoPrecision_field 3 tq
  simp only [FailsCheck, exec, execScanSetup]
  refine ⟨fun h => ?_, fun hn h => ?_, fun hn hd h => ?_, fun hn hd ha h => ?_⟩
  · simp only [(idOf_eq_none _).2 h]
    rfl
  · obtain ⟨n, rfl⟩ := exists_id hn
    simp only [idOf_setWidth, (idOf_eq_none _).2 h, htd]
    rfl
  · obtain ⟨n, rfl⟩ := exists_id hn
    obtain ⟨d, rfl⟩ := exists_id hd
    simp only [idOf_setWidth, (idOf_eq_none _).2 h, hta]
    rfl
  · obtain ⟨n, rfl⟩ := exists_id hn
    obtain ⟨d, rfl⟩ := exists_id hd
    obtain ⟨a, rfl⟩ := exists_id ha
    simp only [idOf_setWidth, (idOf_eq_none _).2 h, htq]
    rfl

/-- Settles O32: the slot written is the one entry that changes, and its VALID is its bit of TBL_VALID. -/
theorem slotsAndPredictors : Obligations.SlotsAndPredictors := by
  refine ⟨fun s => ⟨Vector.replicate 4 0, rfl, fun t => Vector.getElem_replicate t.isLt⟩, fun s n d a q ci => ?_,
    scanSetup_checks⟩
  refine ⟨_, exec_scanSetup s n d a q ci, getElem_set_id _ _ _, ?_⟩
  rw [(tblValid_getLsbD _ ⟨n.toNat, n.isLt⟩).2.2.2]
  exact congrArg Slot.valid (Vector.getElem_set_self _)

/-! ### QT_LOAD -/

/-- The 16-bit entries of QT_LOAD's data words, lower half first (30_encoding.md R97). -/
theorem entriesOf_toNat (ds : List Word) (k : Fin 64) :
    ((entriesOf ds)[k]).toNat = (ds.getD (k.val / 2) 0).toNat / 2 ^ (16 * (k.val % 2)) % 2 ^ 16 := by
  rw [Fin.getElem_fin, entriesOf, vecOfFn_getElem, field, BitVec.extractLsb'_toNat, Nat.shiftRight_eq_div_pow]
  rfl

theorem infoPrecision_entry (fld : BitVec 4) (e : BitVec 16) (k : Fin 64) :
    infoPrecision fld e (BitVec.ofNat 6 k) = BitVec.ofNat 32 (k.val * 2 ^ 24 + e.toNat * 16 + fld.toNat) := by
  refine BitVec.eq_of_toNat_eq ?_
  simp only [infoPrecision, toNat_append_add, BitVec.toNat_ofNat]
  omega

section
variable {pq : BitVec 4} {ds : List Word} (hlen : ds.length = 32) (s : State)
include hlen

theorem exec_qtLoad_of_wide (t : BitVec 2) {k : BitVec 6} (hk : firstWide (entriesOf ds) = some k) :
    exec (.qtLoad 0 (t.setWidth 4) ds) s = raiseCheck (.qtLoad 0 (t.setWidth 4) ds) .precisionRange
      (infoPrecision 7 ((entriesOf ds)[k.toNat]'k.isLt) k) s := by
  have hpq : ¬1 < (0 : BitVec 4).toNat := by decide
  simp only [exec, execQtLoad, hlen, ne_eq, not_true_eq_false, if_false, if_neg hpq, idOf_setWidth, if_true, hk]

theorem exec_qtLoad_of_ok (t : BitVec 2) (h : pq = 1 ∨ pq = 0 ∧ firstWide (entriesOf ds) = none) :
    exec (.qtLoad pq (t.setWidth 4) ds) s =
      .next (s.setQuant t { valid := true, prec := pq == 1, q := entriesOf ds }) := by
  have hpq : ¬1 < pq.toNat := by rcases h with rfl | ⟨rfl, -⟩ <;> decide
  have hwide : (if pq = 0 then firstWide (entriesOf ds) else none) = none := by
    rcases h with rfl | ⟨rfl, hnone⟩
    · rfl
    · exact (if_pos rfl).trans hnone
  simp only [exec, execQtLoad, hlen, ne_eq, not_true_eq_false, if_false, if_neg hpq, idOf_setWidth, hwide]

/-- The range checks of QT_LOAD on its two fields. -/
theorem qtLoad_checks (pq tq : BitVec 4) :
    (1 < pq.toNat → FailsCheck (.qtLoad pq tq ds) s 5 (pq.toNat * 16 + 6)) ∧
    (pq.toNat ≤ 1 → 3 < tq.toNat → FailsCheck (.qtLoad pq tq ds) s 5 (tq.toNat * 16 + 3)) := by
  have hinfoP := infoPrecision_field 6 pq
  have hinfoT := infoPrecision_field 3 tq
  simp only [FailsCheck, exec, execQtLoad, hlen, ne_eq, not_true_eq_false, if_false]
  refine ⟨fun h => ?_, fun hpq h => ?_⟩
  · simp only [if_pos h, hinfoP]
    rfl
  · simp only [if_neg (Nat.not_lt.2 hpq), (idOf_eq_none _).2 h, hinfoT]
    rfl

end

/-- Settles O36: the entries are the halves of the data words (`entriesOf_toNat`), and the wide entry reported is the first
one. -/
theorem qtLoadLoads : Obligations.QtLoadLoads := by
  intro s pq tq ds hlen i entry
  obtain ⟨hprec, hid⟩ := qtLoad_checks hlen s pq tq
  refine ⟨hprec, hid, fun k hpq htq hk hwide hfirst => ?_, ?_⟩
  · obtain ⟨t, rfl⟩ := exists_id htq
    obtain rfl : pq = 0 := BitVec.eq_of_toNat_eq hpq
    have hsome : firstWide (entriesOf ds) = some (BitVec.ofNat 6 k) := by
      refine firstBad_of_first (k := ⟨k, hk⟩) (decide_eq_true ?_) fun j hj => decide_eq_false (Nat.not_lt.2 ?_)
      · rw [entriesOf_toNat]
        exact hwide
      · rw [entriesOf_toNat]
        exact hfirst j hj
    have hinfo := infoPrecision_entry 7 ((entriesOf ds)[(⟨k, hk⟩ : Fin 64)]) ⟨k, hk⟩
    rw [entriesOf_toNat] at hinfo
    have hval : (BitVec.ofNat 6 k).toNat = k := Nat.mod_eq_of_lt hk
    have hrun := exec_qtLoad_of_wide hlen s t hsome
    simp only [hval] at hrun
    rw [FailsCheck, hrun]
    exact congrArg (fun info => raiseCheck _ _ info s) hinfo
  · rintro t rfl hload
    have hok : pq = 1 ∨ pq = 0 ∧ firstWide (entriesOf ds) = none := by
      refine hload.imp (fun h => BitVec.eq_of_toNat_eq h) fun ⟨h, hnarrow⟩ => ⟨BitVec.eq_of_toNat_eq h, ?_⟩
      refine (firstBad_eq_none ..).2 fun k => decide_eq_false (Nat.not_lt.2 ?_)
      rw [entriesOf_toNat]
      exact hnarrow k k.isLt
    refine ⟨_, _, exec_qtLoad_of_ok hlen s t hok, getElem_set_id _ _ _, rfl, ?_, entriesOf_toNat ds, ?_⟩
    · rw [beq_iff_eq]
      exact BitVec.toNat_inj.symm
    · rw [(tblValid_getLsbD _ ⟨t.toNat, t.isLt⟩).1]
      exact congrArg QuantTable.valid (Vector.getElem_set_self _)

end Sys2Proof.Machine
end

/-! ## Output records, pixels and the system commands (45_level_shift_output.md R292, 46_color.md, 47_system.md) -/

section
namespace Sys2Proof.Machine

/-! ### EMIT -/

/-- A sample's place in its word: byte `m` of the word that packs samples 4·j .. 4·j+3 (R293). -/
theorem packSamples_byte (b : Blk) (j : Nat) {m : Nat} (hm : m < 4) :
    (packSamples b j).toNat / 2 ^ (8 * m) % 256 = (field (blkGet b (4 * j + m)) 0 8).toNat := by
  have h0 := (field (blkGet b (4 * j)) 0 8).isLt
  have h1 := (field (blkGet b (4 * j + 1)) 0 8).isLt
  have h2 := (field (blkGet b (4 * j + 2)) 0 8).isLt
  have h3 := (field (blkGet b (4 * j + 3)) 0 8).isLt
  simp only [packSamples, toNat_append_add]
  interval_cases m <;> norm_num only [Nat.add_zero] <;> omega

/-- The low byte of a word that holds a byte is the word. -/
theorem field_byte_toNat {w : Word} (h : 0 ≤ w.toInt ∧ w.toInt ≤ 255) : ((field w 0 8).toNat : Int) = w.toInt := by
  obtain ⟨hlo, hhi⟩ := h
  rw [BitVec.toInt_eq_toNat_cond] at hlo hhi ⊢
  rw [field, BitVec.extractLsb'_toNat, Nat.shiftRight_zero]
  split_ifs at * <;> omega

theorem record_getD_sample (ci : Byte) (slot : BitVec 4) (d : Word) (b : Blk) {j : Nat} (hj : j < 16) :
    (record ci slot d b).getD (2 + j) 0 = packSamples b j := by
  rw [record, Nat.add_comm 2 j, List.getD_cons_succ, List.getD_cons_succ, List.getD_eq_getElem _ _ (by simpa using hj)]
  simp

theorem record_getD_head (ci : Byte) (n : BitVec 2) (d : Word) (b : Blk) :
    ((record ci (n.setWidth 4) d b).getD 0 0).toNat = ci.toNat + 256 * n.toNat := by
  rw [record, List.getD_cons_zero]
  simp only [toNat_append_add, BitVec.toNat_setWidth, BitVec.toNat_ofNat]
  omega

theorem firstNonByte_eq_none {b : Blk} (h : ∀ k : Fin 64, 0 ≤ (b[k]).toInt ∧ (b[k]).toInt ≤ 255) :
    firstNonByte b = none := by
  refine (firstBad_eq_none ..).2 fun k => ?_
  obtain ⟨hlo, hhi⟩ := h k
  rw [Bool.or_eq_false_iff, decide_eq_false_iff_not, decide_eq_false_iff_not]
  omega

theorem firstNonByte_eq_some {b : Blk} {k : Fin 64} (hk : (b[k]).toInt < 0 ∨ 255 < (b[k]).toInt)
    (hfirst : ∀ j : Fin 64, j < k → 0 ≤ (b[j]).toInt ∧ (b[j]).toInt ≤ 255) :
    firstNonByte b = some (BitVec.ofNat 6 k) := by
  refine firstBad_of_first (by simpa using hk) fun j hj => ?_
  obtain ⟨hlo, hhi⟩ := hfirst j hj
  rw [Bool.or_eq_false_iff, decide_eq_false_iff_not, decide_eq_false_iff_not]
  omega

theorem exec_emit_of_not_byte {s : State} {n : BitVec 2} {k : BitVec 6} (hslot : (s.slotAt n).valid = true)
    (h : firstNonByte s.blk = some k) (d : Word) :
    exec (.emit (n.setWidth 4) d) s = raiseCheck (.emit (n.setWidth 4) d) .range (infoRangeFault 4 k) s := by
  simp only [exec, execEmit, withSlot_of_valid hslot, h]

/-- Settles O45: the record word by word, and the checks in the order of R292. -/
theorem emitPushesRecord : Obligations.EmitPushesRecord := by
  refine ⟨fun s n d => ?_, fun s n d hn => withSlot_of_gt hn ..⟩
  intro i
  refine ⟨fun h => withSlot_of_not_valid (Bool.eq_false_iff.1 h) .., fun hslot hbytes => ?_,
    fun k hslot hk hfirst => ?_⟩
  · refine ⟨_, exec_emit_of_bytes hslot (firstNonByte_eq_none hbytes) d, record_length .., record_getD_head .., rfl,
      fun y x => ?_⟩
    have hsample : 4 * (2 * y.val + x.val / 4) + x.val % 4 = 8 * y.val + x.val := by omega
    have hk : 8 * y.val + x.val < 64 := by omega
    rw [Nat.add_assoc, record_getD_sample _ _ _ _ (by omega)]
    have hbyte := packSamples_byte s.blk (2 * y.val + x.val / 4) (Nat.mod_lt x.val (by decide : 0 < 4))
    rw [hsample, blkGet, vec_getD _ _ _ hk] at hbyte
    have hval := field_byte_toNat (hbytes ⟨_, hk⟩)
    rw [Fin.getElem_fin, ← hbyte] at hval
    rw [blkGet, vec_getD _ _ _ hk]
    exact_mod_cast hval
  · rw [FailsCheck, exec_emit_of_not_byte hslot (firstNonByte_eq_some hk hfirst), infoRangeFault_eq]
    rfl

/-! ### COLOR -/

theorem channel_eq_cut (v : Int) : ((channel v).toNat : Int) = max 0 (min 255 v) := by
  rw [channel_toNat, clamp_eq_max_min v (by decide)]

/-- A byte is its own channel. -/
theorem channel_byte (y : Byte) : channel y.toNat = y := by
  have hy := y.isLt
  have hcut := channel_eq_cut y.toNat
  exact BitVec.eq_of_toNat_eq (by omega)

/-- The exact rational formulas of R312. -/
theorem colorFloat_eq (y cb cr : Int) :
    let b : ℚ := (cb : ℚ) - 128
    let r : ℚ := (cr : ℚ) - 128
    colorFloat y cb cr = (channel ⌊(y : ℚ) + 1402 / 1000 * r + 1 / 2⌋,
      channel ⌊(y : ℚ) - 34414 / 100000 * b - 71414 / 100000 * r + 1 / 2⌋,
      channel ⌊(y : ℚ) + 1772 / 1000 * b + 1 / 2⌋) := by
  intro b r
  simp only [colorFloat, roundHalfUp_eq (K := ℚ) _ (by decide : (0 : ℤ) < 1000),
    roundHalfUp_eq (K := ℚ) _ (by decide : (0 : ℤ) < 100000)]
  push_cast
  congr <;> ring

/-- The fixed-point formulas of R313. -/
theorem colorInt_eq (y cb cr : Int) :
    let b : ℚ := (cb : ℚ) - 128
    let r : ℚ := (cr : ℚ) - 128
    colorInt y cb cr = (channel (y + ⌊(91881 * r + 32768) / 65536⌋),
      channel (y + ⌊(-22554 * b - 46802 * r + 32768) / 65536⌋), channel (y + ⌊(116130 * b + 32768) / 65536⌋)) := by
  intro b r
  simp only [colorInt, ← floor_intCast_div (K := ℚ) _ (by decide : (0 : ℤ) < 65536)]
  push_cast
  rfl

/-- With both chroma bytes at 128 the pixel is grey on either path. -/
theorem color_grey (y : Byte) (integer : Bool) :
    (if integer then colorInt y.toNat 128 128 else colorFloat y.toNat 128 128) = (y, y, y) := by
  have hthousand : roundHalfUp (1000 * (y.toNat : Int)) 1000 = y.toNat := by
    rw [roundHalfUp]
    omega
  have hhundred : roundHalfUp (100000 * (y.toNat : Int)) 100000 = y.toNat := by
    rw [roundHalfUp]
    omega
  cases integer
  · simp [colorFloat, hthousand, hhundred, channel_byte]
  · simp [colorInt, channel_byte]

/-- The channels that COLOR computes on the path selected. -/
def pixelOf (integer : Bool) (y cb cr : Byte) : Byte × Byte × Byte :=
  if integer then colorInt y.toNat cb.toNat cr.toNat else colorFloat y.toNat cb.toNat cr.toNat

theorem exec_color (s : State) (y cb cr : Byte) :
    exec (.color y cb cr) s =
      .next { s with resq := s.resq ++ [packRgba (pixelOf (s.config.getLsbD 3) y cb cr)] } := rfl

/-- Settles O48: the two paths' formulas over the rationals, and the grey case. -/
theorem colorConverts : Obligations.ColorConverts := by
  intro s y cb cr yy b' r' cut
  refine ⟨_, _, _, exec_color s y cb cr, fun hpath => ?_, fun hpath => ?_, ?_⟩
  · rw [hpath, pixelOf, if_neg Bool.false_ne_true, colorFloat_eq]
    exact ⟨channel_eq_cut _, channel_eq_cut _, channel_eq_cut _⟩
  · rw [hpath, pixelOf, if_pos rfl, colorInt_eq]
    exact ⟨channel_eq_cut _, channel_eq_cut _, channel_eq_cut _⟩
  · rintro rfl rfl
    have hgrey : pixelOf (s.config.getLsbD 3) y 128 128 = (y, y, y) := color_grey y _
    rw [hgrey]
    exact ⟨rfl, rfl, rfl⟩

/-! ### The system commands -/

/-- Settles O50: each command's one write, and the entry of BLK read back. -/
theorem systemCommands : Obligations.SystemCommands := by
  intro s tag ri k d
  have hread : ∀ u : State, exec (.blkRead k) u = .next { u with resq := u.resq ++ [u.blk[k.toNat]'k.isLt] } :=
    fun _ => rfl
  refine ⟨rfl, ?_, rfl, ⟨_, rfl, fun j => ?_, ?_⟩, _, hread s, (vec_getD _ _ _ k.isLt).symm⟩
  · have htag : tag.setWidth 32 = 0#16 ++ tag := BitVec.setWidth_eq_append (by decide)
    rw [← htag]
    rfl
  · rw [Fin.getElem_fin, Vector.getElem_set]
    exact if_congr eq_comm rfl rfl
  · rw [hread]
    simp only [Vector.getElem_set_self]

/-- HM is bit 0 of CONFIG. -/
theorem hm_eq_iff (config : BitVec 4) (hm : BitVec 1) : hm = config.extractLsb' 0 1 ↔ hm.toNat = config.toNat % 2 := by
  revert config hm
  decide

/-- Settles O51: the tables are invalidated exactly when the bit HM changes. -/
theorem setConfigSelects : Obligations.SetConfigSelects := by
  intro s hm cm im
  refine ⟨fun him => ?_, fun him => ?_⟩
  · simp only [FailsCheck, exec, execSetConfig, if_pos him]
    rfl
  have hconfig : (cm ++ im ++ hm).toNat = hm.toNat + 2 * im.toNat + 8 * cm.toNat := by
    simp only [toNat_append_add]
    omega
  simp only [exec, execSetConfig, if_neg him]
  by_cases hsame : hm.toNat = s.config.toNat % 2
  · rw [if_neg (not_not.2 ((hm_eq_iff ..).2 hsame))]
    exact ⟨s.htDc, s.htAc, _, rfl, hconfig, fun _ => ⟨rfl, rfl⟩, fun hne => absurd hsame hne⟩
  · rw [if_pos (mt (hm_eq_iff ..).1 hsame)]
    refine ⟨_, _, _, rfl, hconfig, fun heq => absurd heq hsame, fun _ t => ⟨?_, ?_⟩⟩ <;>
      exact vecMap_getElem ..

end Sys2Proof.Machine
end

/-! ## The segment ports and the race (20_memory.md R63, R72, R73) -/

section
namespace Sys2Proof.Machine

/-! ### A read that may race with writes -/

/-- A read of an item with old values in flight: one draw among them (20_memory.md R72). -/
def raceRead {α : Type} (now : α) (olds : List α) : Reader α := fun c =>
  .ok (choose now olds c.draws).1 { c with draws := (choose now olds c.draws).2 }

/-- The old values of one byte that are in flight. -/
def Segment.flying (g : Segment) (a : Nat) : List Byte := (g.oldBytes.filter fun x => x.1 == a).map fun x => x.2

theorem readByte_eq_raceRead (g : Segment) (a : Nat) : readByte g a = raceRead (g.byte a) (g.flying a) := rfl

theorem readLen_eq_raceRead (g : Segment) : readLen g = raceRead g.len g.oldLens := rfl

section
variable {α : Type} (now : α) (olds : List α)

theorem raceRead_mem {c c' : ReadCtx} {v : α} (h : raceRead now olds c = .ok v c') : v ∈ now :: olds := by
  cases h
  exact choose_mem ..

theorem raceRead_nil (c : ReadCtx) : raceRead now [] c = .ok now c := rfl

/-- With a value in flight the read takes one draw, and the index drawn picks among all of them. -/
theorem raceRead_cons (old dflt : α) (c : ReadCtx) {j : Nat}
    (hj : Config.freeNat c.draws % (now :: old :: olds).length = j) :
    raceRead now (old :: olds) c = .ok ((now :: old :: olds).getD j dflt) { c with draws := c.draws + 1 } := by
  subst hj
  have hlt : Config.freeNat c.draws % (now :: old :: olds).length < (now :: old :: olds).length :=
    Nat.mod_lt _ (Nat.succ_pos _)
  have hdefault : (now :: old :: olds).getD (Config.freeNat c.draws % (now :: old :: olds).length) now =
      (now :: old :: olds).getD (Config.freeNat c.draws % (now :: old :: olds).length) dflt := by
    rw [List.getD_eq_getElem _ _ hlt, List.getD_eq_getElem _ _ hlt]
  rw [← hdefault]
  rfl

/-- What a read may see after a write that puts `old` in flight only while BUSY = 1. -/
theorem mem_of_inFlight {busy : Bool} {old v : α} (h : v ∈ now :: if busy then old :: olds else olds) :
    v ∈ now :: old :: olds := by
  cases busy
  · rcases List.mem_cons.1 h with rfl | hold
    · exact List.mem_cons_self
    · exact List.mem_cons_of_mem _ (List.mem_cons_of_mem _ hold)
  · exact h

end

/-! ### The two writes -/

theorem field_len_toNat (w : Word) : (field w 0 25).toNat = w.toNat % 2 ^ 25 := by
  rw [field, BitVec.extractLsb'_toNat, Nat.shiftRight_zero]

/-- The new length is w[24:0] cut to SEG_SIZE, which fits in the register. -/
theorem segLenWrite_len (w : Word) (s : State) :
    (segLenWrite w s).seg.len.toNat = min (w.toNat % 2 ^ 25) Config.segSize := by
  have hsize := segSize_range.2
  simp only [segLenWrite, BitVec.toNat_ofNat, field_len_toNat]
  omega

theorem hostAccess_segLen (s : State) (w : Word) :
    hostAccess ⟨busAddress 0x24, 4, .write w⟩ s = .next { s with seg := (segLenWrite w s).seg } :=
  hostAccess_write 0x24 (by decide) w s

theorem hostAccess_segData (s : State) (w : Word) :
    hostAccess ⟨busAddress 0x20, 4, .write w⟩ s = .next { s with seg := (segDataWrite w s).seg } :=
  (hostAccess_write 0x20 (by decide) w s).trans (congrArg Host.Outcome.next (segDataWrite_frame w s))

/-- A write of SEG_DATA puts the byte it replaces in flight while BUSY = 1. -/
theorem segDataWrite_flying (w : Word) {s : State} (h : s.seg.addr.toNat < Config.segSize) :
    (segDataWrite w s).seg.flying s.seg.addr.toNat =
      if s.busy then s.seg.byte s.seg.addr.toNat :: s.seg.flying s.seg.addr.toNat else s.seg.flying s.seg.addr.toNat := by
  simp only [segDataWrite, if_pos h, Segment.flying]
  split_ifs
  · simp
  · rfl

/-! ### SEG_LEN as BR_SEEK and the reader see it -/

theorem ahead_of_len_le {g : Segment} {b : BitReader} (hmark : b.markerHit = false) (h : g.len.toNat ≤ b.pos.toNat) :
    ahead g b = (b.bits, none) := by
  simp only [ahead, hmark, Bool.false_eq_true, if_false, g.bytesFrom_nil _ h, destuff, List.flatMap_nil, List.append_nil]

/-- BR_SEEK on a settled segment faults past SEG_LEN, and only there. -/
theorem brSeek_faults_iff {s : State} (hlens : s.seg.oldLens = []) (hrun : s.faulted = false) (p : BitVec 24) :
    ∃ t, exec (.brSeek p) s = .next t ∧ (t.faulted = true ↔ s.seg.len.toNat < p.toNat) := by
  have hexec := exec_brSeek p s
  rw [hlens, choose_nil] at hexec
  by_cases hlt : s.seg.len.toNat < p.toNat
  · exact ⟨_, hexec.trans (if_pos hlt), iff_of_true rfl hlt⟩
  · exact ⟨_, hexec.trans (if_neg hlt), iff_of_false (by simp [hrun]) hlt⟩

/-- Settles O54: the register holds the new length, and while BUSY = 0 nothing of the old one is in flight. -/
theorem segLenPort : Obligations.SegLenPort := by
  intro s w
  refine ⟨(segLenWrite w s).seg, hostAccess_segLen s w, segLenWrite_len w s, rfl, fun a => rfl, ?_, ?_⟩
  · rw [hostAccess_read 0x24 (by decide)]
    simp only [BitVec.ofNat_toNat]
    rfl
  · intro hbusy hsettled hrun
    have hlens : (segLenWrite w s).seg.oldLens = [] := by
      simp only [segLenWrite, hbusy, Bool.false_eq_true, if_false]
      exact hsettled.2
    exact ⟨fun p => brSeek_faults_iff (s := { s with seg := (segLenWrite w s).seg }) hlens hrun p, ahead_of_len_le⟩

/-- BR_SEEK against one of the lengths in flight. -/
theorem brSeek_races (p : BitVec 24) (s : State) :
    ∃ n ∈ s.seg.len :: s.seg.oldLens, ∃ d,
      (p.toNat ≤ n.toNat → exec (.brSeek p) s = .next { s with draws := d, br :=
        { pos := BitVec.ofNat 25 p.toNat, bitreg := 0, bitcnt := 0, markerHit := false, marker := 0, padcnt := 0 } }) ∧
      (n.toNat < p.toNat → exec (.brSeek p) s = .next ({ s with draws := d }.halt (Instr.brSeek p).head 13 2 s.br.pos)) :=
  ⟨_, choose_mem s.seg.len s.seg.oldLens s.draws, _,
    fun hle => (exec_brSeek p s).trans (if_neg (Nat.not_lt.2 hle)), fun hlt => (exec_brSeek p s).trans (if_pos hlt)⟩

/-- Settles O59: a read of the byte or of the length is a `raceRead`, and a write puts the old value in flight exactly while
BUSY = 1. -/
theorem segmentRace : Obligations.SegmentRace := by
  refine ⟨fun s w hin => ?_, fun s w => ?_⟩
  · intro a flying seen
    have hbyte : (segDataWrite w s).seg.byte a = field w 0 8 := by
      rw [segDataWrite_seg_byte, if_pos ⟨rfl, hin⟩]
    have hread : readByte (segDataWrite w s).seg a =
        raceRead (field w 0 8) (if s.busy then s.seg.byte a :: s.seg.flying a else s.seg.flying a) := by
      rw [readByte_eq_raceRead, hbyte, segDataWrite_flying w hin]
    refine ⟨(segDataWrite w s).seg, hostAccess_segData s w, fun c v c' h => ?_, fun hbusy c j hj => ?_,
      fun hbusy hsettled c => ?_⟩
    · rw [hread] at h
      exact mem_of_inFlight _ _ (raceRead_mem _ _ h)
    · rw [hread, if_pos hbusy]
      exact raceRead_cons _ _ _ _ _ hj
    · have hnone : s.seg.flying a = [] := by rw [Segment.flying, hsettled.1]; rfl
      rw [hread, if_neg (Bool.eq_false_iff.1 hbusy), hnone, raceRead_nil]
  · have hread : readLen (segLenWrite w s).seg =
        raceRead (segLenWrite w s).seg.len (if s.busy then s.seg.len :: s.seg.oldLens else s.seg.oldLens) := rfl
    refine ⟨(segLenWrite w s).seg, hostAccess_segLen s w, segLenWrite_len w s, ?_⟩
    intro seen
    refine ⟨fun c v c' h => ?_, fun hbusy c j hj => ?_, fun hbusy hsettled c => ?_, fun p => ?_⟩
    · rw [hread] at h
      exact mem_of_inFlight _ _ (raceRead_mem _ _ h)
    · rw [hread, if_pos hbusy]
      exact raceRead_cons _ _ _ _ _ hj
    · rw [hread, if_neg (Bool.eq_false_iff.1 hbusy), hsettled.2, raceRead_nil]
    · obtain ⟨n, hn, d, hseek⟩ := brSeek_races p { s with seg := (segLenWrite w s).seg }
      exact ⟨n, mem_of_inFlight _ _ hn, d, hseek⟩

end Sys2Proof.Machine
end

/-! ## The register window (10_state.md R40-R42, 20_memory.md R65, R69, 47_system.md R342-R344) -/

section
namespace Sys2Proof.Machine

/-! ### CTRL -/

/-- After a soft reset the other two bits find nothing left to clear. -/
theorem ctrlWrite_of_reset {w : Word} (h : w.getLsbD 0 = true) (s : State) : ctrlWrite w s = s.softReset := by
  simp only [ctrlWrite, if_pos h]
  split_ifs <;> rfl

theorem ctrlWrite_of_running {w : Word} (h : w.getLsbD 0 = false) (s : State) :
    ctrlWrite w s = if w.getLsbD 2 then (if w.getLsbD 1 then s.clearFault else s).clearSticky
      else if w.getLsbD 1 then s.clearFault else s := by
  simp only [ctrlWrite, h, Bool.false_eq_true, if_false]

theorem hostAccess_ctrl (s : State) (w : Word) :
    hostAccess ⟨busAddress 0x04, 4, .write w⟩ s = .next (ctrlWrite w s) := hostAccess_write 0x04 (by decide) w s

/-- Settles O55: the three bits in their order. -/
theorem ctrlPort : Obligations.CtrlPort := by
  intro s w
  rw [hostAccess_ctrl]
  refine ⟨fun h0 => ?_, fun h0 h1 h2 => ?_, fun h0 h1 h2 => ?_, fun h0 h1 h2 => ?_, fun h0 h1 h2 => ?_⟩
  · rw [ctrlWrite_of_reset h0]
    rfl
  all_goals
    rw [ctrlWrite_of_running h0, h1, h2]
    rfl

/-! ### STATUS and the interrupt -/

/-- Bit fields of an appended word: what is left of the lower part's bits. -/
theorem toNat_append_div {n m : Nat} (x : BitVec n) (y : BitVec m) {j : Nat} (h : m ≤ j) :
    (x ++ y).toNat / 2 ^ j = x.toNat / 2 ^ (j - m) := by
  have hsplit : 2 ^ j = 2 ^ m * 2 ^ (j - m) := by rw [← pow_add, Nat.add_sub_cancel' h]
  rw [toNat_append_add, hsplit, ← Nat.div_div_eq_div_mul, Nat.mul_comm, Nat.mul_add_div (Nat.two_pow_pos m),
    Nat.div_eq_of_lt y.isLt, Nat.add_zero]

section
variable (s : State) (markerHit padActive : Bool)

/-- STATUS bit by bit below the counts (10_state.md R41). -/
theorem statusWith_flags :
    let v := s.statusWith markerHit padActive
    v.getLsbD 0 = s.busy ∧ v.getLsbD 1 = s.faulted ∧ v.getLsbD 2 = markerHit ∧ v.getLsbD 3 = padActive ∧
      v.getLsbD 4 = s.cmdFull ∧ v.getLsbD 5 = s.resAvail ∧ v.getLsbD 6 = s.outAvail ∧ v.getLsbD 7 = s.irq ∧
      v.getLsbD 8 = s.cmdOverrun ∧ v.getLsbD 9 = s.resUnderflow ∧ v.getLsbD 10 = s.outUnderflow := by
  intro v
  simp only [v, State.statusWith, BitVec.getLsbD_append]
  simp

theorem statusWith_zeros {k : Nat} (hlo : 11 ≤ k) (hhi : k ≤ 15) :
    (s.statusWith markerHit padActive).getLsbD k = false := by
  simp only [State.statusWith, BitVec.getLsbD_append]
  interval_cases k <;> simp

/-- RES_COUNT and OUT_WORDS (10_state.md R41). -/
theorem statusWith_counts :
    (s.statusWith markerHit padActive).toNat / 2 ^ 16 % 256 = min 255 s.resq.length ∧
      (s.statusWith markerHit padActive).toNat / 2 ^ 24 = min 255 s.outq.length := by
  constructor
  · simp (disch := decide) only [State.statusWith, toNat_append_div, Nat.reduceSub]
    simp only [toNat_append_add, BitVec.toNat_ofNat]
    omega
  · simp (disch := decide) only [State.statusWith, toNat_append_div, Nat.reduceSub]
    simp only [BitVec.toNat_ofNat]
    omega

end

/-- A read of STATUS: bits 2 and 3 are draws only while BUSY = 1 (10_state.md R42). -/
theorem statusRead_eq (s : State) :
    ∃ markerHit padActive d, statusRead s = (s.statusWith markerHit padActive, { s with draws := d }) ∧
      (s.busy = false → markerHit = s.br.markerHit ∧ padActive = decide (0 < s.br.padcnt.toNat) ∧ d = s.draws) := by
  rw [statusRead]
  split_ifs with hbusy
  · exact ⟨_, _, _, rfl, fun hidle => absurd hbusy (Bool.eq_false_iff.1 hidle)⟩
  · exact ⟨_, _, _, rfl, fun _ => ⟨rfl, rfl, rfl⟩⟩

theorem isEmpty_eq_decide {α : Type} [DecidableEq α] (l : List α) : l.isEmpty = decide (l = []) := by
  cases l <;> rfl

/-- Settles O56: STATUS field by field. -/
theorem statusAndIrq : Obligations.StatusAndIrq := by
  intro s w
  refine ⟨?_, ?_, ?_⟩
  · obtain ⟨m, p, d, hread, hidle⟩ := statusRead_eq s
    obtain ⟨hbusy, hfault, hmark, hpad, hfull, hres, hout, hirq, hover, hresU, houtU⟩ := statusWith_flags s m p
    obtain ⟨hresN, houtN⟩ := statusWith_counts s m p
    refine ⟨s.statusWith m p, d, ?_, ?_, hfault, fun h => ?_, fun hlen => ?_, ?_, ?_, ?_, hover, hresU, houtU,
      fun k hlo hhi => statusWith_zeros s m p hlo hhi, hresN, houtN⟩
    · rw [hostAccess_read 0x08 (by decide)]
      change Host.Outcome.next { (statusRead s).2 with busData := (statusRead s).1 } = _
      rw [hread]
    · rw [hbusy, State.busy, isEmpty_eq_decide, ← decide_not]
    · obtain ⟨hm, hp, hd⟩ := hidle h
      exact ⟨hmark.trans hm, hpad.trans hp, hd⟩
    · rw [hfull, Bool.eq_iff_iff, cmdFull_iff, decide_eq_true_iff]
      omega
    · rw [hres, State.resAvail, isEmpty_eq_decide, ← decide_not]
    · rw [hout, State.outAvail, isEmpty_eq_decide, ← decide_not]
    · rw [hirq]
      simp only [State.irq, State.resAvail, State.outAvail, State.idle, isEmpty_eq_decide, ← decide_not]
  · have hfield : field w 0 4 = BitVec.ofNat 4 w.toNat := BitVec.eq_of_toNat_eq (by simp [field])
    rw [← hfield]
    exact hostAccess_write 0x0C (by decide) w s
  · rw [BitVec.ofNat_toNat]
    exact hostAccess_read 0x0C (by decide) s

/-! ### The read-only registers -/

/-- A register that reads `w` and leaves the state. -/
theorem hostAccess_read_of_eq {off : Byte} (haligned : off.toNat % 4 = 0) {s : State} {w : Word}
    (h : hostRead (Reg.ofOffset off) s = (w, s)) :
    hostAccess ⟨busAddress off, 4, .read⟩ s = .next { s with busData := w } := by
  rw [hostAccess_read off haligned, h]

/-- A datapath register is stable while BUSY = 0 (10_state.md R42). -/
theorem stableRead_of_idle {s : State} (h : s.busy = false) (w : Word) : stableRead s w = (w, s) :=
  if_neg (Bool.eq_false_iff.1 h)

/-- BR_STATE field by field (10_state.md R40). -/
theorem brState_fields (s : State) (h : s.br.bitcnt < 64) :
    s.brState.toNat % 64 = s.br.bitcnt ∧ s.brState.toNat / 64 % 4 = 0 ∧
      s.brState.toNat / 2 ^ 8 % 256 = s.br.marker.toNat ∧ s.brState.getLsbD 16 = s.br.markerHit ∧
      s.brState.toNat / 2 ^ 17 % 128 = 0 ∧ s.brState.toNat / 2 ^ 24 = s.br.padcnt.toNat := by
  have hmarker := s.br.marker.isLt
  have hhit := (BitVec.ofBool s.br.markerHit).isLt
  refine ⟨?_, ?_, ?_, ?_, ?_, ?_⟩
  case refine_4 =>
    simp only [State.brState, BitVec.getLsbD_append]
    simp
  all_goals
    simp only [State.brState, toNat_append_add, BitVec.toNat_ofNat]
    omega

theorem tblValid_lt (s : State) : s.tblValid.toNat < 2 ^ 16 := by
  have hzero : s.tblValid.toNat / 2 ^ 16 = 0 := by
    simp (disch := decide) only [State.tblValid, toNat_append_div, Nat.reduceSub]
    rfl
  omega

/-- Settles O57: offset by offset; the datapath registers are stable because BUSY = 0. -/
theorem registersReadBack : Obligations.RegistersReadBack := by
  intro s hidle reads
  have hstable {off : Byte} (w : Word) (haligned : off.toNat % 4 = 0)
      (h : hostRead (Reg.ofOffset off) s = stableRead s w) : reads off w :=
    hostAccess_read_of_eq haligned (h.trans (stableRead_of_idle hidle w))
  have hseg : s.seg.addr.setWidth 32 = 0#8 ++ s.seg.addr := BitVec.setWidth_eq_append (by decide)
  have hpos : s.br.pos.setWidth 32 = 0#7 ++ s.br.pos := BitVec.setWidth_eq_append (by decide)
  have hcode : s.faultCode.setWidth 32 = 0#24 ++ s.faultCode := BitVec.setWidth_eq_append (by decide)
  have hfpos : s.faultPos.setWidth 32 = 0#7 ++ s.faultPos := BitVec.setWidth_eq_append (by decide)
  have hconfig : s.config.setWidth 32 = 0#28 ++ s.config := BitVec.setWidth_eq_append (by decide)
  have hrst : s.rstint.setWidth 32 = 0#16 ++ s.rstint := BitVec.setWidth_eq_append (by decide)
  refine ⟨hostAccess_read_of_eq (by decide) rfl, hostAccess_read_of_eq (by decide) rfl,
    hseg ▸ hostAccess_read_of_eq (by decide) rfl, hpos ▸ hstable _ (by decide) rfl, fun hok => ?_,
    hstable _ (by decide) rfl, hcode ▸ hstable _ (by decide) rfl, hstable _ (by decide) rfl, hstable _ (by decide) rfl,
    hfpos ▸ hstable _ (by decide) rfl, hconfig ▸ hostAccess_read_of_eq (by decide) rfl,
    hrst ▸ hostAccess_read_of_eq (by decide) rfl, ⟨s.tblValid, hostAccess_read_of_eq (by decide) rfl, tblValid_lt s,
    tblValid_getLsbD s⟩, hstable _ (by decide) rfl, hstable _ (by decide) rfl, hstable _ (by decide) rfl,
    hstable _ (by decide) rfl⟩
  have hcnt : s.br.bitcnt ≤ 23 := hok.1
  exact ⟨s.brState, hstable _ (by decide) rfl, brState_fields s (by omega)⟩

/-! ### The window -/

theorem Reg.ofOffset_of_high : ∀ {off : Byte}, 0x60 ≤ off.toNat → Reg.ofOffset off = .reserved := by decide

theorem Reg.ofOffset_ignored : ∀ {off : Byte}, off ∉ [0x04#8, 0x0C, 0x10, 0x1C, 0x20, 0x24] →
    Reg.ofOffset off ∉ [Reg.ctrl, .irqEn, .cmd, .segAddr, .segData, .segLen] := by decide

/-- Every read but those of the two POP ports changes at most the model's draw counter (20_memory.md R69). -/
theorem hostRead_of_not_pop {r : Reg} (hres : r ≠ .result) (hout : r ≠ .out) (s : State) :
    ∃ d, (hostRead r s).2 = { s with draws := d } := by
  obtain ⟨q, o, ru, ou, d, hread, hq, ho, hru, hou⟩ := hostRead_frame r s
  obtain rfl := hq.resolve_right fun h => hres h.1
  obtain rfl := ho.resolve_right fun h => hout h.1
  obtain rfl := hru.resolve_right fun h => hres h.1
  obtain rfl := hou.resolve_right fun h => hout h.1
  exact ⟨d, hread⟩

/-- A write of any register but the six writable ones is ignored. -/
theorem hostWrite_ignored {r : Reg} (h : r ∉ [Reg.ctrl, .irqEn, .cmd, .segAddr, .segData, .segLen]) (w : Word) (s : State) :
    hostWrite r w s = s := by
  cases r with
  | ctrl | irqEn | cmd | segAddr | segData | segLen => exact absurd h (by decide)
  | _ => rfl

theorem hostAccess_refused (off : Byte) {bytes : Nat} (h : bytes ≠ 4 ∨ off.toNat % 4 ≠ 0) (dir : HostDir) (s : State) :
    hostAccess ⟨busAddress off, bytes, dir⟩ s = .refused .hostAccess := by
  simp only [hostAccess, windowOffset_busAddress, windowAccess]
  exact if_pos h

theorem hostAccess_outside {a : HostAccess} (h : a.addr < Config.coreBase ∨ Config.coreBase + 256 ≤ a.addr) (s : State) :
    hostAccess a s = .next s := by
  simp only [hostAccess, windowOffset_none.2 h]

/-- Settles O58: the rules of the window, by the register that each offset names. -/
theorem windowRules : Obligations.WindowRules := by
  intro s off w
  refine ⟨fun bytes dir h => hostAccess_refused off h dir s, fun haligned => ⟨fun hres hout => ?_, fun hoff => ?_⟩, ?_,
    fun a h => hostAccess_outside h s⟩
  · by_cases hhigh : 0x60 ≤ off.toNat
    · refine ⟨0, s.draws, hostAccess_read_of_eq haligned ?_, fun _ => ⟨rfl, rfl⟩⟩
      rw [Reg.ofOffset_of_high hhigh]
      rfl
    · obtain ⟨d, hread⟩ := hostRead_of_not_pop (mt Reg.ofOffset_result hres) (mt Reg.ofOffset_out hout) s
      refine ⟨(hostRead (Reg.ofOffset off) s).1, d, ?_, fun h => absurd h hhigh⟩
      rw [hostAccess_read off haligned, hread]
  · rw [hostAccess_write off haligned, hostWrite_ignored (Reg.ofOffset_ignored hoff)]
  · have hfield : field w 0 24 = BitVec.ofNat 24 w.toNat := BitVec.eq_of_toNat_eq (by simp [field])
    rw [← hfield]
    exact hostAccess_write 0x1C (by decide) w s

end Sys2Proof.Machine
end
